-- ==== Sys2Proof/Word.lean ====
section
/-!
DEFINITION. Word.lean: the word type of the part's wires and its plainest arithmetic.

The FTD-8 is a block, not a processor: bytes travel on its links (R175), and almost every other quantity of the manual
is a count, an instant or a name.  Counts and instants are `Nat` or `Int` with explicit bounds; only what the manual
treats as bits (bytes on a wire, check registers, session codes and masks, a nonce) is a bit vector.  A VT instant, as
captured, recorded and compared, is a count of whole nanoseconds since the venue epoch (the fraction dropped, R1): seconds
and nanoseconds are its quotient and remainder by 1,000,000,000.
-/
namespace Sys2Proof

/-- One byte on a wire. -/
abbrev Byte := BitVec 8

/-- A 16-bit word: session, filter code, filter mask, the frame check. -/
abbrev Word16 := BitVec 16

/-- A journal chain value (R112). -/
abbrev Chain := BitVec 32

/-- A nonce or a draw check (R92, R182). -/
abbrev Word64 := BitVec 64

/-- Nanoseconds in a second. -/
abbrev nsPerSecond : Nat := 1000000000

end Sys2Proof
end

