-- ==== Sys2Proof/Syntax.lean ====
section
/-!
DEFINITION. Syntax.lean: the commands of the part, one constructor of `Instr` for every row of spec/opcode_table.json, and the
data their operands are made of.

A command is either a request that reaches the part whole on the host link, or an event at one of the part's other
boundaries (a supply or reset pin, a reference input, a tag lane, the peer bus, the journal store) or an instant its own
timers reach.  Operands carry only what the outside decides; everything else an event needs is read from the state.
Numbers a request carries are `Nat`, so that the owner can judge a value out of range (R164); `WellFormed` says which
of them fit their wire widths (R180).
-/
namespace Sys2Proof

/-- The clock limits, in the order of R18. -/
structure ClockLimits where
  tracking       : Nat
  tight          : Nat
  traceability   : Nat
  baseU          : Nat
  unaidedRate    : Nat
  aidedRate      : Nat
  tau            : Nat
  slewLimit      : Nat
  stepThreshold  : Nat
  lockCount      : Nat
  unlockCount    : Nat
  summaryInterval : Nat
deriving DecidableEq, Repr

/-- The Configure Reference request's fields as received (R38). -/
structure RefArgs where
  ref        : Nat
  polarity   : Nat
  profiles   : Nat
  bandClass  : Nat
  lockValue  : Nat
  unlockValue : Nat
  priority   : Nat
  labelUse   : Nat
deriving DecidableEq, Repr

/-- A civil time as a request carries it (R175). -/
structure CivilArgs where
  year  : Nat
  month : Nat
  day   : Nat
  hour  : Nat
  minute : Nat
  second : Nat
  milli : Nat
deriving DecidableEq, Repr

/-- The Arm Auction request's fields as received (R88). -/
structure ArmArgs where
  group        : Nat
  callStart    : CivilArgs
  windowStart  : CivilArgs
  windowLength : Nat
  extLength    : Nat
  maxExt       : Nat
  deferLimit   : Nat
deriving DecidableEq, Repr

/-- The Configure Agent request's fields as received (R153); binding 255 means none. -/
structure AgentArgs where
  agent    : Nat
  address  : Nat
  periodMs : Nat
  busClock : Nat
  latency  : Nat
  limit    : Nat
  binding  : Nat
deriving DecidableEq, Repr

/-- A label frame begun at an input and cut short: its bytes from the sync on (R178). -/
structure CutLabel where
  ref   : Fin 2
  bytes : List Byte
deriving DecidableEq, Repr

/-- How the bytes of a tag frame came to an end on the lane (R44); a start delimiter that ends it is a command of its own. -/
inductive FrameEnding where
  /-- the end delimiter -/
  | endDelimiter
  /-- a symbol that is neither a data byte nor a delimiter nor idle: the FRAMING cause -/
  | unresolved
  /-- idle -/
  | idle
  /-- a data byte where the end delimiter was due -/
  | extraByte
deriving DecidableEq, Repr

/-- How a mark phase ended on the bus (R140). -/
inductive MarkOutcome where
  | addressNack | dataNack | acknowledged
deriving DecidableEq, Repr

/-- How a read phase ended on the bus (R142). -/
inductive ReadOutcome where
  | addressNack
  /-- the sixteen bytes the agent returned, in order -/
  | reading (bytes : List Byte)
deriving DecidableEq, Repr

/-- A request of the host link, with the fields its body carries (R180). -/
inductive Request where
  | identify
  | restart
  | fetchNotices (count : Nat)
  | setClockLimits (limits : ClockLimits)
  | readClock
  | announceLeap (value : Nat)
  | configureReference (args : RefArgs)
  | enableReference (ref : Nat)
  | disableReference (ref : Nat)
  | readReference (ref : Nat)
  | holdLine (line : Nat)
  | configureLine (line mode delay : Nat)
  | setFilter (line index enabled code mask : Nat)
  | releaseLine (line : Nat)
  | reconnectLine (line : Nat)
  | readLine (line : Nat)
  | openStamping
  | readIssuer
  | armAuction (args : ArmArgs)
  | extendAuction (group : Nat)
  | cutNow (group : Nat)
  | cancelAuction (group : Nat)
  | clearAuction (group : Nat)
  | readAuction (group : Nat)
  | readJournal
  | readRecords (serial slot count : Nat)
  | closePage
  | confirmExport (serial chain : Nat) (retention : Option Nat)
  | releasePage (serial : Nat)
  | annotate (data : List Byte)
  | configureAgent (args : AgentArgs)
  | enableAgent (agent : Nat)
  | disableAgent (agent : Nat)
  | resumeSurvey
  | readAgent (agent : Nat)
deriving DecidableEq, Repr

/-- The commands of the part: one constructor per row of spec/opcode_table.json. -/
inductive Instr where
  /-- POWER_UP (R173): the supply rises into its range; the straps stand at the given levels. -/
  | powerUp (hrate0 hrate1 : Bool)
  /-- RESET_ASSERT (R173): the RESET pin has been held low for `lowNs` ns. -/
  | resetAssert (lowNs : Nat)
  /-- RESET_RELEASE (R173): the RESET pin is released; the straps stand at the given levels. -/
  | resetRelease (hrate0 hrate1 : Bool)
  /-- RECOVERY_END (R130). -/
  | recoveryEnd
  /-- HOST_BYTE_RECEIVED (R160): a byte on HRX; `stopLow` says its stop bit was received low (R159). -/
  | hostByteReceived (value : Byte) (stopLow : Bool)
  /-- BYTE_TIMEOUT (R161). -/
  | byteTimeout
  /-- RECEIVED_REQUEST (R163): a sound request frame, taken whole. -/
  | receivedRequest (kind tag : Byte) (body : List Byte)
  /-- REPLY_SENT (R165): the last check byte of the head reply has been sent; the straps stand at the given levels. -/
  | replySent (hrate0 hrate1 : Bool)
  /-- IDENTIFY (R171). -/
  | identify (tag : Byte)
  /-- RESTART (R172). -/
  | restart (tag : Byte)
  /-- FETCH_NOTICES (R170). -/
  | fetchNotices (tag : Byte) (count : Nat)
  /-- SET_CLOCK_LIMITS (R18). -/
  | setClockLimits (tag : Byte) (limits : ClockLimits)
  /-- READ_CLOCK (R19). -/
  | readClock (tag : Byte)
  /-- ANNOUNCE_LEAP (R20): none 0, insert 1, delete 2. -/
  | announceLeap (tag : Byte) (value : Nat)
  /-- CONFIGURE_REFERENCE (R38). -/
  | configureReference (tag : Byte) (args : RefArgs)
  /-- ENABLE_REFERENCE (R39). -/
  | enableReference (tag : Byte) (ref : Nat)
  /-- DISABLE_REFERENCE (R40). -/
  | disableReference (tag : Byte) (ref : Nat)
  /-- READ_REFERENCE (R41). -/
  | readReference (tag : Byte) (ref : Nat)
  /-- HOLD_LINE (R50). -/
  | holdLine (tag : Byte) (line : Nat)
  /-- CONFIGURE_LINE (R58): mode ALL 0 or LISTED 1. -/
  | configureLine (tag : Byte) (line mode delay : Nat)
  /-- SET_FILTER (R58). -/
  | setFilter (tag : Byte) (line index enabled code mask : Nat)
  /-- RELEASE_LINE (R59). -/
  | releaseLine (tag : Byte) (line : Nat)
  /-- RECONNECT_LINE (R60). -/
  | reconnectLine (tag : Byte) (line : Nat)
  /-- READ_LINE (R64). -/
  | readLine (tag : Byte) (line : Nat)
  /-- OPEN_STAMPING (R80). -/
  | openStamping (tag : Byte)
  /-- READ_ISSUER (R81). -/
  | readIssuer (tag : Byte)
  /-- ARM_AUCTION (R88, R89). -/
  | armAuction (tag : Byte) (args : ArmArgs)
  /-- EXTEND_AUCTION (R101). -/
  | extendAuction (tag : Byte) (group : Nat)
  /-- CUT_NOW (R97). -/
  | cutNow (tag : Byte) (group : Nat)
  /-- CANCEL_AUCTION (R104). -/
  | cancelAuction (tag : Byte) (group : Nat)
  /-- CLEAR_AUCTION (R105). -/
  | clearAuction (tag : Byte) (group : Nat)
  /-- READ_AUCTION (R107). -/
  | readAuction (tag : Byte) (group : Nat)
  /-- READ_JOURNAL (R124). -/
  | readJournal (tag : Byte)
  /-- READ_RECORDS (R123). -/
  | readRecords (tag : Byte) (serial slot count : Nat)
  /-- CLOSE_PAGE (R121). -/
  | closePage (tag : Byte)
  /-- CONFIRM_EXPORT (R125); `none` is a request without a retention. -/
  | confirmExport (tag : Byte) (serial chain : Nat) (retention : Option Nat)
  /-- RELEASE_PAGE (R126). -/
  | releasePage (tag : Byte) (serial : Nat)
  /-- ANNOTATE (R128). -/
  | annotate (tag : Byte) (data : List Byte)
  /-- CONFIGURE_AGENT (R153). -/
  | configureAgent (tag : Byte) (args : AgentArgs)
  /-- ENABLE_AGENT (R154). -/
  | enableAgent (tag : Byte) (agent : Nat)
  /-- DISABLE_AGENT (R155). -/
  | disableAgent (tag : Byte) (agent : Nat)
  /-- RESUME_SURVEY (R156). -/
  | resumeSurvey (tag : Byte)
  /-- READ_AGENT (R157). -/
  | readAgent (tag : Byte) (agent : Nat)
  /-- SECOND_BOUNDARY (R10). -/
  | secondBoundary
  /-- CLOCK_SUMMARY (R17). -/
  | clockSummary
  /-- LEAP_LATCH (R14). -/
  | leapLatch
  /-- LEAP_APPLICATION (R15). -/
  | leapApplication
  /-- CIVIL_MIDNIGHT (R14). -/
  | civilMidnight
  /-- PULSE_EDGE (R22): an edge at a reference's pulse input, `eighth` eighths of a period after the last count. -/
  | pulseEdge (ref : Fin 3) (rising : Bool) (eighth : Fin 8)
  /-- EDGE_JUDGED (R35). -/
  | edgeJudged (ref : Fin 3)
  /-- OVERRUN (R22). -/
  | overrun (ref : Fin 3)
  /-- MISSING_PULSE (R24). -/
  | missingPulse (ref : Fin 3)
  /-- LABEL_FRAME (R25, R178): a label frame, its bytes from the sync on; `stopLow` says the last one had a low stop bit. -/
  | labelFrame (ref : Fin 2) (bytes : List Byte) (stopLow : Bool)
  /-- LABEL_TIMEOUT (R178): the frame it cuts short. -/
  | labelTimeout (cut : CutLabel)
  /-- TAG_START_DELIMITER (R43): with the data bytes of the frame it ends, where one is open (R44). -/
  | tagStartDelimiter (line : Fin 8) (bytes : List Byte)
  /-- TAG_FRAME_END (R44): the data bytes of the frame and how it ended. -/
  | tagFrameEnd (line : Fin 8) (bytes : List Byte) (ending : FrameEnding)
  /-- RETURN_FRAME_END (R61). -/
  | returnFrameEnd (line : Fin 8)
  /-- PAUSE_ASSERT (R63). -/
  | pauseAssert (line : Fin 8)
  /-- PAUSE_DEASSERT (R63). -/
  | pauseDeassert (line : Fin 8)
  /-- DRAIN_TIMEOUT (R52). -/
  | drainTimeout (line : Fin 8)
  /-- GRANT (R72). -/
  | grant
  /-- CALL_START (R91). -/
  | callStart (group : Fin 32)
  /-- WINDOW_START (R92). -/
  | windowStart (group : Fin 32)
  /-- END (R94). -/
  | endExpiry (group : Fin 32)
  /-- DEFER_LIMIT (R96). -/
  | deferLimit (group : Fin 32)
  /-- SETTLE (R99). -/
  | settle (group : Fin 32)
  /-- WRITE_VERIFIED (R116). -/
  | writeVerified
  /-- WRITE_FAILED (R118). -/
  | writeFailed
  /-- PAGE_OPEN_FAILED (R119). -/
  | pageOpenFailed
  /-- ERASE_END (R127): the slots the blank check found not blank (none of them: the page is blank). -/
  | eraseEnd (notBlank : List (Fin 128))
  /-- AGENT_DUE (R138). -/
  | agentDue (agent : Fin 8)
  /-- MARK_PHASE_END (R140). -/
  | markPhaseEnd (outcome : MarkOutcome)
  /-- GAP_END (R141). -/
  | gapEnd
  /-- READ_PHASE_END (R142). -/
  | readPhaseEnd (outcome : ReadOutcome)
  /-- ARBITRATION_LOST (R144). -/
  | arbitrationLost
  /-- BUS_ERROR (R145): `isStart` tells a start condition from a stop condition. -/
  | busError (isStart : Bool)
  /-- CLOCK_LOW_TIMEOUT (R143): `dataHigh` is the data line once the part has released it. -/
  | clockLowTimeout (dataHigh : Bool)
  /-- START_CONDITION_SEEN (R134): a start condition, or a low line not driven by the part; the lines' levels after it. -/
  | startConditionSeen (clockHigh dataHigh : Bool)
  /-- STOP_CONDITION_SEEN (R134). -/
  | stopConditionSeen
  /-- BUS_TIMER_EXPIRY (R134). -/
  | busTimerExpiry
  /-- CLEARING_STOP_SENT (R135). -/
  | clearingStopSent
  /-- STALE (R151). -/
  | stale (agent : Fin 8)
  /-- SUPPLY_LOSS (R173). -/
  | supplyLoss
  /-- BUS_LINE_CHANGE (R134): the lines' levels after the change. -/
  | busLineChange (clockHigh dataHigh : Bool)
  /-- NINTH_CLEARING_PULSE (R135). -/
  | ninthClearingPulse
deriving DecidableEq, Repr

/-- The request a request command carries, with its tag; none for every other command. -/
def Instr.request? : Instr → Option (Byte × Request)
  | .identify t => some (t, .identify)
  | .restart t => some (t, .restart)
  | .fetchNotices t n => some (t, .fetchNotices n)
  | .setClockLimits t l => some (t, .setClockLimits l)
  | .readClock t => some (t, .readClock)
  | .announceLeap t v => some (t, .announceLeap v)
  | .configureReference t a => some (t, .configureReference a)
  | .enableReference t r => some (t, .enableReference r)
  | .disableReference t r => some (t, .disableReference r)
  | .readReference t r => some (t, .readReference r)
  | .holdLine t l => some (t, .holdLine l)
  | .configureLine t l m d => some (t, .configureLine l m d)
  | .setFilter t l i e c m => some (t, .setFilter l i e c m)
  | .releaseLine t l => some (t, .releaseLine l)
  | .reconnectLine t l => some (t, .reconnectLine l)
  | .readLine t l => some (t, .readLine l)
  | .openStamping t => some (t, .openStamping)
  | .readIssuer t => some (t, .readIssuer)
  | .armAuction t a => some (t, .armAuction a)
  | .extendAuction t g => some (t, .extendAuction g)
  | .cutNow t g => some (t, .cutNow g)
  | .cancelAuction t g => some (t, .cancelAuction g)
  | .clearAuction t g => some (t, .clearAuction g)
  | .readAuction t g => some (t, .readAuction g)
  | .readJournal t => some (t, .readJournal)
  | .readRecords t p i n => some (t, .readRecords p i n)
  | .closePage t => some (t, .closePage)
  | .confirmExport t p c r => some (t, .confirmExport p c r)
  | .releasePage t p => some (t, .releasePage p)
  | .annotate t d => some (t, .annotate d)
  | .configureAgent t a => some (t, .configureAgent a)
  | .enableAgent t a => some (t, .enableAgent a)
  | .disableAgent t a => some (t, .disableAgent a)
  | .resumeSurvey t => some (t, .resumeSurvey)
  | .readAgent t a => some (t, .readAgent a)
  | .powerUp _ _ => none
  | .resetAssert _ => none
  | .resetRelease _ _ => none
  | .recoveryEnd => none
  | .hostByteReceived _ _ => none
  | .byteTimeout => none
  | .receivedRequest _ _ _ => none
  | .replySent _ _ => none
  | .secondBoundary => none
  | .clockSummary => none
  | .leapLatch => none
  | .leapApplication => none
  | .civilMidnight => none
  | .pulseEdge _ _ _ => none
  | .edgeJudged _ => none
  | .overrun _ => none
  | .missingPulse _ => none
  | .labelFrame _ _ _ => none
  | .labelTimeout _ => none
  | .tagStartDelimiter _ _ => none
  | .tagFrameEnd _ _ _ => none
  | .returnFrameEnd _ => none
  | .pauseAssert _ => none
  | .pauseDeassert _ => none
  | .drainTimeout _ => none
  | .grant => none
  | .callStart _ => none
  | .windowStart _ => none
  | .endExpiry _ => none
  | .deferLimit _ => none
  | .settle _ => none
  | .writeVerified => none
  | .writeFailed => none
  | .pageOpenFailed => none
  | .eraseEnd _ => none
  | .agentDue _ => none
  | .markPhaseEnd _ => none
  | .gapEnd => none
  | .readPhaseEnd _ => none
  | .arbitrationLost => none
  | .busError _ => none
  | .clockLowTimeout _ => none
  | .startConditionSeen _ _ => none
  | .stopConditionSeen => none
  | .busTimerExpiry => none
  | .clearingStopSent => none
  | .stale _ => none
  | .supplyLoss => none
  | .busLineChange _ _ => none
  | .ninthClearingPulse => none

end Sys2Proof
end

