-- ==== Sys2Proof/Decode.lean ====
section
/-!
DEFINITION. Decode.lean: the commands that words spell by the opcode table's bits.  The table gives bits to none of its 85 rows: a
command of the part is a pin, a lane, a bus condition, an instant or a request whose bytes arrive on the host link, and the
bytes of requests are read in Machine/Operands.lean (R180).
-/
namespace Sys2Proof

/-- The command a word spells by the table's bits: none, for every word. -/
def decodeTableWord (_nbits _w : Nat) : Option Instr := none

end Sys2Proof
end

