-- ==== Sys2Proof/Config.lean ====
section
/-!
DEFINITION. Config.lean: what the manual fixes for the part (capacities, limits of timers on the local oscillator) and the
free values it leaves open.  A free value is an opaque constant: nothing can be proved about which value it has.
-/
namespace Sys2Proof.Config

/-- Periods of the nominal 125 MHz oscillator in one microsecond. -/
abbrev countsPerMicro : Nat := 125

/-- The hold drain limit, 10 ms (R52). -/
abbrev drainLimit : Nat := 1250000

/-- The bus limits of 25 ms (R134). -/
abbrev busLimit : Nat := 3125000

/-- The gap of a poll, 1 ms (R141). -/
abbrev gapCounts : Nat := 125000

/-- The inter-byte limit of the receive framer, 1 ms (R161). -/
abbrev byteLimit : Nat := 125000

/-- The time within which a captured edge is judged, 1 µs, in eighths of an oscillator period (R22). -/
abbrev judgeLimit : Nat := 1000

/-- The mark command byte of a poll (R179). -/
abbrev markCommand : Byte := 0x6D#8

/-- The spacing of grants, 16 ns: two nominal oscillator periods (R72, log entry 7). -/
abbrev grantSpacing : Nat := 2

/-- The greatest uncertainty the part holds (R9). -/
abbrev maxU : Nat := 16777215

/-- The bound of a rate or frequency, in parts in 10^12 (R1). -/
abbrev maxRate : Nat := 100000000

/-- The last sequence of an epoch, 2^48 - 1 (R69). -/
abbrev lastSequence : Nat := 281474976710655

/-- The greatest value of a 32-bit counter. -/
abbrev max32 : Nat := 4294967295

/-- The arming index reported for an AUCTION_ARM record that was lost (R118), and the written form of no index (R175). -/
abbrev noIndex : Nat := 18446744073709551615

/-- Wrap of the oscillator phase counter, 2^48 eighths (R22). -/
abbrev phaseWrap : Nat := 281474976710656

/-- VT instants lie below 2^40 s (the TSU's state table). -/
abbrev vtSpan : Nat := 1099511627776 * 1000000000

/-- Slots of the intake (R113). -/
abbrev intakeSlots : Nat := 32

/-- Intake slots open to non-critical records (R113). -/
abbrev intakeOpenSlots : Nat := 24

/-- Notices the notice queue holds (R167). -/
abbrev noticeSlots : Nat := 64

/-- Replies the reply queue holds (R162). -/
abbrev replySlots : Nat := 8

/-- Answers a return queue holds (R53). -/
abbrev returnSlots : Nat := 16

/-- FREE VALUE. The whole number the draw source gives at its `n`-th draw, before reduction to the window (R92; log 3). -/
opaque drawOffset : Nat → Nat

/-- FREE VALUE. The nonce the draw source gives at its `n`-th draw (R92; log 3). -/
opaque drawNonce : Nat → Word64

/-- FREE VALUE. What an interrupted journal write left in its slot at the `n`-th restart: 0 a whole sound record, 1 a torn
tail, anything else a slot still blank (R116, R129, R133; log 4). -/
opaque interruptedWrite : Nat → Nat

/-- FREE VALUE. A VT computed outside the 40-bit seconds of the timescale, where the manual states no result (log 5). -/
opaque vtBeyondRange : Int → Nat

/-- FREE VALUE. A counter the manual bounds without saying what follows its last value; the first argument tells the
counters apart, the second is the value that would pass the bound (log 6). -/
opaque beyondRange : Nat → Nat → Nat

end Sys2Proof.Config
end

