-- ==== Sys2Proof/Machine/Arith.lean ====
section
/-!
DEFINITION. Machine/Arith.lean: the part's exact arithmetic: rounding, holding a value within a range, counters, VT wrap, and
the one cyclic redundancy check behind every check of the part (R175).
-/
namespace Sys2Proof.Machine

/-- The whole number nearest to `n / d`, halves away from zero (R1, R4, R31). -/
def divRound (n : Int) (d : Nat) : Int :=
  if 0 ≤ n then (2 * n + d) / (2 * d) else -((2 * -n + d) / (2 * d))

/-- `x` held within `lo` to `hi`. -/
def clampInt (lo hi x : Int) : Int := max lo (min hi x)

/-- A rate or frequency held within the range of R1. -/
def clampRate (x : Int) : Int := clampInt (-(Config.maxRate : Int)) Config.maxRate x

/-- A counter that stops at `limit`. -/
def satSucc (limit n : Nat) : Nat := if n < limit then n + 1 else n

/-- A 32-bit counter that stops at its greatest value. -/
def sat32 (n : Nat) : Nat := satSucc Config.max32 n

/-- The successor of a counter the manual bounds by `limit` without saying what follows (log 6): a free value there, within
the bound. -/
def freeSucc (which limit n : Nat) : Nat :=
  if n < limit then n + 1 else Config.beyondRange which n % (limit + 1)

/-- The sum of two such counters (log 6). -/
def freeSum (which limit a b : Nat) : Nat :=
  if a + b ≤ limit then a + b else Config.beyondRange which (a + b) % (limit + 1)

/-- An instant computed exactly, as a VT: itself inside the timescale, a free value outside it (log 5). -/
def vtOfInt (x : Int) : Nat :=
  if 0 ≤ x ∧ x < (Config.vtSpan : Int) then x.toNat else Config.vtBeyondRange x % Config.vtSpan

/-- An interval of `n` eighths of the oscillator corrected by the frequency `f`, in whole ns (R23). -/
def correctedNs (n : Int) (f : Int) : Int := divRound (n * (1000000000000 + f)) 1000000000000

/-- The difference of two oscillator phases, from `a` to `b`, modulo the wrap of the phase counter (R22). -/
def phaseSince (a b : Nat) : Nat := (b + Config.phaseWrap - a % Config.phaseWrap) % Config.phaseWrap

/-- The phase passed from an instant to the present count of the oscillator.  An edge is captured to the eighth, so its phase may
lie up to seven eighths ahead of the count it was captured in: then nothing has passed since (R22, R24). -/
def phasePassed (a now : Nat) : Nat :=
  let n := phaseSince a now
  if Config.phaseWrap - 8 < n then 0 else n

/-- The difference of two oscillator phases as a signed number of eighths. -/
def phaseDiff (a b : Nat) : Int :=
  let d := phaseSince b a
  if d < Config.phaseWrap / 2 then (d : Int) else (d : Int) - Config.phaseWrap

/-! ## Checks (R175) -/

/-- One message bit into a check register of width `w`. -/
def crcBit {w : Nat} (poly reg : BitVec w) (bit : Bool) : BitVec w :=
  if reg.msb ^^ bit then (reg <<< 1) ^^^ poly else reg <<< 1

/-- One message byte, most significant bit first. -/
def crcByte {w : Nat} (poly reg : BitVec w) (b : Byte) : BitVec w :=
  [7, 6, 5, 4, 3, 2, 1, 0].foldl (fun r i => crcBit poly r (b.getLsbD i)) reg

/-- The check of a message, from an initial value. -/
def crc {w : Nat} (poly init : BitVec w) (bytes : List Byte) : BitVec w := bytes.foldl (crcByte poly) init

/-- The frame check of the tag lanes, the return lanes and the host link. -/
def crc16 (bytes : List Byte) : Word16 := crc 0x1021#16 0xFFFF#16 bytes

/-- The label and agent reading check. -/
def crc8 (bytes : List Byte) : Byte := crc 0x07#8 0#8 bytes

/-- The journal chain value (R112). -/
def crc32 (init : Chain) (bytes : List Byte) : Chain := crc 0x04C11DB7#32 init bytes

/-- The draw check (R182). -/
def crc64 (bytes : List Byte) : Word64 := crc 0x42F0E1EBA9EA3693#64 0#64 bytes

end Sys2Proof.Machine
end

