-- ==== Sys2Proof/Machine/State.lean ====
section
/-!
DEFINITION. Machine/State.lean: the whole state of the part as plain data, block by block, with the values after reset.

Every block owns its own state (00_scope.md, block overview).  A field marked MODEL is not a line of the manual's state
tables: it holds something the manual's rules imply (a transfer in progress, an instant a rule compares with) and
INVENTORY.md lists it as the model's own.
-/
namespace Sys2Proof.Machine

/-! ## Names -/

/-- Clock states (01, Clock states). -/
inductive ClockState where
  | free | acquiring | tracking | holdover | untraceable
deriving DecidableEq, Repr

/-- Quality grades (R11). -/
inductive Grade where
  | a | b | c | d
deriving DecidableEq, Repr

/-- A leap warning, an announcement or the pending leap (R13). -/
inductive Leap where
  | noLeap | insert | delete
deriving DecidableEq, Repr

/-- Causes of a CLOCK_STATE record (R8). -/
inductive ClockCause where
  | selection | lock | unlock | step | uLimit | limits
deriving DecidableEq, Repr

/-- Reference states (02). -/
inductive RefState where
  | disabled | searching | candidate | qualified
deriving DecidableEq, Repr

/-- Pulse profiles (02). -/
inductive Profile where
  | hz1 | hz10 | hz100
deriving DecidableEq, Repr

/-- Causes of a REFERENCE_STATE record (R35). -/
inductive RefCause where
  | matched | lock | timing | missing | overrun | label | enable | disable
deriving DecidableEq, Repr

/-- Line states (03). -/
inductive LineState where
  | off | holding | held | running | isolated
deriving DecidableEq, Repr

/-- Health levels of a line (R45). -/
inductive Health where
  | normal | warning | degraded
deriving DecidableEq, Repr

/-- Causes of a LINE_STATE record (R45, R49). -/
inductive LineCause where
  | hold | drained | drainTimeout | release | reconnect | isolation | recLevel
deriving DecidableEq, Repr

/-- Filter modes (R47). -/
inductive FilterMode where
  | all | listed
deriving DecidableEq, Repr

/-- Causes of a bad tag frame (R44). -/
inductive BadCause where
  | framing | length | check | kind
deriving DecidableEq, Repr

/-- Issuer states (04). -/
inductive IssuerState where
  | closed | opened | exhausted
deriving DecidableEq, Repr

/-- Causes of an opening (R67). -/
inductive OpenCause where
  | tracking | request
deriving DecidableEq, Repr

/-- Dispositions (R74). -/
inductive Disposition where
  | accepted | late | refusedSession | refusedGroup
deriving DecidableEq, Repr

/-- Auction states (05). -/
inductive AuctionState where
  | idle | armed | call | window | deferred | held | cut | closed | cancelled
deriving DecidableEq, Repr

/-- Deadline kinds, in the order of R84. -/
inductive DeadlineKind where
  | callStart | windowStart | endAt | deferLimit | settle
deriving DecidableEq, Repr

/-- Reasons the cut conditions fail (R94). -/
inductive DeferReason where
  | clock | journal | both
deriving DecidableEq, Repr

/-- Journal states (R122). -/
inductive JournalState where
  | starting | normal | tight | stalled | exhausted
deriving DecidableEq, Repr

/-- Page states (06, Pages). -/
inductive PageState where
  | free | opened | closed | exported | erasing | defective
deriving DecidableEq, Repr

/-- Close causes of a page (R120). -/
inductive CloseCause where
  | full | request | short | recovery
deriving DecidableEq, Repr

/-- Defect causes of a page. -/
inductive DefectCause where
  | openFailed | eraseVerify
deriving DecidableEq, Repr

/-- Causes of a restart (R172, R173). -/
inductive RestartCause where
  | power | pin | request
deriving DecidableEq, Repr

/-- Record kinds (R111), in the order of their codes (R181). -/
inductive RecKind where
  | start | clockState | step | leap | clockLimits | stampingOpen | sequenceExhausted | auctionArm | draw | withdraw
  | extend | defer | hold | cut | cancel | gap | pageDefect
  | referenceState | referenceDisagree | leapConflict | clockSummary | lineConfig | lineState | drop | clear
  | agentState | surveyHalt | annotation | pageOpen
deriving DecidableEq, Repr

/-- Notice kinds (08, Notices), in the order of their codes (R180). -/
inductive NoticeKind where
  | start | clockState | step | leap | referenceState | referenceDisagree | lineState | lineHeld | stampingOpen
  | sequenceExhausted | auctionState | recordsLost | journalState | pageClosed | pageFreed | pageDefect | agentState
  | surveyHalt
deriving DecidableEq, Repr

/-- Agent states (07). -/
inductive AgentState where
  | disabled | unknown | conforming | divergent | stale | faulted
deriving DecidableEq, Repr

/-- Last error kinds of an agent (07), in the order of the agent table. -/
inductive PollError where
  | addressNack | dataNack | checkFail | notReady | timeout | arbitrationLost | busError
deriving DecidableEq, Repr

/-- Causes of an AGENT_STATE record (R137). -/
inductive AgentCause where
  | enable | disable | reading | stale | fault
deriving DecidableEq, Repr

/-- Status an agent reports (R179). -/
inductive AgentStatus where
  | traceable | untraceable | notReady
deriving DecidableEq, Repr

/-- Survey states. -/
inductive SurveyState where
  | running | halted
deriving DecidableEq, Repr

/-- Peer bus states (R134). -/
inductive BusState where
  | idle | own | foreign | clearing
deriving DecidableEq, Repr

/-- Where the part stands in freeing a bus held low (R135). MODEL. -/
inductive Clearing where
  /-- waiting for the clock line to be high -/
  | waitClock
  /-- sending clearing pulses or the clearing stop -/
  | freeing
  /-- waiting 25 ms after the ninth pulse -/
  | resting
deriving DecidableEq, Repr

/-- Phases of a poll (07, The poll transaction). -/
inductive Phase where
  | mark | gap | read
deriving DecidableEq, Repr

/-- Reply statuses (08), in the order of their codes. -/
inductive Status where
  | ok | busy | starting | frameRejected | unknownKind | badLength | badArgument | wrongState | journalFull | tooLate
  | extensionLimit | chainMismatch | notExported | retentionRunning
deriving DecidableEq, Repr

/-- Causes of a rejected frame (R161). -/
inductive RejectCause where
  | length | timeout | byteFraming | check
deriving DecidableEq, Repr

/-- Framer states (R160). -/
inductive Framer where
  | hunt | length | header | body | check
deriving DecidableEq, Repr

/-! ## Timescale Unit (01) -/

structure Tsu where
  /-- VT, seconds and nanoseconds together as a count of ns -/
  vt : Nat := 0
  /-- VT's fraction, 65,536ths of a ns -/
  frac : Nat := 0
  /-- rate correction C, parts in 10^12 -/
  c : Int := 0
  /-- frequency estimate in use F, parts in 10^12 -/
  f : Int := 0
  clock : ClockState := .free
  /-- θ of the latest update, ns -/
  theta : Int := 0
  /-- MODEL: the latest update stepped, so θ counts as 0 for U (R3, R9) -/
  stepped : Bool := false
  /-- j of the last update, ns -/
  lastJ : Nat := 0
  /-- U, ns -/
  u : Nat := Config.maxU
  vtSet : Bool := false
  tracked : Bool := false
  lock : Nat := 0
  unlock : Nat := 0
  selected : Option (Fin 2) := none
  aided : Bool := false
  leapCount : Nat := 0
  labelLeap : Leap := .noLeap
  hostLeap : Leap := .noLeap
  pendingLeap : Leap := .noLeap
  latched : Bool := false
  summary : Nat := 0
  limits : ClockLimits :=
    { tracking := 1000, tight := 1000, traceability := 100000, baseU := 20, unaidedRate := 50, aidedRate := 2,
      tau := 64, slewLimit := 50000, stepThreshold := 1000000, lockCount := 8, unlockCount := 3,
      summaryInterval := 60 }
  /-- MODEL: the civil day in progress, days since 2000-01-01 (R14) -/
  day : Int := 0
  /-- MODEL: the second of VT that the load after recovery put it in; every boundary up to it was passed over (R1, R14, R21) -/
  loadedSec : Int := 0
  /-- MODEL: the leap of the civil day in progress has been applied (R15, R16) -/
  leapDone : Bool := false
  /-- MODEL: the last label's warning could not be applied (R13) -/
  rangeConflict : Bool := false
  /-- MODEL: a whole-second boundary has been reached by advance and is not yet acted on (R1, R10) -/
  boundaryDue : Bool := false
  /-- MODEL: the summary counter has reached the interval at the boundary just acted on (R10, R17) -/
  summaryDue : Bool := false
deriving DecidableEq, Repr

/-! ## Reference Front End (02) -/

structure RefConfig where
  /-- the configured polarity is rising -/
  rising : Bool := true
  hz1 : Bool := true
  hz10 : Bool := false
  hz100 : Bool := false
  bandClass : Nat := 1
  lockValue : Nat := 8
  unlockValue : Nat := 3
  priority : Nat := 0
  labelUse : Bool := true
deriving DecidableEq, Repr

/-- A captured edge (R22): VT to 1 ns and oscillator phase in eighths. -/
structure Edge where
  vt : Nat
  phase : Nat
deriving DecidableEq, Repr

/-- A label (R178). -/
structure Label where
  second : Nat
  leapCount : Nat
  warning : Leap
  traceable : Bool
deriving DecidableEq, Repr

/-- A reference's offset with its label second and the phase of its edge (R32). -/
structure Offset where
  ns : Int
  second : Nat
  phase : Nat
deriving DecidableEq, Repr

structure Ref where
  config : RefConfig := {}
  state : RefState := .disabled
  cell : Option Edge := none
  anchor : Option Nat := none
  candidate : Option Profile := none
  lock : Nat := 0
  miss : Nat := 0
  /-- frequency estimate f and its valid flag -/
  f : Int := 0
  fValid : Bool := false
  /-- jitter estimate j, sixteenths of a ns -/
  j16 : Nat := 0
  heldLabel : Option Label := none
  labelBad : Bool := false
  lastSecond : Option Nat := none
  lastLabel : Option Label := none
  offset : Option Offset := none
  good : Nat := 0
  badTiming : Nat := 0
  badMissing : Nat := 0
  badOverrun : Nat := 0
  badLabel : Nat := 0
  discards : Nat := 0
  /-- MODEL: edges that met the full capture cell, waiting behind the edge in it (R22) -/
  overrunsBehind : Nat := 0
  /-- MODEL: overruns whose turn to be judged has come (R22) -/
  overrunsDue : Nat := 0
deriving DecidableEq, Repr

structure Rfe where
  refs : Vector Ref 3 :=
    #v[{}, { config := { priority := 1 } }, { config := { labelUse := false } }]
  selected : Option (Fin 2) := none
  disagree : Bool := false
deriving DecidableEq, Repr

/-! ## Tag Link Controllers (03) -/

structure Filter where
  enabled : Bool := false
  code : Word16 := 0
  mask : Word16 := 0
deriving DecidableEq, Repr

/-- The fields of a tag frame that the part reads (R176). -/
structure TagFields where
  session : Word16
  group : Byte
  kind : Byte
  client : BitVec 32
deriving DecidableEq, Repr

/-- A stamp (R73). -/
structure Stamp where
  epoch : Nat
  sequence : Nat
  line : Fin 8
  capture : Nat
  grade : Grade
  u : Nat
  disposition : Disposition
  /-- the group's auction state at issue, or none (R75) -/
  phase : Option AuctionState
  hit : Option (Fin 4)
  lineDegraded : Bool
  peerNotConforming : Bool
  leapSecond : Bool
  echo : TagFields
deriving DecidableEq, Repr

/-- A NOT_OPEN answer (R78). -/
structure NotOpen where
  epoch : Nat
  line : Fin 8
  capture : Nat
  issuer : IssuerState
  grade : Grade
  u : Nat
  echo : TagFields
deriving DecidableEq, Repr

/-- An answer of the Stamp Issuer. -/
inductive Answer where
  | stamp (s : Stamp)
  | notOpen (a : NotOpen)
deriving DecidableEq, Repr

/-- The drop tally (R53): count, lowest and highest sequence. -/
structure Tally where
  count : Nat := 0
  lowest : Option Nat := none
  highest : Option Nat := none
deriving DecidableEq, Repr

/-- How the frame open on a tag lane is treated, fixed at its start delimiter (R43). MODEL. -/
inductive OpenFrame where
  | noFrame | judged | ignored
deriving DecidableEq, Repr

structure LineCounters where
  good : Nat := 0
  badFraming : Nat := 0
  badLength : Nat := 0
  badCheck : Nat := 0
  badKind : Nat := 0
  ignored : Nat := 0
  stampsSent : Nat := 0
  notOpenSent : Nat := 0
  qualitySent : Nat := 0
  phaseSent : Nat := 0
  dropsSent : Nat := 0
  stampsDropped : Nat := 0
  notOpenDiscarded : Nat := 0
  pauses : Nat := 0
deriving DecidableEq, Repr

structure Line where
  state : LineState := .off
  rec_ : Nat := 0
  mode : FilterMode := .all
  filters : Vector Filter 4 := Vector.replicate 4 {}
  pathDelay : Nat := 0
  queue : List Answer := []
  tally : Tally := {}
  quality : Bool := false
  /-- groups with a phase frame to be sent, ascending, no duplicates -/
  phases : List (Fin 32) := []
  interleave : Nat := 0
  owed : Nat := 0
  /-- the return frame in progress, its forty bytes, or none when the lane is idle -/
  lane : Option (List Byte) := none
  /-- the drain timer's start, in oscillator counts, or none when stopped -/
  drain : Option Nat := none
  /-- the level of the line's PAUSE input -/
  pause : Bool := false
  /-- MODEL: the frame open on the tag lane (R43) -/
  frame : OpenFrame := .noFrame
  counters : LineCounters := {}
deriving DecidableEq, Repr

/-! ## Stamp Issuer (04) -/

/-- A latched capture cell (R70). -/
structure Capture where
  time : Nat
  leapMark : Bool
deriving DecidableEq, Repr

/-- A pending offer (R48, R71). -/
structure Offer where
  line : Fin 8
  capture : Nat
  leapMark : Bool
  fields : TagFields
  accepted : Bool
  hit : Option (Fin 4)
deriving DecidableEq, Repr

structure Sis where
  state : IssuerState := .closed
  epoch : Nat := 0
  next : Option Nat := some 1
  /-- the last issued sequence and its capture time -/
  last : Option (Nat × Nat) := none
  opening : Option (OpenCause × Nat) := none
  cells : Vector (Option Capture) 8 := Vector.replicate 8 none
  /-- pending offers, in capture order -/
  offers : List Offer := []
  issued : Vector Nat 8 := Vector.replicate 8 0
  notOpen : Vector Nat 8 := Vector.replicate 8 0
  accepted : Nat := 0
  late : Nat := 0
  refusedSession : Nat := 0
  refusedGroup : Nat := 0
  flagDegraded : Nat := 0
  flagPeer : Nat := 0
  flagLeap : Nat := 0
  /-- MODEL: the oscillator count of the last grant (R72) -/
  lastGrant : Option Nat := none
deriving DecidableEq, Repr

/-! ## Auction Controller (05) -/

/-- A civil date and time: days since 2000-01-01 and ns of the day, 86,400 s and more being 23:59:60 (R86). -/
structure Civil where
  day : Int
  ns : Nat
deriving DecidableEq, Repr

/-- A start of a schedule, civil and in VT. -/
structure Start where
  civil : Civil
  vt : Nat
deriving DecidableEq, Repr

/-- The draw check of an entry (R92). -/
inductive DrawCheck where
  | noCheck | owed | value (w : Word64)
deriving DecidableEq, Repr

/-- The body of an auction record, before the arming index is known (R90).  The draw check and the arming index it
carries are computed from the index when the record is offered. -/
inductive AucBody where
  | plain (bytes : List Byte)
  | draw (windowStart : Nat) (length : Nat) (drawnEnd : Nat) (nonce : Word64)
  | withdraw (drawnEnd : Nat) (nonce : Word64)
  | cancel (from_ : AuctionState) (inCount : Nat) (drawn : Option (Nat × Word64))
  | cut (forced : Bool) (grade : Grade) (extUsed u : Nat) (drawnEnd : Nat) (nonce : Word64)
      (inCount lastIn : Nat) (cutTime : Nat)
deriving DecidableEq, Repr

/-- A record on a group's held list. -/
structure HeldRecord where
  kind : RecKind
  vt : Nat
  body : AucBody
deriving DecidableEq, Repr

structure Auction where
  state : AuctionState := .idle
  callStart : Option Start := none
  windowStart : Option Start := none
  windowLength : Nat := 0
  extLength : Nat := 0
  maxExt : Nat := 0
  extUsed : Nat := 0
  deferLimit : Nat := 0
  drawnEnd : Option Nat := none
  nonce : Option Word64 := none
  drawCheck : DrawCheck := .noCheck
  cutTime : Option Nat := none
  forced : Bool := false
  /-- U and grade at the cut -/
  quality : Option (Nat × Grade) := none
  inCount : Nat := 0
  lastIn : Nat := 0
  lateCount : Nat := 0
  /-- the arming index, none while unassigned -/
  armIndex : Option Nat := none
  heldList : List HeldRecord := []
deriving DecidableEq, Repr

structure Deadline where
  instant : Nat
  group : Fin 32
  kind : DeadlineKind
deriving DecidableEq, Repr

structure Auc where
  groups : Vector Auction 32 := Vector.replicate 32 {}
  deadlines : List Deadline := []
  traceableView : Bool := false
  journalView : JournalState := .starting
  /-- MODEL: draws made so far, the counter the free values of the draw source are taken by (R92) -/
  draws : Nat := 0
deriving DecidableEq, Repr

/-! ## Evidence Journal (06) -/

/-- A record waiting to be written (R110); subject 255 is none. -/
structure Record where
  kind : RecKind
  subject : Nat
  vt : Nat
  body : List Byte
deriving DecidableEq, Repr

/-- What a GAP record reports, with its production VT (R117, R118). -/
structure Gap where
  critical : Nat
  nonCritical : Nat
  first : Option Nat
  vt : Nat
deriving DecidableEq, Repr

/-- Where a record being written came from. -/
inductive WriteSource where
  | pageOpen
  | intake
  | gap (g : Gap)
deriving DecidableEq, Repr

/-- The write in progress. -/
structure Write where
  page : Fin 64
  slot : Fin 128
  record : Record
  source : WriteSource
deriving DecidableEq, Repr

/-- One slot of a page. -/
inductive Slot where
  | blank
  | data (bytes : List Byte)
  | void
deriving DecidableEq, Repr

/-- A page of the store with its page table entry. -/
structure Page where
  state : PageState := .free
  serial : Option Nat := none
  closeCause : Option CloseCause := none
  closeTime : Option Nat := none
  count : Nat := 0
  lastChain : Option Chain := none
  retention : Option Nat := none
  defect : Option DefectCause := none
  slots : Vector Slot 128 := Vector.replicate 128 .blank
deriving DecidableEq, Repr

structure Ej where
  state : JournalState := .starting
  intake : List Record := []
  writer : Option Write := none
  rewriteOwed : Bool := false
  gapOwed : Option Gap := none
  /-- the open page and its next slot -/
  openPage : Option (Fin 64 × Nat) := none
  closeRequested : Bool := false
  nextIndex : Nat := 0
  chain : Chain := 0
  epoch : Nat := 0
  nextSerial : Nat := 1
  criticalLost : Nat := 0
  nonCriticalLost : Nat := 0
  firstLoss : Option Nat := none
  eraseQueue : List (Fin 64) := []
  restartCause : RestartCause := .power
  /-- persistent: the store and its page table -/
  pages : Vector Page 64 := Vector.replicate 64 {}
  /-- persistent: the stored epoch -/
  storedEpoch : Nat := 0
deriving DecidableEq, Repr

/-! ## Peer Survey Master (07) -/

structure AgentConfig where
  address : Nat
  periodMs : Nat := 1000
  /-- the bus clock is 400 kHz -/
  fast : Bool := false
  latency : Nat := 0
  limit : Nat := 100000
  binding : Option (Fin 8) := none
deriving DecidableEq, Repr

/-- The last good reading (R149). -/
structure Reading where
  markVt : Nat
  ownU : Nat
  time : Nat
  agentU : Nat
  status : AgentStatus
  offset : Int
  /-- MODEL: the oscillator count of the mark, from which the age runs -/
  markCount : Nat
deriving DecidableEq, Repr

structure AgentCounters where
  begun : Nat := 0
  good : Nat := 0
  addressNack : Nat := 0
  dataNack : Nat := 0
  checkFail : Nat := 0
  notReady : Nat := 0
  timeout : Nat := 0
  arbitrationLost : Nat := 0
  arbitrationLosses : Nat := 0
  discarded : Nat := 0
deriving DecidableEq, Repr

structure Agent where
  config : AgentConfig
  state : AgentState := .disabled
  /-- next due, an oscillator count -/
  nextDue : Option Nat := none
  failures : Nat := 0
  reading : Option Reading := none
  lastError : Option PollError := none
  counters : AgentCounters := {}
deriving DecidableEq, Repr

/-- The in-flight transaction. -/
structure Txn where
  agent : Fin 8
  address : Nat
  fast : Bool
  phase : Phase := .mark
  attempt : Nat := 1
  discard : Bool := false
  /-- mark VT and own U at mark -/
  mark : Option (Nat × Nat) := none
  bytes : List Byte := []
  /-- MODEL: the oscillator count of the mark stop, from which the gap and the age run -/
  markCount : Nat := 0
  /-- MODEL: the transaction waits for the bus between two attempts (R144, R184) -/
  waiting : Bool := false
deriving DecidableEq, Repr

/-- The halt cause: agent, phase and VT of the last bus error. -/
structure HaltCause where
  agent : Fin 8
  phase : Phase
  vt : Nat
deriving DecidableEq, Repr

structure Psm where
  survey : SurveyState := .running
  bus : BusState := .idle
  /-- the bus timer's start, in oscillator counts, or none when stopped -/
  timer : Option Nat := none
  txn : Option Txn := none
  halt : Option HaltCause := none
  busErrors : Nat := 0
  agents : Vector Agent 8 :=
    #v[{ config := { address := 8 } }, { config := { address := 9 } }, { config := { address := 10 } },
       { config := { address := 11 } }, { config := { address := 12 } }, { config := { address := 13 } },
       { config := { address := 14 } }, { config := { address := 15 } }]
  /-- MODEL: the levels of PBC and PBD as last seen -/
  clockHigh : Bool := true
  dataHigh : Bool := true
  /-- MODEL: where the clearing of the bus stands (R135) -/
  clearing : Clearing := .waitClock
  /-- MODEL: the bytes the part has put on the bus in its latest phase (R140, R142, R179) -/
  sent : List Byte := []
deriving DecidableEq, Repr

/-! ## Host Link Interface (08) -/

/-- The subject of a notice. -/
inductive Subject where
  | nothing
  | reference (n : Nat)
  | line (n : Nat)
  | group (n : Nat)
  | page (n : Nat)
  | agent (n : Nat)
deriving DecidableEq, Repr

structure Notice where
  number : Nat
  kind : NoticeKind
  vt : Nat
  subject : Subject
  data : List Byte
deriving DecidableEq, Repr

/-- A reply: the kind byte it is sent with (top bit set), the tag, the status and the body.  Body length and check are
computed from these (R162, R180). -/
structure Reply where
  kind : Byte
  tag : Byte
  status : Status
  body : List Byte
deriving DecidableEq, Repr

/-- The frame in assembly (R160). -/
structure Assembly where
  lengthBytes : List Byte := []
  kind : Option Byte := none
  tag : Option Byte := none
  body : List Byte := []
  check : List Byte := []
deriving DecidableEq, Repr

structure LinkCounters where
  hunt : Nat := 0
  rejectedLength : Nat := 0
  rejectedTimeout : Nat := 0
  rejectedFraming : Nat := 0
  rejectedCheck : Nat := 0
  busyReplies : Nat := 0
  unansweredFrames : Nat := 0
  accepted : Nat := 0
deriving DecidableEq, Repr

structure Hli where
  /-- the straps sampled at the last restart -/
  hrate0 : Bool := false
  hrate1 : Bool := false
  framer : Framer := .hunt
  assembly : Assembly := {}
  /-- the byte timer's start, in oscillator counts, or none when stopped -/
  byteTimer : Option Nat := none
  /-- the outstanding request's kind and tag -/
  outstanding : Option (Byte × Byte) := none
  replies : List Reply := []
  restartOwed : Bool := false
  notices : List Notice := []
  nextNotice : Nat := 0
  overflow : Nat := 0
  unanswered : Nat := 0
  restartCause : RestartCause := .power
  counters : LinkCounters := {}
deriving DecidableEq, Repr

/-! ## The part -/

/-- The state of the part. -/
structure State where
  /-- commands waiting, first in, first out -/
  pending : List Instr := []
  /-- the supply is within its operating range -/
  supply : Bool := true
  /-- the RESET pin is asserted (held low for 1 µs or more) -/
  resetLow : Bool := false
  /-- MODEL: the supply rose while RESET was held low, so the restart at the release has cause POWER (R173) -/
  powerOwed : Bool := false
  /-- MODEL: counts of the local oscillator, the time base of every oscillator timer; the phase counter is eight
  times it, wrapped at 2^48 (R22) -/
  osc : Nat := 0
  /-- MODEL: restarts so far, the counter the free values of interrupted writes are taken by -/
  restarts : Nat := 0
  tsu : Tsu := {}
  rfe : Rfe := {}
  lines : Vector Line 8 := Vector.replicate 8 {}
  sis : Sis := {}
  auc : Auc := {}
  ej : Ej := {}
  psm : Psm := {}
  hli : Hli := {}
deriving DecidableEq, Repr

/-- The reasons a step can stop the machine with a fault.  There is none: the manual names no condition that stops the
part, every access the part makes lies inside its own tables, and every value the manual leaves open is a free value. -/
inductive Fault where
deriving DecidableEq, Repr

/-- The reasons a step can be refused. -/
inductive Refusal where
  /-- raised by `exec` for a command whose meaning is not written (none is left); safe: the machine stops -/
  | notModelled (mnemonic : String)
deriving DecidableEq, Repr

/-- Right after reset: a restart with cause POWER of a part with a new store, both straps low, every block at its restart
values (R21, R42, R65, R82, R108, R133, R158, R174), journal recovery not yet ended, nothing waiting. -/
def State.reset : State := {}

end Sys2Proof.Machine
end

