-- ==== Sys2Proof/Machine/Flags.lean ====
section
/-!
DEFINITION. Machine/Flags.lean: every predicate and derived value the manual computes from the state: grade and traceability, civil
time, health, the session filters, the cut conditions, the journal state of the page table, ATTN.
-/
namespace Sys2Proof.Machine

/-! ## Clock (R11) -/

/-- The traceable predicate. -/
def Tsu.traceable (t : Tsu) : Bool :=
  (t.clock == .tracking || t.clock == .holdover) && decide (t.u ≤ t.limits.traceability)

/-- The grade. -/
def Tsu.grade (t : Tsu) : Grade :=
  if t.traceable then (if t.u ≤ t.limits.tight then .a else .b) else if t.vtSet then .c else .d

/-- The VT second D of the civil day in progress: its closing midnight at the present leap count (R14). -/
def Tsu.dayEnd (t : Tsu) : Int := (t.day + 1) * 86400 + t.leapCount

/-- The whole seconds of VT. -/
def Tsu.sec (t : Tsu) : Int := (t.vt / nsPerSecond : Nat)

/-- The civil day VT stands in by the leap count alone. -/
def Tsu.civilDay (t : Tsu) : Int := (t.sec - t.leapCount) / 86400

/-- The leap latch is due: the latch is open and D - 1 has been reached, other than by the load after recovery (R1, R14).  A D - 1
that an adopted leap count, a deletion applied early by a label or a backward step has put at or behind VT counts as reached (the
model's choice, log 35). -/
def Tsu.latchDue (t : Tsu) : Bool := !t.latched && decide (t.loadedSec < t.dayEnd - 1 ∧ t.dayEnd - 1 ≤ t.sec)

/-- The pending leap is due: D + 1 for an insertion, D - 1 for a deletion (R15).  An instant already behind VT counts as reached (the
model's choice, log 35). -/
def Tsu.leapDue (t : Tsu) : Bool :=
  match t.pendingLeap with
  | .insert => decide (t.dayEnd + 1 ≤ t.sec)
  | .delete => decide (t.dayEnd - 1 ≤ t.sec)
  | .noLeap => false

/-- The civil midnight that ends the day is due: D has been reached and no leap is pending (R14); a D that an adopted leap count has put
behind VT counts as reached (the model's choice, log 35). -/
def Tsu.midnightDue (t : Tsu) : Bool := t.pendingLeap == .noLeap && decide (t.dayEnd ≤ t.sec)

/-- The leap-second mark of an instant: an insertion is pending and the instant lies in [D, D + 1) (R70).
Once the insertion has been applied, early by a label too, no later capture has it (the model's choice beside R15, log 35). -/
def Tsu.leapMark (t : Tsu) (v : Nat) : Bool :=
  t.pendingLeap == .insert && decide (((v / nsPerSecond : Nat) : Int) = t.dayEnd)

/-- An announcement that cannot be applied at the present leap count (R13). -/
def Tsu.cannotApply (t : Tsu) (w : Leap) : Bool :=
  match w with
  | .insert => t.leapCount == 255
  | .delete => t.leapCount == 0
  | .noLeap => false

/-- One announcement is insert and the other delete (R13). -/
def Tsu.sourcesDiffer (t : Tsu) : Bool :=
  match t.labelLeap, t.hostLeap with
  | .insert, .delete => true
  | .delete, .insert => true
  | .noLeap, _ => false
  | _, .noLeap => false
  | .insert, .insert => false
  | .delete, .delete => false

/-- The pending leap the two announcements give (R13). -/
def Tsu.announced (t : Tsu) : Leap :=
  match t.labelLeap with
  | .insert => .insert
  | .delete => .delete
  | .noLeap => t.hostLeap

/-- The VT second of the next leap application, where a leap is pending (R15, R19). -/
def Tsu.leapInstant (t : Tsu) : Option Nat :=
  match t.pendingLeap with
  | .insert => some (vtOfInt ((t.dayEnd + 1) * nsPerSecond))
  | .delete => some (vtOfInt ((t.dayEnd - 1) * nsPerSecond))
  | .noLeap => none

/-! ## Civil time (R12, R86) -/

/-- Nanoseconds of a civil day of 86,400 s. -/
abbrev dayNs : Nat := 86400 * nsPerSecond

/-- The civil time of a count of civil seconds and nanoseconds. -/
def civilOf (sec : Int) (ns : Nat) : Civil :=
  { day := sec / 86400, ns := (sec % 86400).toNat * nsPerSecond + ns }

/-- VT to civil (R86). -/
def Tsu.toCivil (t : Tsu) (v : Nat) : Civil :=
  let s : Int := (v / nsPerSecond : Nat)
  let ns := v % nsPerSecond
  match t.pendingLeap with
  | .insert =>
    if s = t.dayEnd then { day := t.day, ns := dayNs + ns }
    else if t.dayEnd < s then civilOf (s - t.leapCount - 1) ns
    else civilOf (s - t.leapCount) ns
  | .delete => if t.dayEnd - 1 ≤ s then civilOf (s - t.leapCount + 1) ns else civilOf (s - t.leapCount) ns
  | .noLeap => civilOf (s - t.leapCount) ns

/-- The pending change that a civil time of the given day takes (R86). -/
def Tsu.pendingChange (t : Tsu) (day : Int) : Int :=
  if t.day < day then
    match t.pendingLeap with
    | .insert => 1
    | .delete => -1
    | .noLeap => 0
  else 0

/-- Civil to VT, none for a civil time with no VT (R86). -/
def Tsu.fromCivil (t : Tsu) (c : Civil) : Option Nat :=
  if dayNs ≤ c.ns then
    if c.day = t.day ∧ t.pendingLeap = .insert then
      some (vtOfInt (t.dayEnd * nsPerSecond + (c.ns - dayNs : Nat)))
    else none
  else if c.day = t.day ∧ t.pendingLeap = .delete ∧ dayNs - nsPerSecond ≤ c.ns then none
  else some (vtOfInt ((c.day * 86400 + t.leapCount + t.pendingChange c.day) * nsPerSecond + c.ns))

/-- Civil to VT at a re-conversion: a civil time with no VT takes the VT of the next civil second, the first of the next
day (R106). -/
def Tsu.fromCivilNext (t : Tsu) (c : Civil) : Nat :=
  match t.fromCivil c with
  | some v => v
  | none => vtOfInt (((c.day + 1) * 86400 + t.leapCount + t.pendingChange (c.day + 1)) * nsPerSecond)

def leapYear (y : Nat) : Bool := (y % 4 == 0 && y % 100 != 0) || y % 400 == 0

def monthLength (y m : Nat) : Nat :=
  match m with
  | 1 => 31 | 2 => if leapYear y then 29 else 28 | 3 => 31 | 4 => 30 | 5 => 31 | 6 => 30
  | 7 => 31 | 8 => 31 | 9 => 30 | 10 => 31 | 11 => 30 | 12 => 31 | _ => 0

/-- Days from 2000-01-01 to the first of January of a year from 2000 on. -/
def daysBeforeYear (y : Nat) : Int :=
  let z : Int := (y : Int) - 1
  365 * ((y : Int) - 2000) + (z / 4 - z / 100 + z / 400) - 484

/-- Days of the year before the first of a month. -/
def daysBeforeMonth (y : Nat) : Nat → Nat
  | 0 => 0
  | m + 1 => daysBeforeMonth y m + monthLength y m

/-- The day number of a Gregorian date, 2000-01-01 being 0. -/
def dayNumber (y m d : Nat) : Int := daysBeforeYear y + daysBeforeMonth y m + d - 1

/-- The Gregorian date (year, month, day) of a day number; the years of an era of 400 run from the first of March. -/
def dateOf (day : Int) : Int × Nat × Nat :=
  let z := day + 730425
  let era := z / 146097
  let doe := (z % 146097).toNat
  let yoe := (doe - doe / 1460 + doe / 36524 - doe / 146096) / 365
  let doy := doe - (365 * yoe + yoe / 4 - yoe / 100)
  let mp := (5 * doy + 2) / 153
  let d := doy - (153 * mp + 2) / 5 + 1
  let m := if mp < 10 then mp + 3 else mp - 9
  (era * 400 + yoe + (if m ≤ 2 then 1 else 0), m, d)

/-- A civil date and time of a request is well formed (check 1 of R88); second 60 is so in the minute 23:59 alone (the model's choice,
log 36). -/
def CivilArgs.valid (c : CivilArgs) : Bool :=
  decide (2000 ≤ c.year ∧ 1 ≤ c.month ∧ c.month ≤ 12 ∧ 1 ≤ c.day ∧ c.day ≤ monthLength c.year c.month
    ∧ c.hour ≤ 23 ∧ c.minute ≤ 59 ∧ c.milli ≤ 999
    ∧ (c.second ≤ 59 ∨ (c.second = 60 ∧ c.hour = 23 ∧ c.minute = 59)))

/-- The civil time of a request. -/
def CivilArgs.toCivil (c : CivilArgs) : Civil :=
  { day := dayNumber c.year c.month c.day
    ns := (((c.hour * 60 + c.minute) * 60 + c.second) * 1000 + c.milli) * 1000000 }

/-! ## References (02) -/

/-- The band of a class, in ns. -/
def bandOf (cls : Nat) : Nat :=
  match cls with
  | 0 => 50
  | 1 => 200
  | 2 => 1000
  | _ => 5000

/-- The nominal phase of a profile over its nominal interval, in eighths; also that interval in ns. -/
def Profile.nominal : Profile → Nat
  | .hz1 => 1000000000
  | .hz10 => 100000000
  | .hz100 => 10000000

/-- The reference is one of the labelled references and has label use on. -/
def Ref.labelled (r : Ref) (i : Fin 3) : Bool := decide (i.val < 2) && r.config.labelUse

/-- The reference may be selected (R33). -/
def Ref.eligible (r : Ref) : Bool := r.state == .qualified && r.config.labelUse

/-- The label conditions of a closing interval (R26). -/
def Ref.labelConditions (r : Ref) : Bool :=
  match r.heldLabel, r.lastSecond with
  | some l, some s => !r.labelBad && l.second == s + 1 && l.traceable
  | _, _ => false

/-- The length of the expected interval of a profile, in eighths (R24). -/
def Ref.expectedLength (r : Ref) (p : Profile) : Nat :=
  (divRound ((p.nominal : Int) * 1000000000000) (1000000000000 + (if r.fValid then r.f else 0)).toNat).toNat

/-- f as the interval measurement takes it (R23). -/
def Ref.fUsed (r : Ref) : Int := if r.fValid then r.f else 0

/-- j rounded up to whole ns (R31). -/
def Ref.jNs (r : Ref) : Nat := (r.j16 + 15) / 16

/-- The reference selected among the labelled ones (R33). -/
def Rfe.choose (r0 r1 : Ref) : Option (Fin 2) :=
  match r0.eligible, r1.eligible with
  | true, true => if r1.config.priority < r0.config.priority then some 1 else some 0
  | true, false => some 0
  | false, true => some 1
  | false, false => none

/-! ## Lines (03) -/

/-- The health level of a receive error count; none at 255 (R45). -/
def healthOf (rec_ : Nat) : Option Health :=
  if rec_ < 96 then some .normal else if rec_ < 128 then some .warning else if rec_ < 255 then some .degraded else none

def Line.health (l : Line) : Option Health := healthOf l.rec_

/-- The drop notice pending flag: true while the tally count is above 0. -/
def Line.dropPending (l : Line) : Bool := decide (0 < l.tally.count)

/-- A session matches a filter (03, Session filters). -/
def Filter.hits (f : Filter) (session : Word16) : Bool := f.enabled && (session &&& f.mask) == (f.code &&& f.mask)

/-- The hit index of a session (R47). -/
def Line.hitIndex (l : Line) (session : Word16) : Option (Fin 4) :=
  [(0 : Fin 4), 1, 2, 3].find? fun i => (l.filters[i]).hits session

/-- The session's acceptance (R47). -/
def Line.accepts (l : Line) (session : Word16) : Bool :=
  match l.mode with
  | .all => true
  | .listed => (l.hitIndex session).isSome

/-- The line has drained (R51). -/
def Line.drained (l : Line) : Bool :=
  l.queue.isEmpty && !l.dropPending && l.lane.isNone && l.owed == 0

/-! ## Auctions (05) -/

/-- The journal accepts critical records, as the AUC sees it. -/
def Auc.journalAccepts (a : Auc) : Bool := a.journalView == .normal || a.journalView == .tight

/-- The cut conditions (R94). -/
def Auc.cutConditions (a : Auc) : Bool := a.traceableView && a.journalAccepts

/-- The reason the cut conditions fail; none when they hold (R94). -/
def Auc.deferReason (a : Auc) : Option DeferReason :=
  match a.traceableView, a.journalAccepts with
  | false, true => some .clock
  | true, false => some .journal
  | false, false => some .both
  | true, true => none

/-- The order of the deadline list (R84). -/
def Deadline.before (d e : Deadline) : Bool :=
  decide (d.instant < e.instant)
    || (decide (d.instant = e.instant)
        && (decide (d.group.val < e.group.val)
            || (decide (d.group = e.group)
                && decide (d.kind.ctorIdx < e.kind.ctorIdx))))

/-! ## Journal (06) -/

/-- The pages in a state. -/
def Ej.pagesIn (e : Ej) (st : PageState) : Nat := e.pages.toList.countP (fun p => p.state == st)

/-- The state the page table gives the journal outside STARTING and EXHAUSTED (R122). -/
def Ej.judged (e : Ej) : JournalState :=
  if 2 < e.pagesIn .free then .normal
  else if 0 < e.pagesIn .free ∨ 0 < e.pagesIn .opened then .tight
  else .stalled

/-- A record of the given class is taken by the intake (R113). -/
def Ej.takes (e : Ej) (critical : Bool) : Bool :=
  match e.state with
  | .starting | .normal =>
    if critical then decide (e.intake.length < Config.intakeSlots) else decide (e.intake.length < Config.intakeOpenSlots)
  | .tight => critical && decide (e.intake.length < Config.intakeSlots)
  | .stalled | .exhausted => false

/-- All page numbers, ascending. -/
def allPages : List (Fin 64) := List.finRange 64

/-- All groups, ascending. -/
def allGroups : List (Fin 32) := List.finRange 32

/-- All lines (and agents), ascending. -/
def allEight : List (Fin 8) := [0, 1, 2, 3, 4, 5, 6, 7]

/-- The FREE page with the lowest number (R119). -/
def Ej.firstFree (e : Ej) : Option (Fin 64) := allPages.find? fun p => (e.pages[p]).state == .free

/-- The page that holds a serial. -/
def Ej.pageOf (e : Ej) (serial : Nat) : Option (Fin 64) := allPages.find? fun p => (e.pages[p]).serial == some serial

/-- The records of a page so far: the next slot of the open page, the record count of any other. -/
def Ej.recordCount (e : Ej) (p : Fin 64) : Nat :=
  match e.openPage with
  | some (q, n) => if p = q then n else (e.pages[p]).count
  | none => (e.pages[p]).count

/-- The page is one recovery considers (R129). -/
def Page.walked (p : Page) : Bool := p.state == .opened || p.state == .closed || p.state == .exported

/-- The page holds the last written record of the store: it holds a record, and no walked page of a greater serial does
(R126, R129). -/
def Ej.holdsLast (e : Ej) (p : Fin 64) : Bool :=
  decide (0 < e.recordCount p) &&
    !(allPages.any fun q =>
        (e.pages[q]).walked && decide (0 < e.recordCount q) && decide ((e.pages[p]).serial.getD 0 < (e.pages[q]).serial.getD 0))

/-! ## Survey (07) -/

/-- The agent is in a polled state. -/
def Agent.polled (a : Agent) : Bool :=
  match a.state with
  | .unknown | .conforming | .divergent | .stale => true
  | .disabled | .faulted => false

/-- The poll period in oscillator counts. -/
def AgentConfig.periodCounts (c : AgentConfig) : Nat := c.periodMs * 125000

/-- The conformity of a reading of a given age in counts (R150). -/
def AgentConfig.conforms (c : AgentConfig) (r : Reading) (age : Nat) : Bool :=
  decide (r.offset.natAbs + r.agentU + r.ownU ≤ c.limit) && r.status == .traceable && decide (age ≤ 3 * c.periodCounts)

/-- A line's stamps carry PEER_NOT_CONFORMING (R76). -/
def Psm.notConforming (p : Psm) (line : Fin 8) : Bool :=
  allEight.any fun a => (p.agents[a]).config.binding == some line && (p.agents[a]).state != .conforming

/-! ## Host link (08) -/

/-- The ATTN output (R168). -/
def Hli.attn (h : Hli) : Bool := !h.notices.isEmpty

/-- The host rate the straps give, in Mbit/s (R159). -/
def Hli.rate (h : Hli) : Nat := if h.hrate1 then 8 else if h.hrate0 then 4 else 1

/-! ## The part -/

/-- The part runs: supplied, and not held by RESET (R173). -/
def State.live (s : State) : Bool := s.supply && !s.resetLow

/-- VT now, as a block reads it (R1). -/
def State.now (s : State) : Nat := s.tsu.vt

/-- The oscillator phase at the last count, in eighths, modulo the counter's wrap (R22). -/
def State.phase (s : State) : Nat := 8 * s.osc % Config.phaseWrap

end Sys2Proof.Machine
end

