-- ==== Sys2Proof/Machine/Layout.lean ====
section
/-!
DEFINITION. Machine/Layout.lean: the byte layouts of Frame and Record Layouts (09): the codes and encodings of R175, the return
frames of R177, notices and replies of R180, the journal record of R181 and the draw check of R182.
-/
namespace Sys2Proof.Machine

/-! ## Encodings of R175 -/

/-- `n` bytes of an unsigned number, most significant first. -/
def be : Nat → Nat → List Byte
  | 0, _ => []
  | n + 1, x => BitVec.ofNat 8 (x / 256 ^ n) :: be n x

/-- `n` bytes of a signed number, two's complement. -/
def beInt (n : Nat) (x : Int) : List Byte := be n (x % (256 ^ n : Nat)).toNat

/-- The unsigned number that bytes spell, most significant first. -/
def fromBe (bytes : List Byte) : Nat := bytes.foldl (fun acc b => acc * 256 + b.toNat) 0

/-- A VT instant, nine bytes. -/
def beVt (t : Nat) : List Byte := be 5 (t / nsPerSecond) ++ be 4 (t % nsPerSecond)

/-- A VT instant or absent. -/
def beVtOpt : Option Nat → List Byte
  | some t => beVt t
  | none => List.replicate 9 255#8

/-- A VT instant to the millisecond, seven bytes. -/
def beVtMs (t : Nat) : List Byte := be 5 (t / nsPerSecond) ++ be 2 (t % nsPerSecond / 1000000)

/-- A civil time in records, seven bytes. -/
def beCivil (c : Civil) : List Byte := beInt 3 c.day ++ be 4 (c.ns / 1000000)

/-- true 1, false 0. -/
def beBool (b : Bool) : List Byte := [if b then 1#8 else 0#8]

/-- A number of a reference, line, group, agent or page, or a code; 255 for none or absent. -/
def beOpt (o : Option Nat) : List Byte := [BitVec.ofNat 8 (o.getD 255)]

def ClockState.code : ClockState → Nat
  | .free => 0 | .acquiring => 1 | .tracking => 2 | .holdover => 3 | .untraceable => 4

def Grade.code : Grade → Nat
  | .a => 0 | .b => 1 | .c => 2 | .d => 3

def Leap.code : Leap → Nat
  | .noLeap => 0 | .insert => 1 | .delete => 2

def ClockCause.code : ClockCause → Nat
  | .selection => 0 | .lock => 1 | .unlock => 2 | .step => 3 | .uLimit => 4 | .limits => 5

def RefState.code : RefState → Nat
  | .disabled => 0 | .searching => 1 | .candidate => 2 | .qualified => 3

def Profile.code : Profile → Nat
  | .hz1 => 0 | .hz10 => 1 | .hz100 => 2

def RefCause.code : RefCause → Nat
  | .matched => 0 | .lock => 1 | .timing => 2 | .missing => 3 | .overrun => 4 | .label => 5 | .enable => 6 | .disable => 7

def LineState.code : LineState → Nat
  | .off => 0 | .holding => 1 | .held => 2 | .running => 3 | .isolated => 4

def Health.code : Health → Nat
  | .normal => 0 | .warning => 1 | .degraded => 2

def LineCause.code : LineCause → Nat
  | .hold => 0 | .drained => 1 | .drainTimeout => 2 | .release => 3 | .reconnect => 4 | .isolation => 5 | .recLevel => 6

def FilterMode.code : FilterMode → Nat
  | .all => 0 | .listed => 1

def IssuerState.code : IssuerState → Nat
  | .closed => 0 | .opened => 1 | .exhausted => 2

def OpenCause.code : OpenCause → Nat
  | .tracking => 0 | .request => 1

def Disposition.code : Disposition → Nat
  | .accepted => 0 | .late => 1 | .refusedSession => 2 | .refusedGroup => 3

def AuctionState.code : AuctionState → Nat
  | .idle => 0 | .armed => 1 | .call => 2 | .window => 3 | .deferred => 4 | .held => 5 | .cut => 6 | .closed => 7
  | .cancelled => 8

def DeadlineKind.code : DeadlineKind → Nat
  | .callStart => 0 | .windowStart => 1 | .endAt => 2 | .deferLimit => 3 | .settle => 4

def DeferReason.code : DeferReason → Nat
  | .clock => 0 | .journal => 1 | .both => 2

def JournalState.code : JournalState → Nat
  | .starting => 0 | .normal => 1 | .tight => 2 | .stalled => 3 | .exhausted => 4

def PageState.code : PageState → Nat
  | .free => 0 | .opened => 1 | .closed => 2 | .exported => 3 | .erasing => 4 | .defective => 5

def CloseCause.code : CloseCause → Nat
  | .full => 0 | .request => 1 | .short => 2 | .recovery => 3

def DefectCause.code : DefectCause → Nat
  | .openFailed => 0 | .eraseVerify => 1

def RestartCause.code : RestartCause → Nat
  | .power => 0 | .pin => 1 | .request => 2

def AgentState.code : AgentState → Nat
  | .disabled => 0 | .unknown => 1 | .conforming => 2 | .divergent => 3 | .stale => 4 | .faulted => 5

/-- The codes of the poll error kinds: the order of the kind table of 07, and BUS_ERROR, which it does not list, behind them (the
model's choice, log 36). -/
def PollError.code : PollError → Nat
  | .addressNack => 0 | .dataNack => 1 | .timeout => 2 | .arbitrationLost => 3 | .checkFail => 4 | .notReady => 5
  | .busError => 6

def AgentCause.code : AgentCause → Nat
  | .enable => 0 | .disable => 1 | .reading => 2 | .stale => 3 | .fault => 4

/-- Status codes of R179, as the part reads and reports them. -/
def AgentStatus.code : AgentStatus → Nat
  | .traceable => 1 | .untraceable => 2 | .notReady => 3

def SurveyState.code : SurveyState → Nat
  | .running => 0 | .halted => 1

def BusState.code : BusState → Nat
  | .idle => 0 | .own => 1 | .foreign => 2 | .clearing => 3

def Phase.code : Phase → Nat
  | .mark => 0 | .gap => 1 | .read => 2

def Status.code : Status → Nat
  | .ok => 0 | .busy => 1 | .starting => 2 | .frameRejected => 3 | .unknownKind => 4 | .badLength => 5 | .badArgument => 6
  | .wrongState => 7 | .journalFull => 8 | .tooLate => 9 | .extensionLimit => 10 | .chainMismatch => 11
  | .notExported => 12 | .retentionRunning => 13

def RejectCause.code : RejectCause → Nat
  | .length => 0 | .timeout => 1 | .byteFraming => 2 | .check => 3

/-- Record kind codes of R181. -/
def RecKind.code : RecKind → Nat
  | .start => 1 | .clockState => 2 | .step => 3 | .leap => 4 | .clockLimits => 5 | .stampingOpen => 6
  | .sequenceExhausted => 7 | .auctionArm => 8 | .draw => 9 | .withdraw => 10 | .extend => 11 | .defer => 12 | .hold => 13
  | .cut => 14 | .cancel => 15 | .gap => 16 | .pageDefect => 17
  | .referenceState => 32 | .referenceDisagree => 33 | .leapConflict => 34 | .clockSummary => 35 | .lineConfig => 36
  | .lineState => 37 | .drop => 38 | .clear => 39 | .agentState => 40 | .surveyHalt => 41 | .annotation => 42
  | .pageOpen => 43

/-- The class of a record kind (R111). -/
def RecKind.critical : RecKind → Bool
  | .start | .clockState | .step | .leap | .clockLimits | .stampingOpen | .sequenceExhausted | .auctionArm | .draw
  | .withdraw | .extend | .defer | .hold | .cut | .cancel | .gap | .pageDefect => true
  | .referenceState | .referenceDisagree | .leapConflict | .clockSummary | .lineConfig | .lineState | .drop | .clear
  | .agentState | .surveyHalt | .annotation | .pageOpen => false

/-- Notice kind codes of R180. -/
def NoticeKind.code : NoticeKind → Nat
  | .start => 1 | .clockState => 2 | .step => 3 | .leap => 4 | .referenceState => 5 | .referenceDisagree => 6
  | .lineState => 7 | .lineHeld => 8 | .stampingOpen => 9 | .sequenceExhausted => 10 | .auctionState => 11
  | .recordsLost => 12 | .journalState => 13 | .pageClosed => 14 | .pageFreed => 15 | .pageDefect => 16 | .agentState => 17
  | .surveyHalt => 18

/-- The type byte and the number byte of a notice's subject (R180). -/
def Subject.bytes : Subject → List Byte
  | .nothing => [0#8, 255#8]
  | .reference n => [1#8, BitVec.ofNat 8 n]
  | .line n => [2#8, BitVec.ofNat 8 n]
  | .group n => [3#8, BitVec.ofNat 8 n]
  | .page n => [4#8, BitVec.ofNat 8 n]
  | .agent n => [5#8, BitVec.ofNat 8 n]

/-- A message filled with zeros to `n` bytes. -/
def padTo (n : Nat) (bytes : List Byte) : List Byte := bytes ++ List.replicate (n - bytes.length) 0#8

/-! ## Return frames (R177) -/

/-- A return frame of forty bytes: type, line, the fields from byte 2 on, zeros, and the frame check. -/
def returnFrame (type : Nat) (line : Fin 8) (fields : List Byte) : List Byte :=
  let head := padTo 38 (BitVec.ofNat 8 type :: BitVec.ofNat 8 line.val :: fields)
  head ++ be 2 (crc16 head).toNat

def TagFields.bytes (t : TagFields) : List Byte :=
  be 2 t.session.toNat ++ [t.group, t.kind] ++ be 4 t.client.toNat

/-- The flags byte of a stamp frame. -/
def Stamp.flagByte (s : Stamp) : Nat :=
  (if s.lineDegraded then 1 else 0) + (if s.peerNotConforming then 2 else 0) + (if s.leapSecond then 4 else 0)

/-- The STAMP or NOT_OPEN frame of an answer. -/
def Answer.frame : Answer → List Byte
  | .stamp s => returnFrame 1 s.line
      (be 4 s.epoch ++ be 6 s.sequence ++ beVt s.capture ++ be 1 s.grade.code ++ be 3 s.u ++ be 1 s.disposition.code
        ++ beOpt (s.phase.map (·.code)) ++ beOpt (s.hit.map (·.val)) ++ be 1 s.flagByte
        ++ be 1 IssuerState.opened.code ++ s.echo.bytes)
  | .notOpen a => returnFrame 2 a.line
      (be 4 a.epoch ++ be 6 0 ++ beVt a.capture ++ be 1 a.grade.code ++ be 3 a.u ++ [255#8, 255#8, 255#8, 0#8]
        ++ be 1 a.issuer.code ++ a.echo.bytes)

/-- The DROP frame. -/
def dropFrame (line : Fin 8) (epoch : Nat) (t : Tally) (vt : Nat) : List Byte :=
  returnFrame 3 line
    (be 4 epoch ++ be 6 t.count ++ be 6 (t.lowest.getD 0) ++ be 6 (t.highest.getD 0) ++ beVt vt)

/-- The QUALITY frame. -/
def qualityFrame (line : Fin 8) (clock : ClockState) (grade : Grade) (u : Nat) (pending : Leap) (k delay : Nat)
    (vt : Nat) : List Byte :=
  returnFrame 4 line
    (be 1 clock.code ++ be 1 grade.code ++ be 3 u ++ be 1 pending.code ++ be 1 k ++ be 2 delay ++ beVt vt)

/-- The PHASE frame; the window fields and the cut time are present in the states R57 names. -/
def phaseFrame (line : Fin 8) (group : Fin 32) (a : Auction) (vt : Nat) : List Byte :=
  let window : Bool := match a.state with
    | .armed | .call | .window | .deferred | .held | .cut | .closed => true
    | .idle | .cancelled => false
  let cut : Bool := match a.state with
    | .cut | .closed => true
    | .idle | .armed | .call | .window | .deferred | .held | .cancelled => false
  let presence := (if window then 1 else 0) + (if cut then 2 else 0)
  returnFrame 5 line
    (be 1 group.val ++ be 1 a.state.code ++ be 1 presence
      ++ (if window then beVt ((a.windowStart.map (·.vt)).getD 0) ++ be 3 a.windowLength else List.replicate 12 0#8)
      ++ (if cut then beVt (a.cutTime.getD 0) else List.replicate 9 0#8)
      ++ beVt vt)

/-! ## Host link (R180) -/

/-- A notice's twenty-four bytes. -/
def Notice.bytes (n : Notice) : List Byte :=
  padTo 24 (be 4 n.number ++ be 1 n.kind.code ++ beVt n.vt ++ n.subject.bytes ++ n.data)

/-- A reply frame as it is sent on HTX. -/
def Reply.frame (r : Reply) : List Byte :=
  let checked := be 2 r.body.length ++ [r.kind, r.tag] ++ be 1 r.status.code ++ r.body
  0xC3#8 :: checked ++ be 2 (crc16 checked).toNat

/-- A request frame as the host sends it. -/
def requestFrame (kind tag : Byte) (body : List Byte) : List Byte :=
  let checked := be 2 body.length ++ [kind, tag] ++ body
  0xC3#8 :: checked ++ be 2 (crc16 checked).toNat

/-! ## Journal records (R181) and the draw check (R182) -/

/-- Bytes 0 to 59 of a record. -/
def recordHead (r : Record) (epoch serial slot : Nat) : List Byte :=
  padTo 60 ([BitVec.ofNat 8 (r.kind.code + if r.kind.critical then 128 else 0), BitVec.ofNat 8 r.subject]
    ++ be 4 epoch ++ beVt r.vt ++ be 4 serial ++ be 1 slot ++ r.body)

/-- The chain value of a record, from that of the record written before it. -/
def recordChain (prev : Chain) (r : Record) (epoch serial slot : Nat) : Chain :=
  crc32 prev (recordHead r epoch serial slot)

/-- The sixty-four bytes of a written record. -/
def recordBytes (prev : Chain) (r : Record) (epoch serial slot : Nat) : List Byte :=
  recordHead r epoch serial slot ++ be 4 (recordChain prev r epoch serial slot).toNat

/-- The draw check over end, nonce, group and arming index. -/
def drawCheckOf (drawnEnd : Nat) (nonce : Word64) (group : Fin 32) (index : Nat) : Word64 :=
  crc64 (beVt drawnEnd ++ be 8 nonce.toNat ++ be 1 group.val ++ be 8 index)

/-- The body of an auction record once the arming index is known.  The duration of a deferral, from the drawn end to the cut
time, is 0 where a backward step has put the cut time before the drawn end (the model's choice, log 32). -/
def AucBody.bytes (group : Fin 32) (index : Nat) : AucBody → List Byte
  | .plain bytes => bytes
  | .draw ws len e n => beVt ws ++ be 3 len ++ be 8 index ++ be 8 (drawCheckOf e n group index).toNat
  | .withdraw e n => beVt e ++ be 8 n.toNat ++ be 8 (drawCheckOf e n group index).toNat
  | .cancel st inCount drawn => be 1 st.code ++ beBool drawn.isSome ++ be 6 inCount
      ++ (match drawn with
          | some (e, n) => beVt e ++ be 8 n.toNat ++ be 8 (drawCheckOf e n group index).toNat
          | none => List.replicate 25 0#8)
  | .cut forced grade ext u e n inCount lastIn cutTime =>
      be 1 ((if forced then 128 else 0) + grade.code * 32 + ext) ++ be 3 u ++ be 3 index ++ be 8 n.toNat
        ++ be 8 (e / 1000) ++ be 6 inCount ++ be 6 lastIn ++ be 5 (min (cutTime - e) 1099511627775)

/-- The record a held auction record becomes. -/
def HeldRecord.toRecord (h : HeldRecord) (group : Fin 32) (index : Nat) : Record :=
  { kind := h.kind, subject := group.val, vt := h.vt, body := h.body.bytes group index }

end Sys2Proof.Machine
end

