-- ==== Sys2Proof/Machine/Operands.lean ====
section
/-!
DEFINITION. Machine/Operands.lean: every form in which bytes from outside reach the part: the bodies of the request kinds (R180,
both ways), tag frames (R176), label frames (R178) and agent readings (R179).
-/
namespace Sys2Proof.Machine

/-- The number in `len` bytes from byte `off` on. -/
def field (bytes : List Byte) (off len : Nat) : Nat := fromBe ((bytes.drop off).take len)

/-! ## Requests -/

/-- What the checks of R164 make of a kind and a body. -/
inductive Parsed where
  | request (r : Request)
  | unknownKind
  | badLength
deriving DecidableEq, Repr


/-- The kind code of a request (R180). -/
def kindOf : Request → Byte
  | .identify => 0x01#8 | .restart => 0x02#8 | .fetchNotices _ => 0x03#8
  | .setClockLimits _ => 0x10#8 | .readClock => 0x11#8 | .announceLeap _ => 0x12#8
  | .configureReference _ => 0x18#8 | .enableReference _ => 0x19#8 | .disableReference _ => 0x1A#8
  | .readReference _ => 0x1B#8
  | .holdLine _ => 0x20#8 | .configureLine _ _ _ => 0x21#8 | .setFilter _ _ _ _ _ => 0x22#8 | .releaseLine _ => 0x23#8
  | .reconnectLine _ => 0x24#8 | .readLine _ => 0x25#8
  | .openStamping => 0x28#8 | .readIssuer => 0x29#8
  | .armAuction _ => 0x30#8 | .extendAuction _ => 0x31#8 | .cutNow _ => 0x32#8 | .cancelAuction _ => 0x33#8
  | .clearAuction _ => 0x34#8 | .readAuction _ => 0x35#8
  | .readJournal => 0x38#8 | .readRecords _ _ _ => 0x39#8 | .closePage => 0x3A#8 | .confirmExport _ _ _ => 0x3B#8
  | .releasePage _ => 0x3C#8 | .annotate _ => 0x3D#8
  | .configureAgent _ => 0x40#8 | .enableAgent _ => 0x41#8 | .disableAgent _ => 0x42#8 | .resumeSurvey => 0x43#8
  | .readAgent _ => 0x44#8

def ClockLimits.bytes (l : ClockLimits) : List Byte :=
  be 4 l.tracking ++ be 4 l.tight ++ be 4 l.traceability ++ be 4 l.baseU ++ be 2 l.unaidedRate ++ be 2 l.aidedRate
    ++ be 2 l.tau ++ be 4 l.slewLimit ++ be 4 l.stepThreshold ++ be 1 l.lockCount ++ be 1 l.unlockCount
    ++ be 2 l.summaryInterval

def CivilArgs.bytes (c : CivilArgs) : List Byte :=
  be 2 c.year ++ be 1 c.month ++ be 1 c.day ++ be 1 c.hour ++ be 1 c.minute ++ be 1 c.second ++ be 2 c.milli

/-- The body of a request (R180). -/
def bodyOf : Request → List Byte
  | .identify => [] | .restart => [] | .fetchNotices n => be 1 n
  | .setClockLimits l => ClockLimits.bytes l
  | .readClock => [] | .announceLeap v => be 1 v
  | .configureReference a => be 1 a.ref ++ be 1 a.polarity ++ be 1 a.profiles ++ be 1 a.bandClass ++ be 1 a.lockValue
      ++ be 1 a.unlockValue ++ be 1 a.priority ++ be 1 a.labelUse
  | .enableReference r => be 1 r | .disableReference r => be 1 r | .readReference r => be 1 r
  | .holdLine l => be 1 l
  | .configureLine l m d => be 1 l ++ be 1 m ++ be 2 d
  | .setFilter l i e c m => be 1 l ++ be 1 i ++ be 1 e ++ be 2 c ++ be 2 m
  | .releaseLine l => be 1 l | .reconnectLine l => be 1 l | .readLine l => be 1 l
  | .openStamping => [] | .readIssuer => []
  | .armAuction a => be 1 a.group ++ CivilArgs.bytes a.callStart ++ CivilArgs.bytes a.windowStart ++ be 4 a.windowLength
      ++ be 2 a.extLength ++ be 1 a.maxExt ++ be 2 a.deferLimit
  | .extendAuction g => be 1 g | .cutNow g => be 1 g | .cancelAuction g => be 1 g | .clearAuction g => be 1 g
  | .readAuction g => be 1 g
  | .readJournal => []
  | .readRecords p i n => be 4 p ++ be 1 i ++ be 1 n
  | .closePage => []
  | .confirmExport p c r => be 4 p ++ be 4 c ++ (match r with | some d => be 2 d | none => [])
  | .releasePage p => be 4 p | .annotate d => d
  | .configureAgent a => be 1 a.agent ++ be 1 a.address ++ be 2 a.periodMs ++ be 1 a.busClock ++ be 2 a.latency
      ++ be 4 a.limit ++ be 1 a.binding
  | .enableAgent a => be 1 a | .disableAgent a => be 1 a
  | .resumeSurvey => [] | .readAgent a => be 1 a

/-- A request of a kind with one allowed body length. -/
def whenLength (body : List Byte) (len : Nat) (r : Request) : Parsed := if body.length = len then .request r else .badLength

def readLimits (b : List Byte) : ClockLimits :=
  { tracking := field b 0 4, tight := field b 4 4, traceability := field b 8 4, baseU := field b 12 4,
    unaidedRate := field b 16 2, aidedRate := field b 18 2, tau := field b 20 2, slewLimit := field b 22 4,
    stepThreshold := field b 26 4, lockCount := field b 30 1, unlockCount := field b 31 1,
    summaryInterval := field b 32 2 }

def readCivil (b : List Byte) (off : Nat) : CivilArgs :=
  { year := field b off 2, month := field b (off + 2) 1, day := field b (off + 3) 1, hour := field b (off + 4) 1,
    minute := field b (off + 5) 1, second := field b (off + 6) 1, milli := field b (off + 7) 2 }

/-- The kind and body of a received request, as R164 checks them. -/
def parseRequest (kind : Byte) (b : List Byte) : Parsed :=
  match kind.toNat with
  | 0x01 => whenLength b 0 .identify
  | 0x02 => whenLength b 0 .restart
  | 0x03 => whenLength b 1 (.fetchNotices (field b 0 1))
  | 0x10 => whenLength b 34 (.setClockLimits (readLimits b))
  | 0x11 => whenLength b 0 .readClock
  | 0x12 => whenLength b 1 (.announceLeap (field b 0 1))
  | 0x18 => whenLength b 8 (.configureReference
      { ref := field b 0 1, polarity := field b 1 1, profiles := field b 2 1, bandClass := field b 3 1,
        lockValue := field b 4 1, unlockValue := field b 5 1, priority := field b 6 1, labelUse := field b 7 1 })
  | 0x19 => whenLength b 1 (.enableReference (field b 0 1))
  | 0x1A => whenLength b 1 (.disableReference (field b 0 1))
  | 0x1B => whenLength b 1 (.readReference (field b 0 1))
  | 0x20 => whenLength b 1 (.holdLine (field b 0 1))
  | 0x21 => whenLength b 4 (.configureLine (field b 0 1) (field b 1 1) (field b 2 2))
  | 0x22 => whenLength b 7 (.setFilter (field b 0 1) (field b 1 1) (field b 2 1) (field b 3 2) (field b 5 2))
  | 0x23 => whenLength b 1 (.releaseLine (field b 0 1))
  | 0x24 => whenLength b 1 (.reconnectLine (field b 0 1))
  | 0x25 => whenLength b 1 (.readLine (field b 0 1))
  | 0x28 => whenLength b 0 .openStamping
  | 0x29 => whenLength b 0 .readIssuer
  | 0x30 => whenLength b 28 (.armAuction
      { group := field b 0 1, callStart := readCivil b 1, windowStart := readCivil b 10, windowLength := field b 19 4,
        extLength := field b 23 2, maxExt := field b 25 1, deferLimit := field b 26 2 })
  | 0x31 => whenLength b 1 (.extendAuction (field b 0 1))
  | 0x32 => whenLength b 1 (.cutNow (field b 0 1))
  | 0x33 => whenLength b 1 (.cancelAuction (field b 0 1))
  | 0x34 => whenLength b 1 (.clearAuction (field b 0 1))
  | 0x35 => whenLength b 1 (.readAuction (field b 0 1))
  | 0x38 => whenLength b 0 .readJournal
  | 0x39 => whenLength b 6 (.readRecords (field b 0 4) (field b 4 1) (field b 5 1))
  | 0x3A => whenLength b 0 .closePage
  | 0x3B =>
    if b.length = 8 then .request (.confirmExport (field b 0 4) (field b 4 4) none)
    else whenLength b 10 (.confirmExport (field b 0 4) (field b 4 4) (some (field b 8 2)))
  | 0x3C => whenLength b 4 (.releasePage (field b 0 4))
  | 0x3D => whenLength b 40 (.annotate b)
  | 0x40 => whenLength b 12 (.configureAgent
      { agent := field b 0 1, address := field b 1 1, periodMs := field b 2 2, busClock := field b 4 1,
        latency := field b 5 2, limit := field b 7 4, binding := field b 11 1 })
  | 0x41 => whenLength b 1 (.enableAgent (field b 0 1))
  | 0x42 => whenLength b 1 (.disableAgent (field b 0 1))
  | 0x43 => whenLength b 0 .resumeSurvey
  | 0x44 => whenLength b 1 (.readAgent (field b 0 1))
  | _ => .unknownKind

/-- What the checks of R164 make of a request given by its fields: only Annotate, whose field is its body, can have a
length its kind does not allow. -/
def checkedRequest : Request → Parsed
  | .annotate d => whenLength d 40 (.annotate d)
  | r => .request r

/-! ## Tag frames (R44, R176) -/

/-- What the judgement of a tag frame finds. -/
inductive Judged where
  | bad (cause : BadCause)
  | valid (fields : TagFields)
deriving DecidableEq, Repr

/-- The judgement of a frame from its data bytes and its ending, the first cause that applies. -/
def judgeFrame (bytes : List Byte) (ending : FrameEnding) : Judged :=
  if ending = .unresolved then .bad .framing
  else if bytes.length ≠ 16 ∨ ending = .extraByte then .bad .length
  else if (crc16 (bytes.take 14)).toNat ≠ field bytes 14 2 then .bad .check
  else if field bytes 3 1 = 0 ∨ 5 < field bytes 3 1 then .bad .kind
  else .valid
    { session := BitVec.ofNat 16 (field bytes 0 2), group := BitVec.ofNat 8 (field bytes 2 1),
      kind := BitVec.ofNat 8 (field bytes 3 1), client := BitVec.ofNat 32 (field bytes 4 4) }

/-! ## Label frames (R178) -/

/-- The label a well-formed frame carries; none for an ill-formed one. -/
def parseLabel (bytes : List Byte) (stopLow : Bool) : Option Label :=
  if stopLow then none
  else if bytes.length ≠ 10 then none
  else if (crc8 ((bytes.drop 1).take 8)).toNat ≠ field bytes 9 1 then none
  else
    let warning : Option Leap := match field bytes 7 1 with
      | 0 => some .noLeap
      | 1 => some .insert
      | 2 => some .delete
      | _ => none
    match warning with
    | none => none
    | some w =>
      if 1 < field bytes 8 1 then none
      else some { second := field bytes 1 5, leapCount := field bytes 6 1, warning := w, traceable := field bytes 8 1 == 1 }

/-- The bytes begin a label frame: the first one is the sync value, received with its stop bit high. -/
def startsLabel (bytes : List Byte) (stopLow : Bool) : Bool :=
  bytes.head? == some 0xB5#8 && !(stopLow && bytes.length == 1)

/-! ## Agent readings (R148, R179) -/

/-- What the checks of R148 make of sixteen bytes. -/
inductive ReadingCheck where
  | failed (e : PollError)
  | good (time : Nat) (agentU : Nat) (status : AgentStatus)
deriving DecidableEq, Repr

def checkReading (bytes : List Byte) : ReadingCheck :=
  let ns := field bytes 5 4
  let status : Option AgentStatus := match field bytes 13 1 with
    | 1 => some .traceable
    | 2 => some .untraceable
    | 3 => some .notReady
    | _ => none
  if (crc8 (bytes.take 15)).toNat ≠ field bytes 15 1 then .failed .checkFail
  else if 999999999 < ns then .failed .checkFail
  else match status with
    | none => .failed .checkFail
    | some .notReady => .failed .notReady
    | some st => .good (field bytes 0 5 * nsPerSecond + ns) (field bytes 9 4) st

end Sys2Proof.Machine
end

