-- ==== Sys2Proof/Machine/Ops.lean ====
section
/-!
DEFINITION. Machine/Ops.lean: the named operations over the state that every block shares: access to the tables, notices (R167),
the intake's acceptance of a record and its losses (R113, R114), and the order of the deadline list (R84).
-/
namespace Sys2Proof.Machine

/-! ## Access to the tables -/

def State.line (s : State) (i : Fin 8) : Line := s.lines[i]
def State.setLine (s : State) (i : Fin 8) (l : Line) : State := { s with lines := s.lines.set i l }

def State.group (s : State) (g : Fin 32) : Auction := s.auc.groups[g]
def State.setGroup (s : State) (g : Fin 32) (a : Auction) : State :=
  { s with auc := { s.auc with groups := s.auc.groups.set g a } }

def State.ref (s : State) (i : Fin 3) : Ref := s.rfe.refs[i]
def State.setRef (s : State) (i : Fin 3) (r : Ref) : State :=
  { s with rfe := { s.rfe with refs := s.rfe.refs.set i r } }

def State.page (s : State) (p : Fin 64) : Page := s.ej.pages[p]
def State.setPage (s : State) (p : Fin 64) (pg : Page) : State :=
  { s with ej := { s.ej with pages := s.ej.pages.set p pg } }

def State.agent (s : State) (a : Fin 8) : Agent := s.psm.agents[a]
def State.setAgent (s : State) (a : Fin 8) (x : Agent) : State :=
  { s with psm := { s.psm with agents := s.psm.agents.set a x } }

/-- A named number of a table, from a request's field: none when it names no entry. -/
def named (n x : Nat) : Option (Fin n) := if h : x < n then some ⟨x, h⟩ else none

/-! ## Outcomes -/

/-- The outcome of every command: while the part runs, the command's effect; while it is without supply or held by RESET,
nothing happens (R173). -/
def whenLive (s : State) (effect : State → State) : Host.Outcome State Fault Refusal :=
  .next (if s.live then effect s else s)

/-! ## Notices -/

/-- One notice produced, with the VT it carries (R167). -/
def notifyAt (s : State) (kind : NoticeKind) (vt : Nat) (subject : Subject) (data : List Byte) : State :=
  let h := s.hli
  let next := if h.nextNotice < Config.max32 then h.nextNotice + 1 else 0
  if h.notices.length < Config.noticeSlots then
    { s with hli := { h with nextNotice := next, notices := h.notices ++ [⟨h.nextNotice, kind, vt, subject, data⟩] } }
  else { s with hli := { h with nextNotice := next, overflow := sat32 h.overflow } }

/-- One notice produced now. -/
def notify (s : State) (kind : NoticeKind) (subject : Subject) (data : List Byte) : State :=
  notifyAt s kind s.now subject data

/-! ## The intake -/

/-- A record lost: counted by its class, with the first-loss VT and the notice of a first loss (R114), which gives the kind by
its code of R181 (the model's choice, log 30). -/
def loseRecord (s : State) (kind : RecKind) : State :=
  let e := s.ej
  let first : Bool := e.criticalLost == 0 && e.nonCriticalLost == 0
  let counted : Ej :=
    if kind.critical then { e with criticalLost := freeSucc 3 Config.noIndex e.criticalLost }
    else { e with nonCriticalLost := freeSucc 4 Config.noIndex e.nonCriticalLost }
  if first then
    notify { s with ej := { counted with firstLoss := some s.now } } .recordsLost .nothing (be 1 kind.code)
  else { s with ej := counted }

/-- A record offered to the intake: taken at its tail, or lost (R113).  The writer's decision is not part of this. -/
def enqueue (s : State) (r : Record) : State :=
  if s.ej.takes r.kind.critical then { s with ej := { s.ej with intake := s.ej.intake ++ [r] } }
  else loseRecord s r.kind

/-! ## The deadline list (R84) -/

/-- A deadline put at the place its order gives it. -/
def insertDeadline (d : Deadline) : List Deadline → List Deadline
  | [] => [d]
  | e :: es => if d.before e then d :: e :: es else e :: insertDeadline d es

/-- The deadlines an entry has in its state (the second table of R84). -/
def Auction.deadlines (a : Auction) (g : Fin 32) : List Deadline :=
  match a.state with
  | .armed => [⟨(a.callStart.map (·.vt)).getD 0, g, .callStart⟩, ⟨(a.windowStart.map (·.vt)).getD 0, g, .windowStart⟩]
  | .call => [⟨(a.windowStart.map (·.vt)).getD 0, g, .windowStart⟩]
  | .window => [⟨a.drawnEnd.getD 0, g, .endAt⟩]
  | .deferred => [⟨a.drawnEnd.getD 0 + a.deferLimit * nsPerSecond, g, .deferLimit⟩]
  | .cut => [⟨a.cutTime.getD 0 + 2000, g, .settle⟩]
  | .idle | .held | .closed | .cancelled => []

/-- The deadlines of a group taken out and those its entry has now put in. -/
def refreshDeadlines (s : State) (g : Fin 32) : State :=
  let rest := s.auc.deadlines.filter fun d => d.group != g
  { s with auc := { s.auc with deadlines := ((s.group g).deadlines g).foldl (fun ds d => insertDeadline d ds) rest } }

/-- An entry replaced, its deadlines following its state (step 1 of R83). -/
def enter (s : State) (g : Fin 32) (a : Auction) : State := refreshDeadlines (s.setGroup g a) g

end Sys2Proof.Machine
end

