-- ==== Sys2Proof/Machine/Lane.lean ====
section
/-!
DEFINITION. Machine/Lane.lean: the return-lane scheduler (R61 to R63) and the pendings that feed it (R56, R57).  A DROP record is
offered when a drop notice is sent, so each operation takes the way a record is offered as an argument: within the
writer's own decision that is `enqueue` (the writer is busy by then), everywhere else `offer` (Machine/Writer.lean).
-/
namespace Sys2Proof.Machine

/-- The way a record is offered. -/
abbrev Offerer := State → Record → State

/-- A stamp enters the drop tally (R53). -/
def Line.tallied (l : Line) (sequence : Nat) : Line :=
  { l with
    tally :=
      { count := l.tally.count + 1
        lowest := some (match l.tally.lowest with | none => sequence | some x => min x sequence)
        highest := some (match l.tally.highest with | none => sequence | some x => max x sequence) }
    counters := { l.counters with stampsDropped := satSucc Config.lastSequence l.counters.stampsDropped } }

/-- An answer the line cannot send: a stamp is tallied, a NOT_OPEN answer discarded (R46, R52, R53). -/
def Line.dropped (l : Line) : Answer → Line
  | .stamp st => l.tallied st.sequence
  | .notOpen _ => { l with counters := { l.counters with notOpenDiscarded := sat32 l.counters.notOpenDiscarded } }

/-- The whole return queue removed, oldest first. -/
def Line.discardQueue (l : Line) : Line := { l.queue.foldl Line.dropped l with queue := [] }

/-- The drop notice's send (R55). -/
def sendDrop (offer : Offerer) (s : State) (i : Fin 8) : State :=
  let l := s.line i
  let s := s.setLine i
    { l with
      lane := some (dropFrame i s.sis.epoch l.tally s.now)
      tally := {}
      interleave := 0
      counters := { l.counters with dropsSent := sat32 l.counters.dropsSent } }
  offer s
    { kind := .drop, subject := i.val, vt := s.now,
      body := be 6 l.tally.count ++ be 6 (l.tally.lowest.getD 0) ++ be 6 (l.tally.highest.getD 0) ++ beVt s.now }

/-- The quality frame's send (R56). -/
def sendQuality (s : State) (i : Fin 8) : State :=
  let l := s.line i
  let t := s.tsu
  s.setLine i
    { l with
      lane := some (qualityFrame i t.clock t.grade t.u t.pendingLeap t.leapCount l.pathDelay s.now)
      quality := false
      interleave := 0
      counters := { l.counters with qualitySent := sat32 l.counters.qualitySent } }

/-- The phase frame's send for a group that leaves the set (R57). -/
def sendPhase (s : State) (i : Fin 8) (g : Fin 32) (rest : List (Fin 32)) : State :=
  let l := s.line i
  s.setLine i
    { l with
      lane := some (phaseFrame i g (s.group g) s.now)
      phases := rest
      interleave := 0
      counters := { l.counters with phaseSent := sat32 l.counters.phaseSent } }

/-- The send of the answer at the head of the queue (R62). -/
def sendAnswer (s : State) (i : Fin 8) (a : Answer) (rest : List Answer) : State :=
  let l := s.line i
  s.setLine i
    { l with
      lane := some a.frame
      queue := rest
      interleave := min 8 (l.interleave + 1)
      counters := match a with
        | .stamp _ => { l.counters with stampsSent := satSucc Config.lastSequence l.counters.stampsSent }
        | .notOpen _ => { l.counters with notOpenSent := sat32 l.counters.notOpenSent } }

/-- The scheduler may begin a frame on the lane (R61, R63). -/
def Line.maySend (l : Line) : Bool :=
  (l.state == .running || l.state == .holding) && l.lane.isNone && !l.pause

/-- One choice of the scheduler, if it has one to make (R61). -/
def scheduleWith (offer : Offerer) (s : State) (i : Fin 8) : State :=
  let l := s.line i
  if l.maySend then
    if l.dropPending then sendDrop offer s i
    else
      let turn : Bool := l.queue.isEmpty || l.interleave == 8
      match l.quality, l.phases, turn with
      | true, _, true => sendQuality s i
      | false, g :: rest, true => sendPhase s i g rest
      | _, _, _ =>
        match l.queue with
        | a :: rest => sendAnswer s i a rest
        | [] => s
  else s

/-- A quality frame made pending on one line (R56). -/
def qualityOnWith (offer : Offerer) (s : State) (i : Fin 8) : State :=
  let l := s.line i
  if l.state = .running then scheduleWith offer (s.setLine i { l with quality := true }) i else s

/-- A quality frame made pending on every RUNNING line (R56). -/
def qualityPendingWith (offer : Offerer) (s : State) : State := allEight.foldl (qualityOnWith offer) s

/-- A group added to a pending phase set, ascending, once. -/
def addGroup (g : Fin 32) : List (Fin 32) → List (Fin 32)
  | [] => [g]
  | h :: hs => if g < h then g :: h :: hs else if g = h then h :: hs else h :: addGroup g hs

/-- A group's phase frame made pending on one line (R57). -/
def phaseOnWith (offer : Offerer) (g : Fin 32) (s : State) (i : Fin 8) : State :=
  let l := s.line i
  if l.state = .running then scheduleWith offer (s.setLine i { l with phases := addGroup g l.phases }) i else s

/-- A group's phase frame made pending on every RUNNING line (R57). -/
def phasePendingWith (offer : Offerer) (s : State) (g : Fin 32) : State := allEight.foldl (phaseOnWith offer g) s

/-! ## Hand-on of a group's change and the cut (R83, R95, R98) -/

/-- Steps 3 and 4 of R83: the phase frame made pending and the AUCTION_STATE notice, with the VT of the change. -/
def showGroupWith (offer : Offerer) (s : State) (g : Fin 32) (vt : Nat) : State :=
  let s := phasePendingWith offer s g
  notifyAt s .auctionState vt (.group g.val) (be 1 (s.group g).state.code)

/-- A cut taken (R98). -/
def cutGroupWith (offer : Offerer) (s : State) (g : Fin 32) (cutTime : Nat) (forced : Bool) : State :=
  let a := s.group g
  let s := enter s g
    { a with state := .cut, cutTime := some cutTime, forced := forced, quality := some (s.tsu.u, s.tsu.grade) }
  showGroupWith offer s g s.now

/-- A report's cut of one group: a group in DEFERRED is cut now (R95), also where a backward step has left VT before the drawn
end (log 32). -/
def cutDeferredWith (offer : Offerer) (s : State) (g : Fin 32) : State :=
  if (s.group g).state = .deferred then cutGroupWith offer s g s.now false else s

/-- Every deferred group cut, in ascending order, when the cut conditions hold (R95). -/
def cutAllWith (offer : Offerer) (s : State) : State :=
  if s.auc.cutConditions then allGroups.foldl (cutDeferredWith offer) s else s

/-- The report of the traceable predicate (R95). -/
def traceableReportWith (offer : Offerer) (s : State) (v : Bool) : State :=
  cutAllWith offer { s with auc := { s.auc with traceableView := v } }

/-- The report of the journal state (R95). -/
def journalReportWith (offer : Offerer) (s : State) (v : JournalState) : State :=
  cutAllWith offer { s with auc := { s.auc with journalView := v } }

/-- The journal state judged from the page table and any change handed on (R122). -/
def judgeJournalWith (offer : Offerer) (s : State) : State :=
  match s.ej.state with
  | .starting | .exhausted => s
  | .normal | .tight | .stalled =>
    let old := s.ej.state
    let new := s.ej.judged
    if new = old then s
    else
      let s := journalReportWith offer { s with ej := { s.ej with state := new } } new
      notify s .journalState .nothing (be 1 old.code ++ be 1 new.code ++ be 1 (s.ej.pagesIn .free))

/-- The open page closed (R120). -/
def closePageWith (offer : Offerer) (s : State) (cause : CloseCause) : State :=
  match s.ej.openPage with
  | none => s
  | some (p, next) =>
    let pg := s.page p
    let s := s.setPage p
      { pg with state := .closed, closeCause := some cause, closeTime := some s.now, count := next,
                lastChain := some s.ej.chain }
    let s := judgeJournalWith offer { s with ej := { s.ej with openPage := none, closeRequested := false } }
    notify s .pageClosed (.page p.val) (be 4 (pg.serial.getD 0) ++ be 1 cause.code ++ be 1 next)

end Sys2Proof.Machine
end

