-- ==== Sys2Proof/Machine/Writer.lean ====
section
/-!
DEFINITION. Machine/Writer.lean: the journal's writer (R115, R117, R119) and, over it, the offer of a record to the intake as one event
(R113): acceptance, loss, and the writer's decision when the record was taken.
-/
namespace Sys2Proof.Machine

/-- The body of a GAP record (R117, R181). -/
def Gap.body (g : Gap) : List Byte := be 8 g.critical ++ be 8 g.nonCritical ++ beVtOpt g.first

/-- The GAP record that reports a gap. -/
def Gap.record (g : Gap) : Record := { kind := .gap, subject := 255, vt := g.vt, body := g.body }

/-- A write begun into a slot of the open page. -/
def beginWrite (s : State) (p : Fin 64) (slot : Nat) (r : Record) (src : WriteSource) : State :=
  { s with ej := { s.ej with writer := some { page := p, slot := Fin.ofNat 128 slot, record := r, source := src } } }

/-- A FREE page opened and the write of PAGE_OPEN begun into its slot 0 (R119); the new page count is judged with the
writer busy, so a record offered meanwhile only joins the intake. -/
def openPage (s : State) (p : Fin 64) : State :=
  let e := s.ej
  let serial := e.nextSerial
  let s := s.setPage p { s.page p with state := .opened, serial := some serial }
  let s := { s with ej := { s.ej with openPage := some (p, 0), nextSerial := freeSucc 1 Config.max32 serial } }
  let s := beginWrite s p 0
    { kind := .pageOpen, subject := p.val, vt := s.now,
      body := be 8 e.nextIndex ++ be 4 e.chain.toNat ++ be 4 serial ++ be 1 s.tsu.leapCount } .pageOpen
  judgeJournalWith enqueue s

/-- Something must be written (R115). -/
def Ej.mustWrite (e : Ej) : Bool := !e.intake.isEmpty || e.gapOwed.isSome

/-- The writer runs and is idle (R115). -/
def Ej.writerReady (e : Ej) : Bool :=
  e.writer.isNone && (e.state == .normal || e.state == .tight || e.state == .stalled)

/-- The writer's choice among what waits, once a page is open (R115, points 2 to 4). -/
def beginNext (s : State) (p : Fin 64) (slot : Nat) : State :=
  let e := s.ej
  match e.rewriteOwed, e.intake, e.gapOwed with
  | true, r :: _, _ => beginWrite s p slot r .intake
  | _, _, some g => beginWrite s p slot g.record (.gap g)
  | _, [], none => s
  | false, r :: _, none =>
    if 0 < e.criticalLost ∨ 0 < e.nonCriticalLost then
      let g : Gap := { critical := e.criticalLost, nonCritical := e.nonCriticalLost, first := e.firstLoss, vt := s.now }
      beginWrite { s with ej := { e with criticalLost := 0, nonCriticalLost := 0, firstLoss := none } } p slot g.record (.gap g)
    else beginWrite s p slot r .intake

/-- The writer's decision (R115). -/
def writerDecide (s : State) : State :=
  if s.ej.writerReady && s.ej.mustWrite then
    match s.ej.openPage with
    | none =>
      match s.ej.firstFree with
      | some p => openPage s p
      | none => s
    | some (p, slot) => beginNext s p slot
  else s

/-- One offer of a record to the intake (R113), with the writer's decision when the record was taken (R115). -/
def offer (s : State) (r : Record) : State :=
  let s' := enqueue s r
  if s.ej.takes r.kind.critical then writerDecide s' else s'

/-! ## The shared operations with records offered as events -/

/-- The scheduler's choice on a line (R61). -/
def schedule (s : State) (i : Fin 8) : State := scheduleWith offer s i

/-- A quality frame made pending on every RUNNING line (R56). -/
def qualityPending (s : State) : State := qualityPendingWith offer s

/-- A group's phase frame made pending on every RUNNING line (R57). -/
def phasePending (s : State) (g : Fin 32) : State := phasePendingWith offer s g

/-- Steps 3 and 4 of R83. -/
def showGroup (s : State) (g : Fin 32) (vt : Nat) : State := showGroupWith offer s g vt

/-- A cut taken (R98). -/
def cutGroup (s : State) (g : Fin 32) (cutTime : Nat) (forced : Bool) : State := cutGroupWith offer s g cutTime forced

/-- The report of the traceable predicate to the AUC (R95). -/
def traceableReport (s : State) (v : Bool) : State := traceableReportWith offer s v

/-- The report of the journal state to the AUC (R95). -/
def journalReport (s : State) (v : JournalState) : State := journalReportWith offer s v

/-- The journal state judged (R122). -/
def judgeJournal (s : State) : State := judgeJournalWith offer s

/-- The open page closed (R120). -/
def closePage (s : State) (cause : CloseCause) : State := closePageWith offer s cause

end Sys2Proof.Machine
end

