-- ==== Sys2Proof/Machine/Link.lean ====
section
/-!
DEFINITION. Machine/Link.lean: how a request is taken on the host link (R163, R164): room, the outstanding test, acceptance, the
checks, and the one reply.  What an accepted request does is its owner's, given as an argument.
-/
namespace Sys2Proof.Machine

/-- What an owner answers: the state after the request, and the status and body of its reply. -/
structure Answered where
  state : State
  status : Status
  body : List Byte := []

/-- A refusal: a status and nothing changed. -/
def refuse (s : State) (st : Status) : Answered := { state := s, status := st }

/-- OK with an empty body. -/
def done (s : State) : Answered := { state := s, status := .ok }

/-- A reply made at the tail of the reply queue (R162). -/
def addReply (s : State) (kind tag : Byte) (st : Status) (body : List Byte) : State :=
  { s with hli := { s.hli with replies := s.hli.replies ++ [{ kind := kind ||| 0x80#8, tag := tag, status := st, body := body }] } }

/-- A frame left unanswered for want of room (R163, step 1). -/
def leaveUnanswered (s : State) : State :=
  { s with hli := { s.hli with
      unanswered := sat32 s.hli.unanswered
      counters := { s.hli.counters with unansweredFrames := sat32 s.hli.counters.unansweredFrames } } }

/-- A request answered BUSY (R163, step 3). -/
def answerBusy (s : State) (kind tag : Byte) : State :=
  let s := { s with hli := { s.hli with counters := { s.hli.counters with busyReplies := sat32 s.hli.counters.busyReplies } } }
  addReply s kind tag .busy []

/-- A request becomes the outstanding one (R163, step 4). -/
def acceptRequest (s : State) (kind tag : Byte) : State :=
  { s with hli := { s.hli with
      outstanding := some (kind, tag)
      counters := { s.hli.counters with accepted := sat32 s.hli.counters.accepted } } }

/-- The reply queue has room for a reply (R163). -/
def Hli.hasRoom (h : Hli) : Bool := decide (h.replies.length < Config.replySlots)

/-- An accepted request checked and, if it passes, performed by its owner (R164). -/
def performWith (owner : Request → State → Answered) (kind tag : Byte) (p : Parsed) (s : State) : State :=
  match p with
  | .unknownKind => addReply s kind tag .unknownKind []
  | .badLength => addReply s kind tag .badLength []
  | .request r =>
    if s.ej.state = .starting ∧ r ≠ .identify then addReply s kind tag .starting []
    else
      let a := owner r s
      addReply a.state kind tag a.status a.body

/-- A received request taken as one event (R163); once a Restart request has been accepted the framer has stopped and
nothing is received (R172). -/
def receiveWith (owner : Request → State → Answered) (kind tag : Byte) (p : Parsed) (s : State) : State :=
  if s.hli.restartOwed then s
  else if !s.hli.hasRoom then leaveUnanswered s
  else if s.hli.outstanding.isSome then answerBusy s kind tag
  else performWith owner kind tag p (acceptRequest s kind tag)

/-- A request command: the request received whole, with its owner's effect. -/
def hostRequest (tag : Byte) (r : Request) (owner : State → Answered) (s : State) : Host.Outcome State Fault Refusal :=
  whenLive s (receiveWith (fun _ => owner) (kindOf r) tag (checkedRequest r))

end Sys2Proof.Machine
end

