-- ==== Sys2Proof/Machine/Line.lean ====
section
/-!
DEFINITION. Machine/Line.lean: the Tag Link Controllers (03): the tag lane, line health, the line machine, hand-off, and the line
requests.
-/
namespace Sys2Proof.Machine

/-! ## Shared operations -/

/-- A LINE_STATE record (R45, R46, R49, R52); it names its line in the subject byte alone (log 30), and `extra` is the tally where the
rule adds it, behind the cause (the model's choices, log 29). -/
def lineStateRecord (s : State) (i : Fin 8) (fields : List Byte) (cause : LineCause) (extra : List Byte) : Record :=
  { kind := .lineState, subject := i.val, vt := s.now, body := fields ++ be 1 cause.code ++ extra }

def Tally.bytes (t : Tally) : List Byte := be 6 t.count ++ be 6 (t.lowest.getD 0) ++ be 6 (t.highest.getD 0)

/-- Old state, new state, health level and REC, as a change of line state records them (R49). -/
def lineChangeFields (old : LineState) (l : Line) : List Byte :=
  be 1 old.code ++ be 1 l.state.code ++ beOpt (l.health.map (·.code)) ++ be 1 l.rec_

/-- A LINE_STATE notice. -/
def notifyLine (s : State) (i : Fin 8) : State :=
  let l := s.line i
  notify s .lineState (.line i.val) (be 1 l.state.code ++ beOpt (l.health.map (·.code)) ++ be 1 l.rec_)

/-- A LINE_HELD notice. -/
def notifyHeld (s : State) (i : Fin 8) (cause : LineCause) : State :=
  notify s .lineHeld (.line i.val) (be 1 cause.code)

/-- A line moved to HELD with its record and notice (R49). -/
def enterHeld (s : State) (i : Fin 8) (l : Line) (cause : LineCause) (extra : List Byte) : State :=
  let old := l.state
  let l := { l with state := .held }
  let s := s.setLine i l
  let s := offer s (lineStateRecord s i (lineChangeFields old l) cause extra)
  notifyHeld s i cause

/-- The drain test of a HOLDING line (R51). -/
def drainTest (s : State) (i : Fin 8) : State :=
  let l := s.line i
  if l.state = .holding ∧ l.drained = true then enterHeld s i { l with drain := none } .drained [] else s

/-- Isolation (R46). -/
def isolate (s : State) (i : Fin 8) : State :=
  let l := s.line i
  let old := l.state
  let l := { l.discardQueue with quality := false, phases := [], interleave := 0, drain := none, state := .isolated }
  let s := s.setLine i l
  let s := offer s (lineStateRecord s i (be 1 old.code ++ be 1 l.state.code ++ beOpt (l.health.map (·.code)) ++ be 1 l.rec_)
    .isolation l.tally.bytes)
  notifyLine s i

/-- The record and notice of a change of health level (R45); REC_LEVEL is cause code 6 (the model's choice, log 29). -/
def showHealth (s : State) (i : Fin 8) (old : Option Health) : State :=
  let l := s.line i
  if l.health = old then s
  else
    let s := offer s (lineStateRecord s i
      (be 1 l.state.code ++ beOpt (old.map (·.code)) ++ beOpt (l.health.map (·.code)) ++ be 1 l.rec_) .recLevel [])
    notifyLine s i

/-- The counters after a bad frame of a cause. -/
def LineCounters.bad (c : LineCounters) : BadCause → LineCounters
  | .framing => { c with badFraming := sat32 c.badFraming }
  | .length => { c with badLength := sat32 c.badLength }
  | .check => { c with badCheck := sat32 c.badCheck }
  | .kind => { c with badKind := sat32 c.badKind }

/-- A line's capture cell released (R70). -/
def releaseCell (s : State) (i : Fin 8) : State :=
  { s with sis := { s.sis with cells := s.sis.cells.set i none } }

/-- A bad frame judged (R44 to R46, R51). -/
def frameBad (s : State) (i : Fin 8) (cause : BadCause) : State :=
  let l := s.line i
  let old := l.health
  let s := releaseCell s i
  let s := s.setLine i
    { l with frame := .noFrame, rec_ := min 255 (l.rec_ + 8), owed := l.owed - 1, counters := l.counters.bad cause }
  if 255 ≤ l.rec_ + 8 ∧ (l.state = .running ∨ l.state = .holding) then isolate s i
  else drainTest (showHealth s i old) i

/-- An offer's place among the pending ones: by capture time, then line (R71). -/
def insertOffer (o : Offer) : List Offer → List Offer
  | [] => [o]
  | p :: ps =>
    if o.capture < p.capture ∨ (o.capture = p.capture ∧ o.line.val < p.line.val) then o :: p :: ps
    else p :: insertOffer o ps

/-- A valid frame judged, filtered and offered (R44, R45, R47, R48, R71). -/
def frameValid (s : State) (i : Fin 8) (fields : TagFields) : State :=
  let l := s.line i
  let old := l.health
  let cell := s.sis.cells[i]
  let s := releaseCell s i
  let s := s.setLine i
    { l with frame := .noFrame, rec_ := l.rec_ - 1, counters := { l.counters with good := sat32 l.counters.good } }
  let s := showHealth s i old
  match cell with
  | none => s
  | some c =>
    let o : Offer :=
      { line := i, capture := c.time, leapMark := c.leapMark, fields := fields, accepted := l.accepts fields.session,
        hit := l.hitIndex fields.session }
    { s with sis := { s.sis with offers := insertOffer o s.sis.offers } }

/-- A frame begun in RUNNING judged. -/
def frameJudged (s : State) (i : Fin 8) : Judged → State
  | .bad cause => frameBad s i cause
  | .valid fields => frameValid s i fields

/-- The hand-off of an answer to its line, and what the line then does (R51, R53, R61). -/
def handOff (s : State) (i : Fin 8) (a : Answer) : State :=
  let l := s.line i
  let l := { l with owed := l.owed - 1 }
  let takes : Bool := (l.state == .running || l.state == .holding) && decide (l.queue.length < Config.returnSlots)
  let s := s.setLine i (if takes then { l with queue := l.queue ++ [a] } else l.dropped a)
  drainTest (schedule s i) i

/-! ## Events -/

/-- The frame a start delimiter finds open ends there: judged if it began in RUNNING (R43, R44). -/
def endOpenFrame (s : State) (i : Fin 8) (bytes : List Byte) : State :=
  if (s.line i).frame = .judged then frameJudged s i (judgeFrame bytes .endDelimiter) else s

/-- A frame begun by a start delimiter (R43, R70). -/
def beginFrame (s : State) (i : Fin 8) : State :=
  let l := s.line i
  if l.state = .running then
    let s := { s with sis := { s.sis with
      cells := s.sis.cells.set i (some { time := s.now, leapMark := s.tsu.leapMark s.now }) } }
    s.setLine i { l with frame := .judged, owed := l.owed + 1 }
  else s.setLine i { l with frame := .ignored, counters := { l.counters with ignored := sat32 l.counters.ignored } }

/-- TAG_START_DELIMITER (R43, R44). -/
def startDelimiter (s : State) (i : Fin 8) (bytes : List Byte) : State := beginFrame (endOpenFrame s i bytes) i

/-- The meaning of TAG_START_DELIMITER. -/
def execTagStartDelimiter (i : Fin 8) (bytes : List Byte) (s : State) : Host.Outcome State Fault Refusal :=
  whenLive s fun s => startDelimiter s i bytes

/-- TAG_FRAME_END (R44): a frame begun in RUNNING is judged, an ignored one just ends. -/
def frameEnd (s : State) (i : Fin 8) (bytes : List Byte) (ending : FrameEnding) : State :=
  match (s.line i).frame with
  | .judged => frameJudged s i (judgeFrame bytes ending)
  | .ignored => s.setLine i { s.line i with frame := .noFrame }
  | .noFrame => s

/-- The meaning of TAG_FRAME_END. -/
def execTagFrameEnd (i : Fin 8) (bytes : List Byte) (ending : FrameEnding) (s : State) : Host.Outcome State Fault Refusal :=
  whenLive s fun s => frameEnd s i bytes ending

/-- RETURN_FRAME_END (R51, R61): the lane is idle again. -/
def laneEnd (s : State) (i : Fin 8) : State :=
  if (s.line i).lane.isSome then
    let s := s.setLine i { s.line i with lane := none }
    schedule (drainTest s i) i
  else s

/-- The meaning of RETURN_FRAME_END. -/
def execReturnFrameEnd (i : Fin 8) (s : State) : Host.Outcome State Fault Refusal :=
  whenLive s fun s => laneEnd s i

/-- PAUSE_ASSERT (R63): each assertion is counted, in every line state. -/
def assertPause (s : State) (i : Fin 8) : State :=
  let l := s.line i
  if l.pause then s
  else s.setLine i { l with pause := true, counters := { l.counters with pauses := sat32 l.counters.pauses } }

/-- The meaning of PAUSE_ASSERT. -/
def execPauseAssert (i : Fin 8) (s : State) : Host.Outcome State Fault Refusal :=
  .next (if s.live then assertPause s i else s.setLine i { s.line i with pause := true })

/-- PAUSE_DEASSERT (R63): the scheduler chooses at once. -/
def deassertPause (s : State) (i : Fin 8) : State := schedule (s.setLine i { s.line i with pause := false }) i

/-- The meaning of PAUSE_DEASSERT. -/
def execPauseDeassert (i : Fin 8) (s : State) : Host.Outcome State Fault Refusal :=
  .next (if s.live then deassertPause s i else s.setLine i { s.line i with pause := false })

/-- The drain timer has reached its limit on a HOLDING line (R52). -/
def State.drainDue (s : State) (i : Fin 8) : Bool :=
  let l := s.line i
  match l.drain with
  | some t => l.state == .holding && decide (t + Config.drainLimit ≤ s.osc)
  | none => false

/-- DRAIN_TIMEOUT (R52). -/
def drainTimeout (s : State) (i : Fin 8) : State :=
  if s.drainDue i then
    let l := { (s.line i).discardQueue with drain := none }
    enterHeld s i l .drainTimeout l.tally.bytes
  else s

/-- The meaning of DRAIN_TIMEOUT. -/
def execDrainTimeout (i : Fin 8) (s : State) : Host.Outcome State Fault Refusal :=
  whenLive s fun s => drainTimeout s i

/-! ## Requests -/

/-- A line request: BAD_ARGUMENT when it names a line above 7 (R49). -/
def onLine (n : Nat) (s : State) (k : Fin 8 → Answered) : Answered :=
  match named 8 n with
  | some i => k i
  | none => refuse s .badArgument

/-- RUNNING to HOLDING (R50). -/
def beginHold (s : State) (i : Fin 8) : State :=
  let l := { s.line i with state := .holding, quality := false, phases := [], interleave := 0, drain := some s.osc }
  let s := s.setLine i l
  let s := offer s (lineStateRecord s i (lineChangeFields .running l) .hold [])
  let s := notifyLine s i
  drainTest s i

/-- Hold Line (R50). -/
def holdLine (n : Nat) (s : State) : Answered :=
  onLine n s fun i =>
    match (s.line i).state with
    | .off => done (enterHeld s i (s.line i) .hold [])
    | .running => done (beginHold s i)
    | .holding => done s
    | .held => done s
    | .isolated => refuse s .wrongState

/-- The meaning of HOLD_LINE. -/
def execHoldLine (tag : Byte) (line : Nat) (s : State) : Host.Outcome State Fault Refusal :=
  hostRequest tag (.holdLine line) (holdLine line) s

/-- The LINE_CONFIG record: mode, path delay and all four filters (R58). -/
def lineConfigRecord (s : State) (i : Fin 8) : Record :=
  let l := s.line i
  { kind := .lineConfig, subject := i.val, vt := s.now,
    body := be 1 l.mode.code ++ be 2 l.pathDelay
      ++ l.filters.toList.flatMap (fun f => beBool f.enabled ++ be 2 f.code.toNat ++ be 2 f.mask.toNat) }

/-- A configuration change of a HELD line with its record (R58). -/
def reconfigure (s : State) (i : Fin 8) (l : Line) : State :=
  let s := s.setLine i l
  offer s (lineConfigRecord s i)

/-- Configure Line (R58). -/
def configureLine (n mode delay : Nat) (s : State) : Answered :=
  onLine n s fun i =>
    if 1 < mode ∨ 65535 < delay then refuse s .badArgument
    else if (s.line i).state = .held then
      done (reconfigure s i { s.line i with mode := if mode = 0 then .all else .listed, pathDelay := delay })
    else refuse s .wrongState

/-- The meaning of CONFIGURE_LINE. -/
def execConfigureLine (tag : Byte) (line mode delay : Nat) (s : State) : Host.Outcome State Fault Refusal :=
  hostRequest tag (.configureLine line mode delay) (configureLine line mode delay) s

/-- Set Filter (R58). -/
def setFilter (n index enabled code mask : Nat) (s : State) : Answered :=
  onLine n s fun i =>
    match named 4 index with
    | none => refuse s .badArgument
    | some k =>
      if 1 < enabled ∨ 65535 < code ∨ 65535 < mask then refuse s .badArgument
      else if (s.line i).state = .held then
        let f : Filter := { enabled := enabled == 1, code := BitVec.ofNat 16 code, mask := BitVec.ofNat 16 mask }
        done (reconfigure s i { s.line i with filters := (s.line i).filters.set k f })
      else refuse s .wrongState

/-- The meaning of SET_FILTER. -/
def execSetFilter (tag : Byte) (line index enabled code mask : Nat) (s : State) : Host.Outcome State Fault Refusal :=
  hostRequest tag (.setFilter line index enabled code mask) (setFilter line index enabled code mask) s

/-- The groups whose auction state is not IDLE, ascending. -/
def State.groupsInProgress (s : State) : List (Fin 32) := allGroups.filter fun g => (s.group g).state != .idle

/-- HELD to RUNNING (R59); the scheduler chooses once the change has been handed on. -/
def runLine (s : State) (i : Fin 8) : State :=
  let l := { s.line i with
    rec_ := 0, state := .running, quality := true, interleave := 0
    phases := s.groupsInProgress.foldl (fun ps g => addGroup g ps) (s.line i).phases }
  let s := s.setLine i l
  let s := offer s (lineStateRecord s i (lineChangeFields .held l) .release [])
  let s := notifyLine s i
  schedule s i

/-- Release Line (R59). -/
def releaseLine (n : Nat) (s : State) : Answered :=
  onLine n s fun i => if (s.line i).state = .held then done (runLine s i) else refuse s .wrongState

/-- The meaning of RELEASE_LINE. -/
def execReleaseLine (tag : Byte) (line : Nat) (s : State) : Host.Outcome State Fault Refusal :=
  hostRequest tag (.releaseLine line) (releaseLine line) s

/-- Reconnect Line (R60). -/
def reconnectLine (n : Nat) (s : State) : Answered :=
  onLine n s fun i =>
    if (s.line i).state = .isolated then done (enterHeld s i { s.line i with rec_ := 0 } .reconnect [])
    else refuse s .wrongState

/-- The meaning of RECONNECT_LINE. -/
def execReconnectLine (tag : Byte) (line : Nat) (s : State) : Host.Outcome State Fault Refusal :=
  hostRequest tag (.reconnectLine line) (reconnectLine line) s

/-- The sequence of the stamp at the head of a queue; 0 where there is none. -/
def headSequence : List Answer → Nat
  | .stamp st :: _ => st.sequence
  | .notOpen _ :: _ => 0
  | [] => 0

/-- A set of groups as thirty-two bits, G0 the least significant (the model's spelling, log 28). -/
def groupBits (gs : List (Fin 32)) : Nat := gs.foldl (fun acc g => acc + 2 ^ g.val) 0

/-- The time left on the drain timer in whole µs, or none (R64). -/
def State.drainLeft (s : State) (l : Line) : Option Nat :=
  l.drain.map fun t => (t + Config.drainLimit - s.osc) / Config.countsPerMicro

/-- The body of the Read Line reply (R64). -/
def lineBody (s : State) (i : Fin 8) : List Byte :=
  let l := s.line i
  let c := l.counters
  be 1 l.state.code ++ beOpt (l.health.map (·.code)) ++ be 1 l.rec_
    ++ be 1 l.mode.code
    ++ l.filters.toList.flatMap (fun f => beBool f.enabled ++ be 2 f.code.toNat ++ be 2 f.mask.toNat)
    ++ be 2 l.pathDelay
    ++ be 1 l.queue.length ++ be 6 (headSequence l.queue)
    ++ l.tally.bytes ++ beBool l.dropPending
    ++ beBool l.quality ++ be 4 (groupBits l.phases) ++ be 1 l.interleave ++ beBool l.lane.isSome
    ++ beBool l.pause ++ be 1 l.owed
    ++ be 2 ((s.drainLeft l).getD 65535)
    ++ be 4 c.good ++ be 4 c.badFraming ++ be 4 c.badLength ++ be 4 c.badCheck ++ be 4 c.badKind ++ be 4 c.ignored
    ++ be 6 c.stampsSent ++ be 4 c.notOpenSent ++ be 4 c.qualitySent ++ be 4 c.phaseSent ++ be 4 c.dropsSent
    ++ be 6 c.stampsDropped ++ be 4 c.notOpenDiscarded ++ be 4 c.pauses

/-- Read Line (R64). -/
def readLine (n : Nat) (s : State) : Answered :=
  onLine n s fun i => { state := s, status := .ok, body := lineBody s i }

/-- The meaning of READ_LINE. -/
def execReadLine (tag : Byte) (line : Nat) (s : State) : Host.Outcome State Fault Refusal :=
  hostRequest tag (.readLine line) (readLine line) s

end Sys2Proof.Machine
end

