-- ==== Sys2Proof/Machine/Issue.lean ====
section
/-!
DEFINITION. Machine/Issue.lean: the Stamp Issuer (04): opening, the capture arbiter, the issue of a stamp, NOT_OPEN answers, the shift of
captures at a step, and the issuer's requests.
-/
namespace Sys2Proof.Machine

/-- Opening (R67). -/
def openIssuer (s : State) (cause : OpenCause) : State :=
  let s := { s with sis := { s.sis with state := .opened, next := some 1, opening := some (cause, s.now) } }
  let t := s.tsu
  let s := offer s
    { kind := .stampingOpen, subject := 255, vt := s.now,
      body := be 1 cause.code ++ beVt s.now ++ be 1 t.clock.code ++ be 1 t.grade.code ++ be 3 t.u ++ beBool t.vtSet }
  notify s .stampingOpen .nothing (be 1 cause.code ++ be 1 s.tsu.grade.code)

/-- The report of an entry to TRACKING (R68). -/
def trackingReport (s : State) : State :=
  if s.sis.state = .closed ∧ 0 < s.sis.epoch then openIssuer s .tracking else s

/-- Captures moved with a step of VT by θ, and their leap-second marks judged again (R183). -/
def shiftCaptures (s : State) (theta : Int) : State :=
  let move (v : Nat) : Nat := vtOfInt ((v : Int) - theta)
  let moveCell (c : Option Capture) : Option Capture :=
    c.map fun c => { time := move c.time, leapMark := s.tsu.leapMark (move c.time) }
  let cells := allEight.foldl (fun (cs : Vector (Option Capture) 8) (i : Fin 8) => cs.set i (moveCell cs[i])) s.sis.cells
  let offers := s.sis.offers.map fun o => { o with capture := move o.capture, leapMark := s.tsu.leapMark (move o.capture) }
  { s with sis := { s.sis with cells := cells, offers := offers } }

/-! ## The issue -/

/-- The auction entry a group field names, if it names one (R75). -/
def auctionOf (group : Byte) : Option (Fin 32) := named 32 group.toNat

/-- The disposition of an offer (R74). -/
def dispositionOf (s : State) (o : Offer) : Disposition :=
  if !o.accepted then .refusedSession
  else if 32 ≤ o.fields.group.toNat ∧ o.fields.group.toNat ≤ 254 then .refusedGroup
  else
    match auctionOf o.fields.group with
    | none => .accepted
    | some g =>
      let a := s.group g
      match a.cutTime with
      | some t => if (a.state = .cut ∨ a.state = .closed) ∧ t < o.capture then .late else .accepted
      | none => .accepted

/-- The stamp of an offer that takes a sequence (R73). -/
def stampOf (s : State) (o : Offer) (sequence : Nat) : Stamp :=
  { epoch := s.sis.epoch, sequence := sequence, line := o.line, capture := o.capture, grade := s.tsu.grade, u := s.tsu.u
    disposition := dispositionOf s o
    phase := (auctionOf o.fields.group).map fun g => (s.group g).state
    hit := o.hit
    lineDegraded := decide (128 ≤ (s.line o.line).rec_)
    peerNotConforming := s.psm.notConforming o.line
    leapSecond := o.leapMark
    echo := o.fields }

/-- The counters of step 6 of R73. -/
def Sis.count (x : Sis) (st : Stamp) : Sis :=
  { x with
    last := some (st.sequence, st.capture)
    issued := x.issued.set st.line (x.issued[st.line] + 1)
    accepted := x.accepted + (if st.disposition = .accepted then 1 else 0)
    late := x.late + (if st.disposition = .late then 1 else 0)
    refusedSession := x.refusedSession + (if st.disposition = .refusedSession then 1 else 0)
    refusedGroup := x.refusedGroup + (if st.disposition = .refusedGroup then 1 else 0)
    flagDegraded := if st.lineDegraded then sat32 x.flagDegraded else x.flagDegraded
    flagPeer := if st.peerNotConforming then sat32 x.flagPeer else x.flagPeer
    flagLeap := if st.leapSecond then sat32 x.flagLeap else x.flagLeap }

/-- What an issue report does to an auction entry (R100). -/
def Auction.reported (a : Auction) (d : Disposition) (phase : AuctionState) (sequence : Nat) : Auction :=
  match d, phase with
  | .accepted, .call | .accepted, .window | .accepted, .deferred | .accepted, .held | .accepted, .cut
  | .accepted, .closed => { a with inCount := a.inCount + 1, lastIn := sequence }
  | .late, .cut | .late, .closed => { a with lateCount := a.lateCount + 1 }
  | _, _ => a

/-- The issue event reported to the Auction Controller (R77, R100). -/
def reportIssue (s : State) (st : Stamp) : State :=
  match auctionOf st.echo.group, st.phase with
  | some g, some ph => s.setGroup g ((s.group g).reported st.disposition ph st.sequence)
  | _, _ => s

/-- Exhaustion (R69).  The record's subject byte is the line of the last stamp, which its body carries too (the model's choice,
log 30). -/
def exhaustIssuer (s : State) (st : Stamp) : State :=
  let s := { s with sis := { s.sis with state := .exhausted, next := none } }
  let s := offer s
    { kind := .sequenceExhausted, subject := st.line.val, vt := s.now,
      body := be 4 st.epoch ++ be 6 st.sequence ++ beVt st.capture ++ be 1 st.line.val }
  notify s .sequenceExhausted .nothing (be 1 st.line.val)

/-- The issue of a granted offer as a stamp (R73, R69). -/
def issueStamp (s : State) (o : Offer) (sequence : Nat) : State :=
  let st := stampOf s o sequence
  let s := { s with sis := { s.sis.count st with next := some (sequence + 1) } }
  let s := reportIssue s st
  let s := handOff s o.line (.stamp st)
  if sequence = Config.lastSequence then exhaustIssuer s st else s

/-- The NOT_OPEN answer of a granted offer (R78). -/
def answerNotOpen (s : State) (o : Offer) : State :=
  let a : NotOpen :=
    { epoch := s.sis.epoch, line := o.line, capture := o.capture, issuer := s.sis.state, grade := s.tsu.grade,
      u := s.tsu.u, echo := o.fields }
  let s := { s with sis := { s.sis with notOpen := s.sis.notOpen.set o.line (sat32 s.sis.notOpen[o.line]) } }
  handOff s o.line (.notOpen a)

/-- A grant may be made: an offer is pending and 16 ns have run since the last grant (R72). -/
def State.grantDue (s : State) : Bool :=
  !s.sis.offers.isEmpty &&
    (match s.sis.lastGrant with
     | none => true
     | some t => decide (t + Config.grantSpacing ≤ s.osc))

/-- GRANT (R66, R72). -/
def grantOffer (s : State) : State :=
  if s.grantDue then
    match s.sis.offers with
    | [] => s
    | o :: rest =>
      let s := { s with sis := { s.sis with offers := rest, lastGrant := some s.osc } }
      match s.sis.state, s.sis.next with
      | .opened, some q => issueStamp s o q
      | _, _ => answerNotOpen s o
  else s

/-- The meaning of GRANT. -/
def execGrant (s : State) : Host.Outcome State Fault Refusal := whenLive s grantOffer

/-! ## Requests -/

/-- Open Stamping (R80). -/
def openStamping (s : State) : Answered :=
  match s.sis.state with
  | .closed => if 0 < s.sis.epoch then done (openIssuer s .request) else refuse s .journalFull
  | .opened => done s
  | .exhausted => refuse s .wrongState

/-- The meaning of OPEN_STAMPING. -/
def execOpenStamping (tag : Byte) (s : State) : Host.Outcome State Fault Refusal :=
  hostRequest tag .openStamping openStamping s

/-- The body of the Read Issuer reply (R81). -/
def issuerBody (s : State) : List Byte :=
  let x := s.sis
  be 1 x.state.code ++ be 4 x.epoch ++ be 6 (x.next.getD 0)
    ++ be 6 ((x.last.map (·.1)).getD 0) ++ beVtOpt (x.last.map (·.2))
    ++ beOpt (x.opening.map (·.1.code)) ++ beVtOpt (x.opening.map (·.2))
    ++ be 1 x.offers.length
    ++ allEight.flatMap (fun i => beBool (x.cells[i]).isSome ++ be 6 x.issued[i] ++ be 4 x.notOpen[i])
    ++ be 6 x.accepted ++ be 6 x.late ++ be 6 x.refusedSession ++ be 6 x.refusedGroup
    ++ be 4 x.flagDegraded ++ be 4 x.flagPeer ++ be 4 x.flagLeap

/-- Read Issuer (R81). -/
def readIssuer (s : State) : Answered := { state := s, status := .ok, body := issuerBody s }

/-- The meaning of READ_ISSUER. -/
def execReadIssuer (tag : Byte) (s : State) : Host.Outcome State Fault Refusal :=
  hostRequest tag .readIssuer readIssuer s

end Sys2Proof.Machine
end

