-- ==== Sys2Proof/Machine/Auction.lean ====
section
/-!
DEFINITION. Machine/Auction.lean: the Auction Controller (05): arming, the five deadline expiries, extension, cancellation, clearing, the
report of an arming index, leap re-conversion, and the auction requests.
-/
namespace Sys2Proof.Machine

/-! ## Shared operations -/

/-- A record of a group produced: on the held list while the arming index is unassigned, otherwise offered (R83, R90). -/
def produce (s : State) (g : Fin 32) (r : HeldRecord) : State :=
  match (s.group g).armIndex with
  | none => s.setGroup g { s.group g with heldList := (s.group g).heldList ++ [r] }
  | some index => offer s (r.toRecord g index)

/-- The draw of an entry, where one is current. -/
def Auction.draw (a : Auction) : Option (Nat × Word64) :=
  match a.drawnEnd, a.nonce with
  | some e, some n => some (e, n)
  | some _, none => none
  | none, _ => none

/-- The draw check of a draw at an arming index, or owed (R92). -/
def checkFor (g : Fin 32) (index : Option Nat) (e : Nat) (n : Word64) : DrawCheck :=
  match index with
  | some k => .value (drawCheckOf e n g k)
  | none => .owed

/-- The report of a group's arming index (R90). -/
def reportIndex (s : State) (g : Fin 32) (index : Nat) : State :=
  let a := s.group g
  let check := match a.drawCheck, a.draw with
    | .owed, some (e, n) => checkFor g (some index) e n
    | c, _ => c
  let s := s.setGroup g { a with armIndex := some index, drawCheck := check, heldList := [] }
  a.heldList.foldl (fun s r => offer s (r.toRecord g index)) s

/-- The VT of a start, 0 where there is none. -/
def startVt (st : Option Start) : Nat := (st.map (·.vt)).getD 0

/-- A new window start, civil and in VT (R102, R103). -/
def startAt (s : State) (vt : Nat) : Start := { civil := s.tsu.toCivil vt, vt := vt }

/-! ## Deadlines (R85) -/

/-- The group's deadline of a kind stands first in the list and VT has reached it. -/
def State.expiring (s : State) (g : Fin 32) (k : DeadlineKind) : Bool :=
  match s.auc.deadlines with
  | d :: _ => d.group == g && d.kind == k && decide (d.instant ≤ s.now)
  | [] => false

/-- An expiry taken when it is due. -/
def expire (s : State) (g : Fin 32) (k : DeadlineKind) (effect : State → State) : State :=
  if s.expiring g k then effect s else s

/-- CALL_START (R91). -/
def callStarted (g : Fin 32) (s : State) : State :=
  let s := enter s g { s.group g with state := .call }
  showGroup s g s.now

/-- The meaning of CALL_START. -/
def execCallStart (g : Fin 32) (s : State) : Host.Outcome State Fault Refusal :=
  whenLive s fun s => expire s g .callStart (callStarted g)

/-- The end drawn for a window by the `n`-th draw (R92). -/
def drawnEndOf (windowStart : Nat) (length : Nat) (n : Nat) : Nat :=
  vtOfInt ((windowStart : Int) + (Config.drawOffset n % (length * 1000) * 1000 : Nat))

/-- WINDOW_START (R92). -/
def windowStarted (g : Fin 32) (s : State) : State :=
  let a := s.group g
  let ws := startVt a.windowStart
  let e := drawnEndOf ws a.windowLength s.auc.draws
  let n := Config.drawNonce s.auc.draws
  let s := { s with auc := { s.auc with draws := s.auc.draws + 1 } }
  let s := enter s g
    { a with state := .window, drawnEnd := some e, nonce := some n, drawCheck := checkFor g a.armIndex e n }
  let s := produce s g { kind := .draw, vt := s.now, body := .draw ws a.windowLength e n }
  showGroup s g s.now

/-- The meaning of WINDOW_START. -/
def execWindowStart (g : Fin 32) (s : State) : Host.Outcome State Fault Refusal :=
  whenLive s fun s => expire s g .windowStart (windowStarted g)

/-- A group deferred at its END (R93, R94); the record names its group in the subject byte alone (log 30). -/
def deferGroup (g : Fin 32) (reason : DeferReason) (s : State) : State :=
  let a := s.group g
  let e := a.drawnEnd.getD 0
  let s := enter s g { a with state := .deferred }
  let s := produce s g { kind := .defer, vt := e, body := .plain (be 1 reason.code ++ be 2 a.deferLimit) }
  showGroup s g e

/-- END (R94). -/
def ended (g : Fin 32) (s : State) : State :=
  match s.auc.deferReason with
  | none => cutGroup s g ((s.group g).drawnEnd.getD 0) false
  | some reason => deferGroup g reason s

/-- The meaning of END. -/
def execEndExpiry (g : Fin 32) (s : State) : Host.Outcome State Fault Refusal :=
  whenLive s fun s => expire s g .endAt (ended g)

/-- DEFER_LIMIT (R96); the record names its group in the subject byte alone (log 30). -/
def heldBack (g : Fin 32) (s : State) : State :=
  let reason := s.auc.deferReason
  let s := enter s g { s.group g with state := .held }
  let s := produce s g { kind := .hold, vt := s.now, body := .plain (beOpt (reason.map (·.code))) }
  showGroup s g s.now

/-- The meaning of DEFER_LIMIT. -/
def execDeferLimit (g : Fin 32) (s : State) : Host.Outcome State Fault Refusal :=
  whenLive s fun s => expire s g .deferLimit (heldBack g)

/-- The body of the CUT record of an entry (R99). -/
def Auction.cutBody (a : Auction) : AucBody :=
  .cut a.forced ((a.quality.map (·.2)).getD .d) a.extUsed ((a.quality.map (·.1)).getD 0) (a.drawnEnd.getD 0)
    (a.nonce.getD 0) a.inCount a.lastIn (a.cutTime.getD 0)

/-- SETTLE (R99). -/
def settled (g : Fin 32) (s : State) : State :=
  let a := s.group g
  let s := enter s g { a with state := .closed }
  let s := produce s g { kind := .cut, vt := s.now, body := a.cutBody }
  showGroup s g s.now

/-- The meaning of SETTLE. -/
def execSettle (g : Fin 32) (s : State) : Host.Outcome State Fault Refusal :=
  whenLive s fun s => expire s g .settle (settled g)

/-! ## Leap re-conversion (R106) -/

/-- A start converted again with the reported values. -/
def Start.again (st : Start) (t : Tsu) : Start := { st with vt := t.fromCivilNext st.civil }

/-- An entry with the starts that have deadlines converted again. -/
def Auction.again (a : Auction) (t : Tsu) : Auction :=
  match a.state with
  | .armed => { a with callStart := a.callStart.map (·.again t), windowStart := a.windowStart.map (·.again t) }
  | .call => { a with windowStart := a.windowStart.map (·.again t) }
  | .idle | .window | .deferred | .held | .cut | .closed | .cancelled => a

/-- One group converted again; a group without such a deadline is left as it is. -/
def reconvertGroup (s : State) (g : Fin 32) : State :=
  if (s.group g).again s.tsu = s.group g then s else enter s g ((s.group g).again s.tsu)

/-- A leap report: every start with a deadline converted again, then the phase frames of the groups whose window start
moved.  It is the report of a changed pending leap or of an adopted leap count; an applied leap moves no start. -/
def leapReport (s : State) : State :=
  let moved := allGroups.filter fun g => ((s.group g).again s.tsu).windowStart != (s.group g).windowStart
  moved.foldl phasePending (allGroups.foldl reconvertGroup s)

/-! ## Requests -/

/-- An auction request: BAD_ARGUMENT when it names a group above 31 (R87). -/
def onGroup (n : Nat) (s : State) (k : Fin 32 → Answered) : Answered :=
  match named 32 n with
  | some g => k g
  | none => refuse s .badArgument

/-- The fields of an Arm Auction request are in range (check 1 of R88), the group apart. -/
def ArmArgs.inRange (a : ArmArgs) : Bool :=
  CivilArgs.valid a.callStart && CivilArgs.valid a.windowStart
    && decide (1000 ≤ a.windowLength ∧ a.windowLength ≤ 600000 ∧ 1 ≤ a.extLength ∧ a.extLength ≤ 3600 ∧ a.maxExt ≤ 15
      ∧ 1 ≤ a.deferLimit ∧ a.deferLimit ≤ 600)

/-- A group CLOSED or CANCELLED cleared (R105, R109); the record names its group in the subject byte alone (log 30). -/
def clearGroup (g : Fin 32) (s : State) : State :=
  let a := s.group g
  let s := produce s g
    { kind := .clear, vt := s.now,
      body := .plain (be 1 a.state.code ++ be 6 a.inCount ++ be 6 a.lastIn ++ be 6 a.lateCount) }
  let s := enter s g { heldList := (s.group g).heldList }
  showGroup s g s.now

/-- The group stands where an arming may follow (check 2 of R88). -/
def Auction.mayArm (a : Auction) : Bool := a.state == .idle || a.state == .closed || a.state == .cancelled

/-- The AUCTION_ARM record (R89). -/
def armRecord (s : State) (g : Fin 32) (a : ArmArgs) (call window : Start) (entered : AuctionState) : Record :=
  { kind := .auctionArm, subject := g.val, vt := s.now,
    body := beCivil call.civil ++ beCivil window.civil ++ beVtMs call.vt ++ beVtMs window.vt ++ be 3 a.windowLength
      ++ be 2 a.extLength ++ be 1 a.maxExt ++ be 2 a.deferLimit ++ be 1 s.tsu.leapCount ++ be 1 s.tsu.pendingLeap.code
      ++ be 1 entered.code }

/-- The entry an arming loads (R89, step 3). -/
def loadedEntry (a : ArmArgs) (call window : Start) (entered : AuctionState) : Auction :=
  { state := entered, callStart := some call, windowStart := some window, windowLength := a.windowLength,
    extLength := a.extLength, maxExt := a.maxExt, deferLimit := a.deferLimit }

/-- The arming of a request that passed its checks (R89). -/
def armGroup (g : Fin 32) (a : ArmArgs) (call window : Start) (s : State) : Answered :=
  let s := if (s.group g).state = .idle then s else clearGroup g s
  let entered : AuctionState := if call.vt ≤ s.now then .call else .armed
  let r := armRecord s g a call window entered
  if s.ej.takes true then
    let s := enter (offer s r) g (loadedEntry a call window entered)
    done (showGroup s g s.now)
  else refuse (offer s r) .journalFull

/-- Arm Auction (R88, R89). -/
def armAuction (a : ArmArgs) (s : State) : Answered :=
  onGroup a.group s fun g =>
    if !ArmArgs.inRange a then refuse s .badArgument
    else if !(s.group g).mayArm then refuse s .wrongState
    else if s.auc.journalView ≠ .normal ∨ (s.group g).heldList ≠ [] then refuse s .journalFull
    else
      match s.tsu.fromCivil (CivilArgs.toCivil a.callStart), s.tsu.fromCivil (CivilArgs.toCivil a.windowStart) with
      | some c, some w =>
        if c < w ∧ s.now + nsPerSecond ≤ w then
          armGroup g a { civil := CivilArgs.toCivil a.callStart, vt := c } { civil := CivilArgs.toCivil a.windowStart, vt := w } s
        else refuse s .badArgument
      | some _, none => refuse s .badArgument
      | none, _ => refuse s .badArgument

/-- The meaning of ARM_AUCTION. -/
def execArmAuction (tag : Byte) (args : ArmArgs) (s : State) : Host.Outcome State Fault Refusal :=
  hostRequest tag (.armAuction args) (armAuction args) s

/-- An extension recorded and handed on (R83, R101); the record names its group in the subject byte alone (log 30). -/
def showExtension (g : Fin 32) (s : State) : State :=
  let a := s.group g
  let s := produce s g { kind := .extend, vt := s.now, body := .plain (beVt (startVt a.windowStart) ++ be 1 a.extUsed) }
  showGroup s g s.now

/-- An extension before the window (R102). -/
def extendEarly (g : Fin 32) (s : State) : State :=
  let a := s.group g
  let ws := vtOfInt ((startVt a.windowStart : Int) + (a.extLength * nsPerSecond : Nat))
  showExtension g (enter s g { a with windowStart := some (startAt s ws), extUsed := a.extUsed + 1 })

/-- A VT rounded up to a whole millisecond. -/
def upToMs (v : Nat) : Nat := (v + 999999) / 1000000 * 1000000

/-- An extension that withdraws the draw (R103). -/
def extendLate (g : Fin 32) (s : State) : State :=
  let a := s.group g
  let s := match a.draw with
    | some (e, n) => produce s g { kind := .withdraw, vt := s.now, body := .withdraw e n }
    | none => s
  let ws := vtOfInt ((upToMs s.now : Int) + (a.extLength * nsPerSecond : Nat))
  showExtension g (enter s g
    { a with state := .call, drawnEnd := none, nonce := none, drawCheck := .noCheck,
             windowStart := some (startAt s ws), extUsed := a.extUsed + 1, heldList := (s.group g).heldList })

/-- Extend Auction (R101). -/
def extendAuction (n : Nat) (s : State) : Answered :=
  onGroup n s fun g =>
    let a := s.group g
    match a.state with
    | .cut | .closed => refuse s .tooLate
    | .idle | .cancelled => refuse s .wrongState
    | .armed | .call => if a.extUsed = a.maxExt then refuse s .extensionLimit else done (extendEarly g s)
    | .window | .deferred | .held => if a.extUsed = a.maxExt then refuse s .extensionLimit else done (extendLate g s)

/-- The meaning of EXTEND_AUCTION. -/
def execExtendAuction (tag : Byte) (group : Nat) (s : State) : Host.Outcome State Fault Refusal :=
  hostRequest tag (.extendAuction group) (extendAuction group) s

/-- Cut Now (R97): the cut time is VT now, also where a backward step has left VT before the drawn end (log 32). -/
def cutNow (n : Nat) (s : State) : Answered :=
  onGroup n s fun g =>
    if (s.group g).state = .held then done (cutGroup s g s.now true) else refuse s .wrongState

/-- The meaning of CUT_NOW. -/
def execCutNow (tag : Byte) (group : Nat) (s : State) : Host.Outcome State Fault Refusal :=
  hostRequest tag (.cutNow group) (cutNow group) s

/-- A group cancelled (R104). -/
def cancelGroup (g : Fin 32) (s : State) : State :=
  let a := s.group g
  let s := produce s g { kind := .cancel, vt := s.now, body := .cancel a.state a.inCount a.draw }
  let s := enter s g { a with state := .cancelled, heldList := (s.group g).heldList }
  showGroup s g s.now

/-- Cancel Auction (R104). -/
def cancelAuction (n : Nat) (s : State) : Answered :=
  onGroup n s fun g =>
    match (s.group g).state with
    | .cut | .closed => refuse s .tooLate
    | .idle | .cancelled => refuse s .wrongState
    | .armed | .call | .window | .deferred | .held => done (cancelGroup g s)

/-- The meaning of CANCEL_AUCTION. -/
def execCancelAuction (tag : Byte) (group : Nat) (s : State) : Host.Outcome State Fault Refusal :=
  hostRequest tag (.cancelAuction group) (cancelAuction group) s

/-- Clear Auction (R105). -/
def clearAuction (n : Nat) (s : State) : Answered :=
  onGroup n s fun g =>
    match (s.group g).state with
    | .closed | .cancelled => done (clearGroup g s)
    | .idle | .armed | .call | .window | .deferred | .held | .cut => refuse s .wrongState

/-- The meaning of CLEAR_AUCTION. -/
def execClearAuction (tag : Byte) (group : Nat) (s : State) : Host.Outcome State Fault Refusal :=
  hostRequest tag (.clearAuction group) (clearAuction group) s

/-! ## Read-out (R107) -/

/-- A civil time in a reply: the nine bytes of a request (R175, log 20). -/
def civilBytes (c : Civil) : List Byte :=
  let date := dateOf c.day
  let secs := c.ns / nsPerSecond
  let (h, m, x) := if 86400 ≤ secs then (23, 59, 60 + (secs - 86400)) else (secs / 3600, secs / 60 % 60, secs % 60)
  be 2 date.1.toNat ++ be 1 date.2.1 ++ be 1 date.2.2 ++ be 1 h ++ be 1 m ++ be 1 x ++ be 2 (c.ns % nsPerSecond / 1000000)

/-- A start in the reply; absent, all bytes 255. -/
def startBytes : Option Start → List Byte
  | some st => civilBytes st.civil ++ beVt st.vt
  | none => List.replicate 18 255#8

/-- The draw check in the reply: none 0, owed 1, a value 2, then the value. -/
def DrawCheck.bytes : DrawCheck → List Byte
  | .noCheck => 0#8 :: be 8 0
  | .owed => 1#8 :: be 8 0
  | .value w => 2#8 :: be 8 w.toNat

/-- The drawn end and the nonce are readable in this state (R93). -/
def AuctionState.revealed (st : AuctionState) : Bool := st == .cut || st == .closed || st == .cancelled

/-- One deadline kind of a group in the reply: present or not, and its instant where it is not withheld (R107). -/
def deadlineBytes (s : State) (g : Fin 32) (k : DeadlineKind) : List Byte :=
  match s.auc.deadlines.find? fun d => d.group == g && d.kind == k with
  | none => 0#8 :: beVtOpt none
  | some d => 1#8 :: beVtOpt (if k = .endAt ∨ k = .deferLimit then none else some d.instant)

/-- The body of the Read Auction reply (R107); U is 16,777,215 where there is none (the model's spelling, log 34). -/
def auctionBody (s : State) (g : Fin 32) : List Byte :=
  let a := s.group g
  let shown := if a.state.revealed then a.drawnEnd else none
  let nonce := if a.state.revealed then a.nonce else none
  be 1 a.state.code ++ startBytes a.callStart ++ startBytes a.windowStart
    ++ be 3 a.windowLength ++ be 2 a.extLength ++ be 1 a.maxExt ++ be 1 a.extUsed ++ be 2 a.deferLimit
    ++ a.drawCheck.bytes
    ++ beVtOpt shown ++ beBool nonce.isSome ++ be 8 ((nonce.map (·.toNat)).getD 0) ++ beVtOpt shown
    ++ beVtOpt a.cutTime ++ beBool a.forced ++ be 3 ((a.quality.map (·.1)).getD Config.maxU)
    ++ beOpt (a.quality.map (·.2.code))
    ++ be 6 a.inCount ++ be 6 a.lastIn ++ be 6 a.lateCount
    ++ be 8 (a.armIndex.getD Config.noIndex) ++ be 1 a.heldList.length
    ++ [DeadlineKind.callStart, .windowStart, .endAt, .deferLimit, .settle].flatMap (deadlineBytes s g)
    ++ beBool s.auc.traceableView ++ be 1 s.auc.journalView.code ++ be 1 s.auc.deadlines.length

/-- Read Auction (R107). -/
def readAuction (n : Nat) (s : State) : Answered :=
  onGroup n s fun g => { state := s, status := .ok, body := auctionBody s g }

/-- The meaning of READ_AUCTION. -/
def execReadAuction (tag : Byte) (group : Nat) (s : State) : Host.Outcome State Fault Refusal :=
  hostRequest tag (.readAuction group) (readAuction group) s

end Sys2Proof.Machine
end

