-- ==== Sys2Proof/Machine/Clock.lean ====
section
/-!
DEFINITION. Machine/Clock.lean: the Timescale Unit (01): hand-on of a clock change, leap seconds, updates with their step or steering,
selection, the whole-second boundary, and the clock requests.
-/
namespace Sys2Proof.Machine

/-! ## Hand-on of a change (R8, R11) -/

/-- The CLOCK_STATE record of a change from a state. -/
def clockRecord (s : State) (old : ClockState) (cause : ClockCause) : Record :=
  let t := s.tsu
  { kind := .clockState, subject := 255, vt := s.now,
    body := be 1 old.code ++ be 1 t.clock.code ++ beBool t.traceable ++ be 1 t.grade.code ++ be 3 t.u ++ beInt 8 t.theta
      ++ beOpt (t.selected.map (·.val)) ++ be 1 cause.code }

/-- A change of clock state or of the traceable predicate handed on in the order of R8. -/
def clockChanged (s : State) (old : Tsu) (cause : ClockCause) : State :=
  let t := s.tsu
  let s := offer s (clockRecord s old.clock cause)
  let s := if t.traceable = old.traceable then s else traceableReport s t.traceable
  let s := if t.clock = .tracking ∧ old.clock ≠ .tracking then trackingReport s else s
  let s := qualityPending s
  notify s .clockState .nothing (be 1 t.clock.code ++ be 1 t.grade.code)

/-- What a change of the TSU's state since `old` asks for: the hand-on of R8, or the quality frames of a change of grade
alone (R11). -/
def clockHandOn (s : State) (old : Tsu) (cause : ClockCause) : State :=
  if s.tsu.clock ≠ old.clock ∨ s.tsu.traceable ≠ old.traceable then clockChanged s old cause
  else if s.tsu.grade ≠ old.grade then qualityPending s
  else s

/-! ## Leap seconds (R13 to R16) -/

/-- Actions of a LEAP record. -/
inductive LeapAction where
  | announced | withdrawn | applied | adopted
deriving DecidableEq, Repr

def LeapAction.code : LeapAction → Nat
  | .announced => 0 | .withdrawn => 1 | .applied => 2 | .adopted => 3

/-- Reasons of a LEAP_CONFLICT record (R13, R16). -/
inductive ConflictReason where
  | outOfRange | sourcesDiffer | labelCount
deriving DecidableEq, Repr

/-- The codes of the reasons: R13's two in its order, and R16's third (the model's choice, log 36). -/
def ConflictReason.code : ConflictReason → Nat
  | .outOfRange => 0 | .sourcesDiffer => 1 | .labelCount => 2

/-- A LEAP record; the VT of application is present in APPLIED alone. -/
def leapRecord (s : State) (action : LeapAction) (pending : Leap) (at_ : Option Nat) : Record :=
  { kind := .leap, subject := 255, vt := s.now,
    body := be 1 action.code ++ be 1 s.tsu.leapCount ++ be 1 pending.code ++ beVtOpt at_ }

/-- A LEAP notice. -/
def notifyLeap (s : State) (action : LeapAction) : State :=
  notify s .leap .nothing (be 1 action.code ++ be 1 s.tsu.leapCount ++ be 1 s.tsu.pendingLeap.code)

/-- A LEAP_CONFLICT record between two announcements or two leap counts. -/
def leapConflict (s : State) (reason : ConflictReason) (x y : Nat) : State :=
  offer s { kind := .leapConflict, subject := 255, vt := s.now, body := be 1 reason.code ++ be 1 x ++ be 1 y }

/-- The pending leap changed, with the records, report, frames and notice of R13. -/
def setPending (s : State) (new : Leap) : State :=
  let old := s.tsu.pendingLeap
  if old = new then s
  else
    let s := { s with tsu := { s.tsu with pendingLeap := new } }
    let s := if old = .noLeap then s else offer s (leapRecord s .withdrawn .noLeap none)
    let s := if new = .noLeap then s else offer s (leapRecord s .announced new none)
    let s := leapReport s
    let s := qualityPending s
    notifyLeap s (if new = .noLeap then .withdrawn else .announced)

/-- The pending leap derived again from the announcements, where the day still allows it (R13, R14). -/
def derivePending (s : State) : State :=
  if s.tsu.latched || s.tsu.leapDone then s else setPending s s.tsu.announced

/-- The records of a conflict that begins with a change from `old` (R13). -/
def showConflict (s : State) (old : Tsu) : State :=
  let t := s.tsu
  let s := if t.rangeConflict ∧ !old.rangeConflict then leapConflict s .outOfRange t.labelLeap.code t.hostLeap.code else s
  if t.sourcesDiffer ∧ !old.sourcesDiffer then leapConflict s .sourcesDiffer t.labelLeap.code t.hostLeap.code else s

/-- The announcements changed: conflicts shown, the pending leap derived. -/
def announce (s : State) (t : Tsu) : State := derivePending (showConflict { s with tsu := t } s.tsu)

/-- A label's leap warning taken (R13). -/
def takeWarning (s : State) (w : Leap) : State :=
  let t := s.tsu
  announce s { t with labelLeap := if t.cannotApply w then .noLeap else w, rangeConflict := t.cannotApply w }

/-- The leap count after the pending leap. -/
def Tsu.leapNext (t : Tsu) : Nat :=
  match t.pendingLeap with
  | .insert => freeSucc 5 255 t.leapCount
  | .delete => if 0 < t.leapCount then t.leapCount - 1 else Config.beyondRange 5 0 % 256
  | .noLeap => t.leapCount

/-- The pending leap applied (R15); its VT of application is VT as the application is acted on, at an early application by a
label too: VT when the update is taken, not the capture of its edge (R16; log 32).  The report to the Auction Controller moves no
start: the leap count and the pending change move together, so every start keeps its VT (R106; log 32). -/
def applyLeap (s : State) : State :=
  let s := { s with tsu := { s.tsu with leapCount := s.tsu.leapNext, pendingLeap := .noLeap, leapDone := true } }
  let s := offer s (leapRecord s .applied .noLeap (some s.now))
  let s := qualityPending s
  notifyLeap s .applied

/-- LEAP_LATCH (R14): a pending deletion is applied at the same instant. -/
def leapLatch (s : State) : State :=
  if s.tsu.latchDue then
    let s := { s with tsu := { s.tsu with latched := true } }
    if s.tsu.pendingLeap = .delete then applyLeap s else s
  else s

/-- LEAP_APPLICATION (R15). -/
def leapApplication (s : State) : State := if s.tsu.leapDue then applyLeap s else s

/-- The state of a new civil day (R14). -/
def Tsu.nextDay (t : Tsu) : Tsu :=
  { t with day := t.day + 1, latched := false, leapDone := false, labelLeap := .noLeap, hostLeap := .noLeap }

/-- CIVIL_MIDNIGHT (R14). -/
def civilMidnight (s : State) : State :=
  if s.tsu.midnightDue then { s with tsu := s.tsu.nextDay } else s

/-- The meaning of LEAP_LATCH. -/
def execLeapLatch (s : State) : Host.Outcome State Fault Refusal := whenLive s leapLatch

/-- The meaning of LEAP_APPLICATION. -/
def execLeapApplication (s : State) : Host.Outcome State Fault Refusal := whenLive s leapApplication

/-- The meaning of CIVIL_MIDNIGHT. -/
def execCivilMidnight (s : State) : Host.Outcome State Fault Refusal := whenLive s civilMidnight

/-- What follows VT where VT or the leap count has moved it back: the civil day, and the second of the load, so that a boundary
VT has been stepped back over is reached again (R3). -/
def Tsu.dayBack (t : Tsu) : Tsu :=
  { t with day := min t.day t.civilDay, loadedSec := if t.sec < t.loadedSec then t.sec - 1 else t.loadedSec }

/-- The days after the first one a step passed over: nothing is announced in them, so only the day and the latch move. -/
def Tsu.skipDays (t : Tsu) : Tsu :=
  if t.day < t.civilDay ∧ t.pendingLeap = .noLeap then { t with day := t.civilDay, latched := false } else t

/-- What a step has passed over, in the order of the instants (R3).  A backward step into the last second of an earlier day, the latch
open, latches at once (the model's choice, log 35). -/
def catchUp (s : State) : State :=
  let s := { s with tsu := s.tsu.dayBack }
  let s := leapApplication (leapLatch s)
  let s := civilMidnight s
  leapLatch { s with tsu := s.tsu.skipDays }

/-- The label's leap count is the one the pending leap leads to (R16). -/
def Tsu.labelAhead (t : Tsu) (k : Nat) : Bool :=
  match t.pendingLeap with
  | .insert => k == t.leapCount + 1
  | .delete => k + 1 == t.leapCount
  | .noLeap => false

/-- A label's leap count adopted (R16). -/
def adoptCount (s : State) (k : Nat) (first : Bool) : State :=
  let own := s.tsu.leapCount
  let s := { s with tsu := ({ s.tsu with leapCount := k }).dayBack }
  let s := offer s (leapRecord s .adopted s.tsu.pendingLeap none)
  let s := leapReport s
  if first then s else notifyLeap (leapConflict s .labelCount own k) .adopted

/-- Step 2 of R2. -/
def takeCount (s : State) (k : Nat) : State :=
  let first := !s.tsu.vtSet
  let s := { s with tsu := { s.tsu with vtSet := true } }
  if k = s.tsu.leapCount then s
  else if s.tsu.labelAhead k then applyLeap s
  else adoptCount s k first

/-! ## Updates (R2 to R6, R9) -/

/-- A phase sample (01, Phase samples). -/
structure Sample where
  vt : Nat
  second : Nat
  leapCount : Nat
  warning : Leap
  f : Int
  j : Nat
deriving DecidableEq, Repr

/-- θ of a sample. -/
def Sample.theta (x : Sample) : Int := (x.vt : Int) - (x.second : Int) * nsPerSecond

/-- The step condition (R3). -/
def State.stepDue (s : State) (theta : Int) : Bool :=
  s.sis.state == .closed && decide (s.tsu.limits.stepThreshold < theta.natAbs)

/-- The state of the TSU after a step by θ. -/
def Tsu.step (t : Tsu) (theta : Int) : Tsu :=
  { t with vt := vtOfInt ((t.vt : Int) - theta), frac := 0, c := clampRate t.f, theta := theta, stepped := true,
           lock := 0, unlock := 0, clock := if t.clock = .tracking then .acquiring else t.clock }

/-- A step (R3, R183); the STEP record's own VT is the one before it, as the sequence of chapter 10 shows (log 13). -/
def stepVt (s : State) (theta : Int) : State :=
  let before := s.now
  let s := shiftCaptures { s with tsu := s.tsu.step theta } theta
  let s := offer s
    { kind := .step, subject := 255, vt := before,
      body := beVt before ++ beInt 8 theta ++ beOpt (s.tsu.selected.map (·.val)) }
  let s := notify s .step .nothing (beInt 8 theta)
  catchUp s

/-- C after an update that does not step (R4). -/
def Tsu.steered (t : Tsu) (theta : Int) : Int :=
  let c := divRound (t.f * t.limits.tau - 1000 * theta) t.limits.tau
  clampRate (clampInt (t.f - t.limits.slewLimit) (t.f + t.limits.slewLimit) c)

/-- The lock and unlock counters judged, with the change of state they cause (R6). -/
def Tsu.judge (t : Tsu) : Tsu :=
  let within : Bool := decide (t.theta.natAbs ≤ t.limits.tracking)
  match t.clock with
  | .acquiring =>
    let n := if within then satSucc 255 t.lock else 0
    if t.limits.lockCount ≤ n then { t with clock := .tracking, lock := 0, unlock := 0, tracked := true }
    else { t with lock := n }
  | .tracking =>
    let n := if within then 0 else satSucc 255 t.unlock
    if t.limits.unlockCount ≤ n then { t with clock := .acquiring, lock := 0, unlock := 0 } else { t with unlock := n }
  | .free | .holdover | .untraceable => t

/-- A steered update: R4 and R6. -/
def Tsu.steer (t : Tsu) (theta : Int) : Tsu :=
  Tsu.judge { t with c := t.steered theta, theta := theta, stepped := false }

/-- U from the latest update (R9). -/
def Tsu.updateU (t : Tsu) : Nat :=
  min Config.maxU (t.limits.baseU + t.lastJ + if t.stepped then 0 else t.theta.natAbs)

/-- The cause of the change an update makes (R8). -/
def updateCause (old new : Tsu) : ClockCause :=
  if old.clock = new.clock then .uLimit
  else if new.stepped then .step
  else if new.clock = .tracking then .lock
  else .unlock

/-- An update (R2); it is taken in ACQUIRING and TRACKING. -/
def takeSample (s : State) (x : Sample) : State :=
  let old := s.tsu
  if old.clock = .acquiring ∨ old.clock = .tracking then
    let s := takeCount { s with tsu := { old with f := x.f } } x.leapCount
    let s := takeWarning s x.warning
    let s := if s.stepDue x.theta then stepVt s x.theta else { s with tsu := s.tsu.steer x.theta }
    let s := { s with tsu := { s.tsu with lastJ := min x.j Config.maxU } }
    let s := { s with tsu := { s.tsu with u := s.tsu.updateU } }
    clockHandOn s old (updateCause old s.tsu)
  else s

/-! ## Reports of the RFE (R5, R7) -/

/-- Entry to HOLDOVER: C becomes F (R7). -/
def Tsu.holdover (t : Tsu) : Tsu := { t with clock := .holdover, c := clampRate t.f }

/-- The TSU's state after a change of selection (R5). -/
def Tsu.select (t : Tsu) (new : Option (Fin 2)) : Tsu :=
  let old := t.selected
  let t := { t with selected := new }
  match t.clock, old, new with
  | .free, _, some _ => { t with clock := .acquiring, lock := 0 }
  | .holdover, _, some _ => { t with clock := .acquiring, lock := 0 }
  | .untraceable, _, some _ => { t with clock := .acquiring, lock := 0 }
  | .acquiring, _, some _ => { t with lock := 0 }
  | .tracking, _, some _ => { t with unlock := 0 }
  | .acquiring, _, none => if t.tracked then t.holdover else { t with clock := .free, u := Config.maxU }
  | .tracking, _, none => t.holdover
  | .free, _, none => t
  | .holdover, _, none => t
  | .untraceable, _, none => t

/-- The report of the selected reference (R5). -/
def selectionReport (s : State) (new : Option (Fin 2)) : State :=
  let old := s.tsu
  if old.selected = new then s else clockHandOn { s with tsu := old.select new } old .selection

/-- The report of REF2 entering or leaving QUALIFIED (R7). -/
def aidedReport (s : State) (v : Bool) : State := { s with tsu := { s.tsu with aided := v } }

/-! ## The whole-second boundary (R10, R17) -/

/-- U and the clock state at a boundary (R10, step 1). -/
def Tsu.grow (t : Tsu) : Tsu :=
  if t.clock = .holdover ∨ t.clock = .untraceable then
    let u := min Config.maxU (t.u + if t.aided then t.limits.aidedRate else t.limits.unaidedRate)
    { t with u := u, clock := if t.clock = .holdover ∧ t.limits.traceability < u then .untraceable else t.clock }
  else t

/-- SECOND_BOUNDARY (R10). -/
def secondBoundary (s : State) : State :=
  if s.tsu.boundaryDue then
    let old := s.tsu
    let s := { s with tsu := { old.grow with boundaryDue := false } }
    let s := clockHandOn s old .uLimit
    let s := qualityPending s
    let n := s.tsu.summary + 1
    { s with tsu := { s.tsu with summary := n, summaryDue := decide (s.tsu.limits.summaryInterval ≤ n) } }
  else s

/-- The meaning of SECOND_BOUNDARY. -/
def execSecondBoundary (s : State) : Host.Outcome State Fault Refusal := whenLive s secondBoundary

/-- The CLOCK_SUMMARY record (R17). -/
def summaryRecord (s : State) : Record :=
  let t := s.tsu
  { kind := .clockSummary, subject := 255, vt := s.now,
    body := be 1 t.clock.code ++ beInt 8 t.theta ++ be 3 t.u ++ beInt 4 t.c ++ beInt 4 t.f
      ++ beOpt (t.selected.map (·.val)) ++ beBool t.aided ++ be 1 t.leapCount ++ be 1 t.pendingLeap.code
      ++ be 6 ((s.sis.last.map (·.1)).getD 0) ++ beVt ((s.sis.last.map (·.2)).getD 0) }

/-- CLOCK_SUMMARY (R17). -/
def clockSummary (s : State) : State :=
  if s.tsu.summaryDue then
    let s := { s with tsu := { s.tsu with summary := 0, summaryDue := false } }
    offer s (summaryRecord s)
  else s

/-- The meaning of CLOCK_SUMMARY. -/
def execClockSummary (s : State) : Host.Outcome State Fault Refusal := whenLive s clockSummary

/-! ## Requests -/

/-- The clock limits are in range (R18). -/
def ClockLimits.valid (l : ClockLimits) : Bool :=
  decide (10 ≤ l.tracking ∧ l.tracking ≤ 1000000 ∧ 10 ≤ l.tight ∧ l.tight ≤ 1000000 ∧ l.tight ≤ l.traceability
    ∧ 100 ≤ l.traceability ∧ l.traceability ≤ 16000000 ∧ l.baseU ≤ 100000 ∧ l.unaidedRate ≤ 10000 ∧ l.aidedRate ≤ 10000
    ∧ 8 ≤ l.tau ∧ l.tau ≤ 1024 ∧ 1000 ≤ l.slewLimit ∧ l.slewLimit ≤ 500000 ∧ 1000 ≤ l.stepThreshold
    ∧ l.stepThreshold ≤ 1000000000 ∧ 1 ≤ l.lockCount ∧ l.lockCount ≤ 63 ∧ 1 ≤ l.unlockCount ∧ l.unlockCount ≤ 63
    ∧ 10 ≤ l.summaryInterval ∧ l.summaryInterval ≤ 3600)

/-- U once the base uncertainty has changed (R9); before the first update j and θ are the values after a restart, 0 (R21; log
16). -/
def Tsu.rebased (t : Tsu) (oldBase : Nat) : Tsu :=
  if t.limits.baseU ≠ oldBase ∧ (t.clock = .acquiring ∨ t.clock = .tracking) then { t with u := t.updateU } else t

/-- The clock state re-judged under new limits (R18, step 4). -/
def Tsu.rejudged (t : Tsu) : Tsu :=
  match t.clock with
  | .holdover => if t.limits.traceability < t.u then { t with clock := .untraceable } else t
  | .untraceable => if t.u ≤ t.limits.traceability then { t with clock := .holdover } else t
  | .free | .acquiring | .tracking => t

/-- Set Clock Limits (R18). -/
def setClockLimits (l : ClockLimits) (s : State) : Answered :=
  if ClockLimits.valid l then
    let old := s.tsu
    let s := { s with tsu := { old with limits := l } }
    let s := offer s { kind := .clockLimits, subject := 255, vt := s.now, body := ClockLimits.bytes l }
    let s := { s with tsu := (s.tsu.rebased old.limits.baseU).rejudged }
    done (clockHandOn s old .limits)
  else refuse s .badArgument

/-- The meaning of SET_CLOCK_LIMITS. -/
def execSetClockLimits (tag : Byte) (limits : ClockLimits) (s : State) : Host.Outcome State Fault Refusal :=
  hostRequest tag (.setClockLimits limits) (setClockLimits limits) s

/-- A civil date and time of day to the nanosecond, as Read Clock shows it (log 20). -/
def civilNsBytes (c : Civil) : List Byte :=
  let date := dateOf c.day
  let secs := c.ns / nsPerSecond
  let (h, m, x) := if 86400 ≤ secs then (23, 59, 60 + (secs - 86400)) else (secs / 3600, secs / 60 % 60, secs % 60)
  beInt 2 date.1 ++ be 1 date.2.1 ++ be 1 date.2.2 ++ be 1 h ++ be 1 m ++ be 1 x ++ be 4 (c.ns % nsPerSecond)

/-- The body of the Read Clock reply (R19). -/
def clockBody (s : State) : List Byte :=
  let t := s.tsu
  beVt s.now ++ civilNsBytes (t.toCivil s.now)
    ++ be 1 t.leapCount ++ be 1 t.pendingLeap.code ++ be 1 t.labelLeap.code ++ be 1 t.hostLeap.code ++ beBool t.latched
    ++ beVtOpt t.leapInstant
    ++ be 1 t.clock.code ++ be 1 t.grade.code ++ beBool t.traceable ++ be 3 t.u ++ beInt 8 t.theta ++ beInt 4 t.c
    ++ beInt 4 t.f
    ++ beOpt (t.selected.map (·.val)) ++ beBool t.aided ++ beBool t.vtSet ++ beBool t.tracked
    ++ be 1 t.lock ++ be 1 t.unlock ++ be 2 t.summary
    ++ ClockLimits.bytes t.limits

/-- Read Clock (R19). -/
def readClock (s : State) : Answered := { state := s, status := .ok, body := clockBody s }

/-- The meaning of READ_CLOCK. -/
def execReadClock (tag : Byte) (s : State) : Host.Outcome State Fault Refusal := hostRequest tag .readClock readClock s

/-- The announcement a value names (R20). -/
def leapOf : Nat → Option Leap
  | 0 => some .noLeap
  | 1 => some .insert
  | 2 => some .delete
  | _ => none

/-- Announce Leap (R20). -/
def announceLeap (value : Nat) (s : State) : Answered :=
  if s.tsu.latched then refuse s .tooLate
  else
    match leapOf value with
    | none => refuse s .badArgument
    | some w =>
      if s.tsu.cannotApply w then refuse s .badArgument
      else if w = s.tsu.hostLeap then done s
      else done (announce s { s.tsu with hostLeap := w })

/-- The meaning of ANNOUNCE_LEAP. -/
def execAnnounceLeap (tag : Byte) (value : Nat) (s : State) : Host.Outcome State Fault Refusal :=
  hostRequest tag (.announceLeap value) (announceLeap value) s

end Sys2Proof.Machine
end

