-- ==== Sys2Proof/Machine/Reference.lean ====
section
/-!
DEFINITION. Machine/Reference.lean: the Reference Front End (02): capture, labels, the judgement of edges, missing pulses and overruns,
the hand-off of a judged event, the disagreement check, and the reference requests.
-/
namespace Sys2Proof.Machine

/-! ## What one occurrence does to its reference -/

/-- What a judged occurrence makes of a reference: its new state, the cause of a change of state, whether the interval was
good, and the phase sample of a good labelled interval. -/
structure RefStep where
  ref : Ref
  cause : RefCause
  good : Bool := false
  sample : Option Sample := none

/-- The label stream moved on at the close of an interval (R26). -/
def Ref.closeLabels (r : Ref) (i : Fin 3) : Ref :=
  if r.labelled i then
    match r.heldLabel with
    | some l => { r with lastSecond := some l.second, lastLabel := some l, heldLabel := none, labelBad := false }
    | none => { r with lastSecond := r.lastSecond.map (freeSucc 6 1099511627775), labelBad := false }
  else r

/-- A bad interval counted by its cause (R27). -/
def Ref.countBad (r : Ref) : RefCause → Ref
  | .timing => { r with badTiming := sat32 r.badTiming }
  | .missing => { r with badMissing := sat32 r.badMissing }
  | .overrun => { r with badOverrun := sat32 r.badOverrun }
  | .label => { r with badLabel := sat32 r.badLabel }
  | .matched | .lock | .enable | .disable => r

/-- What a bad interval does to the qualification machine (R29, R30). -/
def Ref.degrade (r : Ref) : Ref :=
  match r.state with
  | .disabled => r
  | .searching => r
  | .candidate => { r with state := .searching, lock := 0, candidate := none }
  | .qualified =>
    if r.config.unlockValue ≤ r.miss + 1 then { r with state := .searching, miss := 0, lock := 0, candidate := none }
    else { r with miss := r.miss + 1 }

/-- A bad interval of a cause. -/
def Ref.bad (r : Ref) (cause : RefCause) : RefStep := { ref := (r.countBad cause).degrade, cause := cause }

/-- The estimators moved toward a closing interval (R31). -/
def Ref.estimate (r : Ref) (e f : Int) : Ref :=
  { r with
    j16 := (divRound (15 * r.j16 + 16 * e.natAbs) 16).toNat
    f := clampRate (divRound (7 * r.f + f) 8) }

/-- What a good interval does to the qualification machine (R28 to R30): the state and the cause of its change. -/
def Ref.advance (r : Ref) (p : Profile) : Ref × RefCause :=
  match r.state with
  | .disabled => (r, .lock)
  | .searching =>
    if r.config.lockValue ≤ 1 then ({ r with state := .qualified, candidate := some p, lock := 1, miss := 0 }, .lock)
    else ({ r with state := .candidate, candidate := some p, lock := 1 }, .matched)
  | .candidate =>
    if r.config.lockValue ≤ r.lock + 1 then ({ r with state := .qualified, lock := r.config.lockValue, miss := 0 }, .lock)
    else ({ r with lock := r.lock + 1 }, .lock)
  | .qualified => ({ r with miss := 0 }, .lock)

/-- The offset of a labelled edge (R32). -/
def offsetOf (edge : Edge) (l : Label) : Offset :=
  { ns := (edge.vt : Int) - (l.second : Int) * nsPerSecond, second := l.second, phase := edge.phase }

/-- A good interval closed by an edge (R27, R31, R32). -/
def Ref.goodInterval (r : Ref) (i : Fin 3) (edge : Edge) (p : Profile) (e f : Int) : RefStep :=
  let held := if r.labelled i then r.heldLabel else none
  let step := ({ r with good := sat32 r.good }.estimate e f).advance p
  let moved := step.1.closeLabels i
  { ref := { moved with anchor := some edge.phase, offset := (held.map (offsetOf edge)).orElse fun _ => moved.offset }
    cause := step.2
    good := true
    sample := held.map fun l =>
      { vt := edge.vt, second := l.second, leapCount := l.leapCount, warning := l.warning, f := moved.f, j := moved.jNs } }

/-- An interval closed by an edge as bad, the edge becoming the anchor. -/
def Ref.closeBad (r : Ref) (i : Fin 3) (edge : Edge) (cause : RefCause) : RefStep :=
  let b := r.bad cause
  { b with ref := { b.ref.closeLabels i with anchor := some edge.phase } }

/-- The frequency sample of an interval of `n` eighths against a profile (R23). -/
def frequencySample (p : Profile) (n : Nat) : Int :=
  divRound (((p.nominal : Int) - n) * 1000000000000) p.nominal

/-- The interval error against a profile (R23). -/
def Ref.intervalError (r : Ref) (p : Profile) (n : Nat) : Int := correctedNs n r.fUsed - p.nominal

/-- The label conditions hold or do not apply (R26). -/
def Ref.labelsPass (r : Ref) (i : Fin 3) : Bool := !r.labelled i || r.labelConditions

/-- A profile is enabled. -/
def RefConfig.enables (c : RefConfig) : Profile → Bool
  | .hz1 => c.hz1
  | .hz10 => c.hz10
  | .hz100 => c.hz100

/-- The profile identified in SEARCHING (R28). -/
def Ref.identified (r : Ref) (n : Nat) : Option Profile :=
  [Profile.hz1, .hz10, .hz100].find? fun p =>
    r.config.enables p && decide ((frequencySample p n).natAbs ≤ Config.maxRate)

/-- An edge judged in SEARCHING (R28). -/
def Ref.judgeSearching (r : Ref) (i : Fin 3) (edge : Edge) (n : Nat) : RefStep :=
  match r.identified n with
  | none => r.closeBad i edge .timing
  | some p =>
    let e := r.intervalError p n
    let f := frequencySample p n
    if r.fValid ∧ e.natAbs ≤ bandOf r.config.bandClass then
      if r.labelsPass i then r.goodInterval i edge p e f else r.closeBad i edge .label
    else { r with f := f, fValid := true }.closeBad i edge .timing

/-- An edge judged against the candidate profile (R27). -/
def Ref.judgeTracked (r : Ref) (i : Fin 3) (edge : Edge) (n : Nat) (p : Profile) : RefStep :=
  let e := r.intervalError p n
  let band : Int := bandOf r.config.bandClass
  if e < -band then r.bad .timing
  else if band < e then r.closeBad i edge .timing
  else if r.labelsPass i then r.goodInterval i edge p e (frequencySample p n)
  else r.closeBad i edge .label

/-- The last phase, counted from the anchor, at which an expected edge is still in time (R24). -/
def Ref.lastInTime (r : Ref) (p : Profile) : Nat := r.expectedLength p + bandOf r.config.bandClass

/-- An edge `n` eighths from the anchor comes after a pulse that must be declared missing first (R24). -/
def Ref.afterMissing (r : Ref) (n : Nat) : Bool :=
  match r.state, r.candidate with
  | .candidate, some p => decide (r.lastInTime p < n)
  | .qualified, some p => decide (r.lastInTime p < n)
  | _, _ => false

/-- An edge consumed against an anchor. -/
def Ref.judgeEdge (r : Ref) (i : Fin 3) (edge : Edge) (n : Nat) : RefStep :=
  match r.candidate with
  | none => r.judgeSearching i edge n
  | some p => r.judgeTracked i edge n p

/-! ## Hand-off (R33 to R36) -/

/-- The configuration in force, seven bytes. -/
def RefConfig.bytes (c : RefConfig) : List Byte :=
  be 1 (if c.rising then 0 else 1) ++ be 1 ((if c.hz1 then 1 else 0) + (if c.hz10 then 2 else 0) + (if c.hz100 then 4 else 0))
    ++ be 1 c.bandClass ++ be 1 c.lockValue ++ be 1 c.unlockValue ++ be 1 c.priority ++ beBool c.labelUse

/-- The selection as the references stand (R33). -/
def Rfe.selection (x : Rfe) : Option (Fin 2) := Rfe.choose x.refs[0] x.refs[1]

/-- A reference entered or left QUALIFIED. -/
def crossed (old new : RefState) : Bool := (old == .qualified) != (new == .qualified)

/-- The REFERENCE_STATE record (R35, R39), `extra` the configuration of an enable; it names its reference in the subject byte alone (the
model's choice, log 30). -/
def refRecord (s : State) (i : Fin 3) (old : RefState) (cause : RefCause) (extra : List Byte) : Record :=
  let r := s.ref i
  { kind := .referenceState, subject := i.val, vt := s.now,
    body := be 1 old.code ++ be 1 r.state.code ++ be 1 cause.code ++ beOpt (r.candidate.map (·.code)) ++ beInt 4 r.f
      ++ be 3 r.jNs ++ beOpt (s.rfe.selection.map (·.val)) ++ extra }

/-- The REFERENCE_STATE notice. -/
def notifyRef (s : State) (i : Fin 3) : State :=
  notify s .referenceState (.reference i.val) (be 1 (s.ref i).state.code ++ beOpt (s.rfe.selected.map (·.val)))

/-- Steps 3 and 4 of R35 after a change of state: the selection of a labelled reference, the aided report of REF2. -/
def reselect (s : State) (i : Fin 3) (old : RefState) : State :=
  if crossed old (s.ref i).state then
    if i.val < 2 then
      let sel := s.rfe.selection
      selectionReport { s with rfe := { s.rfe with selected := sel } } sel
    else aidedReport s ((s.ref i).state == .qualified)
  else s

/-- The disagreement flag after a reference's change of state (R36). -/
def clearDisagree (s : State) (i : Fin 3) (old : RefState) : State :=
  if i.val < 2 ∧ old = .qualified ∧ (s.ref i).state ≠ .qualified then { s with rfe := { s.rfe with disagree := false } } else s

/-- Both references are QUALIFIED with label use on and hold offsets of one label second: the two offsets (R36). -/
def Rfe.compared (x : Rfe) : Option (Offset × Offset) :=
  let r0 := x.refs[0]
  let r1 := x.refs[1]
  if r0.eligible && r1.eligible then
    match r0.offset, r1.offset with
    | some a, some b => if a.second = b.second then some (a, b) else none
    | some _, none => none
    | none, _ => none
  else none

/-- The onset of a disagreement shown (R36).  The record's subject byte is the reference whose interval closed, as the
notice's is, and its body gives REF0's offset before REF1's (the model's choices, log 30). -/
def showDisagree (s : State) (i : Fin 3) (a b : Offset) (diff : Int) : State :=
  let s := { s with rfe := { s.rfe with disagree := true } }
  let s := offer s
    { kind := .referenceDisagree, subject := i.val, vt := s.now,
      body := beInt 8 a.ns ++ beInt 8 b.ns ++ beInt 8 diff ++ be 5 a.second }
  notify s .referenceDisagree (.reference i.val) (beInt 4 (clampInt (-2147483647) 2147483647 diff) ++ be 4 a.second)

/-- The disagreement check after a good interval (R36); the difference is REF0's edge less REF1's (the model's choice, log
30). -/
def checkDisagree (s : State) (i : Fin 3) : State :=
  match s.rfe.compared with
  | none => s
  | some (a, b) =>
    let diff := correctedNs (phaseDiff a.phase b.phase) (s.ref i).fUsed
    if s.tsu.limits.tracking < diff.natAbs then (if s.rfe.disagree then s else showDisagree s i a b diff)
    else { s with rfe := { s.rfe with disagree := false } }

/-- Steps 2 to 4 of R35 for a change of state, if there was one. -/
def showRefChange (s : State) (i : Fin 3) (old : RefState) (cause : RefCause) (extra : List Byte) : State :=
  if (s.ref i).state = old then s
  else
    let s := clearDisagree s i old
    let s := offer s (refRecord s i old cause extra)
    reselect s i old

/-- The phase sample handed to the TSU if the reference is the selected one (R32, R35, step 5). -/
def handSample (s : State) (i : Fin 3) (x : Option Sample) : State :=
  match x with
  | some x => if s.rfe.selected.map (·.val) = some i.val then takeSample s x else s
  | none => s

/-- A judged occurrence handed off (R35). -/
def handOffRef (s : State) (i : Fin 3) (j : RefStep) : State :=
  let old := (s.ref i).state
  let s := showRefChange (s.setRef i j.ref) i old j.cause []
  let s := handSample s i j.sample
  let s := if j.good ∧ i.val < 2 then checkDisagree s i else s
  if j.ref.state = old then s else notifyRef s i

/-! ## Events -/

/-- PULSE_EDGE (R22). -/
def pulseEdge (s : State) (i : Fin 3) (rising : Bool) (eighth : Fin 8) : State :=
  let r := s.ref i
  if r.state = .disabled ∨ rising ≠ r.config.rising then s
  else
    match r.cell with
    | none => s.setRef i { r with cell := some { vt := s.now, phase := (s.phase + eighth.val) % Config.phaseWrap } }
    | some _ => s.setRef i { r with overrunsBehind := r.overrunsBehind + 1 }

/-- The meaning of PULSE_EDGE. -/
def execPulseEdge (i : Fin 3) (rising : Bool) (eighth : Fin 8) (s : State) : Host.Outcome State Fault Refusal :=
  whenLive s fun s => pulseEdge s i rising eighth

/-- The cell emptied by the consumption of its edge, the overruns behind it next in turn (R22). -/
def Ref.consume (r : Ref) : Ref :=
  { r with cell := none, overrunsBehind := 0, overrunsDue := r.overrunsDue + r.overrunsBehind }

/-- EDGE_JUDGED (R23, R24, R35): the edge in the cell is consumed, unless a missing pulse must be declared first. -/
def edgeJudged (s : State) (i : Fin 3) : State :=
  let r := s.ref i
  match r.cell with
  | none => s
  | some edge =>
    match r.anchor with
    | none => s.setRef i { r.consume with anchor := some edge.phase }
    | some a =>
      let n := phaseSince a edge.phase
      if r.afterMissing n then s else handOffRef s i (r.consume.judgeEdge i edge n)

/-- The meaning of EDGE_JUDGED. -/
def execEdgeJudged (i : Fin 3) (s : State) : Host.Outcome State Fault Refusal := whenLive s fun s => edgeJudged s i

/-- OVERRUN (R22, R27). -/
def overrun (s : State) (i : Fin 3) : State :=
  let r := s.ref i
  if 0 < r.overrunsDue ∧ r.state ≠ .disabled then
    handOffRef s i ({ r with overrunsDue := r.overrunsDue - 1 }.bad .overrun)
  else s

/-- The meaning of OVERRUN. -/
def execOverrun (i : Fin 3) (s : State) : Host.Outcome State Fault Refusal := whenLive s fun s => overrun s i

/-- The expected instant plus the band has passed with no edge in the cell from before it (R24).  An edge from before it that
has been judged early and left the cell does not meet it: the pulse is missing (the model's choice, log 33). -/
def State.missingDue (s : State) (i : Fin 3) : Bool :=
  let r := s.ref i
  match r.anchor, r.candidate with
  | some a, some p =>
    r.afterMissing (phasePassed a s.phase) &&
      (match r.cell with
       | none => true
       | some edge => decide (r.lastInTime p < phaseSince a edge.phase))
  | _, _ => false

/-- A missing pulse (R24, R27): the expected instant becomes the anchor. -/
def Ref.missed (r : Ref) (i : Fin 3) : RefStep :=
  match r.anchor, r.candidate with
  | some a, some p =>
    let b := r.bad .missing
    { b with ref := { b.ref.closeLabels i with anchor := some ((a + r.expectedLength p) % Config.phaseWrap) } }
  | _, _ => { ref := r, cause := .missing }

/-- MISSING_PULSE (R24). -/
def missingPulse (s : State) (i : Fin 3) : State :=
  if s.missingDue i then handOffRef s i ((s.ref i).missed i) else s

/-- The meaning of MISSING_PULSE. -/
def execMissingPulse (i : Fin 3) (s : State) : Host.Outcome State Fault Refusal := whenLive s fun s => missingPulse s i

/-- The reference takes label frames now: its anchor, or none (R25). -/
def Ref.labelAnchor (r : Ref) : Option Nat :=
  if r.state ≠ .disabled ∧ r.config.labelUse then r.anchor else none

/-- A label discarded. -/
def Ref.discardLabel (r : Ref) : Ref := { r with labelBad := true, discards := sat32 r.discards }

/-- A label frame, well-formed or not, `t` corrected ns after the anchor (R25). -/
def Ref.takeLabel (r : Ref) (t : Int) (l : Option Label) : Ref :=
  match l with
  | none => r.discardLabel
  | some l =>
    if t < 100000000 ∨ 900000000 < t then r.discardLabel
    else if r.heldLabel.isSome then { r with heldLabel := some l, labelBad := true }
    else { r with heldLabel := some l }

/-- A labelled reference among the three. -/
def labelled (i : Fin 2) : Fin 3 := ⟨i.val, by omega⟩

/-- The arrival of a label frame (R25). -/
def labelArrives (s : State) (i : Fin 2) (l : Option Label) : State :=
  let r := s.ref (labelled i)
  match r.labelAnchor with
  | none => s
  | some a => s.setRef (labelled i) (r.takeLabel (correctedNs (phasePassed a s.phase) r.fUsed) l)

/-- LABEL_FRAME (R25, R178): bytes that begin no frame are passed over. -/
def labelFrame (s : State) (i : Fin 2) (bytes : List Byte) (stopLow : Bool) : State :=
  if startsLabel bytes stopLow then labelArrives s i (parseLabel bytes stopLow) else s

/-- The meaning of LABEL_FRAME. -/
def execLabelFrame (i : Fin 2) (bytes : List Byte) (stopLow : Bool) (s : State) : Host.Outcome State Fault Refusal :=
  whenLive s fun s => labelFrame s i bytes stopLow

/-- LABEL_TIMEOUT (R25, R178): a frame begun, and not yet at its tenth byte, ends ill-formed at the expiry of 1 ms. -/
def labelTimeout (s : State) (cut : CutLabel) : State :=
  if startsLabel cut.bytes false ∧ cut.bytes.length < 10 then labelArrives s cut.ref none else s

/-- The meaning of LABEL_TIMEOUT. -/
def execLabelTimeout (cut : CutLabel) (s : State) : Host.Outcome State Fault Refusal :=
  whenLive s fun s => labelTimeout s cut

/-! ## Requests -/

/-- A reference request: BAD_ARGUMENT when it names a reference above 2 (R37). -/
def onRef (n : Nat) (s : State) (k : Fin 3 → Answered) : Answered :=
  match named 3 n with
  | some i => k i
  | none => refuse s .badArgument

/-- The fields of a Configure Reference request are in range for the reference (R38). -/
def RefArgs.valid (a : RefArgs) (i : Fin 3) : Bool :=
  decide (a.polarity ≤ 1 ∧ 1 ≤ a.profiles ∧ a.profiles ≤ 7 ∧ (i.val < 2 → a.profiles = 1) ∧ a.bandClass ≤ 3
    ∧ 1 ≤ a.lockValue ∧ a.lockValue ≤ 31 ∧ 1 ≤ a.unlockValue ∧ a.unlockValue ≤ 7 ∧ a.priority ≤ 1
    ∧ (i.val = 2 → a.priority = 0) ∧ a.labelUse ≤ 1 ∧ (i.val = 2 → a.labelUse = 0))

def RefArgs.config (a : RefArgs) : RefConfig :=
  { rising := a.polarity == 0, hz1 := a.profiles % 2 == 1, hz10 := a.profiles / 2 % 2 == 1, hz100 := a.profiles / 4 % 2 == 1,
    bandClass := a.bandClass, lockValue := a.lockValue, unlockValue := a.unlockValue, priority := a.priority,
    labelUse := a.labelUse == 1 }

/-- Configure Reference (R38). -/
def configureReference (a : RefArgs) (s : State) : Answered :=
  onRef a.ref s fun i =>
    if !RefArgs.valid a i then refuse s .badArgument
    else if (s.ref i).state = .disabled then done (s.setRef i { s.ref i with config := RefArgs.config a })
    else refuse s .wrongState

/-- The meaning of CONFIGURE_REFERENCE. -/
def execConfigureReference (tag : Byte) (args : RefArgs) (s : State) : Host.Outcome State Fault Refusal :=
  hostRequest tag (.configureReference args) (configureReference args) s

/-- A reference prepared for SEARCHING (R39). -/
def Ref.enabled (r : Ref) : Ref :=
  { config := r.config, state := .searching, j16 := 16 * bandOf r.config.bandClass }

/-- Enable Reference (R39). -/
def enableReference (n : Nat) (s : State) : Answered :=
  onRef n s fun i =>
    let r := s.ref i
    if r.state = .disabled then
      let s := showRefChange (s.setRef i r.enabled) i .disabled .enable r.config.bytes
      done (notifyRef s i)
    else refuse s .wrongState

/-- The meaning of ENABLE_REFERENCE. -/
def execEnableReference (tag : Byte) (ref : Nat) (s : State) : Host.Outcome State Fault Refusal :=
  hostRequest tag (.enableReference ref) (enableReference ref) s

/-- A reference disabled (R40, step 1); overruns counted and not yet judged are dropped with the cell (the model's choice, log
33). -/
def Ref.disabled (r : Ref) : Ref :=
  { r with state := .disabled, cell := none, overrunsBehind := 0, overrunsDue := 0, anchor := none, heldLabel := none,
           labelBad := false, candidate := none, lock := 0, miss := 0 }

/-- Disable Reference (R40). -/
def disableReference (n : Nat) (s : State) : Answered :=
  onRef n s fun i =>
    let r := s.ref i
    if r.state = .disabled then done s
    else
      let s := s.setRef i r.disabled
      let s := { s with rfe := { s.rfe with disagree := false } }
      done (notifyRef (showRefChange s i r.state .disable []) i)

/-- The meaning of DISABLE_REFERENCE. -/
def execDisableReference (tag : Byte) (ref : Nat) (s : State) : Host.Outcome State Fault Refusal :=
  hostRequest tag (.disableReference ref) (disableReference ref) s

/-- A VT second, or five bytes of 255 where it is absent (the model's spelling, log 34). -/
def beSecondOpt : Option Nat → List Byte
  | some x => be 5 x
  | none => List.replicate 5 255#8

/-- The body of the Read Reference reply (R41); an absent offset is a presence byte 0 and zeros, absent label fields are 255
(the model's spelling, log 34). -/
def refBody (s : State) (i : Fin 3) : List Byte :=
  let r := s.ref i
  r.config.bytes
    ++ be 1 r.state.code ++ beOpt (r.candidate.map (·.code)) ++ be 1 r.lock ++ be 1 r.miss
    ++ beBool r.cell.isSome
    ++ beInt 4 r.f ++ beBool r.fValid ++ be 3 r.jNs
    ++ beSecondOpt r.lastSecond ++ beOpt (r.lastLabel.map (·.leapCount)) ++ beOpt (r.lastLabel.map (·.warning.code))
    ++ beOpt (r.lastLabel.map fun l => if l.traceable then 1 else 0)
    ++ beBool r.heldLabel.isSome
    ++ beBool r.offset.isSome ++ beInt 8 ((r.offset.map (·.ns)).getD 0) ++ beSecondOpt (r.offset.map (·.second))
    ++ be 4 r.good ++ be 4 r.badTiming ++ be 4 r.badMissing ++ be 4 r.badOverrun ++ be 4 r.badLabel ++ be 4 r.discards
    ++ beOpt (s.rfe.selected.map (·.val)) ++ beBool s.rfe.disagree

/-- Read Reference (R41). -/
def readReference (n : Nat) (s : State) : Answered :=
  onRef n s fun i => { state := s, status := .ok, body := refBody s i }

/-- The meaning of READ_REFERENCE. -/
def execReadReference (tag : Byte) (ref : Nat) (s : State) : Host.Outcome State Fault Refusal :=
  hostRequest tag (.readReference ref) (readReference ref) s

end Sys2Proof.Machine
end

