-- ==== Sys2Proof/Machine/Journal.lean ====
section
/-!
DEFINITION. Machine/Journal.lean: the Evidence Journal (06) beyond its intake and writer: the ends of writes and erases, start-up
recovery, and the journal requests.
-/
namespace Sys2Proof.Machine

/-! ## The end of a write (R116 to R119) -/

/-- One slot of a page given a content. -/
def setSlot (s : State) (p : Fin 64) (i : Fin 128) (c : Slot) : State :=
  let pg := s.page p
  s.setPage p { pg with slots := pg.slots.set i c }

/-- The writer becomes idle and decides again. -/
def writerNext (s : State) : State := writerDecide { s with ej := { s.ej with writer := none } }

/-- The record of a write stands in its slot, the index and the chain having moved on (R112, R116 step 1). -/
def standRecord (s : State) (w : Write) : State :=
  let e := s.ej
  let serial := (s.page w.page).serial.getD 0
  let s := setSlot s w.page w.slot (.data (recordBytes e.chain w.record e.epoch serial w.slot.val))
  { s with ej := { s.ej with
      nextIndex := freeSucc 2 (Config.noIndex - 1) e.nextIndex
      chain := recordChain e.chain w.record e.epoch serial w.slot.val
      openPage := some (w.page, w.slot.val + 1) } }

/-- What the source of a verified record is released from (R116, step 2). -/
def releaseSource (s : State) : WriteSource → State
  | .pageOpen => s
  | .intake => { s with ej := { s.ej with intake := s.ej.intake.tail, rewriteOwed := false } }
  | .gap _ => { s with ej := { s.ej with gapOwed := none } }

/-- The arming index reported to the AUC for an AUCTION_ARM record (R116 step 3, R118 step 3). -/
def reportArm (s : State) (r : Record) (index : Nat) : State :=
  match r.kind, named 32 r.subject with
  | .auctionArm, some g => reportIndex s g index
  | _, _ => s

/-- The close a verified write causes (R116, steps 4 and 5). -/
def closeAfter (s : State) (slot : Fin 128) : State :=
  if slot.val = 127 then closePage s .full else if s.ej.closeRequested then closePage s .request else s

/-- WRITE_VERIFIED (R116). -/
def writeVerified (s : State) : State :=
  match s.ej.writer with
  | none => s
  | some w =>
    let index := s.ej.nextIndex
    let s := releaseSource (standRecord s w) w.source
    let s := reportArm s w.record index
    let s := closeAfter s w.slot
    writerNext s

/-- The meaning of WRITE_VERIFIED. -/
def execWriteVerified (s : State) : Host.Outcome State Fault Refusal := whenLive s writeVerified

/-- The earlier of two first losses. -/
def earlier : Option Nat → Option Nat → Option Nat
  | some a, some b => some (min a b)
  | some a, none => some a
  | none, b => b

/-- A GAP record dropped, its counts added back (R117). -/
def dropGap (s : State) (g : Gap) : State :=
  { s with ej := { s.ej with
      gapOwed := none
      criticalLost := freeSum 3 Config.noIndex s.ej.criticalLost g.critical
      nonCriticalLost := freeSum 4 Config.noIndex s.ej.nonCriticalLost g.nonCritical
      firstLoss := earlier g.first s.ej.firstLoss } }

/-- A failed record owed again (R118, step 2). -/
def oweAgain (s : State) : WriteSource → State
  | .pageOpen => s
  | .intake => { s with ej := { s.ej with rewriteOwed := true } }
  | .gap g => { s with ej := { s.ej with gapOwed := some g } }

/-- A failed record lost for want of a FREE page (R118, step 3). -/
def loseFailed (s : State) (r : Record) : WriteSource → State
  | .pageOpen => s
  | .intake =>
    let s := { s with ej := { s.ej with intake := s.ej.intake.tail, rewriteOwed := false } }
    reportArm (loseRecord s r.kind) r Config.noIndex
  | .gap g => dropGap s g

/-- WRITE_FAILED (R118): of a record other than PAGE_OPEN. -/
def writeFailed (s : State) : State :=
  match s.ej.writer with
  | none => s
  | some w =>
    if w.source = .pageOpen then s
    else
      let s := closePage (setSlot s w.page w.slot .void) .short
      let s := if s.ej.firstFree.isSome then oweAgain s w.source else loseFailed s w.record w.source
      writerNext s

/-- The meaning of WRITE_FAILED. -/
def execWriteFailed (s : State) : Host.Outcome State Fault Refusal := whenLive s writeFailed

/-- A page's defect recorded, noticed and judged (R119, R127); the record names its page in the subject byte alone (log 30). -/
def showDefect (s : State) (p : Fin 64) (serial : Nat) (cause : DefectCause) : State :=
  let s := offer s
    { kind := .pageDefect, subject := p.val, vt := s.now, body := be 4 serial ++ be 1 cause.code }
  let s := notify s .pageDefect (.page p.val) (be 4 serial ++ be 1 cause.code)
  judgeJournal s

/-- PAGE_OPEN_FAILED (R119). -/
def pageOpenFailed (s : State) : State :=
  match s.ej.writer with
  | none => s
  | some w =>
    if w.source = .pageOpen then
      let s := setSlot s w.page w.slot .void
      let pg := s.page w.page
      let s := s.setPage w.page { pg with state := .defective, defect := some .openFailed }
      let s := { s with ej := { s.ej with openPage := none, closeRequested := false } }
      writerNext (showDefect s w.page (pg.serial.getD 0) .openFailed)
    else s

/-- The meaning of PAGE_OPEN_FAILED. -/
def execPageOpenFailed (s : State) : Host.Outcome State Fault Refusal := whenLive s pageOpenFailed

/-! ## The end of an erase (R127) -/

/-- The slots of a page after an erase that left the given ones not blank. -/
def erasedSlots (notBlank : List (Fin 128)) : Vector Slot 128 :=
  Vector.ofFn fun i => if notBlank.contains i then .void else .blank

/-- A page found blank (R127). -/
def pageFreed (s : State) (p : Fin 64) : State :=
  let serial := (s.page p).serial.getD 0
  let s := s.setPage p {}
  let s := notify s .pageFreed (.page p.val) (be 4 serial)
  writerDecide (judgeJournal s)

/-- A page found not blank (R127). -/
def pageSpoiled (s : State) (p : Fin 64) (notBlank : List (Fin 128)) : State :=
  let serial := (s.page p).serial
  let s := s.setPage p
    { state := .defective, serial := serial, defect := some .eraseVerify, slots := erasedSlots notBlank }
  showDefect s p (serial.getD 0) .eraseVerify

/-- ERASE_END (R127): of the page at the head of the erase queue. -/
def eraseEnd (s : State) (notBlank : List (Fin 128)) : State :=
  match s.ej.eraseQueue with
  | [] => s
  | p :: rest =>
    let s := { s with ej := { s.ej with eraseQueue := rest } }
    if notBlank.isEmpty then pageFreed s p else pageSpoiled s p notBlank

/-- The meaning of ERASE_END. -/
def execEraseEnd (notBlank : List (Fin 128)) (s : State) : Host.Outcome State Fault Refusal :=
  whenLive s fun s => eraseEnd s notBlank

/-! ## Start-up recovery (R129 to R132) -/

/-- A slot verifies after a chain value: the chain value it carries, if it does (R129). -/
def Slot.verified (prev : Chain) : Slot → Option Chain
  | .data bytes =>
    let c := crc32 prev (bytes.take 60)
    if bytes.length = 64 ∧ field bytes 60 4 = c.toNat then some c else none
  | .blank => none
  | .void => none

/-- The walk: how many slots verify from a chain value on, and the chain value of the last one. -/
def walk : List Slot → Chain → Nat → Nat × Chain
  | [], c, n => (n, c)
  | x :: xs, c, n =>
    match x.verified c with
    | some c' => walk xs c' (n + 1)
    | none => (n, c)

/-- The bytes of a slot, none of them where it holds no record. -/
def Slot.bytes : Slot → List Byte
  | .data b => b
  | .blank => []
  | .void => []

/-- The previous chain value in the body of a page's PAGE_OPEN (R181). -/
def Page.seed (p : Page) : Chain := BitVec.ofNat 32 (field (p.slots[0]).bytes 28 4)

/-- The records an OPEN page holds, found by its walk, and the chain value of the last one. -/
def Page.found (p : Page) : Nat × Chain := walk p.slots.toList p.seed 0

/-- The slot after the records found is not blank: a torn tail. -/
def Page.torn (p : Page) : Bool :=
  match p.slots.toList.drop p.found.1 with
  | [] => false
  | x :: _ => x != .blank

/-- The torn tail reads VOID from then on. -/
def Page.tornSlots (p : Page) : Vector Slot 128 :=
  if p.torn then Vector.ofFn fun i => if i.val = p.found.1 then .void else p.slots[i] else p.slots

/-- The VT in the bytes of a record; bytes that name none inside the timescale, which the part never writes, give a free
value (log 5). -/
def recordVt (bytes : List Byte) : Nat := vtOfInt ((field bytes 6 5 * nsPerSecond + field bytes 11 4 : Nat))

/-- The record in a slot of a page. -/
def Page.recordAt (p : Page) (i : Nat) : List Byte := ((p.slots.toList[i]?).getD .blank).bytes

/-- An OPEN page closed by recovery; any other page as it is (R120, R129). -/
def Page.recovered (p : Page) : Page :=
  if p.state = .opened then
    { p with state := .closed, closeCause := some .recovery, count := p.found.1, lastChain := some p.found.2,
             closeTime := some (recordVt (p.recordAt (p.found.1 - 1))), slots := p.tornSlots }
  else p

/-- The page of the chain end among recovered pages: the one of the greatest serial that holds a record (R129). -/
def chainEnd (pages : Vector Page 64) : Option (Fin 64) :=
  allPages.foldl (fun best p =>
    let pg := pages[p]
    if pg.walked && decide (0 < pg.count) then
      match best with
      | none => some p
      | some (q : Fin 64) => if (pages[q]).serial.getD 0 < pg.serial.getD 0 then some p else some q
    else best) none

/-- The leap count a record gives, for the kinds R130 names. -/
def leapIn (bytes : List Byte) : Option Nat :=
  match field bytes 0 1 % 64 with
  | 43 => some (field bytes 36 1)
  | 1 => some (field bytes 38 1)
  | 35 => some (field bytes 42 1)
  | 4 => if field bytes 20 1 = 2 ∨ field bytes 20 1 = 3 then some (field bytes 21 1) else none
  | _ => none

/-- What recovery finds at the chain end. -/
structure Recovered where
  index : Option Nat := none
  chain : Chain := 0
  epoch : Nat := 0
  vt : Nat := 0
  leapCount : Nat := 0
deriving DecidableEq, Repr

/-- The chain end of a page that holds a record (R130). -/
def Page.chainEnd (p : Page) : Recovered :=
  let last := p.recordAt (p.count - 1)
  { index := some (field (p.recordAt 0) 20 8 + (p.count - 1))
    chain := p.lastChain.getD 0
    epoch := field last 2 4
    vt := recordVt last
    leapCount := ((p.slots.toList.take p.count).foldl (fun k x => (leapIn x.bytes).orElse fun _ => k) none).getD 0 }

/-- What recovery finds in the store. -/
def recoveredFrom (pages : Vector Page 64) : Recovered :=
  match chainEnd pages with
  | some p => (pages[p]).chainEnd
  | none => {}

/-- A page closed by this recovery with no record takes the chain value and the VT of the chain end (R129). -/
def Page.settle (p : Page) (wasOpen : Bool) (r : Recovered) : Page :=
  if wasOpen ∧ p.count = 0 then { p with lastChain := some r.chain, closeTime := some r.vt } else p

/-- The load of VT and the leap count (R21); no boundary up to the second of VT loaded is one for any rule (R1). -/
def loadClock (s : State) (vt : Nat) (k : Nat) : State :=
  let t := { s.tsu with vt := vt, frac := 0, leapCount := k, boundaryDue := false }
  { s with tsu := { t with day := t.civilDay, loadedSec := t.sec } }

/-- The START record (R131). -/
def startRecord (e : Ej) (r : Recovered) (truncated : Bool) : Record :=
  { kind := .start, subject := 255, vt := r.vt,
    body := be 1 e.restartCause.code ++ be 4 e.epoch ++ be 4 r.epoch ++ be 8 (r.index.getD Config.noIndex)
      ++ beBool truncated ++ be 1 r.leapCount
      ++ [PageState.free, .opened, .closed, .exported, .erasing, .defective].flatMap fun st => be 1 (e.pagesIn st) }

/-- Steps 2 to 4 of R130, and R132. -/
def beginEpoch (s : State) (r : Recovered) (truncated : Bool) : State :=
  let m := max r.epoch s.ej.storedEpoch
  if m < Config.max32 then
    let e := { s.ej with epoch := m + 1, storedEpoch := m + 1 }
    let e := { e with intake := startRecord e r truncated :: e.intake, state := e.judged }
    journalReport { s with ej := e, sis := { s.sis with epoch := m + 1 } } e.state
  else journalReport { s with ej := { s.ej with state := .exhausted } } .exhausted

/-- RECOVERY_END (R129 to R132). -/
def recoveryEnd (s : State) : State :=
  if s.ej.state = .starting then
    let old := s.ej.pages
    let truncated := old.toList.any fun p => p.state == .opened && p.torn
    let pages := old.map Page.recovered
    let r := recoveredFrom pages
    let pages := Vector.ofFn fun i : Fin 64 => (pages[i]).settle ((old[i]).state == .opened) r
    let serials := (pages.toList.filterMap (·.serial)).foldl max 0
    let s := { s with ej := { s.ej with
      pages := pages
      nextIndex := match r.index with | some i => freeSucc 2 (Config.noIndex - 1) i | none => 0
      chain := r.chain
      nextSerial := freeSucc 1 Config.max32 serials } }
    let s := loadClock s r.vt r.leapCount
    let s := beginEpoch s r truncated
    let s := notify s .start .nothing (be 1 s.ej.restartCause.code ++ be 4 s.ej.epoch ++ be 1 s.ej.state.code)
    writerDecide { s with ej := { s.ej with eraseQueue := allPages.filter fun p => (s.page p).state == .erasing } }
  else s

/-- The meaning of RECOVERY_END. -/
def execRecoveryEnd (s : State) : Host.Outcome State Fault Refusal := whenLive s recoveryEnd

/-! ## Requests -/

/-- What Read Records shows of one slot (R123). -/
def slotShown (s : State) (p : Fin 64) (i : Nat) : List Byte :=
  match (s.page p).slots.toList[i]? with
  | some (.data bytes) => if i < s.ej.recordCount p then 0#8 :: bytes else [2#8]
  | some .blank => [1#8]
  | some .void => [2#8]
  | none => []

/-- The body of the Read Records reply (R123, R180). -/
def recordsBody (s : State) (p : Fin 64) (serial slot count : Nat) : List Byte :=
  be 4 serial ++ be 1 slot ++ be 1 count ++ (List.range count).flatMap fun k => slotShown s p (slot + k)

/-- Read Records (R123). -/
def readRecords (serial slot count : Nat) (s : State) : Answered :=
  if count < 1 ∨ 12 < count ∨ 128 < slot + count then refuse s .badArgument
  else
    match s.ej.pageOf serial with
    | none => refuse s .badArgument
    | some p =>
      if (s.page p).state = .erasing then refuse s .wrongState
      else { state := s, status := .ok, body := recordsBody s p serial slot count }

/-- The meaning of READ_RECORDS. -/
def execReadRecords (tag : Byte) (serial slot count : Nat) (s : State) : Host.Outcome State Fault Refusal :=
  hostRequest tag (.readRecords serial slot count) (readRecords serial slot count) s

/-- One entry of the page table in the Read Journal reply. -/
def pageBytes (p : Page) : List Byte :=
  be 1 p.state.code ++ be 4 (p.serial.getD 0) ++ beOpt (p.closeCause.map (·.code)) ++ beVtOpt p.closeTime ++ be 1 p.count
    ++ be 4 ((p.lastChain.map (·.toNat)).getD 0) ++ be 2 (p.retention.getD 65535) ++ beOpt (p.defect.map (·.code))

/-- The GAP owed in the Read Journal reply: present or not, then its fields. -/
def gapBytes : Option Gap → List Byte
  | some g => 1#8 :: g.body
  | none => 0#8 :: (be 8 0 ++ be 8 0 ++ beVtOpt none)

/-- The body of the Read Journal reply (R124); its marks of absence and the length before the erase queue are the model's spelling
(log 34). -/
def journalBody (s : State) : List Byte :=
  let e := s.ej
  be 1 e.state.code ++ be 4 e.epoch ++ be 1 e.restartCause.code
    ++ e.pages.toList.flatMap pageBytes
    ++ [PageState.free, .opened, .closed, .exported, .erasing, .defective].flatMap (fun st => be 1 (e.pagesIn st))
    ++ be 8 e.nextIndex ++ be 4 e.chain.toNat ++ be 4 e.nextSerial
    ++ beOpt (e.openPage.map (·.1.val)) ++ beOpt (e.openPage.map (·.2)) ++ beBool e.closeRequested
    ++ be 1 e.intake.length ++ beBool e.writer.isSome ++ beBool e.rewriteOwed ++ gapBytes e.gapOwed
    ++ be 8 e.criticalLost ++ be 8 e.nonCriticalLost ++ beVtOpt e.firstLoss
    ++ be 1 e.eraseQueue.length ++ e.eraseQueue.flatMap (fun p => be 1 p.val)

/-- Read Journal (R124). -/
def readJournal (s : State) : Answered := { state := s, status := .ok, body := journalBody s }

/-- The meaning of READ_JOURNAL. -/
def execReadJournal (tag : Byte) (s : State) : Host.Outcome State Fault Refusal := hostRequest tag .readJournal readJournal s

/-- Close Page (R121). -/
def requestClose (s : State) : Answered :=
  if s.ej.openPage.isNone then refuse s .wrongState
  else if s.ej.closeRequested then done s
  else if s.ej.writer.isNone then done (closePage s .request)
  else done { s with ej := { s.ej with closeRequested := true } }

/-- The meaning of CLOSE_PAGE. -/
def execClosePage (tag : Byte) (s : State) : Host.Outcome State Fault Refusal := hostRequest tag .closePage requestClose s

/-- Confirm Export (R125). -/
def confirmExport (serial chain : Nat) (retention : Option Nat) (s : State) : Answered :=
  let days := retention.getD 7
  match s.ej.pageOf serial with
  | none => refuse s .badArgument
  | some p =>
    if 4095 < days then refuse s .badArgument
    else if (s.page p).state ≠ .closed then refuse s .wrongState
    else if (s.page p).lastChain.map (·.toNat) ≠ some chain then refuse s .chainMismatch
    else done (s.setPage p { s.page p with state := .exported, retention := some days })

/-- The meaning of CONFIRM_EXPORT. -/
def execConfirmExport (tag : Byte) (serial chain : Nat) (retention : Option Nat) (s : State) :
    Host.Outcome State Fault Refusal :=
  hostRequest tag (.confirmExport serial chain retention) (confirmExport serial chain retention) s

/-- The end of a page's retention (R126). -/
def Page.retainedUntil (p : Page) : Nat := p.closeTime.getD 0 + p.retention.getD 0 * 86400 * nsPerSecond

/-- A page released for erase (R126). -/
def release (s : State) (p : Fin 64) : State :=
  let s := s.setPage p { s.page p with state := .erasing }
  { s with ej := { s.ej with eraseQueue := s.ej.eraseQueue ++ [p] } }

/-- Release Page (R126). -/
def releasePage (serial : Nat) (s : State) : Answered :=
  match s.ej.pageOf serial with
  | none => refuse s .badArgument
  | some p =>
    match (s.page p).state with
    | .free => refuse s .badArgument
    | .opened | .closed => refuse s .notExported
    | .erasing | .defective => refuse s .wrongState
    | .exported =>
      if s.ej.holdsLast p then refuse s .wrongState
      else if s.now < (s.page p).retainedUntil then refuse s .retentionRunning
      else done (release s p)

/-- The meaning of RELEASE_PAGE. -/
def execReleasePage (tag : Byte) (serial : Nat) (s : State) : Host.Outcome State Fault Refusal :=
  hostRequest tag (.releasePage serial) (releasePage serial) s

/-- Annotate (R128). -/
def annotate (data : List Byte) (s : State) : Answered :=
  let s' := offer s { kind := .annotation, subject := 255, vt := s.now, body := data }
  if s.ej.takes false then done s' else refuse s' .journalFull

/-- The meaning of ANNOTATE. -/
def execAnnotate (tag : Byte) (data : List Byte) (s : State) : Host.Outcome State Fault Refusal :=
  hostRequest tag (.annotate data) (annotate data) s

end Sys2Proof.Machine
end

