-- ==== Sys2Proof/Machine/Survey.lean ====
section
/-!
DEFINITION. Machine/Survey.lean: the Peer Survey Master (07): the bus machine, poll scheduling, the phases and errors of a poll, the
conformity judgement, and the survey requests.
-/
namespace Sys2Proof.Machine

/-! ## The bus (R134, R135) -/

/-- The bus in OWN, at the start the part sends: data has fallen while clock is high, and the bus timer restarts. -/
def Psm.own (p : Psm) (osc : Nat) : Psm := { p with bus := .own, timer := some osc, clockHigh := true, dataHigh := false }

/-- The bus IDLE, both lines high. -/
def Psm.released (p : Psm) : Psm := { p with bus := .idle, timer := none, clockHigh := true, dataHigh := true }

/-- The lines at new levels, the bus timer restarted. -/
def Psm.changed (p : Psm) (clockHigh dataHigh : Bool) (osc : Nat) : Psm :=
  { p with clockHigh := clockHigh, dataHigh := dataHigh, timer := some osc }

/-- The bus in another party's hands. -/
def Psm.foreign (p : Psm) (clockHigh dataHigh : Bool) (osc : Nat) : Psm :=
  { p.changed clockHigh dataHigh osc with bus := .foreign }

/-- The clearing begun: with the clock line high the part frees the bus, otherwise it waits for the clock (R135). -/
def Psm.clear (p : Psm) (osc : Nat) : Psm :=
  { p with bus := .clearing, timer := some osc, clearing := if p.clockHigh then .freeing else .waitClock }

/-! ## Scheduling (R138, R139) -/

/-- The agent is due: polled, and its next due instant reached. -/
def State.agentReady (s : State) (a : Fin 8) : Bool :=
  (s.agent a).polled &&
    (match (s.agent a).nextDue with
     | some t => decide (t ≤ s.osc)
     | none => false)

/-- The due agent that has waited longest, the lower number among equals. -/
def State.longestWaiting (s : State) : Option (Fin 8) :=
  allEight.foldl (fun best a =>
    if s.agentReady a then
      match best with
      | none => some a
      | some (b : Fin 8) => if (s.agent a).nextDue.getD 0 < (s.agent b).nextDue.getD 0 then some a else some b
    else best) none

/-- The address byte of a poll: the seven-bit address, then the direction bit (R179). -/
def Txn.addressByte (t : Txn) (read : Bool) : Byte := BitVec.ofNat 8 (2 * t.address + if read then 1 else 0)

/-- A phase begun with its start and its address byte (R140, R142). -/
def beginPhase (s : State) (t : Txn) (phase : Phase) : State :=
  { s with psm := { s.psm.own s.osc with
      txn := some { t with phase := phase, waiting := false }, sent := [t.addressByte (phase == .read)] } }

/-- A poll begun (R138, R140). -/
def beginPoll (s : State) (a : Fin 8) : State :=
  let x := s.agent a
  let s := s.setAgent a { x with counters := { x.counters with begun := sat32 x.counters.begun } }
  beginPhase s { agent := a, address := x.config.address, fast := x.config.fast } .mark

/-- The scheduler may begin a poll. -/
def Psm.mayPoll (p : Psm) : Bool := p.survey == .running && p.txn.isNone && p.bus == .idle

/-- The scheduler's decision (R138). -/
def pollSchedule (s : State) : State :=
  if s.psm.mayPoll then
    match s.longestWaiting with
    | some a => beginPoll s a
    | none => s
  else s

/-- The gap of a transaction has run (R141). -/
def Txn.gapRun (t : Txn) (osc : Nat) : Bool := t.phase == .gap && decide (t.markCount + Config.gapCounts ≤ osc)

/-- What the part does when the bus has become IDLE: the transaction in flight has precedence: its next attempt begins from
the mark phase, or its read phase once the gap has run (R138, R141, R144). -/
def busIdled (s : State) : State :=
  match s.psm.txn with
  | none => pollSchedule s
  | some t => if t.waiting then beginPhase s t .mark else if t.gapRun s.osc then beginPhase s t .read else s

/-! ## Hand-on and the end of a poll (R137, R139, R146) -/

/-- The configuration of an agent, eleven bytes. -/
def AgentConfig.bytes (c : AgentConfig) : List Byte :=
  be 1 c.address ++ be 2 c.periodMs ++ be 1 (if c.fast then 1 else 0) ++ be 2 c.latency ++ be 4 c.limit
    ++ beOpt (c.binding.map (·.val))

/-- The AGENT_STATE record (R137), `extra` the configuration of an enable; it names its agent in the subject byte alone (the model's
choice, log 30). -/
def agentRecord (s : State) (a : Fin 8) (old : AgentState) (cause : AgentCause) (extra : List Byte) : Record :=
  let x := s.agent a
  { kind := .agentState, subject := a.val, vt := s.now,
    body := be 1 old.code ++ be 1 x.state.code ++ be 1 cause.code ++ be 1 x.failures ++ beOpt (x.lastError.map (·.code))
      ++ beVtOpt (x.reading.map (·.markVt)) ++ beInt 8 ((x.reading.map (·.offset)).getD 0)
      ++ be 4 ((x.reading.map (·.agentU)).getD 0) ++ be 3 ((x.reading.map (·.ownU)).getD 0) ++ extra }

/-- A change of an agent's state handed on (R137). -/
def agentChanged (s : State) (a : Fin 8) (old : AgentState) (cause : AgentCause) (extra : List Byte) : State :=
  let s := offer s (agentRecord s a old cause extra)
  notify s .agentState (.agent a.val) (be 1 (s.agent a).state.code ++ beOpt ((s.agent a).config.binding.map (·.val)))

/-- An agent moved to a state, handed on if it is another one. -/
def moveAgent (s : State) (a : Fin 8) (new : AgentState) (cause : AgentCause) : State :=
  let old := (s.agent a).state
  if new = old then s else agentChanged (s.setAgent a { s.agent a with state := new }) a old cause []

/-- The next due instant moved on past the end of a transaction (R139). -/
def Agent.movedOn (x : Agent) (osc : Nat) : Agent :=
  let p := x.config.periodCounts
  { x with nextDue := x.nextDue.map fun t => t + ((osc - t) / p + 1) * p }

/-- A failed poll counted by its kind. -/
def AgentCounters.failed (c : AgentCounters) : PollError → AgentCounters
  | .addressNack => { c with addressNack := sat32 c.addressNack }
  | .dataNack => { c with dataNack := sat32 c.dataNack }
  | .checkFail => { c with checkFail := sat32 c.checkFail }
  | .notReady => { c with notReady := sat32 c.notReady }
  | .timeout => { c with timeout := sat32 c.timeout }
  | .arbitrationLost => { c with arbitrationLost := sat32 c.arbitrationLost }
  | .busError => c

/-- A discarded transaction counted (R147). -/
def countDiscard (s : State) (a : Fin 8) : State :=
  let x := s.agent a
  s.setAgent a { x with counters := { x.counters with discarded := sat32 x.counters.discarded } }

/-- A failed poll (R146). -/
def failPoll (s : State) (a : Fin 8) (e : PollError) : State :=
  let x := s.agent a
  let s := s.setAgent a
    { x with failures := min 8 (x.failures + 1), lastError := some e, counters := x.counters.failed e }
  if 8 ≤ x.failures + 1 then moveAgent s a .faulted .fault else s

/-- The end of a transaction with an outcome: discarded, or its next due moved on and the outcome taken (R139, R147). -/
def endTxn (s : State) (t : Txn) (outcome : State → State) : State :=
  let s := { s with psm := { s.psm with txn := none } }
  if t.discard then countDiscard s t.agent
  else outcome (s.setAgent t.agent ((s.agent t.agent).movedOn s.osc))

/-- A poll ended by a failure, then the scheduler's decision. -/
def endFailed (s : State) (t : Txn) (e : PollError) : State :=
  pollSchedule (endTxn s t fun s => failPoll s t.agent e)

/-! ## The reading (R148 to R150) -/

/-- The offset of a reading (R149). -/
def offsetNs (time markVt latency : Nat) : Int :=
  clampInt (-9223372036854775807) 9223372036854775807 ((time : Int) - markVt - latency)

/-- A good reading taken and judged (R148 to R150). -/
def takeReading (s : State) (t : Txn) (time agentU : Nat) (status : AgentStatus) : State :=
  let x := s.agent t.agent
  let m := t.mark.getD (0, 0)
  let r : Reading :=
    { markVt := m.1, ownU := m.2, time := time, agentU := agentU, status := status,
      offset := offsetNs time m.1 x.config.latency, markCount := t.markCount }
  let s := s.setAgent t.agent
    { x with reading := some r, failures := 0, lastError := none,
             counters := { x.counters with good := sat32 x.counters.good } }
  moveAgent s t.agent (if x.config.conforms r (s.osc - t.markCount) then .conforming else .divergent) .reading

/-- The sixteen bytes of a transaction checked (R148). -/
def checkBytes (s : State) (t : Txn) : State :=
  match checkReading t.bytes with
  | .failed e => failPoll s t.agent e
  | .good time u status => takeReading s t time u status

/-! ## Events of a poll -/

/-- AGENT_DUE (R138). -/
def agentDue (s : State) (a : Fin 8) : State := if s.agentReady a then pollSchedule s else s

/-- The meaning of AGENT_DUE. -/
def execAgentDue (a : Fin 8) (s : State) : Host.Outcome State Fault Refusal := whenLive s fun s => agentDue s a

/-- The transaction in a phase of its own on the bus. -/
def Psm.onBus (p : Psm) (ph : Phase) : Option Txn :=
  match p.txn with
  | some t => if p.bus = .own ∧ t.phase = ph ∧ t.waiting = false then some t else none
  | none => none

/-- The bus IDLE after a mark whose address byte was acknowledged: the mark command byte was sent (R140, R179). -/
def Psm.marked (p : Psm) : Psm := { p.released with sent := p.sent ++ [Config.markCommand] }

/-- MARK_PHASE_END (R140). -/
def markPhaseEnd (s : State) (outcome : MarkOutcome) : State :=
  match s.psm.onBus .mark with
  | none => s
  | some t =>
    match outcome with
    | .addressNack => endFailed { s with psm := s.psm.released } t .addressNack
    | .dataNack => endFailed { s with psm := s.psm.marked } t .dataNack
    | .acknowledged =>
      { s with psm := { s.psm.marked with
          txn := some { t with phase := .gap, mark := some (s.now, s.tsu.u), markCount := s.osc } } }

/-- The meaning of MARK_PHASE_END. -/
def execMarkPhaseEnd (outcome : MarkOutcome) (s : State) : Host.Outcome State Fault Refusal :=
  whenLive s fun s => markPhaseEnd s outcome

/-- GAP_END (R141): once the gap has run and the bus is IDLE. -/
def gapEnd (s : State) : State :=
  match s.psm.txn with
  | some t => if t.gapRun s.osc ∧ s.psm.bus = .idle then beginPhase s t .read else s
  | none => s

/-- The meaning of GAP_END. -/
def execGapEnd (s : State) : Host.Outcome State Fault Refusal := whenLive s gapEnd

/-- READ_PHASE_END (R142). -/
def readPhaseEnd (s : State) (outcome : ReadOutcome) : State :=
  match s.psm.onBus .read with
  | none => s
  | some t =>
    let s := { s with psm := s.psm.released }
    match outcome with
    | .addressNack => endFailed s t .addressNack
    | .reading bytes =>
      let t := { t with bytes := bytes }
      pollSchedule (endTxn s t fun s => checkBytes s t)

/-- The meaning of READ_PHASE_END. -/
def execReadPhaseEnd (outcome : ReadOutcome) (s : State) : Host.Outcome State Fault Refusal :=
  whenLive s fun s => readPhaseEnd s outcome

/-- The transaction whose phase owns the bus. -/
def Psm.owner (p : Psm) : Option Txn := if p.bus = .own then p.txn else none

/-- An arbitration loss counted. -/
def countLoss (s : State) (a : Fin 8) : State :=
  let x := s.agent a
  s.setAgent a { x with counters := { x.counters with arbitrationLosses := sat32 x.counters.arbitrationLosses } }

/-- ARBITRATION_LOST (R136, R144); between two attempts the transaction shows the phase MARK, with which the next begins (the model's
choice, log 24). -/
def arbitrationLost (s : State) : State :=
  match s.psm.owner with
  | none => s
  | some t =>
    let s := { s with psm := s.psm.foreign true false s.osc }
    if t.discard then pollSchedule (endTxn s t id)
    else
      let s := countLoss s t.agent
      if t.attempt < 3 then
        { s with psm := { s.psm with
            txn := some { t with attempt := t.attempt + 1, phase := .mark, mark := none, bytes := [], waiting := true } } }
      else endFailed s t .arbitrationLost

/-- The meaning of ARBITRATION_LOST. -/
def execArbitrationLost (s : State) : Host.Outcome State Fault Refusal := whenLive s arbitrationLost

/-- The transaction ended by a bus error, the survey halted (R145, steps 2 and 3). -/
def haltSurvey (s : State) (t : Txn) : State :=
  let s := if t.discard then countDiscard s t.agent else s
  let s := s.setAgent t.agent { s.agent t.agent with lastError := some .busError }
  { s with psm := { s.psm with
      txn := none, survey := .halted, halt := some { agent := t.agent, phase := t.phase, vt := s.now },
      busErrors := sat32 s.psm.busErrors } }

/-- BUS_ERROR (R145); its record names the agent in the subject byte alone (log 30). -/
def busError (s : State) (isStart : Bool) : State :=
  match s.psm.owner with
  | none => s
  | some t =>
    let s := { s with psm := if isStart then s.psm.foreign true false s.osc else s.psm.released }
    let s := haltSurvey s t
    let s := offer s
      { kind := .surveyHalt, subject := t.agent.val, vt := s.now, body := be 1 t.phase.code ++ be 1 t.attempt ++ beVt s.now }
    notify s .surveyHalt (.agent t.agent.val) (be 1 t.phase.code ++ be 1 t.attempt)

/-- The meaning of BUS_ERROR. -/
def execBusError (isStart : Bool) (s : State) : Host.Outcome State Fault Refusal := whenLive s fun s => busError s isStart

/-- The clock line has stayed low for more than 25 ms in a phase of the part's own: it was last seen to go low, and the bus
timer, which restarts at every change of the lines, has passed the limit (R134, R143; log 24). -/
def State.clockHeld (s : State) : Bool :=
  s.psm.owner.isSome && !s.psm.clockHigh &&
    (match s.psm.timer with
     | some t => decide (t + Config.busLimit < s.osc)
     | none => false)

/-- CLOCK_LOW_TIMEOUT (R143). -/
def clockLowTimeout (s : State) (dataHigh : Bool) : State :=
  match s.psm.owner with
  | none => s
  | some t =>
    if s.clockHeld then endFailed { s with psm := ({ s.psm with dataHigh := dataHigh }).clear s.osc } t .timeout else s

/-- The meaning of CLOCK_LOW_TIMEOUT. -/
def execClockLowTimeout (dataHigh : Bool) (s : State) : Host.Outcome State Fault Refusal :=
  whenLive s fun s => clockLowTimeout s dataHigh

/-! ## Events of the bus lines (R134, R135) -/

/-- A change of the lines in each bus state.  In OWN it is what the bus timer measures clock holding from (R134, R143). -/
def lineChange (s : State) (clockHigh dataHigh : Bool) : State :=
  match s.psm.bus with
  | .idle => if clockHigh && dataHigh then s else { s with psm := s.psm.foreign clockHigh dataHigh s.osc }
  | .foreign => { s with psm := s.psm.changed clockHigh dataHigh s.osc }
  | .clearing =>
    let p := s.psm.changed clockHigh dataHigh s.osc
    { s with psm := if p.clearing = .waitClock ∧ clockHigh then { p with clearing := .freeing } else p }
  | .own => { s with psm := s.psm.changed clockHigh dataHigh s.osc }

/-- START_CONDITION_SEEN (R134): in IDLE the bus becomes FOREIGN whatever the levels are after the condition; in OWN a
condition is BUS_ERROR's. -/
def startConditionSeen (s : State) (clockHigh dataHigh : Bool) : State :=
  match s.psm.bus with
  | .idle => { s with psm := s.psm.foreign clockHigh dataHigh s.osc }
  | .own => s
  | .foreign | .clearing => lineChange s clockHigh dataHigh

/-- The meaning of START_CONDITION_SEEN. -/
def execStartConditionSeen (clockHigh dataHigh : Bool) (s : State) : Host.Outcome State Fault Refusal :=
  whenLive s fun s => startConditionSeen s clockHigh dataHigh

/-- STOP_CONDITION_SEEN (R134, R135). -/
def stopConditionSeen (s : State) : State :=
  if s.psm.bus = .foreign ∨ s.psm.bus = .clearing then busIdled { s with psm := s.psm.released } else s

/-- The meaning of STOP_CONDITION_SEEN. -/
def execStopConditionSeen (s : State) : Host.Outcome State Fault Refusal := whenLive s stopConditionSeen

/-- The bus timer has reached a limit that matters in the present bus state. -/
def State.busTimerDue (s : State) : Bool :=
  match s.psm.timer with
  | some t =>
    decide (t + Config.busLimit ≤ s.osc) &&
      (s.psm.bus == .foreign || (s.psm.bus == .clearing && s.psm.clearing == .resting))
  | none => false

/-- BUS_TIMER_EXPIRY (R134, R135). -/
def busTimerExpiry (s : State) : State :=
  if s.busTimerDue then
    if s.psm.bus = .foreign ∧ s.psm.clockHigh ∧ s.psm.dataHigh then busIdled { s with psm := s.psm.released }
    else { s with psm := s.psm.clear s.osc }
  else s

/-- The meaning of BUS_TIMER_EXPIRY. -/
def execBusTimerExpiry (s : State) : Host.Outcome State Fault Refusal := whenLive s busTimerExpiry

/-- The part is sending clearing pulses or the clearing stop. -/
def Psm.freeing (p : Psm) : Bool := p.bus == .clearing && p.clearing == .freeing

/-- CLEARING_STOP_SENT (R135). -/
def clearingStopSent (s : State) : State :=
  if s.psm.freeing then busIdled { s with psm := s.psm.released } else s

/-- The meaning of CLEARING_STOP_SENT. -/
def execClearingStopSent (s : State) : Host.Outcome State Fault Refusal := whenLive s clearingStopSent

/-- NINTH_CLEARING_PULSE (R135): the data line still low, the part rests for 25 ms. -/
def ninthPulse (s : State) : State :=
  if s.psm.freeing then { s with psm := { s.psm.changed true false s.osc with clearing := .resting } } else s

/-- The meaning of NINTH_CLEARING_PULSE. -/
def execNinthClearingPulse (s : State) : Host.Outcome State Fault Refusal := whenLive s ninthPulse

/-- The meaning of BUS_LINE_CHANGE. -/
def execBusLineChange (clockHigh dataHigh : Bool) (s : State) : Host.Outcome State Fault Refusal :=
  whenLive s fun s => lineChange s clockHigh dataHigh

/-- The age of an agent's reading has passed three poll periods (R151). -/
def State.staleDue (s : State) (a : Fin 8) : Bool :=
  let x := s.agent a
  (x.state == .conforming || x.state == .divergent) &&
    (match x.reading with
     | some r => decide (3 * x.config.periodCounts < s.osc - r.markCount)
     | none => false)

/-- STALE (R151). -/
def stale (s : State) (a : Fin 8) : State := if s.staleDue a then moveAgent s a .stale .stale else s

/-- The meaning of STALE. -/
def execStale (a : Fin 8) (s : State) : Host.Outcome State Fault Refusal := whenLive s fun s => stale s a

/-! ## Requests -/

/-- A survey request: BAD_ARGUMENT when it names an agent above 7 (R152). -/
def onAgent (n : Nat) (s : State) (k : Fin 8 → Answered) : Answered :=
  match named 8 n with
  | some a => k a
  | none => refuse s .badArgument

/-- The fields of a Configure Agent request are in range (R153). -/
def AgentArgs.valid (a : AgentArgs) : Bool :=
  decide (8 ≤ a.address ∧ a.address ≤ 119
    ∧ (a.periodMs = 125 ∨ a.periodMs = 250 ∨ a.periodMs = 500 ∨ a.periodMs = 1000) ∧ a.busClock ≤ 1 ∧ a.latency ≤ 65535
    ∧ 1 ≤ a.limit ∧ a.limit ≤ 1000000 ∧ (a.binding < 8 ∨ a.binding = 255))

def AgentArgs.config (a : AgentArgs) : AgentConfig :=
  { address := a.address, periodMs := a.periodMs, fast := a.busClock == 1, latency := a.latency, limit := a.limit,
    binding := named 8 a.binding }

/-- Configure Agent (R153). -/
def configureAgent (args : AgentArgs) (s : State) : Answered :=
  onAgent args.agent s fun a =>
    if !AgentArgs.valid args then refuse s .badArgument
    else if (s.agent a).state = .disabled then done (s.setAgent a { s.agent a with config := AgentArgs.config args })
    else refuse s .wrongState

/-- The meaning of CONFIGURE_AGENT. -/
def execConfigureAgent (tag : Byte) (args : AgentArgs) (s : State) : Host.Outcome State Fault Refusal :=
  hostRequest tag (.configureAgent args) (configureAgent args) s

/-- Another agent that is not DISABLED has the same bus address (R154). -/
def State.addressTaken (s : State) (a : Fin 8) : Bool :=
  allEight.any fun b =>
    b != a && (s.agent b).state != .disabled && (s.agent b).config.address == (s.agent a).config.address

/-- An agent made UNKNOWN and due at once (R154). -/
def enable (s : State) (a : Fin 8) : State :=
  let x := s.agent a
  let s := s.setAgent a
    { x with state := .unknown, failures := 0, reading := none, lastError := none, nextDue := some s.osc }
  pollSchedule (agentChanged s a x.state .enable x.config.bytes)

/-- Enable Agent (R154). -/
def enableAgent (n : Nat) (s : State) : Answered :=
  onAgent n s fun a =>
    match (s.agent a).state with
    | .disabled | .faulted => if s.addressTaken a then refuse s .badArgument else done (enable s a)
    | .unknown | .conforming | .divergent | .stale => refuse s .wrongState

/-- The meaning of ENABLE_AGENT. -/
def execEnableAgent (tag : Byte) (agent : Nat) (s : State) : Host.Outcome State Fault Refusal :=
  hostRequest tag (.enableAgent agent) (enableAgent agent) s

/-- The discard of the agent's transaction in flight; one that waits between two attempts ends at once (R147, R184). -/
def discardTxn (s : State) (a : Fin 8) : State :=
  match s.psm.txn with
  | none => s
  | some t =>
    if t.agent ≠ a then s
    else if t.waiting then endTxn s { t with discard := true } id
    else { s with psm := { s.psm with txn := some { t with discard := true } } }

/-- An agent disabled (R155). -/
def disable (s : State) (a : Fin 8) : State :=
  let old := (s.agent a).state
  let s := s.setAgent a { s.agent a with state := .disabled, nextDue := none }
  let s := discardTxn s a
  pollSchedule (agentChanged s a old .disable [])

/-- Disable Agent (R155). -/
def disableAgent (n : Nat) (s : State) : Answered :=
  onAgent n s fun a => if (s.agent a).state = .disabled then done s else done (disable s a)

/-- The meaning of DISABLE_AGENT. -/
def execDisableAgent (tag : Byte) (agent : Nat) (s : State) : Host.Outcome State Fault Refusal :=
  hostRequest tag (.disableAgent agent) (disableAgent agent) s

/-- Resume Survey (R156). -/
def resumeSurvey (s : State) : Answered :=
  match s.psm.survey with
  | .halted => done (pollSchedule { s with psm := { s.psm with survey := .running } })
  | .running => done s

/-- The meaning of RESUME_SURVEY. -/
def execResumeSurvey (tag : Byte) (s : State) : Host.Outcome State Fault Refusal :=
  hostRequest tag .resumeSurvey resumeSurvey s

/-- The time left to the next due instant in the reply: none 0, due 1, left 2, then whole µs. -/
def dueBytes (osc : Nat) : Option Nat → List Byte
  | none => 0#8 :: be 3 0
  | some t => if t ≤ osc then 1#8 :: be 3 0 else 2#8 :: be 3 ((t - osc) / Config.countsPerMicro)

/-- The last good reading in the reply: present or not, then its fields. -/
def readingBytes (osc : Nat) : Option Reading → List Byte
  | some r =>
    1#8 :: (beVt r.markVt ++ be 3 r.ownU ++ beVt r.time ++ be 4 r.agentU ++ be 1 r.status.code ++ beInt 8 r.offset
      ++ be 8 ((osc - r.markCount) / 125000))
  | none => 0#8 :: (beVtOpt none ++ be 3 0 ++ beVtOpt none ++ be 4 0 ++ [255#8] ++ be 8 0 ++ be 8 0)

/-- The body of the Read Agent reply (R157). -/
def agentBody (s : State) (a : Fin 8) : List Byte :=
  let x := s.agent a
  let c := x.counters
  let p := s.psm
  x.config.bytes
    ++ be 1 x.state.code ++ be 1 x.failures ++ beOpt (x.lastError.map (·.code)) ++ dueBytes s.osc x.nextDue
    ++ readingBytes s.osc x.reading
    ++ be 4 c.begun ++ be 4 c.good ++ be 4 c.addressNack ++ be 4 c.dataNack ++ be 4 c.checkFail ++ be 4 c.notReady
    ++ be 4 c.timeout ++ be 4 c.arbitrationLost ++ be 4 c.arbitrationLosses ++ be 4 c.discarded
    ++ be 1 p.survey.code ++ beOpt (p.halt.map (·.agent.val)) ++ beOpt (p.halt.map (·.phase.code))
    ++ beVtOpt (p.halt.map (·.vt)) ++ be 1 p.bus.code ++ be 4 p.busErrors
    ++ beOpt (p.txn.map (·.agent.val)) ++ beOpt (p.txn.map (·.phase.code)) ++ be 1 ((p.txn.map (·.attempt)).getD 0)
    ++ beBool ((p.txn.map (·.discard)).getD false)

/-- Read Agent (R157). -/
def readAgent (n : Nat) (s : State) : Answered :=
  onAgent n s fun a => { state := s, status := .ok, body := agentBody s a }

/-- The meaning of READ_AGENT. -/
def execReadAgent (tag : Byte) (agent : Nat) (s : State) : Host.Outcome State Fault Refusal :=
  hostRequest tag (.readAgent agent) (readAgent agent) s

end Sys2Proof.Machine
end

