-- ==== Sys2Proof/Machine/Power.lean ====
section
/-!
DEFINITION. Machine/Power.lean: supply, the RESET pin and restarts (08, Restart): what a restart clears and what it keeps.
-/
namespace Sys2Proof.Machine

/-- The store after whatever was in progress has been cut short: a write in progress has left a whole sound record, a torn
tail or a blank slot, which of them the manual leaves open (R116, R129, R133; log 4). -/
def settledStore (s : State) : Vector Page 64 :=
  match s.ej.writer with
  | none => s.ej.pages
  | some w =>
    let pg := s.page w.page
    let whole := recordBytes s.ej.chain w.record s.ej.epoch (pg.serial.getD 0) w.slot.val
    match Config.interruptedWrite s.restarts with
    | 0 => s.ej.pages.set w.page { pg with slots := pg.slots.set w.slot (.data whole) }
    | 1 => s.ej.pages.set w.page { pg with slots := pg.slots.set w.slot .void }
    | _ => s.ej.pages

/-- The part at its restart values (R21, R42, R65, R82, R108, R133, R158, R174): the store, the page table and the stored
epoch persist; the pins, the oscillator, and the counters that free values are taken by are not the run's.  Until recovery has
set them the next index and the chain value are 0 and the next page serial 1 (the model's choices, log 9). -/
def cleared (s : State) (cause : RestartCause) (hrate0 hrate1 : Bool) : State :=
  { pending := s.pending
    supply := s.supply
    resetLow := s.resetLow
    powerOwed := s.powerOwed
    osc := s.osc
    restarts := s.restarts + 1
    lines := s.lines.map fun l => { pause := l.pause }
    auc := { draws := s.auc.draws }
    ej := { pages := settledStore s, storedEpoch := s.ej.storedEpoch, restartCause := cause }
    hli := { hrate0 := hrate0, hrate1 := hrate1, restartCause := cause } }

/-- A restart of a cause, with the straps as they stand (R172, R173). -/
def restartPart (s : State) (cause : RestartCause) (hrate0 hrate1 : Bool) : State :=
  { cleared s cause hrate0 hrate1 with powerOwed := false }

/-- POWER_UP (R173): at the rise of the supply, or at the release of RESET if it is held low then. -/
def powerUp (s : State) (hrate0 hrate1 : Bool) : State :=
  if s.supply then s
  else if s.resetLow then { s with supply := true, powerOwed := true }
  else restartPart { s with supply := true } .power hrate0 hrate1

/-- The meaning of POWER_UP. -/
def execPowerUp (hrate0 hrate1 : Bool) (s : State) : Host.Outcome State Fault Refusal := .next (powerUp s hrate0 hrate1)

/-- RESET_ASSERT (R173): a low pulse shorter than 1 µs is ignored; a longer one holds the part at its restart values. -/
def resetAssert (s : State) (lowNs : Nat) : State :=
  if lowNs < 1000 ∨ s.resetLow then s
  else { cleared s s.ej.restartCause s.hli.hrate0 s.hli.hrate1 with resetLow := true }

/-- The meaning of RESET_ASSERT. -/
def execResetAssert (lowNs : Nat) (s : State) : Host.Outcome State Fault Refusal := .next (resetAssert s lowNs)

/-- RESET_RELEASE (R173): a restart, with cause POWER where the supply rose while RESET was held low. -/
def resetRelease (s : State) (hrate0 hrate1 : Bool) : State :=
  if s.resetLow then
    let s := { s with resetLow := false }
    if s.supply then restartPart s (if s.powerOwed then .power else .pin) hrate0 hrate1 else s
  else s

/-- The meaning of RESET_RELEASE. -/
def execResetRelease (hrate0 hrate1 : Bool) (s : State) : Host.Outcome State Fault Refusal :=
  .next (resetRelease s hrate0 hrate1)

/-- SUPPLY_LOSS (R173): everything in progress is cut short and the volatile state is lost. -/
def supplyLoss (s : State) : State :=
  if s.supply then
    { cleared s s.ej.restartCause s.hli.hrate0 s.hli.hrate1 with supply := false, powerOwed := false }
  else s

/-- The meaning of SUPPLY_LOSS. -/
def execSupplyLoss (s : State) : Host.Outcome State Fault Refusal := .next (supplyLoss s)

end Sys2Proof.Machine
end

