-- ==== Sys2Proof/Machine/HostLink.lean ====
section
/-!
DEFINITION. Machine/HostLink.lean: the Host Link Interface (08): its own requests, the owner of every request kind, the receive framer,
rejection, and the end of a reply.
-/
namespace Sys2Proof.Machine

/-! ## The HLI's own requests -/

/-- The link counters in the order of R171. -/
def LinkCounters.bytes (c : LinkCounters) : List Byte :=
  be 4 c.hunt ++ be 4 c.rejectedLength ++ be 4 c.rejectedTimeout ++ be 4 c.rejectedFraming ++ be 4 c.rejectedCheck
    ++ be 4 c.busyReplies ++ be 4 c.unansweredFrames ++ be 4 c.accepted

/-- The codes and capacities of the part (R171, R180). -/
def partCodes : List Byte :=
  be 2 0x5B1E ++ be 2 0x0F08 ++ be 2 0x0001
    ++ [3#8, 8#8, 16#8, 32#8, 64#8, 8#8, 64#8, 128#8, 32#8, 64#8, 8#8] ++ be 2 1024

/-- The body of the Identify reply (R171). -/
def identifyBody (s : State) : List Byte :=
  partCodes ++ beBool s.hli.hrate0 ++ beBool s.hli.hrate1 ++ be 1 s.hli.rate ++ be 1 s.hli.restartCause.code
    ++ beBool (s.ej.state == .starting) ++ s.hli.counters.bytes

/-- Identify (R171). -/
def identify (s : State) : Answered := { state := s, status := .ok, body := identifyBody s }

/-- The meaning of IDENTIFY. -/
def execIdentify (tag : Byte) (s : State) : Host.Outcome State Fault Refusal := hostRequest tag .identify identify s

/-- Restart (R172): the receive framer stops until the part restarts. -/
def requestRestart (s : State) : Answered :=
  done { s with hli := { s.hli with restartOwed := true, framer := .hunt, assembly := {}, byteTimer := none } }

/-- The meaning of RESTART. -/
def execRestart (tag : Byte) (s : State) : Host.Outcome State Fault Refusal := hostRequest tag .restart requestRestart s

/-- The body of the Fetch Notices reply (R170, R180). -/
def noticesBody (h : Hli) (count : Nat) : List Byte :=
  let taken := h.notices.take count
  be 1 taken.length ++ be 4 h.overflow ++ be 4 h.unanswered ++ be 1 (h.notices.length - taken.length)
    ++ taken.flatMap Notice.bytes

/-- Fetch Notices (R170). -/
def fetchNotices (count : Nat) (s : State) : Answered :=
  if count < 1 ∨ 16 < count then refuse s .badArgument
  else
    { state := { s with hli := { s.hli with notices := s.hli.notices.drop count, overflow := 0, unanswered := 0 } }
      status := .ok
      body := noticesBody s.hli count }

/-- The meaning of FETCH_NOTICES. -/
def execFetchNotices (tag : Byte) (count : Nat) (s : State) : Host.Outcome State Fault Refusal :=
  hostRequest tag (.fetchNotices count) (fetchNotices count) s

/-! ## Owners (08, Request kinds) -/

/-- What the owner of a request's kind does with it. -/
def perform : Request → State → Answered
  | .identify => identify
  | .restart => requestRestart
  | .fetchNotices n => fetchNotices n
  | .setClockLimits l => setClockLimits l
  | .readClock => readClock
  | .announceLeap v => announceLeap v
  | .configureReference a => configureReference a
  | .enableReference r => enableReference r
  | .disableReference r => disableReference r
  | .readReference r => readReference r
  | .holdLine l => holdLine l
  | .configureLine l m d => configureLine l m d
  | .setFilter l i e c m => setFilter l i e c m
  | .releaseLine l => releaseLine l
  | .reconnectLine l => reconnectLine l
  | .readLine l => readLine l
  | .openStamping => openStamping
  | .readIssuer => readIssuer
  | .armAuction a => armAuction a
  | .extendAuction g => extendAuction g
  | .cutNow g => cutNow g
  | .cancelAuction g => cancelAuction g
  | .clearAuction g => clearAuction g
  | .readAuction g => readAuction g
  | .readJournal => readJournal
  | .readRecords p i n => readRecords p i n
  | .closePage => requestClose
  | .confirmExport p c r => confirmExport p c r
  | .releasePage p => releasePage p
  | .annotate d => annotate d
  | .configureAgent a => configureAgent a
  | .enableAgent a => enableAgent a
  | .disableAgent a => disableAgent a
  | .resumeSurvey => resumeSurvey
  | .readAgent a => readAgent a

/-- A received request taken as one event (R163, R164). -/
def receivedRequest (s : State) (kind tag : Byte) (body : List Byte) : State :=
  receiveWith perform kind tag (parseRequest kind body) s

/-- The meaning of RECEIVED_REQUEST. -/
def execReceivedRequest (kind tag : Byte) (body : List Byte) (s : State) : Host.Outcome State Fault Refusal :=
  whenLive s fun s => receivedRequest s kind tag body

/-! ## The receive framer (R160, R161) -/

/-- A rejection counted by its cause. -/
def LinkCounters.rejected (c : LinkCounters) : RejectCause → LinkCounters
  | .length => { c with rejectedLength := sat32 c.rejectedLength }
  | .timeout => { c with rejectedTimeout := sat32 c.rejectedTimeout }
  | .byteFraming => { c with rejectedFraming := sat32 c.rejectedFraming }
  | .check => { c with rejectedCheck := sat32 c.rejectedCheck }

/-- The framer back in HUNT with no frame in assembly. -/
def Hli.hunting (h : Hli) : Hli := { h with framer := .hunt, assembly := {}, byteTimer := none }

/-- A frame rejected (R161, R163 steps 1 and 2). -/
def rejectFrame (s : State) (cause : RejectCause) : State :=
  let a := s.hli.assembly
  let presence := (if a.kind.isSome then 1 else 0) + (if a.tag.isSome then 2 else 0)
  let s := { s with hli := { s.hli.hunting with counters := s.hli.counters.rejected cause } }
  if s.hli.hasRoom then
    addReply s (a.kind.getD 255#8) (a.tag.getD 0#8) .frameRejected (be 1 cause.code ++ be 1 presence)
  else leaveUnanswered s

/-- The body length of the frame in assembly. -/
def Assembly.bodyLength (a : Assembly) : Nat := fromBe a.lengthBytes

/-- The bytes of a frame in assembly that its check covers. -/
def Assembly.checked (a : Assembly) : List Byte := a.lengthBytes ++ a.kind.toList ++ a.tag.toList ++ a.body

/-- A complete frame judged (R160, R161). -/
def frameComplete (s : State) (a : Assembly) : State :=
  if fromBe a.check = (crc16 a.checked).toNat then
    receivedRequest { s with hli := s.hli.hunting } (a.kind.getD 0#8) (a.tag.getD 0#8) a.body
  else rejectFrame { s with hli := { s.hli with assembly := a } } .check

/-- The framer one byte further inside a frame, the byte timer restarted. -/
def keepByte (s : State) (f : Framer) (a : Assembly) : State :=
  { s with hli := { s.hli with framer := f, assembly := a, byteTimer := some s.osc } }

/-- A byte of the body length (R160). -/
def lengthByte (s : State) (a : Assembly) (b : Byte) : State :=
  let a' := { a with lengthBytes := a.lengthBytes ++ [b] }
  if a'.lengthBytes.length < 2 then keepByte s .length a'
  else if 1024 < a'.bodyLength then rejectFrame s .length
  else keepByte s .header a'

/-- The kind or the tag (R160). -/
def headerByte (s : State) (a : Assembly) (b : Byte) : State :=
  match a.kind with
  | none => keepByte s .header { a with kind := some b }
  | some _ => keepByte s (if a.bodyLength = 0 then .check else .body) { a with tag := some b }

/-- A byte of the body (R160). -/
def bodyByte (s : State) (a : Assembly) (b : Byte) : State :=
  let a' := { a with body := a.body ++ [b] }
  keepByte s (if a'.body.length < a.bodyLength then .body else .check) a'

/-- A byte of the check (R160). -/
def checkByte (s : State) (a : Assembly) (b : Byte) : State :=
  let a' := { a with check := a.check ++ [b] }
  if a'.check.length < 2 then keepByte s .check a' else frameComplete s a'

/-- A byte received in HUNT (R160). -/
def huntByte (s : State) (b : Byte) (stopLow : Bool) : State :=
  if b = 0xC3#8 ∧ stopLow = false then keepByte s .length {}
  else { s with hli := { s.hli with counters := { s.hli.counters with hunt := sat32 s.hli.counters.hunt } } }

/-- Counts of the oscillator that one byte takes on HRX: ten bits at the host rate (R159), the whole counts of them. -/
def Hli.byteCounts (h : Hli) : Nat := 1250 / h.rate

/-- A byte that has begun more than 1 ms after the end of the last one would end now, or has ended: no next byte was begun in
time (R161; log 31). -/
def State.byteLate (s : State) : Bool :=
  match s.hli.byteTimer with
  | some t => decide (t + Config.byteLimit + s.hli.byteCounts < s.osc)
  | none => false

/-- A byte received inside a frame (R160, R161). -/
def frameByte (s : State) (b : Byte) (stopLow : Bool) : State :=
  let a := s.hli.assembly
  if stopLow then rejectFrame s .byteFraming
  else
    match s.hli.framer with
    | .hunt => s
    | .length => lengthByte s a b
    | .header => headerByte s a b
    | .body => bodyByte s a b
    | .check => checkByte s a b

/-- HOST_BYTE_RECEIVED (R160, R161): a byte begun too late finds the frame timed out before it, and is hunted. -/
def hostByte (s : State) (b : Byte) (stopLow : Bool) : State :=
  if s.hli.restartOwed then s
  else if s.hli.framer = .hunt then huntByte s b stopLow
  else if s.byteLate then huntByte (rejectFrame s .timeout) b stopLow
  else frameByte s b stopLow

/-- The meaning of HOST_BYTE_RECEIVED. -/
def execHostByteReceived (value : Byte) (stopLow : Bool) (s : State) : Host.Outcome State Fault Refusal :=
  whenLive s fun s => hostByte s value stopLow

/-- The byte timer has passed its limit (R161). -/
def State.byteTimerDue (s : State) : Bool :=
  match s.hli.byteTimer with
  | some t => decide (t + Config.byteLimit < s.osc)
  | none => false

/-- BYTE_TIMEOUT (R161): the command says that no next byte has begun. -/
def byteTimeout (s : State) : State := if s.byteTimerDue then rejectFrame s .timeout else s

/-- The meaning of BYTE_TIMEOUT. -/
def execByteTimeout (s : State) : Host.Outcome State Fault Refusal := whenLive s byteTimeout

/-! ## The end of a reply (R162, R165, R172) -/

/-- The reply ends the outstanding request (R165). -/
def Reply.endsRequest (r : Reply) : Bool := r.status != .busy && r.status != .frameRejected

/-- The reply is the OK reply to a Restart request (R172). -/
def Reply.restarts (r : Reply) : Bool := r.kind == 0x82#8 && r.status == .ok

/-- REPLY_SENT (R162, R165, R172). -/
def replySent (s : State) (hrate0 hrate1 : Bool) : State :=
  match s.hli.replies with
  | [] => s
  | r :: rest =>
    let out := if r.endsRequest then none else s.hli.outstanding
    let s := { s with hli := { s.hli with replies := rest, outstanding := out } }
    if s.hli.restartOwed && r.restarts then restartPart s .request hrate0 hrate1 else s

/-- The meaning of REPLY_SENT. -/
def execReplySent (hrate0 hrate1 : Bool) (s : State) : Host.Outcome State Fault Refusal :=
  whenLive s fun s => replySent s hrate0 hrate1

end Sys2Proof.Machine
end

