-- ==== Sys2Proof/Machine/Dispatch.lean ====
section
/-!
DEFINITION. Machine/Dispatch.lean: one arm per command, each a direct call of the command's meaning.
-/
namespace Sys2Proof.Machine

def exec (i : Instr) (s : State) : Host.Outcome State Fault Refusal :=
  match i with
  | .powerUp hrate0 hrate1 => Sys2Proof.Machine.execPowerUp hrate0 hrate1 s
  | .resetAssert lowNs => Sys2Proof.Machine.execResetAssert lowNs s
  | .resetRelease hrate0 hrate1 => Sys2Proof.Machine.execResetRelease hrate0 hrate1 s
  | .recoveryEnd => Sys2Proof.Machine.execRecoveryEnd s
  | .hostByteReceived value stopLow => Sys2Proof.Machine.execHostByteReceived value stopLow s
  | .byteTimeout => Sys2Proof.Machine.execByteTimeout s
  | .receivedRequest kind tag body => Sys2Proof.Machine.execReceivedRequest kind tag body s
  | .replySent hrate0 hrate1 => Sys2Proof.Machine.execReplySent hrate0 hrate1 s
  | .identify tag => Sys2Proof.Machine.execIdentify tag s
  | .restart tag => Sys2Proof.Machine.execRestart tag s
  | .fetchNotices tag count => Sys2Proof.Machine.execFetchNotices tag count s
  | .setClockLimits tag limits => Sys2Proof.Machine.execSetClockLimits tag limits s
  | .readClock tag => Sys2Proof.Machine.execReadClock tag s
  | .announceLeap tag value => Sys2Proof.Machine.execAnnounceLeap tag value s
  | .configureReference tag args => Sys2Proof.Machine.execConfigureReference tag args s
  | .enableReference tag ref => Sys2Proof.Machine.execEnableReference tag ref s
  | .disableReference tag ref => Sys2Proof.Machine.execDisableReference tag ref s
  | .readReference tag ref => Sys2Proof.Machine.execReadReference tag ref s
  | .holdLine tag line => Sys2Proof.Machine.execHoldLine tag line s
  | .configureLine tag line mode delay => Sys2Proof.Machine.execConfigureLine tag line mode delay s
  | .setFilter tag line index enabled code mask => Sys2Proof.Machine.execSetFilter tag line index enabled code mask s
  | .releaseLine tag line => Sys2Proof.Machine.execReleaseLine tag line s
  | .reconnectLine tag line => Sys2Proof.Machine.execReconnectLine tag line s
  | .readLine tag line => Sys2Proof.Machine.execReadLine tag line s
  | .openStamping tag => Sys2Proof.Machine.execOpenStamping tag s
  | .readIssuer tag => Sys2Proof.Machine.execReadIssuer tag s
  | .armAuction tag args => Sys2Proof.Machine.execArmAuction tag args s
  | .extendAuction tag group => Sys2Proof.Machine.execExtendAuction tag group s
  | .cutNow tag group => Sys2Proof.Machine.execCutNow tag group s
  | .cancelAuction tag group => Sys2Proof.Machine.execCancelAuction tag group s
  | .clearAuction tag group => Sys2Proof.Machine.execClearAuction tag group s
  | .readAuction tag group => Sys2Proof.Machine.execReadAuction tag group s
  | .readJournal tag => Sys2Proof.Machine.execReadJournal tag s
  | .readRecords tag serial slot count => Sys2Proof.Machine.execReadRecords tag serial slot count s
  | .closePage tag => Sys2Proof.Machine.execClosePage tag s
  | .confirmExport tag serial chain retention => Sys2Proof.Machine.execConfirmExport tag serial chain retention s
  | .releasePage tag serial => Sys2Proof.Machine.execReleasePage tag serial s
  | .annotate tag data => Sys2Proof.Machine.execAnnotate tag data s
  | .configureAgent tag args => Sys2Proof.Machine.execConfigureAgent tag args s
  | .enableAgent tag agent => Sys2Proof.Machine.execEnableAgent tag agent s
  | .disableAgent tag agent => Sys2Proof.Machine.execDisableAgent tag agent s
  | .resumeSurvey tag => Sys2Proof.Machine.execResumeSurvey tag s
  | .readAgent tag agent => Sys2Proof.Machine.execReadAgent tag agent s
  | .secondBoundary => Sys2Proof.Machine.execSecondBoundary s
  | .clockSummary => Sys2Proof.Machine.execClockSummary s
  | .leapLatch => Sys2Proof.Machine.execLeapLatch s
  | .leapApplication => Sys2Proof.Machine.execLeapApplication s
  | .civilMidnight => Sys2Proof.Machine.execCivilMidnight s
  | .pulseEdge ref rising eighth => Sys2Proof.Machine.execPulseEdge ref rising eighth s
  | .edgeJudged ref => Sys2Proof.Machine.execEdgeJudged ref s
  | .overrun ref => Sys2Proof.Machine.execOverrun ref s
  | .missingPulse ref => Sys2Proof.Machine.execMissingPulse ref s
  | .labelFrame ref bytes stopLow => Sys2Proof.Machine.execLabelFrame ref bytes stopLow s
  | .labelTimeout cut => Sys2Proof.Machine.execLabelTimeout cut s
  | .tagStartDelimiter line bytes => Sys2Proof.Machine.execTagStartDelimiter line bytes s
  | .tagFrameEnd line bytes ending => Sys2Proof.Machine.execTagFrameEnd line bytes ending s
  | .returnFrameEnd line => Sys2Proof.Machine.execReturnFrameEnd line s
  | .pauseAssert line => Sys2Proof.Machine.execPauseAssert line s
  | .pauseDeassert line => Sys2Proof.Machine.execPauseDeassert line s
  | .drainTimeout line => Sys2Proof.Machine.execDrainTimeout line s
  | .grant => Sys2Proof.Machine.execGrant s
  | .callStart group => Sys2Proof.Machine.execCallStart group s
  | .windowStart group => Sys2Proof.Machine.execWindowStart group s
  | .endExpiry group => Sys2Proof.Machine.execEndExpiry group s
  | .deferLimit group => Sys2Proof.Machine.execDeferLimit group s
  | .settle group => Sys2Proof.Machine.execSettle group s
  | .writeVerified => Sys2Proof.Machine.execWriteVerified s
  | .writeFailed => Sys2Proof.Machine.execWriteFailed s
  | .pageOpenFailed => Sys2Proof.Machine.execPageOpenFailed s
  | .eraseEnd notBlank => Sys2Proof.Machine.execEraseEnd notBlank s
  | .agentDue agent => Sys2Proof.Machine.execAgentDue agent s
  | .markPhaseEnd outcome => Sys2Proof.Machine.execMarkPhaseEnd outcome s
  | .gapEnd => Sys2Proof.Machine.execGapEnd s
  | .readPhaseEnd outcome => Sys2Proof.Machine.execReadPhaseEnd outcome s
  | .arbitrationLost => Sys2Proof.Machine.execArbitrationLost s
  | .busError isStart => Sys2Proof.Machine.execBusError isStart s
  | .clockLowTimeout dataHigh => Sys2Proof.Machine.execClockLowTimeout dataHigh s
  | .startConditionSeen clockHigh dataHigh => Sys2Proof.Machine.execStartConditionSeen clockHigh dataHigh s
  | .stopConditionSeen => Sys2Proof.Machine.execStopConditionSeen s
  | .busTimerExpiry => Sys2Proof.Machine.execBusTimerExpiry s
  | .clearingStopSent => Sys2Proof.Machine.execClearingStopSent s
  | .stale agent => Sys2Proof.Machine.execStale agent s
  | .supplyLoss => Sys2Proof.Machine.execSupplyLoss s
  | .busLineChange clockHigh dataHigh => Sys2Proof.Machine.execBusLineChange clockHigh dataHigh s
  | .ninthClearingPulse => Sys2Proof.Machine.execNinthClearingPulse s

end Sys2Proof.Machine
end

