-- ==== Sys2Proof/Machine/Time.lean ====
section
/-!
DEFINITION. Machine/Time.lean: what the part does by itself: the first of its own instants that has been reached, and the advance of
the local oscillator and of VT by one count (R1).
-/
namespace Sys2Proof.Machine

/-- VT's fraction gained in one count of the oscillator, in 65,536ths of a ns (R1). -/
def Tsu.perCount (t : Tsu) : Nat := (divRound (524288 * (1000000000000 + t.c)) 1000000000000).toNat

/-- VT advanced by one count (R1). -/
def Tsu.advance (t : Tsu) : Tsu :=
  let sum := t.frac + t.perCount
  let ns := sum / 65536
  { t with vt := vtOfInt ((t.vt + ns : Nat)), frac := sum % 65536,
           boundaryDue := t.boundaryDue || decide (nsPerSecond ≤ t.vt % nsPerSecond + ns) }

/-- One count of the local oscillator; VT stands until journal recovery has delivered it (R21). -/
def tick (s : State) : State :=
  if s.live then
    { s with osc := s.osc + 1, tsu := if s.ej.state = .starting then s.tsu else s.tsu.advance }
  else s

/-- The command of a deadline's expiry. -/
def Deadline.command (d : Deadline) : Instr :=
  match d.kind with
  | .callStart => .callStart d.group
  | .windowStart => .windowStart d.group
  | .endAt => .endExpiry d.group
  | .deferLimit => .deferLimit d.group
  | .settle => .settle d.group

/-- The clock's own instant that has been reached. -/
def clockDue (s : State) : Option Instr :=
  let t := s.tsu
  if t.boundaryDue then some .secondBoundary
  else if t.summaryDue then some .clockSummary
  else if t.latchDue then some .leapLatch
  else if t.leapDue then some .leapApplication
  else if t.midnightDue then some .civilMidnight
  else none

/-- The deadline that has been reached (R85). -/
def deadlineDue (s : State) : Option Instr :=
  match s.auc.deadlines with
  | d :: _ => if d.instant ≤ s.now then some d.command else none
  | [] => none

/-- The lines' and the host link's own instants; the byte timer fires of itself once a byte begun in time would have ended
(log 31). -/
def linkDue (s : State) : Option Instr :=
  match allEight.find? s.drainDue with
  | some i => some (.drainTimeout i)
  | none => if s.byteLate then some .byteTimeout else none

/-- The survey's own instants; a clock held low fires with the data line as last seen (log 24). -/
def surveyDue (s : State) : Option Instr :=
  if s.busTimerDue then some .busTimerExpiry
  else if s.clockHeld then some (.clockLowTimeout s.psm.dataHigh)
  else if (s.psm.txn.map (·.gapRun s.osc)).getD false && s.psm.bus == .idle then some .gapEnd
  else
    match s.psm.mayPoll, s.longestWaiting with
    | true, some a => some (.agentDue a)
    | _, _ => (allEight.find? s.staleDue).map .stale

/-- An edge has waited for its judgement as long as it may: an edge of the next count, up to fifteen eighths on, could lie 1 µs behind
it, and must find the cell empty (R22). -/
def State.judgeDue (s : State) (i : Fin 3) : Bool :=
  match (s.ref i).cell with
  | some e => decide (Config.judgeLimit ≤ phasePassed e.phase s.phase + 15)
  | none => false

/-- The references' own instants: missing pulses first, then edges, then overruns. -/
def referenceDue (s : State) : Option Instr :=
  match [(0 : Fin 3), 1, 2].find? s.missingDue with
  | some i => some (.missingPulse i)
  | none =>
    match [(0 : Fin 3), 1, 2].find? s.judgeDue with
    | some i => some (.edgeJudged i)
    | none =>
      ([(0 : Fin 3), 1, 2].find? fun i => decide (0 < (s.ref i).overrunsDue) && (s.ref i).state != .disabled).map .overrun

/-- The first of the part's own instants that has been reached, in the model's order (log 8). -/
def dueCommand (s : State) : Option Instr :=
  if s.live then
    (clockDue s).orElse fun _ => (deadlineDue s).orElse fun _ => (linkDue s).orElse fun _ =>
      (surveyDue s).orElse fun _ => (referenceDue s).orElse fun _ => if s.grantDue then some .grant else none
  else none

end Sys2Proof.Machine
end

