-- ==== Sys2Proof/Machine/Step.lean ====
section
/-!
DEFINITION. Machine/Step.lean: one step of the part: the command at the front of its queue, or, with nothing waiting, what the part
does by itself.
-/
namespace Sys2Proof.Machine

/-- One step.  A waiting command is taken from the front of the queue and runs on the state with the queue's rest.  With
an empty queue the part runs the first of its own instants that has been reached, and otherwise lets one count of the
local oscillator pass (log 8). -/
def step (s : State) : Host.Outcome State Fault Refusal :=
  match s.pending with
  | c :: rest => exec c { s with pending := rest }
  | [] =>
    match dueCommand s with
    | some c => exec c s
    | none => .next (tick s)

/-- The command a word spells put at the front of the queue; no row of the opcode table gives bits, so no word spells
one. -/
def State.withFetchWord (s : State) (nbits w : Nat) : State :=
  match decodeTableWord nbits w with
  | some c => { s with pending := c :: s.pending }
  | none => s

end Sys2Proof.Machine
end

