-- ==== Sys2Proof/WellFormed.lean ====
section
/-!
DEFINITION. WellFormed.lean: which commands can reach the part: every number of a request fits the field that carries it (R180), the
bytes of a frame are as many as its lane can deliver, and an agent's reading has sixteen bytes.
-/
namespace Sys2Proof

/-- `x` fits an unsigned field of `n` bytes. -/
def fits (n x : Nat) : Bool := decide (x < 256 ^ n)

/-- Every field of the clock limits fits its width. -/
def ClockLimits.wf (l : ClockLimits) : Bool :=
  fits 4 l.tracking && fits 4 l.tight && fits 4 l.traceability && fits 4 l.baseU && fits 2 l.unaidedRate
    && fits 2 l.aidedRate && fits 2 l.tau && fits 4 l.slewLimit && fits 4 l.stepThreshold && fits 1 l.lockCount
    && fits 1 l.unlockCount && fits 2 l.summaryInterval

/-- Every field of a reference's configuration fits its width. -/
def RefArgs.wf (a : RefArgs) : Bool :=
  fits 1 a.ref && fits 1 a.polarity && fits 1 a.profiles && fits 1 a.bandClass && fits 1 a.lockValue
    && fits 1 a.unlockValue && fits 1 a.priority && fits 1 a.labelUse

/-- Every field of a civil time fits its width. -/
def CivilArgs.wf (c : CivilArgs) : Bool :=
  fits 2 c.year && fits 1 c.month && fits 1 c.day && fits 1 c.hour && fits 1 c.minute && fits 1 c.second && fits 2 c.milli

/-- Every field of an arming fits its width. -/
def ArmArgs.wf (a : ArmArgs) : Bool :=
  fits 1 a.group && a.callStart.wf && a.windowStart.wf && fits 4 a.windowLength && fits 2 a.extLength && fits 1 a.maxExt
    && fits 2 a.deferLimit

/-- Every field of an agent's configuration fits its width. -/
def AgentArgs.wf (a : AgentArgs) : Bool :=
  fits 1 a.agent && fits 1 a.address && fits 2 a.periodMs && fits 1 a.busClock && fits 2 a.latency && fits 4 a.limit
    && fits 1 a.binding

/-- A request whose fields fit the body of its kind (R180). -/
def Request.wf : Request → Bool
  | .identify => true
  | .restart => true
  | .fetchNotices n => fits 1 n
  | .setClockLimits l => l.wf
  | .readClock => true
  | .announceLeap v => fits 1 v
  | .configureReference a => a.wf
  | .enableReference r => fits 1 r
  | .disableReference r => fits 1 r
  | .readReference r => fits 1 r
  | .holdLine l => fits 1 l
  | .configureLine l m d => fits 1 l && fits 1 m && fits 2 d
  | .setFilter l i e c m => fits 1 l && fits 1 i && fits 1 e && fits 2 c && fits 2 m
  | .releaseLine l => fits 1 l
  | .reconnectLine l => fits 1 l
  | .readLine l => fits 1 l
  | .openStamping => true
  | .readIssuer => true
  | .armAuction a => a.wf
  | .extendAuction g => fits 1 g
  | .cutNow g => fits 1 g
  | .cancelAuction g => fits 1 g
  | .clearAuction g => fits 1 g
  | .readAuction g => fits 1 g
  | .readJournal => true
  | .readRecords p i n => fits 4 p && fits 1 i && fits 1 n
  | .closePage => true
  | .confirmExport p c r => fits 4 p && fits 4 c && fits 2 (r.getD 0)
  | .releasePage p => fits 4 p
  | .annotate d => d.length == 40
  | .configureAgent a => a.wf
  | .enableAgent a => fits 1 a
  | .disableAgent a => fits 1 a
  | .resumeSurvey => true
  | .readAgent a => fits 1 a

/-- The bytes of a tag frame as its lane delivers them: at most sixteen, all of them where a seventeenth follows (R44). -/
def frameBytesFit (bytes : List Byte) (ending : FrameEnding) : Bool :=
  decide (bytes.length ≤ 16) && (ending != .extraByte || bytes.length == 16)

/-- The bytes of a label frame: from the sync on, ten of them unless a low stop bit after the sync ends it earlier (R178). -/
def labelBytesFit (bytes : List Byte) (stopLow : Bool) : Bool :=
  bytes.head? == some 0xB5#8 && decide (bytes.length ≤ 10)
    && (if stopLow then decide (2 ≤ bytes.length) else bytes.length == 10)

/-- The bytes of a label frame that times out: from the sync on, fewer than ten (R178). -/
def labelBegun (bytes : List Byte) : Bool := bytes.head? == some 0xB5#8 && decide (bytes.length ≤ 9)

/-- A reading of the sixteen bytes the part clocks in (R142). -/
def readingFits : ReadOutcome → Bool
  | .addressNack => true
  | .reading bytes => bytes.length == 16

/-- A command that can reach the part. -/
def Instr.wf (c : Instr) : Bool :=
  match c.request? with
  | some (_, r) => r.wf
  | none =>
    match c with
    | .receivedRequest _ _ body => decide (body.length ≤ 1024)
    | .labelFrame _ bytes stopLow => labelBytesFit bytes stopLow
    | .labelTimeout cut => labelBegun cut.bytes
    | .tagStartDelimiter _ bytes => decide (bytes.length ≤ 16)
    | .tagFrameEnd _ bytes ending => frameBytesFit bytes ending
    | .readPhaseEnd outcome => readingFits outcome
    | .eraseEnd notBlank => decide notBlank.Nodup
    | _ => true

end Sys2Proof
end

