-- ==== Sys2Proof/Safety.lean ====
section
/-!
DEFINITION. Safety.lean: the terms statements are made in: when a request is performed, what is kept when a change is handed on, and
what holds of every state of a sound run.
-/
namespace Sys2Proof.Machine

/-! ## Requests -/

/-- A request that arrives now is accepted and passed to its owner: the part runs, no Restart is owed, the reply queue has
room, nothing is outstanding, and journal recovery has ended (R163, R164, R172). -/
def State.accepts (s : State) : Bool :=
  s.live && !s.hli.restartOwed && s.hli.hasRoom && s.hli.outstanding.isNone && s.ej.state != .starting

/-- A request answered with a status and body, with nothing else done: the accepted request and its reply. -/
def State.answered (s : State) (kind tag : Byte) (st : Status) (body : List Byte) : State :=
  addReply (acceptRequest s kind tag) kind tag st body

/-- Commands taken one after another, up to the first that does not go on. -/
def runCommands : List Instr → State → Host.Outcome State Fault Refusal
  | [], s => .next s
  | c :: cs, s =>
    match exec c s with
    | .next t => runCommands cs t
    | .fault f => .fault f
    | .refused r => .refused r

/-! ## What is kept when a change is handed on -/

/-- What the return-lane scheduler and the drop tally leave of a line: everything but its queue, pendings, interleave
counter, lane and send counters. -/
structure LineKept (l l' : Line) : Prop where
  state : l'.state = l.state
  rec_ : l'.rec_ = l.rec_
  mode : l'.mode = l.mode
  filters : l'.filters = l.filters
  pathDelay : l'.pathDelay = l.pathDelay
  owed : l'.owed = l.owed
  drain : l'.drain = l.drain
  pause : l'.pause = l.pause
  frame : l'.frame = l.frame
  queue : l'.queue <:+ l.queue
  interleave : l.interleave ≤ 8 → l'.interleave ≤ 8

/-- The deadline list follows the groups: in strict order, and holding exactly the deadlines each group's entry has (R84). -/
def Auc.listFollows (a : Auc) : Prop :=
  a.deadlines.Pairwise (fun d e => d.before e = true)
    ∧ ∀ d : Deadline, d ∈ a.deadlines ↔ d ∈ (a.groups[d.group]).deadlines d.group

/-- What handing something on can touch: records join the intake or are lost and the writer may begin a write, opening a
page; notices join their queue; frames become pending and are sent; a DEFERRED group may be cut.  All else is kept. -/
structure Handed (s t : State) : Prop where
  pending : t.pending = s.pending
  supply : t.supply = s.supply
  resetLow : t.resetLow = s.resetLow
  powerOwed : t.powerOwed = s.powerOwed
  osc : t.osc = s.osc
  restarts : t.restarts = s.restarts
  tsu : t.tsu = s.tsu
  rfe : t.rfe = s.rfe
  sis : t.sis = s.sis
  psm : t.psm = s.psm
  lines : ∀ i, LineKept (s.line i) (t.line i)
  groups : ∀ g, (s.group g).state ≠ .deferred → t.group g = s.group g
  held : ∀ g, (t.group g).heldList = (s.group g).heldList ∧ (t.group g).armIndex = (s.group g).armIndex
  listFollows : s.auc.listFollows → t.auc.listFollows
  traceableView : t.auc.traceableView = s.auc.traceableView
  draws : t.auc.draws = s.auc.draws
  host : t.hli = { s.hli with notices := t.hli.notices, nextNotice := t.hli.nextNotice, overflow := t.hli.overflow }
  notices : s.hli.notices <+: t.hli.notices
  noticeRoom : s.hli.notices.length ≤ Config.noticeSlots → t.hli.notices.length ≤ Config.noticeSlots
  starting : s.ej.state = .starting → t.ej.state = .starting
  running : s.ej.state ≠ .starting → t.ej.state ≠ .starting
  rewriteOwed : t.ej.rewriteOwed = s.ej.rewriteOwed
  gapOwed : t.ej.gapOwed = s.ej.gapOwed
  closeRequested : t.ej.closeRequested = s.ej.closeRequested
  nextIndex : t.ej.nextIndex = s.ej.nextIndex
  chain : t.ej.chain = s.ej.chain
  epoch : t.ej.epoch = s.ej.epoch
  storedEpoch : t.ej.storedEpoch = s.ej.storedEpoch
  eraseQueue : t.ej.eraseQueue = s.ej.eraseQueue
  restartCause : t.ej.restartCause = s.ej.restartCause
  intake : s.ej.intake <+: t.ej.intake
  pages : ∀ p, (s.page p).state ≠ .free → t.page p = s.page p
  slots : ∀ p, (t.page p).slots = (s.page p).slots

/-- A record offered where the intake took it: it has joined the records that waited (R113). -/
def Offered (s t : State) (r : Record) : Prop :=
  s.ej.takes r.kind.critical = true → r ∈ t.ej.intake.drop s.ej.intake.length

/-- A record offered behind `n` critical records of its event (or, of a class that waits for open slots, behind `n` records of
any class): it has joined the records that waited where the intake had room for all of them and, for a record the journal
refuses in TIGHT, no page had to be opened on the way (R113, R119). -/
def OfferedAfter (n : Nat) (s t : State) (r : Record) : Prop :=
  s.ej.takes r.kind.critical = true →
    (if r.kind.critical then s.ej.intake.length + n < Config.intakeSlots
     else s.ej.openPage ≠ none ∧ s.ej.intake.length + n < Config.intakeOpenSlots) →
    r ∈ t.ej.intake.drop s.ej.intake.length

/-- A notice produced: unless the queue has filled up, it has joined the notices that waited (R167). -/
def Noticed (s t : State) (kind : NoticeKind) (vt : Nat) (subject : Subject) (data : List Byte) : Prop :=
  t.hli.notices.length < Config.noticeSlots →
    ∃ n ∈ t.hli.notices.drop s.hli.notices.length,
      n.kind = kind ∧ n.vt = vt ∧ n.subject = subject ∧ n.data = data

/-- The part after a restart, or held at its restart values: every block is at its restart values, the straps and the cause
are the restart's, and of the journal only the store with its page table and the stored epoch are left (R133, R173).  The
slot a write was in progress in holds the whole record, a torn tail, or what it held before (log 4).  The levels of the PAUSE
inputs and the count of draws go on (log 9). -/
structure Restarted (s t : State) (cause : RestartCause) (hrate0 hrate1 : Bool) : Prop where
  tsu : t.tsu = {}
  rfe : t.rfe = {}
  lines : ∀ i, t.line i = { pause := (s.line i).pause }
  sis : t.sis = {}
  auc : t.auc = { draws := s.auc.draws }
  psm : t.psm = {}
  hli : t.hli = { hrate0 := hrate0, hrate1 := hrate1, restartCause := cause }
  ej : t.ej = { pages := t.ej.pages, storedEpoch := s.ej.storedEpoch, restartCause := cause }
  store : s.ej.writer = none → t.ej.pages = s.ej.pages
  pages : ∀ p, t.page p = { s.page p with slots := (t.page p).slots }
  slots : ∀ w, s.ej.writer = some w → ∀ p : Fin 64, ∀ i : Fin 128, (p ≠ w.page ∨ i ≠ w.slot) →
    ((t.page p).slots[i]) = ((s.page p).slots[i])
  interrupted : ∀ w, s.ej.writer = some w →
    (t.page w.page).slots[w.slot] = .data
        (recordBytes s.ej.chain w.record s.ej.epoch ((s.page w.page).serial.getD 0) w.slot.val)
      ∨ (t.page w.page).slots[w.slot] = .void ∨ (t.page w.page).slots[w.slot] = (s.page w.page).slots[w.slot]

/-- A state with the AUC's traceable view following a change of the predicate (R8). -/
def State.viewing (s : State) (old : Tsu) : State :=
  { s with auc := { s.auc with traceableView :=
      if s.tsu.traceable = old.traceable then s.auc.traceableView else s.tsu.traceable } }

/-- What a clock event keeps: outside the TSU, the RFE, the Stamp Issuer and the Auction Controller nothing differs but what
handing on can touch. -/
structure AroundClock (s t : State) : Prop where
  pending : t.pending = s.pending
  pins : t.supply = s.supply ∧ t.resetLow = s.resetLow ∧ t.powerOwed = s.powerOwed
  osc : t.osc = s.osc ∧ t.restarts = s.restarts
  psm : t.psm = s.psm
  lines : ∀ i, LineKept (s.line i) (t.line i)
  groups : ∀ g, (s.group g).state ≠ .armed → (s.group g).state ≠ .call → (s.group g).state ≠ .deferred →
    t.group g = s.group g
  host : t.hli = { s.hli with notices := t.hli.notices, nextNotice := t.hli.nextNotice, overflow := t.hli.overflow }
  notices : s.hli.notices <+: t.hli.notices
  intake : s.ej.intake <+: t.ej.intake
  pages : ∀ p, (s.page p).state ≠ .free → t.page p = s.page p

/-- What a journal event keeps: outside the Evidence Journal and the auctions nothing differs but what handing on can
touch. -/
structure OutsideJournal (s t : State) : Prop where
  pending : t.pending = s.pending
  pins : t.supply = s.supply ∧ t.resetLow = s.resetLow ∧ t.powerOwed = s.powerOwed
  osc : t.osc = s.osc ∧ t.restarts = s.restarts
  tsu : t.tsu = s.tsu
  rfe : t.rfe = s.rfe
  sis : t.sis = s.sis
  psm : t.psm = s.psm
  lines : ∀ i, LineKept (s.line i) (t.line i)
  host : t.hli = { s.hli with notices := t.hli.notices, nextNotice := t.hli.nextNotice, overflow := t.hli.overflow }
  notices : s.hli.notices <+: t.hli.notices
  epoch : t.ej.epoch = s.ej.epoch ∧ t.ej.storedEpoch = s.ej.storedEpoch

/-- A judged occurrence, or a disable, of a reference handed off (R33 to R35): the reference is as judged and the others stand; the
selection follows R33 where REF0 or REF1 entered or left QUALIFIED, the aided flag where REF2 did; a change of state is
recorded and noticed. -/
structure RefHandedOff (s t : State) (i : Fin 3) (j : RefStep) : Prop where
  around : AroundClock s t
  ref : t.ref i = j.ref
  others : ∀ k, k ≠ i → t.ref k = s.ref k
  selected : t.rfe.selected =
    if crossed (s.ref i).state j.ref.state = true ∧ i.val < 2 then Rfe.choose (t.ref 0) (t.ref 1) else s.rfe.selected
  told : s.tsu.selected = s.rfe.selected → t.tsu.selected = t.rfe.selected
  aided : t.tsu.aided =
    if crossed (s.ref i).state j.ref.state = true ∧ i.val = 2 then j.ref.state == .qualified else s.tsu.aided
  recorded : j.ref.state ≠ (s.ref i).state →
    Offered s t (refRecord (s.setRef i j.ref) i (s.ref i).state j.cause [])
  noticed : j.ref.state ≠ (s.ref i).state →
    Noticed s t .referenceState t.now (.reference i.val) (be 1 j.ref.state.code ++ beOpt (t.rfe.selected.map (·.val)))

/-- The label stream of a reference at the close of an interval (R26): moved on for a labelled reference with label use on, as it
was for any other.  A second that would pass the timescale's last is a free value (log 6). -/
structure LabelsMovedOn (i : Fin 3) (r x : Ref) : Prop where
  unlabelled : ¬ (i.val < 2 ∧ r.config.labelUse = true) →
    x.heldLabel = r.heldLabel ∧ x.labelBad = r.labelBad ∧ x.lastSecond = r.lastSecond ∧ x.lastLabel = r.lastLabel
  closed : i.val < 2 → r.config.labelUse = true → x.heldLabel = none ∧ x.labelBad = false
  taken : ∀ l, i.val < 2 → r.config.labelUse = true → r.heldLabel = some l →
    x.lastSecond = some l.second ∧ x.lastLabel = some l
  missed : i.val < 2 → r.config.labelUse = true → r.heldLabel = none → x.lastLabel = r.lastLabel
    ∧ (r.lastSecond = none → x.lastSecond = none)
    ∧ (∀ n, r.lastSecond = some n → n < 1099511627775 → x.lastSecond = some (n + 1))

/-! ## Polls -/

/-- The part with the peer bus as given and no transaction in flight. -/
def State.onBus (s : State) (p : Psm) : State := { s with psm := { p with txn := none } }

/-- An agent moved to a state, and the move handed on where it is one (R137). -/
def AgentMoved (s t : State) (a : Fin 8) (x : Agent) (st : AgentState) (cause : AgentCause) (extra : List Byte) : Prop :=
  let base := s.setAgent a { x with state := st }
  Handed base t ∧ (st = x.state → t = base)
    ∧ (st ≠ x.state → Offered s t (agentRecord base a x.state cause extra)
        ∧ Noticed s t .agentState s.now (.agent a.val) (be 1 st.code ++ beOpt (x.config.binding.map (·.val))))

/-- A transaction ended by a failure, then the scheduler's decision (R138): a discarded one only counted (R147), any other
counted as a failed poll of its kind with its next due moved on (R139), its agent FAULTED at the eighth in a row (R146). -/
def PollFailed (s t : State) (x : Txn) (e : PollError) : Prop :=
  let a := s.agent x.agent
  let c := a.counters
  let failed : Agent := { a.movedOn s.osc with
    failures := min 8 (a.failures + 1), lastError := some e, counters := c.failed e }
  (x.discard = true → t = pollSchedule (s.setAgent x.agent { a with counters := { c with discarded := sat32 c.discarded } }))
    ∧ (x.discard = false → ∃ u, t = pollSchedule u
        ∧ AgentMoved s u x.agent failed (if 8 ≤ a.failures + 1 then .faulted else a.state) .fault [])

/-! ## Invariants -/

/-- The stamps of a list of answers. -/
def stampCount (queue : List Answer) : Nat :=
  queue.countP fun a => match a with | .stamp _ => true | .notOpen _ => false

/-- The sequences issued in the epoch. -/
def Sis.total (x : Sis) : Nat := match x.next with | some q => q - 1 | none => Config.lastSequence

/-- The pending offers of a line. -/
def Sis.offersOf (x : Sis) (i : Fin 8) : Nat := x.offers.countP fun o => o.line == i

/-- The accounting of stamps: sequences run from 1 without a gap, the line counts and the disposition counters each add up to
the last one (R74, R81), every stamp of a line has been sent, waits, or has been dropped (R54), and a line is owed an answer
for each of its pending offers and for the frame that holds its capture cell, and no other (R43, R48, R53, R70). -/
structure Accounted (s : State) : Prop where
  closed : s.sis.state = .closed → s.sis.next = some 1
  opened : s.sis.state = .opened → ∃ q, s.sis.next = some q ∧ 1 ≤ q ∧ q ≤ Config.lastSequence
  exhausted : s.sis.state = .exhausted → s.sis.next = none
  issued : (allEight.map fun i => s.sis.issued[i]).sum = s.sis.total
  dispositions : s.sis.accepted + s.sis.late + s.sis.refusedSession + s.sis.refusedGroup = s.sis.total
  lines : ∀ i : Fin 8, s.sis.issued[i] =
    (s.line i).counters.stampsSent + stampCount (s.line i).queue + (s.line i).counters.stampsDropped
  cell : ∀ i : Fin 8, s.sis.cells[i].isSome = true ↔ (s.line i).frame = .judged
  owed : ∀ i : Fin 8, (s.line i).owed = s.sis.offersOf i + if (s.line i).frame = .judged then 1 else 0

/-- An offer is granted before another: captured earlier, or on a line of no higher number at the same instant (R71). -/
def Offer.leads (o p : Offer) : Prop := o.capture < p.capture ∨ (o.capture = p.capture ∧ o.line ≤ p.line)

/-- The capture order of R71 and R72: the pending offers stand in it, and none is earlier than the last stamp.  While the issuer
is CLOSED no stamp has been issued in the epoch. -/
structure CaptureOrdered (x : Sis) : Prop where
  closed : x.state = .closed → x.last = none
  offers : x.offers.Pairwise Offer.leads
  last : ∀ q c, x.last = some (q, c) → ∀ o ∈ x.offers, c ≤ o.capture

/-- How the journal's store stands between two steps: the writer writes into the open page and nowhere else, at most one page
is OPEN (R119), a FREE page is blank, the erase queue holds ERASING pages, each once (R127), and the journal state is the one
the page table gives (R122).  Before recovery has ended there is neither a writer nor an open page (R133). -/
structure StoreSound (s : State) : Prop where
  stopped : s.ej.state = .starting ∨ s.ej.state = .exhausted → s.ej.writer = none ∧ s.ej.openPage = none
  starting : s.ej.state = .starting → s.ej.eraseQueue = []
  opened : s.ej.state ≠ .starting → ∀ p, (s.page p).state = .opened ↔ ∃ n, s.ej.openPage = some (p, n)
  slot : ∀ p n, s.ej.openPage = some (p, n) → n < 128
  writer : ∀ w, s.ej.writer = some w → s.ej.openPage = some (w.page, w.slot.val)
  source : ∀ w, s.ej.writer = some w → w.source = .intake → s.ej.intake.head? = some w.record
  free : ∀ p, (s.page p).state = .free → s.page p = {}
  erasing : s.ej.eraseQueue.Nodup ∧ ∀ p ∈ s.ej.eraseQueue, (s.page p).state = .erasing
  judged : s.ej.state = .starting ∨ s.ej.state = .exhausted ∨ s.ej.state = s.ej.judged

/-- The bounds the manual gives the part's queues, counters and registers (R1, R9, R45, R53, R61, R113, R162, R167).  The
START record is placed at the head of the intake without the test of R113, so one record beyond its slots can wait once
recovery has ended (R130). -/
structure Bounded (s : State) : Prop where
  intake : s.ej.intake.length ≤ Config.intakeSlots + if s.ej.state = .starting then 0 else 1
  replies : s.hli.replies.length ≤ Config.replySlots
  notices : s.hli.notices.length ≤ Config.noticeSlots
  u : s.tsu.u ≤ Config.maxU
  rateLow : -(Config.maxRate : Int) ≤ s.tsu.c
  rateHigh : s.tsu.c ≤ Config.maxRate
  frac : s.tsu.frac < 65536
  vt : s.tsu.vt < Config.vtSpan
  rec_ : ∀ i, (s.line i).rec_ ≤ 255
  queue : ∀ i, (s.line i).queue.length ≤ Config.returnSlots
  interleave : ∀ i, (s.line i).interleave ≤ 8

end Sys2Proof.Machine
end

