-- ==== Sys2Proof/Certificates/Slice0/Obligations.lean ====
section
/-!
DEFINITION. Certificates/Slice0/Obligations.lean: the statements for the provers.  Where a statement says `Handed base t`, the rules give
`base`, and the step from `base` to `t` is no more than what every hand-on may do (`Machine.Handed` in Safety.lean).
-/
section

open Sys2Proof Sys2Proof.Machine

/-! ## The step, time and restarts -/

/-- A waiting command is taken from the front of the queue and runs on the state with the queue's rest.  The queue, first in,
first out, is the model's choice of how the events of 95_what_each_step_holds reach the part (log 1). -/
def Obligations.StepTakesFrontCommand : Prop :=
  ∀ (c : Instr) (rest : List Instr) (s : State), s.pending = c :: rest → step s = exec c { s with pending := rest }

/-- With nothing waiting, the part runs the first of its own instants that has been reached, or lets one count of the
oscillator pass.  The order of the instants is the model's choice (log 8). -/
def Obligations.IdleStepRunsDueOrTicks : Prop :=
  ∀ s : State, s.pending = [] →
    (∀ c, dueCommand s = some c → step s = exec c s) ∧ (dueCommand s = none → step s = .next (tick s))

/-- R1: on a count of the oscillator VT gains 8 ns times 1 + C × 10^-12, rounded to the nearest 65,536th of a ns, halves
upward; the fraction carries into the ns and the ns into the seconds; nothing else moves but the count itself. -/
def Obligations.TickAdvancesVenueTime : Prop :=
  ∀ s : State, s.live = true → s.ej.state ≠ .starting → Bounded s → s.tsu.vt + 9 < Config.vtSpan →
    s.pending = [] → dueCommand s = none →
    ∃ gain vt frac : Nat,
      2 * 1000000000000 * (gain : Int) ≤ 2 * 524288 * (1000000000000 + s.tsu.c) + 1000000000000
        ∧ 2 * 524288 * (1000000000000 + s.tsu.c) + 1000000000000 < 2 * 1000000000000 * ((gain : Int) + 1)
        ∧ 524236 ≤ gain ∧ gain ≤ 524340
        ∧ vt * 65536 + frac = s.tsu.vt * 65536 + s.tsu.frac + gain ∧ frac < 65536
        ∧ step s = .next { s with
            osc := s.osc + 1
            tsu := { s.tsu with
              vt := vt, frac := frac
              boundaryDue := s.tsu.boundaryDue || decide (s.tsu.vt / nsPerSecond < vt / nsPerSecond) } }

/-- The values after reset that the restart rules of the blocks give. -/
def Obligations.ResetHasRestartValues : Prop :=
  let s := State.reset
  (s.tsu.clock = .free ∧ s.tsu.c = 0 ∧ s.tsu.f = 0 ∧ s.tsu.theta = 0 ∧ s.tsu.lastJ = 0 ∧ s.tsu.u = 16777215
      ∧ s.tsu.vtSet = false ∧ s.tsu.tracked = false ∧ s.tsu.aided = false ∧ s.tsu.lock = 0 ∧ s.tsu.unlock = 0
      ∧ s.tsu.summary = 0 ∧ s.tsu.selected = none ∧ s.tsu.labelLeap = .noLeap ∧ s.tsu.hostLeap = .noLeap
      ∧ s.tsu.pendingLeap = .noLeap ∧ s.tsu.latched = false ∧ s.tsu.vt = 0
      ∧ s.tsu.limits = ⟨1000, 1000, 100000, 20, 50, 2, 64, 50000, 1000000, 8, 3, 60⟩)
    ∧ ((∀ i : Fin 3, (s.ref i).state = .disabled ∧ (s.ref i).cell = none ∧ (s.ref i).anchor = none ∧ (s.ref i).f = 0
          ∧ (s.ref i).fValid = false ∧ (s.ref i).j16 = 0 ∧ (s.ref i).lock = 0 ∧ (s.ref i).miss = 0
          ∧ (s.ref i).candidate = none ∧ (s.ref i).heldLabel = none ∧ (s.ref i).labelBad = false
          ∧ (s.ref i).lastSecond = none ∧ (s.ref i).lastLabel = none ∧ (s.ref i).offset = none
          ∧ (s.ref i).good = 0 ∧ (s.ref i).badTiming = 0 ∧ (s.ref i).badMissing = 0 ∧ (s.ref i).badOverrun = 0
          ∧ (s.ref i).badLabel = 0 ∧ (s.ref i).discards = 0)
        ∧ (s.ref 0).config = ⟨true, true, false, false, 1, 8, 3, 0, true⟩
        ∧ (s.ref 1).config = ⟨true, true, false, false, 1, 8, 3, 1, true⟩
        ∧ (s.ref 2).config = ⟨true, true, false, false, 1, 8, 3, 0, false⟩
        ∧ s.rfe.selected = none ∧ s.rfe.disagree = false)
    ∧ (∀ i : Fin 8, (s.line i).state = .off ∧ (s.line i).rec_ = 0 ∧ (s.line i).mode = .all
        ∧ (∀ k : Fin 4, (s.line i).filters[k] = ⟨false, 0, 0⟩) ∧ (s.line i).pathDelay = 0 ∧ (s.line i).queue = []
        ∧ (s.line i).tally = ⟨0, none, none⟩ ∧ (s.line i).quality = false ∧ (s.line i).phases = []
        ∧ (s.line i).interleave = 0 ∧ (s.line i).owed = 0 ∧ (s.line i).lane = none ∧ (s.line i).drain = none
        ∧ (s.line i).counters = {})
    ∧ (s.sis.state = .closed ∧ s.sis.epoch = 0 ∧ s.sis.next = some 1 ∧ s.sis.last = none ∧ s.sis.opening = none
        ∧ (∀ i : Fin 8, s.sis.cells[i] = none ∧ s.sis.issued[i] = 0 ∧ s.sis.notOpen[i] = 0) ∧ s.sis.offers = []
        ∧ s.sis.accepted = 0 ∧ s.sis.late = 0 ∧ s.sis.refusedSession = 0 ∧ s.sis.refusedGroup = 0
        ∧ s.sis.flagDegraded = 0 ∧ s.sis.flagPeer = 0 ∧ s.sis.flagLeap = 0)
    ∧ ((∀ g : Fin 32, s.group g = {}) ∧ s.auc.deadlines = [] ∧ s.auc.traceableView = false ∧ s.auc.journalView = .starting)
    ∧ (s.ej.state = .starting ∧ s.ej.intake = [] ∧ s.ej.writer = none ∧ s.ej.rewriteOwed = false ∧ s.ej.gapOwed = none
        ∧ s.ej.openPage = none ∧ s.ej.eraseQueue = [] ∧ s.ej.closeRequested = false ∧ s.ej.criticalLost = 0
        ∧ s.ej.nonCriticalLost = 0 ∧ s.ej.firstLoss = none ∧ s.ej.epoch = 0 ∧ s.ej.restartCause = .power)
    ∧ ((∀ a : Fin 8, (s.agent a).config = ⟨8 + a.val, 1000, false, 0, 100000, none⟩ ∧ (s.agent a).state = .disabled
          ∧ (s.agent a).nextDue = none ∧ (s.agent a).failures = 0 ∧ (s.agent a).reading = none
          ∧ (s.agent a).lastError = none ∧ (s.agent a).counters = {})
        ∧ s.psm.survey = .running ∧ s.psm.bus = .idle ∧ s.psm.timer = none ∧ s.psm.txn = none ∧ s.psm.halt = none
        ∧ s.psm.busErrors = 0)
    ∧ (s.hli.framer = .hunt ∧ s.hli.assembly = {} ∧ s.hli.byteTimer = none ∧ s.hli.outstanding = none
        ∧ s.hli.restartOwed = false ∧ s.hli.replies = [] ∧ s.hli.notices = [] ∧ s.hli.nextNotice = 0 ∧ s.hli.overflow = 0
        ∧ s.hli.unanswered = 0 ∧ s.hli.attn = false ∧ s.hli.counters = {})

/-- Each of the three beginnings of a restart leaves every block at its restart values, with the cause of that beginning; the
journal's store, its page table and the stored epoch are kept.  What an interrupted write leaves in its slot is one of three
contents (log 4); that the waiting commands, the count of draws and the levels of the PAUSE inputs go on is the model's choice
(log 9). -/
def Obligations.RestartClearsAllButTheStore : Prop :=
  ∀ (s : State) (h0 h1 : Bool),
    (s.supply = false → s.resetLow = false →
      ∃ t, exec (.powerUp h0 h1) s = .next t ∧ Restarted s t .power h0 h1 ∧ t.live = true ∧ t.pending = s.pending)
    ∧ (s.resetLow = true → s.supply = true →
      ∃ t, exec (.resetRelease h0 h1) s = .next t ∧ Restarted s t (if s.powerOwed then .power else .pin) h0 h1
        ∧ t.live = true ∧ t.pending = s.pending)
    ∧ (s.supply = false → s.resetLow = true →
      exec (.powerUp h0 h1) s = .next { s with supply := true, powerOwed := true })
    ∧ (∀ (r : Reply) (rest : List Reply), s.live = true → s.hli.restartOwed = true → s.hli.replies = r :: rest →
      r.kind = 0x82#8 → r.status = .ok →
      ∃ t, exec (.replySent h0 h1) s = .next t ∧ Restarted s t .request h0 h1 ∧ t.live = true ∧ t.pending = s.pending)

/-- While RESET is held low for 1 µs or more, and while the supply is lost, the part is at its restart values and does not
run; a shorter pulse is ignored, and so is an assertion of a RESET already low or a loss of a supply already lost.  That the
part already stands at its restart values while it is held or without supply is the model's reading (log 27). -/
def Obligations.HeldPartStandsAtRestartValues : Prop :=
  ∀ s : State,
    (∀ n, 1000 ≤ n → s.resetLow = false →
      ∃ t, exec (.resetAssert n) s = .next t ∧ Restarted s t s.ej.restartCause s.hli.hrate0 s.hli.hrate1
        ∧ t.resetLow = true ∧ t.live = false ∧ t.supply = s.supply)
    ∧ (∀ n, n < 1000 ∨ s.resetLow = true → exec (.resetAssert n) s = .next s)
    ∧ (s.supply = false → exec .supplyLoss s = .next s)
    ∧ (s.supply = true →
      ∃ t, exec .supplyLoss s = .next t ∧ Restarted s t s.ej.restartCause s.hli.hrate0 s.hli.hrate1
        ∧ t.supply = false ∧ t.live = false ∧ t.resetLow = s.resetLow)

/-- A part without supply or held by RESET takes nothing but its pins. -/
def Obligations.StoppedPartTakesNothing : Prop :=
  ∀ (s : State) (c : Instr), s.live = false →
    (∀ h0 h1, c ≠ .powerUp h0 h1) → (∀ n, c ≠ .resetAssert n) → (∀ h0 h1, c ≠ .resetRelease h0 h1) → c ≠ .supplyLoss →
    (∀ i, c ≠ .pauseAssert i) → (∀ i, c ≠ .pauseDeassert i) → exec c s = .next s

/-- R129 to R132, R21, R79: the end of recovery.  Every OPEN page is walked from its slot 0 up to the first slot that does not
verify, which reads VOID from then on if it is not blank, and is closed; the last record of the page of the greatest serial
that holds one is the chain end `r`.  The clock is loaded, the epoch is one more than the greater of the recovered and the
stored one and goes to the Stamp Issuer, START heads the intake and is noticed with the journal state judged, the Auction
Controller is told the state, the writer opens the lowest FREE page, and the erases begin again; at the last epoch the journal is
EXHAUSTED.  START gives the recovered epoch as the previous one (log 22); a VT no record of the part carries and an index or
serial at its bound are free values (logs 5, 6). -/
def Obligations.RecoveryEndBeginsEpoch : Prop :=
  ∀ s : State, s.live = true → s.ej.state = .starting →
    let m (r : Recovered) := max r.epoch s.ej.storedEpoch
    let vtAt (b : List Byte) : Nat := vtOfInt ((field b 6 5 * 1000000000 + field b 11 4 : Nat))
    let follows (prev : Chain) (b : List Byte) (next : Chain) : Prop :=
      b.length = 64 ∧ next = crc32 prev (b.take 60) ∧ field b 60 4 = next.toNat
    let leapOf (b : List Byte) : Option Nat :=
      let kind := field b 0 1 % 64
      if kind = 43 then some (field b 36 1) else if kind = 1 then some (field b 38 1)
      else if kind = 35 then some (field b 42 1)
      else if kind = 4 ∧ (field b 20 1 = 2 ∨ field b 20 1 = 3) then some (field b 21 1) else none
    let walked (p : Fin 64) : Prop :=
      (s.page p).state = .opened ∨ (s.page p).state = .closed ∨ (s.page p).state = .exported
    let serialOf (p : Fin 64) : Nat := (s.page p).serial.getD 0
    let pagesIn (st : PageState) : Nat := (List.finRange 64).countP fun p => (s.page p).state == st
    let undeferred : Prop := ∀ g, (s.group g).state ≠ .deferred
    ∃ (t : State) (r : Recovered), exec .recoveryEnd s = .next t
      ∧ ((∀ p, walked p → (t.page p).count = 0) → r = { index := none, chain := 0, epoch := 0, vt := 0, leapCount := 0 })
      ∧ ((∃ p, walked p ∧ 0 < (t.page p).count) → ∃ p, walked p ∧ 0 < (t.page p).count
          ∧ (∀ q, walked q → 0 < (t.page q).count → serialOf q ≤ serialOf p)
          ∧ (let k := (t.page p).count
             let last := (t.page p).recordAt (k - 1)
             r = { index := some (field ((t.page p).recordAt 0) 20 8 + (k - 1))
                   chain := (t.page p).lastChain.getD 0
                   epoch := field last 2 4
                   vt := vtAt last
                   leapCount :=
                     ((((t.page p).slots.toList.take k).filterMap fun x => leapOf x.bytes).getLast?).getD 0 }))
      ∧ (∀ p, (s.page p).state = .opened → ∃ (n : Nat) (c : Nat → Chain), n ≤ 128
          ∧ c 0 = BitVec.ofNat 32 (field ((s.page p).recordAt 0) 28 4)
          ∧ (∀ i, i < n → ∃ b, (s.page p).slots.toList[i]? = some (.data b) ∧ follows (c i) b (c (i + 1)))
          ∧ (∀ b k, (s.page p).slots.toList[n]? = some (.data b) → ¬ follows (c n) b k)
          ∧ t.page p = { s.page p with
              state := .closed, closeCause := some .recovery, count := n,
              lastChain := some (if n = 0 then r.chain else c n),
              closeTime := some (if n = 0 then r.vt else vtAt ((s.page p).recordAt (n - 1))),
              slots := Vector.ofFn fun i : Fin 128 =>
                if i.val = n ∧ (s.page p).slots[i] ≠ .blank then .void else (s.page p).slots[i] })
      ∧ (∀ p, (s.page p).state ≠ .opened → (s.page p).state ≠ .free → t.page p = s.page p)
      ∧ t.tsu.vt = r.vt ∧ t.tsu.frac = 0 ∧ t.tsu.leapCount = r.leapCount ∧ t.tsu.clock = s.tsu.clock ∧ t.tsu.u = s.tsu.u
      ∧ t.tsu.latched = s.tsu.latched ∧ t.tsu.loadedSec = (r.vt / 1000000000 : Nat)
      ∧ t.rfe = s.rfe ∧ t.psm = s.psm ∧ t.ej.chain = r.chain
      ∧ (r.index = none → t.ej.nextIndex = 0)
      ∧ (∀ i, r.index = some i → i < 18446744073709551614 → t.ej.nextIndex = i + 1)
      ∧ t.ej.eraseQueue = (List.finRange 64).filter (fun p => (s.page p).state == .erasing)
      ∧ t.auc.journalView = t.ej.state
      ∧ (m r < 4294967295 → t.ej.epoch = m r + 1 ∧ t.ej.storedEpoch = m r + 1
          ∧ t.sis = { s.sis with epoch := m r + 1 } ∧ t.ej.state ≠ .starting ∧ t.ej.state ≠ .exhausted
          ∧ (∃ x rest, t.ej.intake = x :: rest ∧ s.ej.intake <+: rest ∧ x.kind = .start ∧ x.subject = 255 ∧ x.vt = r.vt
              ∧ ∃ truncated : Bool,
                (truncated = true ↔ ∃ (p : Fin 64) (i : Fin 128), (s.page p).state = .opened ∧ i.val = (t.page p).count
                  ∧ (s.page p).slots[i] ≠ .blank)
                ∧ x.body = be 1 s.ej.restartCause.code ++ be 4 (m r + 1) ++ be 4 r.epoch
                  ++ be 8 (r.index.getD Config.noIndex) ++ beBool truncated ++ be 1 r.leapCount
                  ++ be 1 (pagesIn .free) ++ be 1 0 ++ be 1 (pagesIn .closed + pagesIn .opened) ++ be 1 (pagesIn .exported)
                  ++ be 1 (pagesIn .erasing) ++ be 1 (pagesIn .defective))
          ∧ (undeferred →
              let judged : JournalState :=
                if 2 < pagesIn .free then .normal else if 0 < pagesIn .free then .tight else .stalled
              Noticed s t .start r.vt .nothing (be 1 s.ej.restartCause.code ++ be 4 (m r + 1) ++ be 1 judged.code)))
      ∧ (4294967295 ≤ m r → t.ej.state = .exhausted ∧ t.sis = s.sis ∧ t.ej.intake = s.ej.intake
          ∧ Noticed s t .start r.vt .nothing
              (be 1 s.ej.restartCause.code ++ be 4 s.ej.epoch ++ be 1 JournalState.exhausted.code))
      ∧ (∀ top, StoreSound s → undeferred → top < 4294967294 → (∀ p, serialOf p ≤ top) →
          (top = 0 ∨ ∃ p, (s.page p).serial = some top) →
          (4294967295 ≤ m r ∨ pagesIn .free = 0 →
            t.ej.nextSerial = top + 1 ∧ t.ej.openPage = none
              ∧ (m r < 4294967295 → t.ej.state = .stalled ∧ t.ej.writer = none))
          ∧ (∀ p, m r < 4294967295 → (s.page p).state = .free → (∀ q, q < p → (s.page q).state ≠ .free) →
            t.ej.nextSerial = top + 2 ∧ t.ej.openPage = some (p, 0)
              ∧ t.page p = { state := .opened, serial := some (top + 1) }
              ∧ t.ej.state = (if 3 < pagesIn .free then .normal else .tight)
              ∧ ∃ w, t.ej.writer = some w ∧ w.page = p ∧ w.source = .pageOpen ∧ w.record.kind = .pageOpen))

/-! ## The host link -/

/-- R160, R163, R180: the bytes of a request frame, received one after another in HUNT, come to the same as the received
request they spell. -/
def Obligations.WholeFrameIsOneRequest : Prop :=
  ∀ (s : State) (kind tag : Byte) (body : List Byte), s.live = true → s.hli.restartOwed = false → s.hli.framer = .hunt →
    body.length ≤ 1024 →
    runCommands ((requestFrame kind tag body).map fun b => .hostByteReceived b false) s
      = exec (.receivedRequest kind tag body) { s with hli := { s.hli with framer := .hunt, assembly := {}, byteTimer := none } }

/-- R160: in HUNT the framer begins a frame at the sync value and counts every other byte.  R161, R163: a faulty frame is given
up at its fault, counted by its cause, and answered FRAME_REJECTED where the reply queue has room; otherwise it is left
unanswered and counted.  A byte's begin is reckoned from its end by the ten bits it takes at the host rate, so a byte that
begins more than 1 ms after the last one finds its frame timed out and is hunted (log 31). -/
def Obligations.FramerHuntsAndRejects : Prop :=
  ∀ (s : State), s.live = true → s.hli.restartOwed = false →
    let a := s.hli.assembly
    let byteTime : Nat := if s.hli.hrate1 then 156 else if s.hli.hrate0 then 312 else 1250
    let late : Prop := ∃ n, s.hli.byteTimer = some n ∧ n + 125000 + byteTime < s.osc
    let given (cause : RejectCause) : State :=
      { s with hli := { s.hli with
          framer := .hunt, assembly := {}, byteTimer := none, counters := s.hli.counters.rejected cause } }
    let rejected (cause : RejectCause) (t : State) : Prop :=
      (s.hli.replies.length < 8 → t =
        { given cause with hli := { (given cause).hli with replies := s.hli.replies ++
            [{ kind := a.kind.getD 255#8 ||| 0x80#8, tag := a.tag.getD 0#8, status := .frameRejected,
               body := [BitVec.ofNat 8 cause.code,
                 BitVec.ofNat 8 ((if a.kind.isSome then 1 else 0) + (if a.tag.isSome then 2 else 0))] }] } })
      ∧ (8 ≤ s.hli.replies.length → t =
        { given cause with hli := { (given cause).hli with
            unanswered := sat32 s.hli.unanswered
            counters := { (given cause).hli.counters with unansweredFrames := sat32 s.hli.counters.unansweredFrames } } })
    (∀ (b : Byte) (low : Bool), s.hli.framer = .hunt →
      (b = 0xC3#8 → low = false → exec (.hostByteReceived b low) s = .next { s with hli := { s.hli with
        framer := .length, assembly := {}, byteTimer := some s.osc } })
      ∧ (b ≠ 0xC3#8 ∨ low = true → exec (.hostByteReceived b low) s = .next { s with hli := { s.hli with
        counters := { s.hli.counters with hunt := sat32 s.hli.counters.hunt } } }))
    ∧ (∀ b, s.hli.framer ≠ .hunt → ¬ late → ∃ t, exec (.hostByteReceived b true) s = .next t ∧ rejected .byteFraming t)
    ∧ (∀ n, s.hli.byteTimer = some n →
        (n + 125000 < s.osc → ∃ t, exec .byteTimeout s = .next t ∧ rejected .timeout t)
        ∧ (s.osc ≤ n + 125000 → exec .byteTimeout s = .next s))
    ∧ (∀ b low, s.hli.framer ≠ .hunt → late → ∃ t, rejected .timeout t
        ∧ exec (.hostByteReceived b low) s = exec (.hostByteReceived b low) t)
    ∧ (∀ x y : Byte, s.hli.framer = .length → ¬ late → a.lengthBytes = [x] → 1024 < x.toNat * 256 + y.toNat →
        ∃ t, exec (.hostByteReceived y false) s = .next t ∧ rejected .length t)
    ∧ (∀ x y : Byte, s.hli.framer = .check → ¬ late → a.check = [x] → x.toNat * 256 + y.toNat ≠ (crc16 a.checked).toNat →
        ∃ t, exec (.hostByteReceived y false) s = .next t ∧ rejected .check t)

/-- R180: the body of every request kind carries its fields; read back from its bytes, each request is itself. -/
def Obligations.RequestBodyRoundTrip : Prop :=
  ∀ r : Request, r.wf = true → parseRequest (kindOf r) (bodyOf r) = .request r

/-- A request received as bytes does what the command of its kind does. -/
def Obligations.ReceivedRequestIsItsCommand : Prop :=
  ∀ (s : State) (c : Instr) (tag : Byte) (r : Request), c.request? = some (tag, r) → r.wf = true →
    exec (.receivedRequest (kindOf r) tag (bodyOf r)) s = exec c s

/-- R163, R164, R172: a request that is not passed to its owner: nothing is received once a Restart is owed; without room it
is left unanswered; with a request outstanding it is BUSY; in STARTING only Identify is performed; an unknown kind and a
body length the kind does not allow are answered as such. -/
def Obligations.RequestGatesInOrder : Prop :=
  ∀ (s : State), s.live = true →
    let accepted (k tag : Byte) : Hli := { s.hli with
      outstanding := some (k, tag), counters := { s.hli.counters with accepted := sat32 s.hli.counters.accepted } }
    let refusedBy (k tag : Byte) (st : Status) : State :=
      { s with hli := { accepted k tag with replies := s.hli.replies ++ [⟨k ||| 0x80#8, tag, st, []⟩] } }
    (∀ (c : Instr) (tag : Byte) (r : Request), c.request? = some (tag, r) → r.wf = true →
      (s.hli.restartOwed = true → exec c s = .next s)
      ∧ (s.hli.restartOwed = false → 8 ≤ s.hli.replies.length → exec c s = .next { s with hli := { s.hli with
          unanswered := sat32 s.hli.unanswered
          counters := { s.hli.counters with unansweredFrames := sat32 s.hli.counters.unansweredFrames } } })
      ∧ (s.hli.restartOwed = false → s.hli.replies.length < 8 → s.hli.outstanding ≠ none →
          exec c s = .next { s with hli := { s.hli with
            counters := { s.hli.counters with busyReplies := sat32 s.hli.counters.busyReplies }
            replies := s.hli.replies ++ [⟨kindOf r ||| 0x80#8, tag, .busy, []⟩] } })
      ∧ (s.hli.restartOwed = false → s.hli.replies.length < 8 → s.hli.outstanding = none → s.ej.state = .starting →
          r ≠ .identify → exec c s = .next (refusedBy (kindOf r) tag .starting)))
    ∧ (∀ (kind tag : Byte) (body : List Byte),
        s.hli.restartOwed = false → s.hli.replies.length < 8 → s.hli.outstanding = none →
        (parseRequest kind body = .unknownKind →
          exec (.receivedRequest kind tag body) s = .next (refusedBy kind tag .unknownKind))
        ∧ (parseRequest kind body = .badLength →
          exec (.receivedRequest kind tag body) s = .next (refusedBy kind tag .badLength)))

/-- R162 to R164: every accepted request gets exactly one reply, in the event that takes it, with its kind's top bit set and
its tag echoed, and stays outstanding; the replies before it stand. -/
def Obligations.AcceptedRequestIsAnsweredOnce : Prop :=
  ∀ (s : State) (c : Instr) (tag : Byte) (r : Request), c.request? = some (tag, r) → r.wf = true → s.accepts = true →
    ∃ (t : State) (st : Status) (body : List Byte),
      exec c s = .next t ∧ exec (.receivedRequest (kindOf r) tag (bodyOf r)) s = .next t
        ∧ t.hli.replies = s.hli.replies ++ [⟨kindOf r ||| 0x80#8, tag, st, body⟩]
        ∧ t.hli.outstanding = some (kindOf r, tag)
        ∧ t.hli.counters = { s.hli.counters with accepted := sat32 s.hli.counters.accepted }
        ∧ st ≠ .busy ∧ st ≠ .starting ∧ st ≠ .frameRejected ∧ st ≠ .unknownKind ∧ st ≠ .badLength

/-- R162, R165: at the end of a reply it leaves the queue, and it ends the outstanding request unless it is BUSY or
FRAME_REJECTED. -/
def Obligations.SentReplyEndsItsRequest : Prop :=
  ∀ (s : State) (h0 h1 : Bool) (r : Reply) (rest : List Reply), s.live = true → s.hli.replies = r :: rest →
    (s.hli.restartOwed = false ∨ r.kind ≠ 0x82#8 ∨ r.status ≠ .ok) →
    exec (.replySent h0 h1) s = .next { s with hli := { s.hli with
      replies := rest
      outstanding := if r.status = .busy ∨ r.status = .frameRejected then s.hli.outstanding else none } }

/-- Identify and the eight read-outs are answered OK and change nothing: the state is the one before with the request
accepted and its reply made, the reply carrying the fields its rule lists, as they stand (R19, R41, R64, R81, R107, R123, R124,
R157, R171).  Identify is performed in STARTING too; Read Records is refused for a count, a range, a serial or a page that is
being erased.  How these replies spell widths and absent values is the model's (logs 20, 21, 22, 25, 26, 28, 34),
and so are the codes of the poll error kinds (log 36) and the phase of a transaction between two attempts (log 24). -/
def Obligations.ReadOutsChangeNothing : Prop :=
  ∀ (s : State) (tag : Byte),
    let civil (c : Civil) : List Byte :=
      let secs := c.ns / 1000000000
      let leap : Bool := decide (86400 ≤ secs)
      be 1 (dateOf c.day).2.1 ++ be 1 (dateOf c.day).2.2 ++ be 1 (if leap then 23 else secs / 3600)
        ++ be 1 (if leap then 59 else secs / 60 % 60) ++ be 1 (if leap then 60 + (secs - 86400) else secs % 60)
    (s.live = true → s.hli.restartOwed = false → s.hli.replies.length < 8 → s.hli.outstanding = none →
      let c := s.hli.counters
      exec (.identify tag) s = .next (s.answered 0x01#8 tag .ok
        (be 2 0x5B1E ++ be 2 0x0F08 ++ be 2 0x0001
          ++ [3#8, 8#8, 16#8, 32#8, 64#8, 8#8, 64#8, 128#8, 32#8, 64#8, 8#8] ++ be 2 1024
          ++ beBool s.hli.hrate0 ++ beBool s.hli.hrate1
          ++ be 1 (if s.hli.hrate1 then 8 else if s.hli.hrate0 then 4 else 1) ++ be 1 s.hli.restartCause.code
          ++ beBool (s.ej.state == .starting)
          ++ be 4 c.hunt ++ be 4 c.rejectedLength ++ be 4 c.rejectedTimeout ++ be 4 c.rejectedFraming
          ++ be 4 c.rejectedCheck ++ be 4 c.busyReplies ++ be 4 c.unansweredFrames ++ be 4 (sat32 c.accepted))))
    ∧ (s.accepts = true →
      (let t := s.tsu
       exec (.readClock tag) s = .next (s.answered 0x11#8 tag .ok
        (beVt t.vt ++ beInt 2 (dateOf (t.toCivil t.vt).day).1 ++ civil (t.toCivil t.vt)
          ++ be 4 ((t.toCivil t.vt).ns % 1000000000)
          ++ be 1 t.leapCount ++ be 1 t.pendingLeap.code ++ be 1 t.labelLeap.code ++ be 1 t.hostLeap.code
          ++ beBool t.latched
          ++ beVtOpt (match t.pendingLeap with
              | .insert => some (vtOfInt ((t.dayEnd + 1) * 1000000000))
              | .delete => some (vtOfInt ((t.dayEnd - 1) * 1000000000))
              | .noLeap => none)
          ++ be 1 t.clock.code ++ be 1 t.grade.code ++ beBool t.traceable ++ be 3 t.u ++ beInt 8 t.theta ++ beInt 4 t.c
          ++ beInt 4 t.f
          ++ beOpt (t.selected.map (·.val)) ++ beBool t.aided ++ beBool t.vtSet ++ beBool t.tracked
          ++ be 1 t.lock ++ be 1 t.unlock ++ be 2 t.summary
          ++ be 4 t.limits.tracking ++ be 4 t.limits.tight ++ be 4 t.limits.traceability ++ be 4 t.limits.baseU
          ++ be 2 t.limits.unaidedRate ++ be 2 t.limits.aidedRate ++ be 2 t.limits.tau ++ be 4 t.limits.slewLimit
          ++ be 4 t.limits.stepThreshold ++ be 1 t.limits.lockCount ++ be 1 t.limits.unlockCount
          ++ be 2 t.limits.summaryInterval)))
      ∧ (∀ i : Fin 3,
        let r := s.ref i
        let g := r.config
        let second (o : Option Nat) : List Byte := match o with | some x => be 5 x | none => List.replicate 5 255#8
        exec (.readReference tag i.val) s = .next (s.answered 0x1B#8 tag .ok
          (be 1 (if g.rising then 0 else 1) ++ be 1 ((if g.hz1 then 1 else 0) + (if g.hz10 then 2 else 0) + (if g.hz100 then 4 else 0))
            ++ be 1 g.bandClass ++ be 1 g.lockValue ++ be 1 g.unlockValue ++ be 1 g.priority ++ beBool g.labelUse
            ++ be 1 r.state.code ++ beOpt (r.candidate.map (·.code)) ++ be 1 r.lock ++ be 1 r.miss
            ++ beBool r.cell.isSome
            ++ beInt 4 r.f ++ beBool r.fValid ++ be 3 ((r.j16 + 15) / 16)
            ++ second r.lastSecond ++ beOpt (r.lastLabel.map (·.leapCount)) ++ beOpt (r.lastLabel.map (·.warning.code))
            ++ beOpt (r.lastLabel.map fun l => if l.traceable then 1 else 0)
            ++ beBool r.heldLabel.isSome
            ++ beBool r.offset.isSome ++ beInt 8 ((r.offset.map (·.ns)).getD 0) ++ second (r.offset.map (·.second))
            ++ be 4 r.good ++ be 4 r.badTiming ++ be 4 r.badMissing ++ be 4 r.badOverrun ++ be 4 r.badLabel ++ be 4 r.discards
            ++ beOpt (s.rfe.selected.map (·.val)) ++ beBool s.rfe.disagree)))
      ∧ (∀ i : Fin 8,
        let l := s.line i
        let c := l.counters
        let head : Nat := match l.queue with | .stamp st :: _ => st.sequence | _ => 0
        exec (.readLine tag i.val) s = .next (s.answered 0x25#8 tag .ok
          (be 1 l.state.code ++ beOpt (l.health.map (·.code)) ++ be 1 l.rec_
            ++ be 1 l.mode.code
            ++ l.filters.toList.flatMap (fun f => beBool f.enabled ++ be 2 f.code.toNat ++ be 2 f.mask.toNat)
            ++ be 2 l.pathDelay
            ++ be 1 l.queue.length ++ be 6 head
            ++ (be 6 l.tally.count ++ be 6 (l.tally.lowest.getD 0) ++ be 6 (l.tally.highest.getD 0))
            ++ beBool (decide (0 < l.tally.count))
            ++ beBool l.quality ++ be 4 (l.phases.foldl (fun n g => n + 2 ^ g.val) 0) ++ be 1 l.interleave
            ++ beBool l.lane.isSome
            ++ beBool l.pause ++ be 1 l.owed
            ++ be 2 ((l.drain.map fun n => (n + 1250000 - s.osc) / 125).getD 65535)
            ++ be 4 c.good ++ be 4 c.badFraming ++ be 4 c.badLength ++ be 4 c.badCheck ++ be 4 c.badKind ++ be 4 c.ignored
            ++ be 6 c.stampsSent ++ be 4 c.notOpenSent ++ be 4 c.qualitySent ++ be 4 c.phaseSent ++ be 4 c.dropsSent
            ++ be 6 c.stampsDropped ++ be 4 c.notOpenDiscarded ++ be 4 c.pauses)))
      ∧ (let x := s.sis
         exec (.readIssuer tag) s = .next (s.answered 0x29#8 tag .ok
          (be 1 x.state.code ++ be 4 x.epoch ++ be 6 (x.next.getD 0)
            ++ be 6 ((x.last.map (·.1)).getD 0) ++ beVtOpt (x.last.map (·.2))
            ++ beOpt (x.opening.map (·.1.code)) ++ beVtOpt (x.opening.map (·.2))
            ++ be 1 x.offers.length
            ++ (List.finRange 8).flatMap (fun i => beBool (x.cells[i]).isSome ++ be 6 x.issued[i] ++ be 4 x.notOpen[i])
            ++ be 6 x.accepted ++ be 6 x.late ++ be 6 x.refusedSession ++ be 6 x.refusedGroup
            ++ be 4 x.flagDegraded ++ be 4 x.flagPeer ++ be 4 x.flagLeap)))
      ∧ (∀ g : Fin 32,
        let a := s.group g
        let revealed : Bool := a.state == .cut || a.state == .closed || a.state == .cancelled
        let shown := if revealed then a.drawnEnd else none
        let nonce := if revealed then a.nonce else none
        let start (o : Option Start) : List Byte := match o with
          | some st => be 2 (dateOf st.civil.day).1.toNat ++ civil st.civil ++ be 2 (st.civil.ns % 1000000000 / 1000000)
              ++ beVt st.vt
          | none => List.replicate 18 255#8
        let deadline (k : DeadlineKind) : List Byte := match s.auc.deadlines.find? fun d => d.group == g && d.kind == k with
          | none => 0#8 :: List.replicate 9 255#8
          | some d => 1#8 :: (if k = .endAt ∨ k = .deferLimit then List.replicate 9 255#8 else beVt d.instant)
        exec (.readAuction tag g.val) s = .next (s.answered 0x35#8 tag .ok
          (be 1 a.state.code ++ start a.callStart ++ start a.windowStart
            ++ be 3 a.windowLength ++ be 2 a.extLength ++ be 1 a.maxExt ++ be 1 a.extUsed ++ be 2 a.deferLimit
            ++ (match a.drawCheck with
                | .noCheck => 0#8 :: be 8 0
                | .owed => 1#8 :: be 8 0
                | .value w => 2#8 :: be 8 w.toNat)
            ++ beVtOpt shown ++ beBool nonce.isSome ++ be 8 ((nonce.map (·.toNat)).getD 0) ++ beVtOpt shown
            ++ beVtOpt a.cutTime ++ beBool a.forced ++ be 3 ((a.quality.map (·.1)).getD 16777215)
            ++ beOpt (a.quality.map (·.2.code))
            ++ be 6 a.inCount ++ be 6 a.lastIn ++ be 6 a.lateCount
            ++ be 8 (a.armIndex.getD 18446744073709551615) ++ be 1 a.heldList.length
            ++ deadline .callStart ++ deadline .windowStart ++ deadline .endAt ++ deadline .deferLimit ++ deadline .settle
            ++ beBool s.auc.traceableView ++ be 1 s.auc.journalView.code ++ be 1 s.auc.deadlines.length)))
      ∧ (let e := s.ej
         let pagesIn (st : PageState) : List Byte := be 1 ((List.finRange 64).countP fun p => (s.page p).state == st)
         exec (.readJournal tag) s = .next (s.answered 0x38#8 tag .ok
          (be 1 e.state.code ++ be 4 e.epoch ++ be 1 e.restartCause.code
            ++ (List.finRange 64).flatMap (fun p =>
                let pg := s.page p
                be 1 pg.state.code ++ be 4 (pg.serial.getD 0) ++ beOpt (pg.closeCause.map (·.code)) ++ beVtOpt pg.closeTime
                  ++ be 1 pg.count ++ be 4 ((pg.lastChain.map (·.toNat)).getD 0) ++ be 2 (pg.retention.getD 65535)
                  ++ beOpt (pg.defect.map (·.code)))
            ++ (pagesIn .free ++ pagesIn .opened ++ pagesIn .closed ++ pagesIn .exported ++ pagesIn .erasing
                ++ pagesIn .defective)
            ++ be 8 e.nextIndex ++ be 4 e.chain.toNat ++ be 4 e.nextSerial
            ++ beOpt (e.openPage.map (·.1.val)) ++ beOpt (e.openPage.map (·.2)) ++ beBool e.closeRequested
            ++ be 1 e.intake.length ++ beBool e.writer.isSome ++ beBool e.rewriteOwed
            ++ (match e.gapOwed with
                | some g => 1#8 :: (be 8 g.critical ++ be 8 g.nonCritical ++ beVtOpt g.first)
                | none => 0#8 :: (be 8 0 ++ be 8 0 ++ List.replicate 9 255#8))
            ++ be 8 e.criticalLost ++ be 8 e.nonCriticalLost ++ beVtOpt e.firstLoss
            ++ be 1 e.eraseQueue.length ++ e.eraseQueue.flatMap (fun p => be 1 p.val))))
      ∧ (∀ serial slot count : Nat,
        let answer (st : Status) (body : List Byte) :=
          exec (.readRecords tag serial slot count) s = .next (s.answered 0x39#8 tag st body)
        (count < 1 ∨ 12 < count ∨ 128 < slot + count → answer .badArgument [])
        ∧ (1 ≤ count → count ≤ 12 → slot + count ≤ 128 →
          ((∀ p, (s.page p).serial ≠ some serial) → answer .badArgument [])
          ∧ (∀ p, (s.page p).serial = some serial → (∀ q, q < p → (s.page q).serial ≠ some serial) →
            ((s.page p).state = .erasing → answer .wrongState [])
            ∧ ((s.page p).state ≠ .erasing →
              let written : Nat := match s.ej.openPage with
                | some (q, n) => if p = q then n else (s.page p).count
                | none => (s.page p).count
              let shown (i : Nat) : List Byte := match (s.page p).slots.toList[i]? with
                | some (.data bytes) => if i < written then 0#8 :: bytes else [2#8]
                | some .blank => [1#8]
                | some .void => [2#8]
                | none => []
              answer .ok (be 4 serial ++ be 1 slot ++ be 1 count
                ++ (List.range count).flatMap fun k => shown (slot + k))))))
      ∧ (∀ a : Fin 8,
        let x := s.agent a
        let c := x.counters
        let p := s.psm
        exec (.readAgent tag a.val) s = .next (s.answered 0x44#8 tag .ok
          (be 1 x.config.address ++ be 2 x.config.periodMs ++ be 1 (if x.config.fast then 1 else 0)
            ++ be 2 x.config.latency ++ be 4 x.config.limit ++ beOpt (x.config.binding.map (·.val))
            ++ be 1 x.state.code ++ be 1 x.failures ++ beOpt (x.lastError.map (·.code))
            ++ (match x.nextDue with
                | none => 0#8 :: be 3 0
                | some t => if t ≤ s.osc then 1#8 :: be 3 0 else 2#8 :: be 3 ((t - s.osc) / 125))
            ++ (match x.reading with
                | some r => 1#8 :: (beVt r.markVt ++ be 3 r.ownU ++ beVt r.time ++ be 4 r.agentU ++ be 1 r.status.code
                    ++ beInt 8 r.offset ++ be 8 ((s.osc - r.markCount) / 125000))
                | none => 0#8 :: (List.replicate 9 255#8 ++ be 3 0 ++ List.replicate 9 255#8 ++ be 4 0 ++ [255#8] ++ be 8 0
                    ++ be 8 0))
            ++ be 4 c.begun ++ be 4 c.good ++ be 4 c.addressNack ++ be 4 c.dataNack ++ be 4 c.checkFail ++ be 4 c.notReady
            ++ be 4 c.timeout ++ be 4 c.arbitrationLost ++ be 4 c.arbitrationLosses ++ be 4 c.discarded
            ++ be 1 p.survey.code ++ beOpt (p.halt.map (·.agent.val)) ++ beOpt (p.halt.map (·.phase.code))
            ++ beVtOpt (p.halt.map (·.vt)) ++ be 1 p.bus.code ++ be 4 p.busErrors
            ++ beOpt (p.txn.map (·.agent.val)) ++ beOpt (p.txn.map (·.phase.code)) ++ be 1 ((p.txn.map (·.attempt)).getD 0)
            ++ beBool ((p.txn.map (·.discard)).getD false)))))

/-- R170: Fetch Notices removes up to the count from the head, reports both counts and clears them; a count outside 1 to 16
is BAD_ARGUMENT. -/
def Obligations.FetchNoticesDrainsInOrder : Prop :=
  ∀ (s : State) (tag : Byte) (n : Nat), s.accepts = true →
    (1 ≤ n → n ≤ 16 → exec (.fetchNotices tag n) s = .next
      (let t := s.answered 0x03#8 tag .ok
        (be 1 (min n s.hli.notices.length) ++ be 4 s.hli.overflow ++ be 4 s.hli.unanswered
          ++ be 1 (s.hli.notices.length - min n s.hli.notices.length) ++ (s.hli.notices.take n).flatMap Notice.bytes)
       { t with hli := { t.hli with notices := s.hli.notices.drop n, overflow := 0, unanswered := 0 } }))
    ∧ (n < 1 ∨ 16 < n → exec (.fetchNotices tag n) s = .next (s.answered 0x03#8 tag .badArgument []))

/-- R172: a Restart request is answered OK, a restart is owed and the framer stops: no later byte is taken. -/
def Obligations.RestartRequestStopsTheFramer : Prop :=
  ∀ (s : State) (tag : Byte), s.accepts = true →
    exec (.restart tag) s = .next
        (let t := s.answered 0x02#8 tag .ok []
         { t with hli := { t.hli with restartOwed := true, framer := .hunt, assembly := {}, byteTimer := none } })
      ∧ ∀ (u : State) (b : Byte) (low : Bool), u.live = true → u.hli.restartOwed = true →
          exec (.hostByteReceived b low) u = .next u

/-- R37, whole. -/
def Obligations.UnknownReferenceIsRefused : Prop :=
  ∀ (s : State) (tag : Byte) (n : Nat), s.accepts = true → 2 < n →
    (∀ a : RefArgs, a.ref = n → exec (.configureReference tag a) s = .next (s.answered 0x18#8 tag .badArgument []))
    ∧ exec (.enableReference tag n) s = .next (s.answered 0x19#8 tag .badArgument [])
    ∧ exec (.disableReference tag n) s = .next (s.answered 0x1A#8 tag .badArgument [])
    ∧ exec (.readReference tag n) s = .next (s.answered 0x1B#8 tag .badArgument [])

/-- R87, whole. -/
def Obligations.UnknownGroupIsRefused : Prop :=
  ∀ (s : State) (tag : Byte) (n : Nat), s.accepts = true → 31 < n →
    (∀ a : ArmArgs, a.group = n → exec (.armAuction tag a) s = .next (s.answered 0x30#8 tag .badArgument []))
    ∧ exec (.extendAuction tag n) s = .next (s.answered 0x31#8 tag .badArgument [])
    ∧ exec (.cutNow tag n) s = .next (s.answered 0x32#8 tag .badArgument [])
    ∧ exec (.cancelAuction tag n) s = .next (s.answered 0x33#8 tag .badArgument [])
    ∧ exec (.clearAuction tag n) s = .next (s.answered 0x34#8 tag .badArgument [])
    ∧ exec (.readAuction tag n) s = .next (s.answered 0x35#8 tag .badArgument [])

/-- R152, whole. -/
def Obligations.UnknownAgentIsRefused : Prop :=
  ∀ (s : State) (tag : Byte) (n : Nat), s.accepts = true → 7 < n →
    (∀ a : AgentArgs, a.agent = n → exec (.configureAgent tag a) s = .next (s.answered 0x40#8 tag .badArgument []))
    ∧ exec (.enableAgent tag n) s = .next (s.answered 0x41#8 tag .badArgument [])
    ∧ exec (.disableAgent tag n) s = .next (s.answered 0x42#8 tag .badArgument [])
    ∧ exec (.readAgent tag n) s = .next (s.answered 0x44#8 tag .badArgument [])

/-! ## The clock -/

/-- The clock limits take effect in the order of R18: the CLOCK_LIMITS record offered, U recomputed where the base uncertainty
has changed (R9; before the first update from the values after a restart, log 16), the clock state judged again, the change handed
on with its CLOCK_STATE record behind the first; a set out of range is refused. -/
def Obligations.ClockLimitsTakeEffect : Prop :=
  ∀ (s : State) (tag : Byte) (l : ClockLimits), s.accepts = true →
    let valid : Prop := 10 ≤ l.tracking ∧ l.tracking ≤ 1000000 ∧ 10 ≤ l.tight ∧ l.tight ≤ 1000000
      ∧ l.tight ≤ l.traceability ∧ 100 ≤ l.traceability ∧ l.traceability ≤ 16000000 ∧ l.baseU ≤ 100000
      ∧ l.unaidedRate ≤ 10000 ∧ l.aidedRate ≤ 10000 ∧ 8 ≤ l.tau ∧ l.tau ≤ 1024
      ∧ 1000 ≤ l.slewLimit ∧ l.slewLimit ≤ 500000 ∧ 1000 ≤ l.stepThreshold ∧ l.stepThreshold ≤ 1000000000
      ∧ 1 ≤ l.lockCount ∧ l.lockCount ≤ 63 ∧ 1 ≤ l.unlockCount ∧ l.unlockCount ≤ 63
      ∧ 10 ≤ l.summaryInterval ∧ l.summaryInterval ≤ 3600
    (valid →
      let u := if l.baseU ≠ s.tsu.limits.baseU ∧ (s.tsu.clock = .acquiring ∨ s.tsu.clock = .tracking)
        then min 16777215 (l.baseU + s.tsu.lastJ + if s.tsu.stepped then 0 else s.tsu.theta.natAbs) else s.tsu.u
      let clock := if s.tsu.clock = .holdover ∧ l.traceability < u then ClockState.untraceable
        else if s.tsu.clock = .untraceable ∧ u ≤ l.traceability then ClockState.holdover else s.tsu.clock
      let new : Tsu := { s.tsu with limits := l, u := u, clock := clock }
      let limits : Record :=
        { kind := .clockLimits, subject := 255, vt := s.now,
          body := be 4 l.tracking ++ be 4 l.tight ++ be 4 l.traceability ++ be 4 l.baseU ++ be 2 l.unaidedRate
            ++ be 2 l.aidedRate ++ be 2 l.tau ++ be 4 l.slewLimit ++ be 4 l.stepThreshold ++ be 1 l.lockCount
            ++ be 1 l.unlockCount ++ be 2 l.summaryInterval }
      let changed : Record :=
        { kind := .clockState, subject := 255, vt := s.now,
          body := be 1 s.tsu.clock.code ++ be 1 clock.code ++ beBool new.traceable ++ be 1 new.grade.code ++ be 3 u
            ++ beInt 8 s.tsu.theta ++ beOpt (s.tsu.selected.map (·.val)) ++ be 1 ClockCause.limits.code }
      ∃ t, exec (.setClockLimits tag l) s = .next t
        ∧ Handed (({ s.answered 0x10#8 tag .ok [] with tsu := new } : State).viewing s.tsu) t
        ∧ Offered s t limits
        ∧ (clock ≠ s.tsu.clock ∨ new.traceable ≠ s.tsu.traceable →
            Noticed s t .clockState s.now .nothing (be 1 clock.code ++ be 1 new.grade.code)
            ∧ OfferedAfter 1 s t changed
            ∧ (s.ej.takes true = true → s.ej.openPage ≠ none → s.ej.intake.length + 1 < 32 →
                [limits, changed] <+: t.ej.intake.drop s.ej.intake.length)))
    ∧ (¬ valid → exec (.setClockLimits tag l) s = .next (s.answered 0x10#8 tag .badArgument []))

/-- R20: the host announcement is set and the pending leap derived again from the two announcements, unless the latch or an
applied leap has closed the day (log 17); the refusals come first.  R13: the two sources beginning to differ are recorded as a
conflict, and a changed pending leap as WITHDRAWN, ANNOUNCED or both; the order and the fields of these records are log 15. -/
def Obligations.AnnounceLeapTakesEffect : Prop :=
  ∀ (s : State) (tag : Byte) (value : Nat), s.accepts = true →
    let differ (x y : Leap) : Prop := (x = .insert ∧ y = .delete) ∨ (x = .delete ∧ y = .insert)
    let leap (action : Nat) (x : Leap) : Record :=
      { kind := .leap, subject := 255, vt := s.now,
        body := be 1 action ++ be 1 s.tsu.leapCount ++ be 1 x.code ++ List.replicate 9 255#8 }
    (s.tsu.latched = true → exec (.announceLeap tag value) s = .next (s.answered 0x12#8 tag .tooLate []))
    ∧ (s.tsu.latched = false →
        (2 < value ∨ (value = 1 ∧ s.tsu.leapCount = 255) ∨ (value = 2 ∧ s.tsu.leapCount = 0) →
          exec (.announceLeap tag value) s = .next (s.answered 0x12#8 tag .badArgument []))
        ∧ (∀ w : Leap, w.code = value → s.tsu.cannotApply w = false →
            (w = s.tsu.hostLeap → exec (.announceLeap tag value) s = .next (s.answered 0x12#8 tag .ok []))
            ∧ (w ≠ s.tsu.hostLeap →
                let pending := if s.tsu.leapDone then s.tsu.pendingLeap
                  else if s.tsu.labelLeap = .noLeap then w else s.tsu.labelLeap
                ∃ t, exec (.announceLeap tag value) s = .next t
                  ∧ t.tsu = { s.tsu with hostLeap := w, pendingLeap := pending }
                  ∧ AroundClock (s.answered 0x12#8 tag .ok []) t ∧ t.rfe = s.rfe ∧ t.sis = s.sis
                  ∧ (∀ g, (s.group g).state = .armed ∨ (s.group g).state = .call →
                      t.group g = if pending = s.tsu.pendingLeap then s.group g else (s.group g).again t.tsu)
                  ∧ (differ s.tsu.labelLeap w → ¬ differ s.tsu.labelLeap s.tsu.hostLeap →
                      Offered s t
                        { kind := .leapConflict, subject := 255, vt := s.now,
                          body := be 1 1 ++ be 1 s.tsu.labelLeap.code ++ be 1 w.code })
                  ∧ (pending ≠ s.tsu.pendingLeap → s.tsu.pendingLeap ≠ .noLeap →
                      OfferedAfter 0 s t (leap 1 .noLeap))
                  ∧ (pending ≠ s.tsu.pendingLeap → pending ≠ .noLeap → OfferedAfter 1 s t (leap 0 pending))
                  ∧ (pending ≠ s.tsu.pendingLeap →
                      Noticed s t .leap s.now .nothing (be 1 (if pending = .noLeap then 1 else 0)
                        ++ be 1 s.tsu.leapCount ++ be 1 pending.code)))))

/-- At a whole-second boundary U grows in HOLDOVER and UNTRACEABLE and its passing of L_T is handed on; a quality frame is
pending on every RUNNING line, or has been sent; the summary counter counts; and the summary follows when it is due (R10,
R17).  R10 counts, summarises and clears in one event; that the counter stands at its interval until the summary is taken as
an event of its own is the model's choice (log 12). -/
def Obligations.SecondBoundaryGrowsAndCounts : Prop :=
  ∀ s : State, s.live = true →
    (s.tsu.boundaryDue = true →
      let grows : Bool := s.tsu.clock == .holdover || s.tsu.clock == .untraceable
      let u := if grows
        then min 16777215 (s.tsu.u + if s.tsu.aided then s.tsu.limits.aidedRate else s.tsu.limits.unaidedRate) else s.tsu.u
      let clock := if s.tsu.clock = .holdover ∧ s.tsu.limits.traceability < u then ClockState.untraceable else s.tsu.clock
      let new : Tsu := { s.tsu with
        boundaryDue := false, u := u, clock := clock, summary := s.tsu.summary + 1,
        summaryDue := decide (s.tsu.limits.summaryInterval ≤ s.tsu.summary + 1) }
      let r : Record :=
        { kind := .clockState, subject := 255, vt := s.now,
          body := be 1 s.tsu.clock.code ++ be 1 clock.code ++ beBool new.traceable ++ be 1 new.grade.code ++ be 3 u
            ++ beInt 8 s.tsu.theta ++ beOpt (s.tsu.selected.map (·.val)) ++ be 1 ClockCause.uLimit.code }
      ∃ t, exec .secondBoundary s = .next t ∧ Handed (({ s with tsu := new } : State).viewing s.tsu) t
        ∧ (clock ≠ s.tsu.clock →
            Noticed s t .clockState s.now .nothing (be 1 clock.code ++ be 1 new.grade.code))
        ∧ (clock ≠ s.tsu.clock → Offered s t r)
        ∧ (∀ i, (s.line i).state = .running → (t.line i).quality = true ∨ (t.line i).lane ≠ none))
    ∧ (s.tsu.summaryDue = true →
      let r : Record :=
        { kind := .clockSummary, subject := 255, vt := s.now,
          body := be 1 s.tsu.clock.code ++ beInt 8 s.tsu.theta ++ be 3 s.tsu.u ++ beInt 4 s.tsu.c ++ beInt 4 s.tsu.f
            ++ beOpt (s.tsu.selected.map (·.val)) ++ beBool s.tsu.aided ++ be 1 s.tsu.leapCount
            ++ be 1 s.tsu.pendingLeap.code ++ be 6 ((s.sis.last.map (·.1)).getD 0)
            ++ beVt ((s.sis.last.map (·.2)).getD 0) }
      ∃ t, exec .clockSummary s = .next t
        ∧ Handed { s with tsu := { s.tsu with summary := 0, summaryDue := false } } t ∧ Offered s t r)

/-- R14, R15: the latch at D - 1, with a pending deletion applied at the same instant; the application of the pending leap
at its instant, handed on, every start at the VT it had (R106); the civil midnight at D.  A D - 1 that the load after recovery passed over latches nothing (R1, R21);
any other instant already behind VT is acted on at once, the model's choice (log 35), and so is it that a start keeps its VT where converting it again would move it (log 32). -/
def Obligations.LeapInstantsTakeEffect : Prop :=
  ∀ s : State, s.live = true →
    let d := s.tsu.dayEnd
    let applied (k : Nat) (latched : Bool) (c : Instr) : Prop :=
      ∃ t, exec c s = .next t
        ∧ Handed { s with tsu :=
            { s.tsu with latched := latched, leapCount := k, pendingLeap := .noLeap, leapDone := true } } t
        ∧ (∀ g, (s.group g).state = .armed ∨ (s.group g).state = .call → t.group g = s.group g)
        ∧ Offered s t { kind := .leap, subject := 255, vt := s.now, body := be 1 2 ++ be 1 k ++ be 1 0 ++ beVt s.now }
        ∧ Noticed s t .leap s.now .nothing (be 1 2 ++ be 1 k ++ be 1 0)
    (s.tsu.latched = true ∨ s.tsu.sec < d - 1 ∨ d - 1 ≤ s.tsu.loadedSec → exec .leapLatch s = .next s)
    ∧ (s.tsu.latched = false → s.tsu.loadedSec < d - 1 → d - 1 ≤ s.tsu.sec →
      (s.tsu.pendingLeap ≠ .delete → exec .leapLatch s = .next { s with tsu := { s.tsu with latched := true } })
      ∧ (s.tsu.pendingLeap = .delete → 0 < s.tsu.leapCount → applied (s.tsu.leapCount - 1) true .leapLatch))
    ∧ (s.tsu.pendingLeap = .insert → d + 1 ≤ s.tsu.sec → s.tsu.leapCount < 255 →
        applied (s.tsu.leapCount + 1) s.tsu.latched .leapApplication)
    ∧ (s.tsu.pendingLeap = .delete → d - 1 ≤ s.tsu.sec → 0 < s.tsu.leapCount →
        applied (s.tsu.leapCount - 1) s.tsu.latched .leapApplication)
    ∧ (s.tsu.pendingLeap = .noLeap → d ≤ s.tsu.sec →
        exec .civilMidnight s = .next { s with tsu := { s.tsu with
          day := s.tsu.day + 1, latched := false, leapDone := false, labelLeap := .noLeap, hostLeap := .noLeap } })

/-- What an update does.  R16, R13: the label's leap count is compared with the part's own, with an application early or an
adoption; its warning is taken as the label announcement and the pending leap derived again, with the LEAP and LEAP_CONFLICT
records of each, and the starts converted again where an adoption or a changed pending leap asks for it (R106).  An early application on
the first update as on any other, and the order and fields of these records, are the model's reading (log 15), as are the civil day moved
back with an adopted count (log 14) and the pending leap kept once a leap of the day has been applied (log 17, unsafe); the code of
LABEL_COUNT is log 36.  R4, R6, R9: without a step C, U,
the counters and the clock state follow, the change is recorded and noticed (R8), and an entry to TRACKING opens a CLOSED
issuer whose epoch has begun, and no other (R68).  R3, R183: a step moves VT and with it every capture in a cell or a pending
offer.  θ stands as measured after a step, and the STEP record's own VT is the one before it, its notice's the one after it (log
13); the VT of an application early is VT as the update is taken (log 32), and a capture moved by a step is marked by R70 (log 35). -/
def Obligations.UpdateSteersOrSteps : Prop :=
  ∀ (s : State) (x : Sample), s.tsu.clock = .acquiring ∨ s.tsu.clock = .tracking →
    let theta := (x.vt : Int) - x.second * 1000000000
    let t := takeSample s x
    let l := s.tsu.limits
    let j := min x.j 16777215
    let k := x.leapCount
    let own := s.tsu.leapCount
    let early : Bool := (s.tsu.pendingLeap == .insert && k == own + 1) || (s.tsu.pendingLeap == .delete && k + 1 == own)
    let adopted : Bool := k != own && !early
    let label : Leap := if (x.warning = .insert ∧ k = 255) ∨ (x.warning = .delete ∧ k = 0) then .noLeap else x.warning
    let pending : Leap :=
      if early then .noLeap
      else if s.tsu.latched ∨ s.tsu.leapDone then s.tsu.pendingLeap
      else if label = .noLeap then s.tsu.hostLeap else label
    let day : Int := if adopted then min s.tsu.day ((s.tsu.sec - k) / 86400) else s.tsu.day
    let traceable (c : ClockState) (u : Nat) : Bool := (c == .tracking || c == .holdover) && decide (u ≤ l.traceability)
    let clockState (n : Nat) (cause : Nat) : Prop :=
      t.tsu.clock ≠ s.tsu.clock ∨ t.tsu.traceable ≠ s.tsu.traceable →
        OfferedAfter n s t
          { kind := .clockState, subject := 255, vt := t.tsu.vt,
            body := be 1 s.tsu.clock.code ++ be 1 t.tsu.clock.code ++ beBool (traceable t.tsu.clock t.tsu.u)
              ++ be 1 t.tsu.grade.code ++ be 3 t.tsu.u ++ beInt 8 theta ++ beOpt (s.tsu.selected.map (·.val))
              ++ be 1 cause }
        ∧ Noticed s t .clockState t.tsu.vt .nothing (be 1 t.tsu.clock.code ++ be 1 t.tsu.grade.code)
    let differ (x y : Leap) : Prop := (x = .insert ∧ y = .delete) ∨ (x = .delete ∧ y = .insert)
    let outOfRange : Prop := (x.warning = .insert ∧ k = 255) ∨ (x.warning = .delete ∧ k = 0)
    let leap (action : Nat) (w : Leap) : Record :=
      { kind := .leap, subject := 255, vt := s.now,
        body := be 1 action ++ be 1 k ++ be 1 w.code ++ List.replicate 9 255#8 }
    let conflict (reason a b : Nat) : Record :=
      { kind := .leapConflict, subject := 255, vt := s.now, body := be 1 reason ++ be 1 a ++ be 1 b }
    (t.tsu.vtSet = true ∧ t.tsu.f = x.f ∧ t.tsu.theta = theta ∧ t.tsu.lastJ = j ∧ t.tsu.limits = l
      ∧ t.tsu.selected = s.tsu.selected ∧ t.tsu.aided = s.tsu.aided ∧ t.rfe = s.rfe ∧ AroundClock s t)
    ∧ (s.sis.state ≠ .closed ∨ theta.natAbs ≤ l.stepThreshold →
        t.tsu.vt = s.tsu.vt ∧ t.tsu.frac = s.tsu.frac
        ∧ (k ≤ 255 → t.tsu.leapCount = k ∧ t.tsu.labelLeap = label ∧ t.tsu.hostLeap = s.tsu.hostLeap
            ∧ t.tsu.pendingLeap = pending ∧ t.tsu.day = day ∧ t.tsu.latched = s.tsu.latched
            ∧ t.tsu.leapDone = (s.tsu.leapDone || early)
            ∧ ∀ g, (s.group g).state = .armed ∨ (s.group g).state = .call → t.group g =
                if early = true ∨ (adopted = false ∧ pending = s.tsu.pendingLeap) then s.group g
                else (s.group g).again t.tsu)
        ∧ clockState 3 (if t.tsu.clock = s.tsu.clock then 4 else if t.tsu.clock = .tracking then 1 else 2)
        ∧ t.tsu.u = min 16777215 (l.baseU + j + theta.natAbs)
        ∧ t.tsu.c = clampRate (clampInt (x.f - l.slewLimit) (x.f + l.slewLimit)
            (divRound (x.f * l.tau - 1000 * theta) l.tau))
        ∧ (s.tsu.clock = .acquiring →
            let n := if theta.natAbs ≤ l.tracking then satSucc 255 s.tsu.lock else 0
            (l.lockCount ≤ n → t.tsu.clock = .tracking ∧ t.tsu.lock = 0 ∧ t.tsu.unlock = 0 ∧ t.tsu.tracked = true
              ∧ (s.sis.state = .closed → 0 < s.sis.epoch →
                  t.sis = { s.sis with state := .opened, next := some 1, opening := some (.tracking, s.now) }
                  ∧ OfferedAfter 4 s t
                      { kind := .stampingOpen, subject := 255, vt := s.now,
                        body := be 1 0 ++ beVt s.now ++ be 1 ClockState.tracking.code ++ be 1 t.tsu.grade.code
                          ++ be 3 t.tsu.u ++ beBool true }
                  ∧ Noticed s t .stampingOpen s.now .nothing (be 1 0 ++ be 1 t.tsu.grade.code))
              ∧ (s.sis.state ≠ .closed ∨ s.sis.epoch = 0 → t.sis = s.sis))
            ∧ (n < l.lockCount → t.tsu.clock = .acquiring ∧ t.tsu.lock = n ∧ t.tsu.unlock = s.tsu.unlock ∧ t.sis = s.sis))
        ∧ (s.tsu.clock = .tracking →
            let n := if theta.natAbs ≤ l.tracking then 0 else satSucc 255 s.tsu.unlock
            t.sis = s.sis
              ∧ (l.unlockCount ≤ n → t.tsu.clock = .acquiring ∧ t.tsu.lock = 0 ∧ t.tsu.unlock = 0)
              ∧ (n < l.unlockCount → t.tsu.clock = .tracking ∧ t.tsu.unlock = n ∧ t.tsu.lock = s.tsu.lock)))
    ∧ (k ≤ 255 → early = true →
        Offered s t { kind := .leap, subject := 255, vt := s.now, body := be 1 2 ++ be 1 k ++ be 1 0 ++ beVt s.now }
        ∧ Noticed s t .leap s.now .nothing (be 1 2 ++ be 1 k ++ be 1 0))
    ∧ (adopted = true →
        Offered s t (leap 3 s.tsu.pendingLeap)
        ∧ (s.tsu.vtSet = true →
            OfferedAfter 9 s t (conflict 2 own k)
            ∧ Noticed s t .leap s.now .nothing (be 1 3 ++ be 1 k ++ be 1 s.tsu.pendingLeap.code)))
    ∧ (k ≤ 255 →
        (outOfRange → s.tsu.rangeConflict = false → OfferedAfter 10 s t (conflict 0 0 s.tsu.hostLeap.code))
        ∧ (differ label s.tsu.hostLeap → ¬ differ s.tsu.labelLeap s.tsu.hostLeap →
            OfferedAfter 10 s t (conflict 1 label.code s.tsu.hostLeap.code))
        ∧ (early = false → pending ≠ s.tsu.pendingLeap →
            (s.tsu.pendingLeap ≠ .noLeap → OfferedAfter 1 s t (leap 1 .noLeap))
            ∧ (pending ≠ .noLeap → OfferedAfter 2 s t (leap 0 pending))
            ∧ Noticed s t .leap s.now .nothing
                (be 1 (if pending = .noLeap then 1 else 0) ++ be 1 k ++ be 1 pending.code)))
    ∧ (s.sis.state = .closed → l.stepThreshold < theta.natAbs →
        t.tsu.vt = vtOfInt ((s.tsu.vt : Int) - theta) ∧ t.tsu.frac = 0 ∧ t.tsu.c = clampRate x.f
        ∧ t.tsu.u = min 16777215 (l.baseU + j) ∧ t.tsu.clock = .acquiring ∧ t.tsu.lock = 0 ∧ t.tsu.unlock = 0
        ∧ clockState 5 3
        ∧ OfferedAfter 3 s t
          { kind := .step, subject := 255, vt := s.now,
            body := beVt s.now ++ beInt 8 theta ++ beOpt (s.tsu.selected.map (·.val)) }
        ∧ Noticed s t .step t.tsu.vt .nothing (beInt 8 theta)
        ∧ (k ≤ 255 →
            let moved (v : Nat) : Nat := vtOfInt ((v : Int) - theta)
            let mark (v : Nat) : Bool :=
              pending == .insert && decide (((v / 1000000000 : Nat) : Int) = (day + 1) * 86400 + k)
            t.sis = { s.sis with
                cells := t.sis.cells
                offers := s.sis.offers.map fun o => { o with capture := moved o.capture, leapMark := mark (moved o.capture) } }
              ∧ ∀ i : Fin 8, t.sis.cells[i] =
                  (s.sis.cells[i]).map fun c => { time := moved c.time, leapMark := mark (moved c.time) }))

/-- R11 and R33: the predicate and the grade of every clock, and the choice between the two labelled references. -/
def Obligations.GradeAndSelectionFollowTheirRules : Prop :=
  (∀ t : Tsu,
    (t.traceable = true ↔ (t.clock = .tracking ∨ t.clock = .holdover) ∧ t.u ≤ t.limits.traceability)
    ∧ (t.grade = .a ↔ t.traceable = true ∧ t.u ≤ t.limits.tight)
    ∧ (t.grade = .b ↔ t.traceable = true ∧ t.limits.tight < t.u)
    ∧ (t.grade = .c ↔ t.traceable = false ∧ t.vtSet = true)
    ∧ (t.grade = .d ↔ t.traceable = false ∧ t.vtSet = false))
  ∧ (∀ r0 r1 : Ref,
    let ok (r : Ref) : Prop := r.state = .qualified ∧ r.config.labelUse = true
    (ok r0 → ok r1 → Rfe.choose r0 r1 = if r1.config.priority < r0.config.priority then some 1 else some 0)
    ∧ (ok r0 → ¬ ok r1 → Rfe.choose r0 r1 = some 0)
    ∧ (¬ ok r0 → ok r1 → Rfe.choose r0 r1 = some 1)
    ∧ (¬ ok r0 → ¬ ok r1 → Rfe.choose r0 r1 = none))

/-! ## Invariants -/

/-- Within an epoch, once the Stamp Issuer has opened, VT never decreases, and the issuer stays open (R3). -/
def Obligations.VenueTimeNeverDecreases : Prop :=
  ∀ s t : State, step s = .next t → Bounded s → s.tsu.vt + 9 < Config.vtSpan → s.sis.state ≠ .closed →
    s.ej.state ≠ .starting → t.restarts = s.restarts →
    s.tsu.vt ≤ t.tsu.vt ∧ t.sis.state ≠ .closed ∧ t.ej.state ≠ .starting

/-- Every step keeps the bounds of the part's queues, counters and registers, the intake's among them (R113).  Pending offers are
sixteen at most where no line has more than two, which the timing of the lanes sees to (R71, log 2). -/
def Obligations.BoundedKept : Prop :=
  (∀ s t : State, Bounded s → step s = .next t → Bounded t)
    ∧ ∀ x : Sis, (∀ i, x.offersOf i ≤ 2) → x.offers.length ≤ 16

/-- Every step keeps the deadline list in the order of R84, holding exactly the deadlines the groups' states give. -/
def Obligations.DeadlineListKept : Prop :=
  ∀ s t : State, s.auc.listFollows → step s = .next t → t.auc.listFollows

/-- What the Auction Controller has been told of the clock and the journal is so after every step (R8, R122), and no step
leaves a group DEFERRED while the cut conditions hold: every report that makes them hold cuts it (R95). -/
def Obligations.AuctionsAreToldAndCut : Prop :=
  ∀ s t : State, s.auc.traceableView = s.tsu.traceable → s.auc.journalView = s.ej.state →
    (s.auc.cutConditions = true → ∀ g, (s.group g).state ≠ .deferred) → step s = .next t →
    t.auc.traceableView = t.tsu.traceable ∧ t.auc.journalView = t.ej.state
      ∧ (t.auc.cutConditions = true → ∀ g, (t.group g).state ≠ .deferred)

/-- Every step keeps the accounting of stamps: sequences without a gap, counters that add up to the last one, every stamp of a
line sent, waiting, or dropped, and as many answers owed to a line as it has offers pending and frames to be judged (R48, R54,
R70, R72, R74, R81).  Stamps are issued in capture order (R72): where no cell holds a capture earlier than the last stamp's, as the
timing of the lanes has it (R71, log 2), a step keeps the pending offers in their order, none before the last stamp, and never
issues an earlier capture; a step of VT, which moves captures, is no part of this. -/
def Obligations.StampsAreAccountedFor : Prop :=
  (∀ s t : State, Accounted s → step s = .next t → Accounted t)
    ∧ (∀ s t : State, CaptureOrdered s.sis → step s = .next t →
        (∀ (i : Fin 8) (c : Capture) (q v : Nat), s.sis.cells[i] = some c → s.sis.last = some (q, v) → v ≤ c.time) →
        (s.sis.state = .closed → ∀ i, s.pending.head? ≠ some (.edgeJudged i)
          ∧ (s.pending = [] → dueCommand s ≠ some (.edgeJudged i))) →
        CaptureOrdered t.sis
          ∧ ∀ q v q' v', s.sis.last = some (q, v) → t.sis.last = some (q', v') → v ≤ v')

/-- The state after reset meets every invariant stated here. -/
def Obligations.ResetMeetsInvariants : Prop :=
  Bounded State.reset ∧ Accounted State.reset ∧ CaptureOrdered State.reset.sis ∧ State.reset.auc.listFollows
    ∧ (State.reset.auc.cutConditions = true → ∀ g, (State.reset.group g).state ≠ .deferred)
    ∧ StoreSound State.reset
    ∧ State.reset.auc.traceableView = State.reset.tsu.traceable ∧ State.reset.auc.journalView = State.reset.ej.state

/-! ## The reference inputs -/

/-- R38 to R40: a DISABLED reference is configured, and made SEARCHING with its estimators and label stream fresh; an enabled
one is disabled, with its selection; a request for the wrong state or out of its ranges is refused.  Overruns not yet judged are
dropped at the disable (log 33).  That a REFERENCE_STATE record names its reference in the subject byte alone, and gives the
configuration of an enable last, is the model's choice (log 30). -/
def Obligations.ReferenceRequestsTakeEffect : Prop :=
  ∀ (s : State) (tag : Byte) (i : Fin 3), s.accepts = true →
    let r := s.ref i
    (∀ a : RefArgs, a.ref = i.val →
      let valid : Prop := a.polarity ≤ 1 ∧ 1 ≤ a.profiles ∧ a.profiles ≤ 7 ∧ (i.val < 2 → a.profiles = 1) ∧ a.bandClass ≤ 3
        ∧ 1 ≤ a.lockValue ∧ a.lockValue ≤ 31 ∧ 1 ≤ a.unlockValue ∧ a.unlockValue ≤ 7 ∧ a.priority ≤ 1
        ∧ (i.val = 2 → a.priority = 0) ∧ a.labelUse ≤ 1 ∧ (i.val = 2 → a.labelUse = 0)
      (¬ valid → exec (.configureReference tag a) s = .next (s.answered 0x18#8 tag .badArgument []))
      ∧ (valid → r.state = .disabled → exec (.configureReference tag a) s
          = .next ((s.answered 0x18#8 tag .ok []).setRef i { r with config :=
            { rising := a.polarity == 0, hz1 := a.profiles % 2 == 1, hz10 := a.profiles / 2 % 2 == 1,
              hz100 := a.profiles / 4 % 2 == 1, bandClass := a.bandClass, lockValue := a.lockValue,
              unlockValue := a.unlockValue, priority := a.priority, labelUse := a.labelUse == 1 } }))
      ∧ (valid → r.state ≠ .disabled →
          exec (.configureReference tag a) s = .next (s.answered 0x18#8 tag .wrongState [])))
    ∧ (r.state ≠ .disabled → exec (.enableReference tag i.val) s = .next (s.answered 0x19#8 tag .wrongState []))
    ∧ (r.state = .disabled →
        let new : Ref := { config := r.config, state := .searching, j16 := 16 * bandOf r.config.bandClass }
        ∃ t, exec (.enableReference tag i.val) s = .next t
          ∧ Handed ((s.answered 0x19#8 tag .ok []).setRef i new) t
          ∧ Offered s t (refRecord (s.setRef i new) i .disabled .enable r.config.bytes)
          ∧ Noticed s t .referenceState s.now (.reference i.val)
              (be 1 RefState.searching.code ++ beOpt (s.rfe.selected.map (·.val))))
    ∧ (r.state = .disabled → exec (.disableReference tag i.val) s = .next (s.answered 0x1A#8 tag .ok []))
    ∧ (r.state ≠ .disabled →
        let new : Ref := { r with
          state := .disabled, cell := none, overrunsBehind := 0, overrunsDue := 0, anchor := none, heldLabel := none,
          labelBad := false, candidate := none, lock := 0, miss := 0 }
        ∃ t, exec (.disableReference tag i.val) s = .next t
          ∧ RefHandedOff (s.answered 0x1A#8 tag .ok []) t i { ref := new, cause := .disable }
          ∧ t.rfe.disagree = false)

/-- R22: an edge of the configured polarity is captured with VT and the oscillator phase, or counted as an overrun where the
cell is full; every other edge is ignored. -/
def Obligations.PulseEdgeIsCaptured : Prop :=
  ∀ (s : State) (i : Fin 3) (rising : Bool) (eighth : Fin 8), s.live = true →
    let r := s.ref i
    (r.state = .disabled ∨ rising ≠ r.config.rising → exec (.pulseEdge i rising eighth) s = .next s)
    ∧ (r.state ≠ .disabled → rising = r.config.rising →
        (r.cell = none → exec (.pulseEdge i rising eighth) s = .next (s.setRef i
          { r with cell := some { vt := s.tsu.vt, phase := (8 * s.osc + eighth.val) % 281474976710656 } }))
        ∧ (r.cell ≠ none → exec (.pulseEdge i rising eighth) s
            = .next (s.setRef i { r with overrunsBehind := r.overrunsBehind + 1 })))

/-- R22 to R24, R35: the edge in the cell is consumed: with no anchor it becomes the anchor; against an anchor it is judged
and handed off, unless a missing pulse must be declared first.  A sample of the reference that is selected once the event's changes
are settled is an update (R32).  R36: after a good interval the two labelled references are compared; the onset of a disagreement is
recorded and noticed, and the flag falls when they agree again or one leaves QUALIFIED.  The disagreement record's subject byte,
its taking REF0 less REF1, and a REFERENCE_STATE record's naming its reference in the subject byte alone are the model's choices (log
30); how its notice gives a difference out of range is log 19. -/
def Obligations.EdgeJudgedIsHandedOff : Prop :=
  ∀ (s : State) (i : Fin 3) (edge : Edge), s.live = true → (s.ref i).cell = some edge →
    let r := s.ref i
    let emptied : Ref := { r with cell := none, overrunsBehind := 0, overrunsDue := r.overrunsDue + r.overrunsBehind }
    (r.anchor = none → exec (.edgeJudged i) s = .next (s.setRef i { emptied with anchor := some edge.phase }))
    ∧ (∀ a, r.anchor = some a →
        let n := phaseSince a edge.phase
        let j := emptied.judgeEdge i edge n
        let expected (p : Profile) : Nat :=
          (divRound ((p.nominal : Int) * 1000000000000) (1000000000000 + (if r.fValid then r.f else 0)).toNat).toNat
        let late : Prop := (r.state = .candidate ∨ r.state = .qualified)
          ∧ ∃ p, r.candidate = some p ∧ expected p + bandOf r.config.bandClass < n
        (late → exec (.edgeJudged i) s = .next s)
        ∧ (¬ late → ∃ t, exec (.edgeJudged i) s = .next t ∧ RefHandedOff s t i j
            ∧ (j.good = false → j.ref.state = r.state → t = s.setRef i j.ref)
            ∧ (∀ x, j.sample = some x → t.rfe.selected.map (·.val) = some i.val →
                s.tsu.clock = .acquiring ∨ s.tsu.clock = .tracking
                  ∨ (r.state ≠ .qualified ∧ j.ref.state = .qualified ∧ s.tsu.selected ≠ t.rfe.selected) →
                t.tsu.f = x.f ∧ t.tsu.theta = (x.vt : Int) - x.second * 1000000000)
            ∧ (let ok (k : Fin 3) : Prop := (t.ref k).state = .qualified ∧ (t.ref k).config.labelUse = true
               let compared (x y : Offset) : Prop :=
                 ok 0 ∧ ok 1 ∧ (t.ref 0).offset = some x ∧ (t.ref 1).offset = some y ∧ x.second = y.second
               (j.good = true → i.val < 2 →
                 ((∀ x y, ¬ compared x y) → t.rfe.disagree = s.rfe.disagree)
                 ∧ (∀ (x y : Offset) (d : Int), compared x y → ((x.phase : Int) - y.phase - d) % 281474976710656 = 0 →
                     -140737488355328 ≤ d → d < 140737488355328 →
                   let diff := correctedNs d (if (t.ref i).fValid then (t.ref i).f else 0)
                   (diff.natAbs ≤ s.tsu.limits.tracking → t.rfe.disagree = false)
                   ∧ (s.tsu.limits.tracking < diff.natAbs → t.rfe.disagree = true
                     ∧ (s.rfe.disagree = false →
                       Noticed s t .referenceDisagree t.now (.reference i.val)
                           (beInt 4 (max (-2147483647) (min 2147483647 diff)) ++ be 4 x.second)
                         ∧ (j.ref.state = r.state → t.rfe.selected.map (·.val) ≠ some i.val →
                           Offered s t ⟨.referenceDisagree, i.val, s.now,
                             beInt 8 x.ns ++ beInt 8 y.ns ++ beInt 8 diff ++ be 5 x.second⟩)))))
               ∧ (j.good = false ∨ i.val = 2 → t.rfe.disagree =
                   if i.val < 2 ∧ r.state = .qualified ∧ j.ref.state ≠ .qualified then false else s.rfe.disagree))))

/-- R26 to R32: what the judgement of an interval against an anchor makes of a reference: label conditions and label stream,
class, cause, anchor, counters, estimators, offset, qualification, and the sample; in SEARCHING, the profile identified (R28). -/
def Obligations.IntervalsAreClassified : Prop :=
  ∀ (r : Ref) (i : Fin 3) (edge : Edge) (n : Nat),
    let f := if r.fValid then r.f else 0
    let band : Int := bandOf r.config.bandClass
    let e (p : Profile) : Int := correctedNs n f - p.nominal
    let sample (p : Profile) : Int := divRound (((p.nominal : Int) - n) * 1000000000000) p.nominal
    let applies : Prop := i.val < 2 ∧ r.config.labelUse = true
    let pass : Prop := ¬ applies ∨ ∃ l m, r.heldLabel = some l ∧ r.lastSecond = some m ∧ r.labelBad = false
      ∧ l.second = m + 1 ∧ l.traceable = true
    let good (p : Profile) (j : RefStep) : Prop :=
      j.ref.j16 = (divRound (15 * r.j16 + 16 * (e p).natAbs) 16).toNat
        ∧ j.ref.f = clampRate (divRound (7 * r.f + sample p) 8)
        ∧ j.ref.good = sat32 r.good ∧ j.good = true ∧ j.ref.anchor = some edge.phase ∧ LabelsMovedOn i r j.ref
        ∧ (∀ l, applies → r.heldLabel = some l →
            j.sample = some ⟨edge.vt, l.second, l.leapCount, l.warning, j.ref.f, (j.ref.j16 + 15) / 16⟩
              ∧ j.ref.offset = some ⟨(edge.vt : Int) - l.second * 1000000000, l.second, edge.phase⟩)
        ∧ (¬ applies → j.sample = none ∧ j.ref.offset = r.offset)
    let bad (j : RefStep) : Prop := j.good = false ∧ j.sample = none ∧ j.ref.offset = r.offset ∧ j.ref.j16 = r.j16
      ∧ j.ref.good = r.good
    (∀ p, r.candidate = some p → r.state = .candidate ∨ r.state = .qualified →
      let j := r.judgeEdge i edge n
      (e p < -band → bad j ∧ j.cause = .timing ∧ j.ref.anchor = r.anchor ∧ j.ref.badTiming = sat32 r.badTiming
        ∧ j.ref.f = r.f ∧ j.ref.heldLabel = r.heldLabel ∧ j.ref.labelBad = r.labelBad
        ∧ j.ref.lastSecond = r.lastSecond ∧ j.ref.lastLabel = r.lastLabel)
      ∧ (-band ≤ e p → e p ≤ band → ¬ pass →
          bad j ∧ j.cause = .label ∧ j.ref.anchor = some edge.phase ∧ j.ref.badLabel = sat32 r.badLabel
            ∧ j.ref.f = r.f ∧ LabelsMovedOn i r j.ref)
      ∧ (-band ≤ e p → e p ≤ band → pass →
          good p j
            ∧ (r.state = .qualified → j.ref.state = .qualified ∧ j.ref.miss = 0)
            ∧ (r.state = .candidate → r.config.lockValue ≤ r.lock + 1 →
                j.ref.state = .qualified ∧ j.ref.lock = r.config.lockValue ∧ j.ref.miss = 0)
            ∧ (r.state = .candidate → r.lock + 1 < r.config.lockValue →
                j.ref.state = .candidate ∧ j.ref.lock = r.lock + 1))
      ∧ (j.good = false → r.state = .candidate →
          j.ref.state = .searching ∧ j.ref.lock = 0 ∧ j.ref.candidate = none)
      ∧ (j.good = false → r.state = .qualified → r.miss + 1 < r.config.unlockValue →
          j.ref.state = .qualified ∧ j.ref.miss = r.miss + 1)
      ∧ (j.good = false → r.state = .qualified → r.config.unlockValue ≤ r.miss + 1 →
          j.ref.state = .searching ∧ j.ref.miss = 0 ∧ j.ref.lock = 0 ∧ j.ref.candidate = none))
    ∧ (r.candidate = none → r.state = .searching →
      let j := r.judgeEdge i edge n
      let matching (p : Profile) : Prop := (sample p).natAbs ≤ 100000000 ∧
        (p = .hz1 → r.config.hz1 = true) ∧ (p = .hz10 → r.config.hz10 = true) ∧ (p = .hz100 → r.config.hz100 = true)
      j.ref.anchor = some edge.phase ∧ LabelsMovedOn i r j.ref
        ∧ (∀ p, matching p →
            (r.fValid = true → (e p).natAbs ≤ bandOf r.config.bandClass → pass →
              good p j ∧ j.ref.candidate = some p ∧ j.ref.lock = 1
                ∧ j.ref.state = if r.config.lockValue ≤ 1 then .qualified else .candidate)
            ∧ (r.fValid = true → (e p).natAbs ≤ bandOf r.config.bandClass → ¬ pass →
                bad j ∧ j.cause = .label ∧ j.ref.state = .searching ∧ j.ref.f = r.f ∧ j.ref.badLabel = sat32 r.badLabel)
            ∧ (r.fValid = false ∨ bandOf r.config.bandClass < (e p).natAbs →
                bad j ∧ j.cause = .timing ∧ j.ref.state = .searching ∧ j.ref.fValid = true ∧ j.ref.f = sample p
                  ∧ j.ref.badTiming = sat32 r.badTiming))
        ∧ ((∀ p, ¬ matching p) →
            bad j ∧ j.cause = .timing ∧ j.ref.state = .searching ∧ j.ref.f = r.f ∧ j.ref.badTiming = sat32 r.badTiming))

/-- R22, R24, R27: an overrun and a missing pulse are bad intervals; the overrun leaves the anchor, the missing pulse moves
it to the expected instant and closes the interval.  A pulse is missing once the phase has passed the expected instant plus the band
and the cell holds no edge from before; an edge from before that has left the cell by then, discarded as early, does not meet it (log
33).  A REFERENCE_STATE record names its reference in the subject byte alone (log 30). -/
def Obligations.OverrunsAndMissingPulsesAreJudged : Prop :=
  ∀ (s : State) (i : Fin 3), s.live = true →
    let r := s.ref i
    (0 < r.overrunsDue → r.state ≠ .disabled →
      let j := Ref.bad { r with overrunsDue := r.overrunsDue - 1 } .overrun
      ∃ t, exec (.overrun i) s = .next t ∧ RefHandedOff s t i j ∧ (j.ref.state = r.state → t = s.setRef i j.ref)
        ∧ (t.ref i).anchor = r.anchor ∧ (t.ref i).badOverrun = sat32 r.badOverrun
        ∧ (t.ref i).overrunsDue = r.overrunsDue - 1 ∧ (t.ref i).heldLabel = r.heldLabel)
    ∧ (r.overrunsDue = 0 ∨ r.state = .disabled → exec (.overrun i) s = .next s)
    ∧ (r.anchor = none ∨ r.candidate = none ∨ (r.state ≠ .candidate ∧ r.state ≠ .qualified) →
        exec (.missingPulse i) s = .next s)
    ∧ (∀ a p, r.anchor = some a → r.candidate = some p → r.state = .candidate ∨ r.state = .qualified →
      let since (phase : Nat) : Nat := (phase + 281474976710656 - a % 281474976710656) % 281474976710656
      let expected : Nat :=
        (divRound ((p.nominal : Int) * 1000000000000) (1000000000000 + (if r.fValid then r.f else 0)).toNat).toNat
      let last : Nat := expected + bandOf r.config.bandClass
      let passed : Nat := since (8 * s.osc % 281474976710656)
      let due : Prop := last < passed ∧ passed ≤ 281474976710648 ∧ ∀ e, r.cell = some e → last < since e.phase
      let j := r.missed i
      (¬ due → exec (.missingPulse i) s = .next s)
      ∧ (due → ∃ t, exec (.missingPulse i) s = .next t ∧ RefHandedOff s t i j ∧ (j.ref.state = r.state → t = s.setRef i j.ref)
          ∧ (t.ref i).anchor = some ((a + expected) % 281474976710656) ∧ (t.ref i).cell = r.cell
          ∧ (t.ref i).badMissing = sat32 r.badMissing ∧ LabelsMovedOn i r (t.ref i)))

/-- R25, R178: a label frame is held, replaces the held one, or is discarded, by its arrival after the anchor and its form; a
frame that times out before its tenth byte is ill-formed.  Bytes that begin no frame, the sync value with a low stop bit among
them, are passed over. -/
def Obligations.LabelsAreTaken : Prop :=
  (∀ (s : State) (i : Fin 2) (bytes : List Byte) (low : Bool), s.live = true →
    let k := labelled i
    let r := s.ref k
    let discarded : State := s.setRef k { r with labelBad := true, discards := sat32 r.discards }
    let begins (low : Bool) : Prop := bytes.head? = some 0xB5#8 ∧ ¬ (low = true ∧ bytes.length = 1)
    (r.state = .disabled ∨ r.config.labelUse = false ∨ r.anchor = none →
      exec (.labelFrame i bytes low) s = .next s ∧ exec (.labelTimeout ⟨i, bytes⟩) s = .next s)
    ∧ (¬ begins low → exec (.labelFrame i bytes low) s = .next s)
    ∧ (¬ begins false ∨ 10 ≤ bytes.length → exec (.labelTimeout ⟨i, bytes⟩) s = .next s)
    ∧ (∀ a, r.state ≠ .disabled → r.config.labelUse = true → r.anchor = some a →
        let ns := correctedNs (phasePassed a s.phase) (if r.fValid then r.f else 0)
        (begins false → bytes.length < 10 → exec (.labelTimeout ⟨i, bytes⟩) s = .next discarded)
        ∧ (begins low →
          (parseLabel bytes low = none → exec (.labelFrame i bytes low) s = .next discarded)
          ∧ (∀ l, parseLabel bytes low = some l →
              (ns < 100000000 ∨ 900000000 < ns → exec (.labelFrame i bytes low) s = .next discarded)
              ∧ (100000000 ≤ ns → ns ≤ 900000000 →
                  (r.heldLabel = none → exec (.labelFrame i bytes low) s
                    = .next (s.setRef k { r with heldLabel := some l }))
                  ∧ (r.heldLabel ≠ none → exec (.labelFrame i bytes low) s
                    = .next (s.setRef k { r with heldLabel := some l, labelBad := true })))))))
  ∧ (∀ l : Label, l.second < 1099511627776 → l.leapCount < 256 →
      let fields := be 5 l.second ++ be 1 l.leapCount ++ be 1 l.warning.code ++ beBool l.traceable
      parseLabel (0xB5#8 :: fields ++ [crc8 fields]) false = some l
        ∧ parseLabel (0xB5#8 :: fields ++ [crc8 fields]) true = none
        ∧ ∀ c, c ≠ crc8 fields → parseLabel (0xB5#8 :: fields ++ [c]) false = none)

/-! ## The tag links and return lanes -/

/-- R50, R51: Hold Line moves an OFF line to HELD, a RUNNING line to HOLDING with its pendings cleared and the drain timer
started, and on to HELD at once where nothing is left to drain, with a second record and notice in the same event.  That a
LINE_STATE record names its line in the subject byte alone is the model's choice (log 30). -/
def Obligations.HoldLineTakesEffect : Prop :=
  ∀ (s : State) (tag : Byte) (i : Fin 8), s.accepts = true →
    let l := s.line i
    let ok := s.answered 0x20#8 tag .ok []
    let holding : Line := { l with state := .holding, quality := false, phases := [], interleave := 0, drain := some s.osc }
    let r (old new : LineState) : Record :=
      { kind := .lineState, subject := i.val, vt := s.now,
        body := be 1 old.code ++ be 1 new.code ++ beOpt (l.health.map (·.code)) ++ be 1 l.rec_ ++ be 1 0 }
    (l.state = .off → ∃ t, exec (.holdLine tag i.val) s = .next t ∧ Handed (ok.setLine i { l with state := .held }) t
      ∧ t.line i = { l with state := .held } ∧ Offered s t (r .off .held)
      ∧ Noticed s t .lineHeld s.now (.line i.val) (be 1 0))
    ∧ (l.state = .running → l.drained = false → ∃ t, exec (.holdLine tag i.val) s = .next t
      ∧ Handed (ok.setLine i holding) t ∧ t.line i = holding ∧ Offered s t (r .running .holding)
      ∧ Noticed s t .lineState s.now (.line i.val) (be 1 1 ++ beOpt (l.health.map (·.code)) ++ be 1 l.rec_))
    ∧ (l.state = .running → l.drained = true → ∃ t, exec (.holdLine tag i.val) s = .next t
      ∧ Handed (ok.setLine i { holding with state := .held, drain := none }) t
      ∧ t.line i = { holding with state := .held, drain := none } ∧ Offered s t (r .running .holding)
      ∧ Noticed s t .lineState s.now (.line i.val) (be 1 1 ++ beOpt (l.health.map (·.code)) ++ be 1 l.rec_)
      ∧ OfferedAfter 1 s t
          { kind := .lineState, subject := i.val, vt := s.now,
            body := be 1 1 ++ be 1 2 ++ beOpt (l.health.map (·.code)) ++ be 1 l.rec_ ++ be 1 1 }
      ∧ Noticed s t .lineHeld s.now (.line i.val) (be 1 1))
    ∧ (l.state = .holding ∨ l.state = .held → exec (.holdLine tag i.val) s = .next ok)
    ∧ (l.state = .isolated → exec (.holdLine tag i.val) s = .next (s.answered 0x20#8 tag .wrongState []))
    ∧ (∀ n, 7 < n → exec (.holdLine tag n) s = .next (s.answered 0x20#8 tag .badArgument []))

/-- R58: a HELD line takes a mode and path delay, or one filter, and its whole configuration is recorded. -/
def Obligations.LineIsConfiguredWhileHeld : Prop :=
  ∀ (s : State) (tag : Byte) (i : Fin 8), s.accepts = true →
    let l := s.line i
    let r (x : Line) : Record :=
      { kind := .lineConfig, subject := i.val, vt := s.now,
        body := be 1 x.mode.code ++ be 2 x.pathDelay
          ++ x.filters.toList.flatMap fun f => beBool f.enabled ++ be 2 f.code.toNat ++ be 2 f.mask.toNat }
    let configured (c : Instr) (kind : Byte) (x : Line) : Prop :=
      ∃ t, exec c s = .next t ∧ Handed ((s.answered kind tag .ok []).setLine i x) t ∧ t.line i = x ∧ Offered s t (r x)
    (∀ delay, delay ≤ 65535 → l.state = .held →
      configured (.configureLine tag i.val 0 delay) 0x21#8 { l with mode := .all, pathDelay := delay }
      ∧ configured (.configureLine tag i.val 1 delay) 0x21#8 { l with mode := .listed, pathDelay := delay })
    ∧ (∀ mode delay, 1 < mode →
        exec (.configureLine tag i.val mode delay) s = .next (s.answered 0x21#8 tag .badArgument []))
    ∧ (∀ mode delay, mode ≤ 1 → delay ≤ 65535 → l.state ≠ .held →
        exec (.configureLine tag i.val mode delay) s = .next (s.answered 0x21#8 tag .wrongState []))
    ∧ (∀ (k : Fin 4) (on : Bool) (code mask : Word16), l.state = .held →
        configured (.setFilter tag i.val k.val (if on then 1 else 0) code.toNat mask.toNat) 0x22#8
          { l with filters := l.filters.set k ⟨on, code, mask⟩ })
    ∧ (∀ k e code mask, 3 < k →
        exec (.setFilter tag i.val k e code mask) s = .next (s.answered 0x22#8 tag .badArgument []))
    ∧ (∀ k e code mask, k ≤ 3 → e ≤ 1 → code ≤ 65535 → mask ≤ 65535 → l.state ≠ .held →
        exec (.setFilter tag i.val k e code mask) s = .next (s.answered 0x22#8 tag .wrongState []))
    ∧ (∀ n, 7 < n →
        (∀ mode delay, exec (.configureLine tag n mode delay) s = .next (s.answered 0x21#8 tag .badArgument []))
        ∧ ∀ k e code mask, exec (.setFilter tag n k e code mask) s = .next (s.answered 0x22#8 tag .badArgument []))

/-- R59, R60: a HELD line is released to RUNNING with a quality frame and the phase frames of every auction in progress
pending, or already being sent; an ISOLATED line is reconnected to HELD.  The line in the subject byte alone is log 30. -/
def Obligations.LineIsReleasedAndReconnected : Prop :=
  ∀ (s : State) (tag : Byte) (i : Fin 8), s.accepts = true →
    let l := s.line i
    let r (x : Line) (cause : LineCause) : Record :=
      { kind := .lineState, subject := i.val, vt := s.now,
        body := be 1 l.state.code ++ be 1 x.state.code ++ beOpt (some 0) ++ be 1 0 ++ be 1 cause.code }
    let running : Line := { l with rec_ := 0, state := .running, quality := true, interleave := 0 }
    let held : Line := { l with rec_ := 0, state := .held }
    (l.state = .held → ∃ t, exec (.releaseLine tag i.val) s = .next t
      ∧ Handed ((s.answered 0x23#8 tag .ok []).setLine i running) t ∧ Offered s t (r running .release)
      ∧ Noticed s t .lineState s.now (.line i.val) (be 1 3 ++ beOpt (some 0) ++ be 1 0)
      ∧ ((t.line i).quality = true ∨ (t.line i).lane ≠ none)
      ∧ (l.lane ≠ none ∨ l.pause = true → ∀ g, (s.group g).state ≠ .idle → g ∈ (t.line i).phases))
    ∧ (l.state ≠ .held → exec (.releaseLine tag i.val) s = .next (s.answered 0x23#8 tag .wrongState []))
    ∧ (l.state = .isolated → ∃ t, exec (.reconnectLine tag i.val) s = .next t
      ∧ Handed ((s.answered 0x24#8 tag .ok []).setLine i held) t ∧ t.line i = held ∧ Offered s t (r held .reconnect)
      ∧ Noticed s t .lineHeld s.now (.line i.val) (be 1 4))
    ∧ (l.state ≠ .isolated → exec (.reconnectLine tag i.val) s = .next (s.answered 0x24#8 tag .wrongState []))
    ∧ (∀ n, 7 < n → exec (.releaseLine tag n) s = .next (s.answered 0x23#8 tag .badArgument [])
        ∧ exec (.reconnectLine tag n) s = .next (s.answered 0x24#8 tag .badArgument [])
        ∧ exec (.readLine tag n) s = .next (s.answered 0x25#8 tag .badArgument []))

/-- R43 to R48, R51, R70, R71: a start delimiter ends a frame that is open as its end would, and begins the next: captured
and owed an answer on a RUNNING line, ignored on any other.  A frame begun on a RUNNING line is judged at its end: a valid
one lowers REC and is offered in capture order; a bad one raises REC, isolates the line at 255, and ends the answer owed,
which may drain a HOLDING line.  Each change of health level, line state or drain is recorded and noticed.  A frame ignored just
ends.  The cause of a change of health level as code 6 behind REC, and the tally behind the cause of an isolation, are the model's
choices (log 29), as is the line in the subject byte alone (log 30); the leap mark is R70's where R15 reads otherwise (log 35). -/
def Obligations.TagFramesAreCapturedAndJudged : Prop :=
  ∀ (s : State) (i : Fin 8) (bytes : List Byte) (ending : FrameEnding), s.live = true →
    let l := s.line i
    let freed : State := { s with sis := { s.sis with cells := s.sis.cells.set i none } }
    let levels (new : Nat) : Record :=
      { kind := .lineState, subject := i.val, vt := s.now,
        body := be 1 l.state.code ++ beOpt (l.health.map (·.code)) ++ beOpt ((healthOf new).map (·.code)) ++ be 1 new
          ++ be 1 6 }
    (l.frame ≠ .judged → l.state = .running → exec (.tagStartDelimiter i bytes) s
      = .next ({ s with sis := { s.sis with
          cells := s.sis.cells.set i (some { time := s.tsu.vt, leapMark := s.tsu.leapMark s.tsu.vt }) } }.setLine i
            { l with frame := .judged, owed := l.owed + 1 }))
    ∧ (l.frame ≠ .judged → l.state ≠ .running → exec (.tagStartDelimiter i bytes) s = .next (s.setLine i
        { l with frame := .ignored, counters := { l.counters with ignored := sat32 l.counters.ignored } }))
    ∧ (l.frame = .judged → ∃ u, exec (.tagFrameEnd i bytes .endDelimiter) s = .next u ∧ (u.line i).frame = .noFrame
        ∧ exec (.tagStartDelimiter i bytes) s = exec (.tagStartDelimiter i []) u)
    ∧ (l.frame = .ignored → exec (.tagFrameEnd i bytes ending) s = .next (s.setLine i { l with frame := .noFrame }))
    ∧ (∀ cause, l.frame = .judged → judgeFrame bytes ending = .bad cause →
        let bad : Line := { l with
          frame := .noFrame, rec_ := min 255 (l.rec_ + 8), owed := l.owed - 1, counters := l.counters.bad cause }
        let isolates : Bool := decide (255 ≤ l.rec_ + 8) && (l.state == .running || l.state == .holding)
        let drained : Record :=
          { kind := .lineState, subject := i.val, vt := s.now,
            body := be 1 1 ++ be 1 2 ++ beOpt ((healthOf bad.rec_).map (·.code)) ++ be 1 bad.rec_ ++ be 1 1 }
        ∃ t, exec (.tagFrameEnd i bytes ending) s = .next t
          ∧ (isolates = true →
              let gone : Line := { bad.discardQueue with
                quality := false, phases := [], interleave := 0, drain := none, state := .isolated }
              Handed (freed.setLine i gone) t ∧ t.line i = gone
                ∧ Offered s t (lineStateRecord s i
                    (be 1 l.state.code ++ be 1 4 ++ beOpt (gone.health.map (·.code)) ++ be 1 gone.rec_) .isolation
                    (be 6 gone.tally.count ++ be 6 (gone.tally.lowest.getD 0) ++ be 6 (gone.tally.highest.getD 0)))
                ∧ Noticed s t .lineState s.now (.line i.val)
                    (be 1 4 ++ beOpt (gone.health.map (·.code)) ++ be 1 gone.rec_))
          ∧ (isolates = false → l.state = .holding → bad.drained = true →
              Handed (freed.setLine i { bad with state := .held, drain := none }) t
                ∧ t.line i = { bad with state := .held, drain := none }
                ∧ (healthOf bad.rec_ = l.health → Offered s t drained) ∧ OfferedAfter 1 s t drained
                ∧ Noticed s t .lineHeld s.now (.line i.val) (be 1 1))
          ∧ (isolates = false → ¬ (l.state = .holding ∧ bad.drained = true) →
              Handed (freed.setLine i bad) t
                ∧ (healthOf bad.rec_ = l.health → t = freed.setLine i bad))
          ∧ (isolates = false → healthOf bad.rec_ ≠ l.health →
              Offered s t (levels bad.rec_) ∧ Noticed s t .lineState s.now (.line i.val)
                (be 1 l.state.code ++ beOpt ((healthOf bad.rec_).map (·.code)) ++ be 1 bad.rec_)))
    ∧ (∀ fields, l.frame = .judged → judgeFrame bytes ending = .valid fields →
        let good : Line := { l with
          frame := .noFrame, rec_ := l.rec_ - 1, counters := { l.counters with good := sat32 l.counters.good } }
        let offers := match s.sis.cells[i] with
          | some c => insertOffer ⟨i, c.time, c.leapMark, fields, l.accepts fields.session, l.hitIndex fields.session⟩
              s.sis.offers
          | none => s.sis.offers
        ∃ t, exec (.tagFrameEnd i bytes ending) s = .next t
          ∧ Handed ({ s with sis := { s.sis with cells := s.sis.cells.set i none, offers := offers } }.setLine i good) t
          ∧ (healthOf good.rec_ ≠ l.health →
              Offered s t (levels good.rec_) ∧ Noticed s t .lineState s.now (.line i.val)
                (be 1 l.state.code ++ beOpt ((healthOf good.rec_).map (·.code)) ++ be 1 good.rec_)))

/-- R61 to R63: at the deassertion of PAUSE, and at the end of a return frame, the scheduler begins the one frame its order
gives; while PAUSE is asserted it begins none.  PAUSE is followed and its assertions counted.  That a LINE_STATE record names
its line in the subject byte alone is log 30. -/
def Obligations.SchedulerFollowsItsOrder : Prop :=
  ∀ (s : State) (i : Fin 8), s.live = true →
    let l : Line := { s.line i with pause := false }
    let c := l.counters
    let turn : Prop := l.queue = [] ∨ l.interleave = 8
    (∀ b, (s.line i).lane = some b → (s.line i).pause = true →
      ¬ ((s.line i).state = .holding ∧ ({ s.line i with lane := none } : Line).drained = true) →
      exec (.returnFrameEnd i) s = .next (s.setLine i { s.line i with lane := none }))
    ∧ (∀ b, (s.line i).lane = some b → (s.line i).pause = false →
      ¬ ((s.line i).state = .holding ∧ ({ s.line i with lane := none } : Line).drained = true) →
      exec (.returnFrameEnd i) s = exec (.pauseDeassert i) (s.setLine i { s.line i with lane := none }))
    ∧ (∀ b, (s.line i).lane = some b → (s.line i).state = .holding →
      ({ s.line i with lane := none } : Line).drained = true →
      ∃ t, exec (.returnFrameEnd i) s = .next t
        ∧ Handed (s.setLine i { s.line i with lane := none, state := .held, drain := none }) t
        ∧ t.line i = { s.line i with lane := none, state := .held, drain := none }
        ∧ Offered s t
            { kind := .lineState, subject := i.val, vt := s.now,
              body := be 1 1 ++ be 1 2 ++ beOpt ((s.line i).health.map (·.code)) ++ be 1 (s.line i).rec_ ++ be 1 1 }
        ∧ Noticed s t .lineHeld s.now (.line i.val) (be 1 1))
    ∧ ((l.state ≠ .running ∧ l.state ≠ .holding) ∨ l.lane ≠ none → exec (.pauseDeassert i) s = .next (s.setLine i l))
    ∧ (l.state = .running ∨ l.state = .holding → l.lane = none →
      (0 < l.tally.count → ∃ t, exec (.pauseDeassert i) s = .next t
        ∧ Handed (s.setLine i { l with
            lane := some (dropFrame i s.sis.epoch l.tally s.now), tally := {}, interleave := 0,
            counters := { c with dropsSent := sat32 c.dropsSent } }) t
        ∧ (t.line i).lane = some (dropFrame i s.sis.epoch l.tally s.now) ∧ (t.line i).tally = {}
        ∧ Offered s t ⟨.drop, i.val, s.now, be 6 l.tally.count ++ be 6 (l.tally.lowest.getD 0)
            ++ be 6 (l.tally.highest.getD 0) ++ beVt s.now⟩)
      ∧ (l.tally.count = 0 → turn → l.quality = true → exec (.pauseDeassert i) s = .next (s.setLine i { l with
          lane := some (qualityFrame i s.tsu.clock s.tsu.grade s.tsu.u s.tsu.pendingLeap s.tsu.leapCount l.pathDelay
            s.now),
          quality := false, interleave := 0, counters := { c with qualitySent := sat32 c.qualitySent } }))
      ∧ (∀ g rest, l.tally.count = 0 → turn → l.quality = false → l.phases = g :: rest →
          exec (.pauseDeassert i) s = .next (s.setLine i { l with
            lane := some (phaseFrame i g (s.group g) s.now), phases := rest, interleave := 0,
            counters := { c with phaseSent := sat32 c.phaseSent } }))
      ∧ (∀ a rest, l.tally.count = 0 → l.queue = a :: rest →
          (l.interleave ≠ 8 ∨ (l.quality = false ∧ l.phases = [])) →
          exec (.pauseDeassert i) s = .next (s.setLine i { l with
            lane := some a.frame, queue := rest, interleave := min 8 (l.interleave + 1),
            counters := match a with
              | .stamp _ => { c with stampsSent := satSucc 281474976710655 c.stampsSent }
              | .notOpen _ => { c with notOpenSent := sat32 c.notOpenSent } }))
      ∧ (l.tally.count = 0 → l.queue = [] → l.quality = false → l.phases = [] →
          exec (.pauseDeassert i) s = .next (s.setLine i l)))
    ∧ ((s.line i).pause = false → exec (.pauseAssert i) s = .next (s.setLine i { s.line i with
        pause := true, counters := { (s.line i).counters with pauses := sat32 (s.line i).counters.pauses } }))

/-- R52: at the drain limit a HOLDING line drops what it still holds, its stamps into the tally, and is HELD.  That the record gives
the tally behind the cause is the model's choice (log 29), as is the line in the subject byte alone (log 30). -/
def Obligations.DrainTimeoutHoldsTheLine : Prop :=
  ∀ (s : State) (i : Fin 8) (start : Nat), s.live = true → (s.line i).state = .holding →
    (s.line i).drain = some start → start + 1250000 ≤ s.osc →
    let gone := (s.line i).discardQueue
    let held : Line := { gone with drain := none, state := .held }
    gone.queue = []
      ∧ gone.tally.count = (s.line i).tally.count
          + (s.line i).queue.countP (fun a => match a with | .stamp _ => true | .notOpen _ => false)
      ∧ ∃ t, exec (.drainTimeout i) s = .next t ∧ Handed (s.setLine i held) t ∧ t.line i = held
        ∧ Offered s t (lineStateRecord s i
            (be 1 1 ++ be 1 2 ++ beOpt (held.health.map (·.code)) ++ be 1 held.rec_) .drainTimeout
            (be 6 gone.tally.count ++ be 6 (gone.tally.lowest.getD 0) ++ be 6 (gone.tally.highest.getD 0)))
        ∧ Noticed s t .lineHeld s.now (.line i.val) (be 1 2)

/-- R176: what the part reads in a tag frame's sixteen bytes, and the causes of a bad frame in their order (R44). -/
def Obligations.TagFrameLayoutIsRead : Prop :=
  ∀ (session client : Nat) (group kind : Byte) (adapter : List Byte) (ending : FrameEnding), session < 65536 →
    client < 4294967296 → adapter.length = 6 →
    let head := be 2 session ++ [group, kind] ++ be 4 client ++ adapter
    let check := be 2 (crc16 head).toNat
    (ending = .endDelimiter ∨ ending = .idle →
      (1 ≤ kind.toNat → kind.toNat ≤ 5 → judgeFrame (head ++ check) ending
        = .valid ⟨BitVec.ofNat 16 session, group, kind, BitVec.ofNat 32 client⟩)
      ∧ (kind.toNat = 0 ∨ 5 < kind.toNat → judgeFrame (head ++ check) ending = .bad .kind)
      ∧ (∀ c : List Byte, c.length = 2 → c ≠ check → judgeFrame (head ++ c) ending = .bad .check)
      ∧ (∀ bytes : List Byte, bytes.length ≠ 16 → judgeFrame bytes ending = .bad .length))
    ∧ (∀ bytes, judgeFrame bytes .unresolved = .bad .framing)
    ∧ (∀ bytes, judgeFrame bytes .extraByte = .bad .length)

/-! ## Stamp issue -/

/-- R66 to R69, R72, R73, R76 to R78, R80: a grant takes the first pending offer and answers it: in OPEN with a stamp of the
next sequence, counted, reported to its auction and handed to its line, the last sequence exhausting the issuer; otherwise
with NOT_OPEN.  R53: a line that is RUNNING or HOLDING takes the answer while its queue holds fewer than sixteen; any other, or a
full one, tallies a stamp, which on a free lane leaves at once in a drop notice, and discards a NOT_OPEN answer.  Open Stamping
opens a CLOSED issuer.  The subject byte of the SEQUENCE_EXHAUSTED record is the model's choice (log 30). -/
def Obligations.GrantsAreAnsweredInOrder : Prop :=
  (∀ s : State, s.live = true → s.sis.offers = [] ∨ (∃ n, s.sis.lastGrant = some n ∧ s.osc < n + 2) →
    exec .grant s = .next s)
  ∧ (∀ (s : State) (o : Offer) (rest : List Offer) (peer : Bool), s.live = true → s.sis.offers = o :: rest →
    s.sis.lastGrant = none ∨ (∃ n, s.sis.lastGrant = some n ∧ n + 2 ≤ s.osc) →
    (peer = true ↔ ∃ a, (s.agent a).config.binding = some o.line ∧ (s.agent a).state ≠ .conforming) →
    let i := o.line
    let l := s.line i
    let freed : Line := { l with owed := l.owed - 1 }
    let runs : Prop := l.state = .running ∨ l.state = .holding
    let occupied : Prop := l.lane ≠ none ∨ l.pause = true
    let granted : Sis := { s.sis with offers := rest, lastGrant := some s.osc }
    let handed (a : Answer) (t : State) : Prop :=
      (∀ k, k ≠ i → LineKept (s.line k) (t.line k))
        ∧ (t.line i).owed = l.owed - 1
        ∧ (runs → l.queue.length < 16 → a ∈ (t.line i).queue ∨ (t.line i).lane = some a.frame)
        ∧ (runs → l.queue.length < 16 → occupied →
            { t.line i with phases := l.phases } = { freed with queue := l.queue ++ [a] })
        ∧ (runs → 16 ≤ l.queue.length → occupied → { t.line i with phases := l.phases } = freed.dropped a)
        ∧ (¬ runs → t.line i = freed.dropped a)
    (∀ q, s.sis.state = .opened → s.sis.next = some q →
      let st : Stamp :=
        { epoch := s.sis.epoch, sequence := q, line := i, capture := o.capture, grade := s.tsu.grade, u := s.tsu.u,
          disposition := dispositionOf s o,
          phase := if h : o.fields.group.toNat < 32 then some (s.group ⟨o.fields.group.toNat, h⟩).state else none,
          hit := o.hit, lineDegraded := decide (128 ≤ l.rec_), peerNotConforming := peer, leapSecond := o.leapMark,
          echo := o.fields }
      let d := st.disposition
      let told (g : Fin 32) : Auction :=
        if o.fields.group.toNat = g.val then (s.group g).reported d (s.group g).state q else s.group g
      let gone := (freed.dropped (.stamp st)).tally
      ∃ t, exec .grant s = .next t
        ∧ t.sis = { granted with
            last := some (q, o.capture)
            issued := s.sis.issued.set i (s.sis.issued[i] + 1)
            accepted := s.sis.accepted + (if d = .accepted then 1 else 0)
            late := s.sis.late + (if d = .late then 1 else 0)
            refusedSession := s.sis.refusedSession + (if d = .refusedSession then 1 else 0)
            refusedGroup := s.sis.refusedGroup + (if d = .refusedGroup then 1 else 0)
            flagDegraded := if 128 ≤ l.rec_ then sat32 s.sis.flagDegraded else s.sis.flagDegraded
            flagPeer := if peer then sat32 s.sis.flagPeer else s.sis.flagPeer
            flagLeap := if o.leapMark then sat32 s.sis.flagLeap else s.sis.flagLeap
            next := if q = 281474976710655 then none else some (q + 1)
            state := if q = 281474976710655 then .exhausted else .opened }
        ∧ Handed { s with sis := t.sis, lines := t.lines, auc := { s.auc with groups := Vector.ofFn told } } t
        ∧ handed (.stamp st) t
        ∧ (runs → 16 ≤ l.queue.length → ¬ occupied →
            (t.line i).lane = some (dropFrame i s.sis.epoch gone s.now) ∧ (t.line i).tally = {}
              ∧ (t.line i).queue = l.queue
              ∧ Offered s t ⟨.drop, i.val, s.now,
                  be 6 gone.count ++ be 6 (gone.lowest.getD 0) ++ be 6 (gone.highest.getD 0) ++ beVt s.now⟩)
        ∧ (q = 281474976710655 →
            Offered s t ⟨.sequenceExhausted, i.val, s.now,
                be 4 s.sis.epoch ++ be 6 q ++ beVt o.capture ++ be 1 i.val⟩
              ∧ Noticed s t .sequenceExhausted s.now .nothing (be 1 i.val)))
    ∧ (s.sis.state ≠ .opened ∨ s.sis.next = none →
      let a : NotOpen :=
        { epoch := s.sis.epoch, line := i, capture := o.capture, issuer := s.sis.state, grade := s.tsu.grade,
          u := s.tsu.u, echo := o.fields }
      ∃ t, exec .grant s = .next t
        ∧ t.sis = { granted with notOpen := s.sis.notOpen.set i (sat32 s.sis.notOpen[i]) }
        ∧ Handed { s with sis := t.sis, lines := t.lines } t
        ∧ handed (.notOpen a) t
        ∧ (runs → 16 ≤ l.queue.length → (t.line i).counters.notOpenDiscarded = sat32 l.counters.notOpenDiscarded
            ∧ (t.line i).queue <:+ l.queue)))
  ∧ (∀ (s : State) (tag : Byte), s.accepts = true →
    let r : Record :=
      { kind := .stampingOpen, subject := 255, vt := s.now,
        body := be 1 1 ++ beVt s.now ++ be 1 s.tsu.clock.code ++ be 1 s.tsu.grade.code ++ be 3 s.tsu.u ++ beBool s.tsu.vtSet }
    (s.sis.state = .closed → 0 < s.sis.epoch → ∃ t, exec (.openStamping tag) s = .next t
      ∧ Handed { s.answered 0x28#8 tag .ok [] with
          sis := { s.sis with state := .opened, next := some 1, opening := some (.request, s.now) } } t
      ∧ Offered s t r ∧ Noticed s t .stampingOpen s.now .nothing (be 1 1 ++ be 1 s.tsu.grade.code))
    ∧ (s.sis.state = .closed → s.sis.epoch = 0 →
        exec (.openStamping tag) s = .next (s.answered 0x28#8 tag .journalFull []))
    ∧ (s.sis.state = .opened → exec (.openStamping tag) s = .next (s.answered 0x28#8 tag .ok []))
    ∧ (s.sis.state = .exhausted → exec (.openStamping tag) s = .next (s.answered 0x28#8 tag .wrongState [])))

/-- R74, R100: the disposition of an offer, and what an issue report counts in its auction. -/
def Obligations.DispositionsAreDecidedInOrder : Prop :=
  ∀ (s : State) (o : Offer),
    let n := o.fields.group.toNat
    (o.accepted = false → dispositionOf s o = .refusedSession)
    ∧ (o.accepted = true → 32 ≤ n → n ≤ 254 → dispositionOf s o = .refusedGroup)
    ∧ (o.accepted = true → n = 255 → dispositionOf s o = .accepted)
    ∧ (∀ g : Fin 32, o.accepted = true → n = g.val →
        (∀ c, (s.group g).state = .cut ∨ (s.group g).state = .closed → (s.group g).cutTime = some c →
          dispositionOf s o = if c < o.capture then .late else .accepted)
        ∧ ((s.group g).state ≠ .cut → (s.group g).state ≠ .closed → dispositionOf s o = .accepted))
    ∧ (∀ (a : Auction) (q : Nat) (p : AuctionState),
        (p ≠ .idle → p ≠ .armed → p ≠ .cancelled →
          a.reported .accepted p q = { a with inCount := a.inCount + 1, lastIn := q })
        ∧ (p = .cut ∨ p = .closed → a.reported .late p q = { a with lateCount := a.lateCount + 1 })
        ∧ (p = .idle ∨ p = .armed ∨ p = .cancelled → a.reported .accepted p q = a)
        ∧ a.reported .refusedSession p q = a ∧ a.reported .refusedGroup p q = a)

/-! ## Closing auctions -/

/-- R88, R89: the checks of Arm Auction in their order, and the arming of an IDLE group: recorded, its entry loaded and its
deadlines set; or JOURNAL_FULL where the record is refused.  A CLOSED or CANCELLED group is cleared first, with its CLEAR record,
and a clear stands where the arming record is refused.  That the CLEAR record names its group in the subject byte alone is the
model's choice (log 30), as is it that second 60 is in range in the minute 23:59 alone (log 36). -/
def Obligations.ArmingFollowsItsChecks : Prop :=
  ∀ (s : State) (tag : Byte) (a : ArmArgs) (g : Fin 32), s.accepts = true → a.group = g.val →
    let answered (st : Status) := s.answered 0x30#8 tag st []
    let old := s.group g
    let mayArm : Prop := old.state = .idle ∨ old.state = .closed ∨ old.state = .cancelled
    let ready : Prop := s.auc.journalView = .normal ∧ old.heldList = []
    let february (y : Nat) : Nat := if (y % 4 = 0 ∧ y % 100 ≠ 0) ∨ y % 400 = 0 then 29 else 28
    let days (y m : Nat) : Nat :=
      if m = 2 then february y else if m = 4 ∨ m = 6 ∨ m = 9 ∨ m = 11 then 30 else 31
    let valid (c : CivilArgs) : Prop := 2000 ≤ c.year ∧ 1 ≤ c.month ∧ c.month ≤ 12 ∧ 1 ≤ c.day ∧ c.day ≤ days c.year c.month
      ∧ c.hour ≤ 23 ∧ c.minute ≤ 59 ∧ c.milli ≤ 999
      ∧ (c.second ≤ 59 ∨ (c.second = 60 ∧ c.hour = 23 ∧ c.minute = 59))
    let inRange : Prop := valid a.callStart ∧ valid a.windowStart ∧ 1000 ≤ a.windowLength ∧ a.windowLength ≤ 600000
      ∧ 1 ≤ a.extLength ∧ a.extLength ≤ 3600 ∧ a.maxExt ≤ 15 ∧ 1 ≤ a.deferLimit ∧ a.deferLimit ≤ 600
    (¬ inRange → exec (.armAuction tag a) s = .next (answered .badArgument))
    ∧ (inRange → ¬ mayArm → exec (.armAuction tag a) s = .next (answered .wrongState))
    ∧ (inRange → mayArm → ¬ ready → exec (.armAuction tag a) s = .next (answered .journalFull))
    ∧ (inRange → mayArm → ready →
        (s.tsu.fromCivil (CivilArgs.toCivil a.callStart) = none ∨ s.tsu.fromCivil (CivilArgs.toCivil a.windowStart) = none →
          exec (.armAuction tag a) s = .next (answered .badArgument))
        ∧ (∀ c w, s.tsu.fromCivil (CivilArgs.toCivil a.callStart) = some c →
            s.tsu.fromCivil (CivilArgs.toCivil a.windowStart) = some w →
            (w ≤ c ∨ w < s.now + 1000000000 → exec (.armAuction tag a) s = .next (answered .badArgument))
            ∧ (c < w → s.now + 1000000000 ≤ w →
              let entered : AuctionState := if c ≤ s.now then .call else .armed
              let call : Start := ⟨CivilArgs.toCivil a.callStart, c⟩
              let window : Start := ⟨CivilArgs.toCivil a.windowStart, w⟩
              let loaded : Auction :=
                { state := entered, callStart := some call, windowStart := some window, windowLength := a.windowLength,
                  extLength := a.extLength, maxExt := a.maxExt, deferLimit := a.deferLimit }
              let r : Record :=
                { kind := .auctionArm, subject := g.val, vt := s.now,
                  body := beCivil call.civil ++ beCivil window.civil ++ beVtMs c ++ beVtMs w ++ be 3 a.windowLength
                    ++ be 2 a.extLength ++ be 1 a.maxExt ++ be 2 a.deferLimit ++ be 1 s.tsu.leapCount
                    ++ be 1 s.tsu.pendingLeap.code ++ be 1 entered.code }
              (old.state = .idle → s.ej.takes true = true → ∃ u t, exec (.armAuction tag a) s = .next t
                ∧ Handed (answered .ok) u ∧ Handed (enter u g loaded) t ∧ t.group g = loaded ∧ Offered s t r
                ∧ Noticed s t .auctionState s.now (.group g.val) (be 1 entered.code))
              ∧ (old.state = .idle → s.ej.takes true = false → ∃ t, exec (.armAuction tag a) s = .next t
                ∧ Handed (answered .journalFull) t)
              ∧ (old.state ≠ .idle →
                let cleared : HeldRecord :=
                  ⟨.clear, s.now, .plain (be 1 old.state.code ++ be 6 old.inCount ++ be 6 old.lastIn ++ be 6 old.lateCount)⟩
                let held : List HeldRecord := if old.armIndex = none then [cleared] else []
                ∃ t, exec (.armAuction tag a) s = .next t
                  ∧ (s.ej.takes true = true → ∃ u v,
                      Handed ((answered .ok).setGroup g { old with heldList := held }) u
                        ∧ Handed (enter u g { heldList := held }) v ∧ Handed (enter v g loaded) t
                        ∧ t.group g = loaded ∧ Offered s t r
                        ∧ Noticed s t .auctionState s.now (.group g.val) (be 1 entered.code))
                  ∧ (s.ej.takes true = false → ∃ u,
                      Handed ((answered .journalFull).setGroup g { old with heldList := held }) u
                        ∧ Handed (enter u g { heldList := held }) t ∧ t.group g = { heldList := held })
                  ∧ (∀ k, old.armIndex = some k → Offered s t (cleared.toRecord g k))
                  ∧ Noticed s t .auctionState s.now (.group g.val) (be 1 0)))))

/-- R83 to R85, R91, R92, R94, R96, R99: what the expiry of the first deadline does to its group: CALL, WINDOW with an end
and a nonce drawn (the draw itself is a free value inside the window, log 3), the cut or the deferral at the end, HELD at the
deferral limit, CLOSED at the settle; with the record of each, held back while the arming index is unknown.
That DEFER and HOLD name their group in the subject byte alone is the model's choice (log 30). -/
def Obligations.DeadlinesTakeEffect : Prop :=
  ∀ (s : State) (d : Deadline) (more : List Deadline), s.live = true → s.auc.deadlines = d :: more → d.instant ≤ s.now →
    let g := d.group
    let a := s.group g
    let ws := (a.windowStart.map (·.vt)).getD 0
    let e := a.drawnEnd.getD 0
    let entered (c : Instr) (new : Auction) (at_ : Nat) (record : Option HeldRecord) : Prop :=
      ∃ t, exec c s = .next t
        ∧ Handed (enter { s with auc := { s.auc with draws := t.auc.draws } } g { new with
            heldList := (if a.armIndex = none then new.heldList ++ record.toList else new.heldList) }) t
        ∧ Noticed s t .auctionState at_ (.group g.val) (be 1 (t.group g).state.code)
        ∧ (∀ r k, record = some r → a.armIndex = some k → Offered s t (r.toRecord g k))
        ∧ (t.auc.draws = s.auc.draws + if d.kind = .windowStart then 1 else 0)
        ∧ (∀ i, (s.line i).state = .running → g ∈ (t.line i).phases ∨ (t.line i).lane ≠ none)
    (d.kind = .callStart → entered (.callStart g) { a with state := .call } s.now none)
    ∧ (d.kind = .windowStart → ∃ (end_ : Nat) (nonce : Word64),
        (0 < a.windowLength → ws + a.windowLength * 1000000 ≤ Config.vtSpan →
          ws ≤ end_ ∧ end_ < ws + a.windowLength * 1000000 ∧ (end_ - ws) % 1000 = 0)
        ∧ entered (.windowStart g) { a with
            state := .window, drawnEnd := some end_, nonce := some nonce,
            drawCheck := (match a.armIndex with | some k => .value (drawCheckOf end_ nonce g k) | none => .owed) }
          s.now (some ⟨.draw, s.now, .draw ws a.windowLength end_ nonce⟩))
    ∧ (d.kind = .endAt → s.auc.cutConditions = true → entered (.endExpiry g)
        { a with state := .cut, cutTime := some e, forced := false, quality := some (s.tsu.u, s.tsu.grade) } s.now none)
    ∧ (∀ why, d.kind = .endAt → s.auc.deferReason = some why →
        entered (.endExpiry g) { a with state := .deferred } e
          (some ⟨.defer, e, .plain (be 1 why.code ++ be 2 a.deferLimit)⟩)
        ∧ (s.auc.traceableView = false → ∃ t, exec (.endExpiry g) s = .next t ∧ (t.group g).state = .deferred))
    ∧ (d.kind = .deferLimit → entered (.deferLimit g) { a with state := .held } s.now
        (some ⟨.hold, s.now, .plain (beOpt (s.auc.deferReason.map (·.code)))⟩))
    ∧ (d.kind = .settle → entered (.settle g) { a with state := .closed } s.now
        (some ⟨.cut, s.now, .cut a.forced ((a.quality.map (·.2)).getD .d) a.extUsed ((a.quality.map (·.1)).getD 0) e
          (a.nonce.getD 0) a.inCount a.lastIn (a.cutTime.getD 0)⟩))

/-- R97, R101 to R105: extension before the window and after it, the forced cut, cancellation and clearing, with their
refusals in each auction state.  That EXTEND and CLEAR name their group in the subject byte alone is the model's choice (log 30). -/
def Obligations.AuctionRequestsTakeEffect : Prop :=
  ∀ (s : State) (tag : Byte) (g : Fin 32), s.accepts = true →
    let a := s.group g
    let st := a.state
    let ok (kind : Byte) := s.answered kind tag .ok []
    let ws := (a.windowStart.map (·.vt)).getD 0
    let held (rs : List HeldRecord) : List HeldRecord := if a.armIndex = none then a.heldList ++ rs else a.heldList
    let shown (t : State) : Prop :=
      Noticed s t .auctionState s.now (.group g.val) (be 1 (t.group g).state.code)
    let extended (vt : Nat) : Option Start := some ⟨s.tsu.toCivil vt, vt⟩
    let extend (w : Option Start) : HeldRecord :=
      ⟨.extend, s.now, .plain (beVt ((w.map (·.vt)).getD 0) ++ be 1 (a.extUsed + 1))⟩
    (st = .armed ∨ st = .call → a.extUsed ≠ a.maxExt →
      let w := extended (vtOfInt ((ws : Int) + (a.extLength * 1000000000 : Nat)))
      ∃ t, exec (.extendAuction tag g.val) s = .next t
        ∧ Handed (enter (ok 0x31#8) g
            { a with windowStart := w, extUsed := a.extUsed + 1, heldList := held [extend w] }) t
        ∧ shown t ∧ (∀ k, a.armIndex = some k → Offered s t ((extend w).toRecord g k)))
    ∧ (∀ end_ nonce, st = .window ∨ st = .deferred ∨ st = .held → a.extUsed ≠ a.maxExt → a.drawnEnd = some end_ →
        a.nonce = some nonce →
      let w := extended (vtOfInt (((s.now + 999999) / 1000000 * 1000000 : Nat) + (a.extLength * 1000000000 : Nat)))
      let withdraw : HeldRecord := ⟨.withdraw, s.now, .withdraw end_ nonce⟩
      ∃ u t, exec (.extendAuction tag g.val) s = .next t
        ∧ Handed ((ok 0x31#8).setGroup g { a with heldList := held [withdraw] }) u
        ∧ Handed (enter u g { a with
            state := .call, drawnEnd := none, nonce := none, drawCheck := .noCheck, windowStart := w,
            extUsed := a.extUsed + 1, heldList := held [withdraw, extend w] }) t
        ∧ shown t ∧ (∀ k, a.armIndex = some k →
            Offered s t (withdraw.toRecord g k) ∧ OfferedAfter 1 s t ((extend w).toRecord g k)))
    ∧ (st ≠ .idle → st ≠ .cut → st ≠ .closed → st ≠ .cancelled → a.extUsed = a.maxExt →
        exec (.extendAuction tag g.val) s = .next (s.answered 0x31#8 tag .extensionLimit []))
    ∧ (st = .cut ∨ st = .closed →
        exec (.extendAuction tag g.val) s = .next (s.answered 0x31#8 tag .tooLate [])
        ∧ exec (.cancelAuction tag g.val) s = .next (s.answered 0x33#8 tag .tooLate []))
    ∧ (st = .idle ∨ st = .cancelled →
        exec (.extendAuction tag g.val) s = .next (s.answered 0x31#8 tag .wrongState [])
        ∧ exec (.cancelAuction tag g.val) s = .next (s.answered 0x33#8 tag .wrongState []))
    ∧ (st = .held → ∃ t, exec (.cutNow tag g.val) s = .next t
        ∧ Handed (enter (ok 0x32#8) g { a with
            state := .cut, cutTime := some s.now, forced := true, quality := some (s.tsu.u, s.tsu.grade) }) t
        ∧ shown t)
    ∧ (st ≠ .held → exec (.cutNow tag g.val) s = .next (s.answered 0x32#8 tag .wrongState []))
    ∧ (st = .armed ∨ st = .call ∨ st = .window ∨ st = .deferred ∨ st = .held →
      let r : HeldRecord := ⟨.cancel, s.now, .cancel st a.inCount a.draw⟩
      ∃ u t, exec (.cancelAuction tag g.val) s = .next t
        ∧ Handed ((ok 0x33#8).setGroup g { a with heldList := held [r] }) u
        ∧ Handed (enter u g { a with state := .cancelled, heldList := held [r] }) t
        ∧ shown t ∧ (∀ k, a.armIndex = some k → Offered s t (r.toRecord g k)))
    ∧ (st = .closed ∨ st = .cancelled →
      let r : HeldRecord :=
        ⟨.clear, s.now, .plain (be 1 st.code ++ be 6 a.inCount ++ be 6 a.lastIn ++ be 6 a.lateCount)⟩
      ∃ u t, exec (.clearAuction tag g.val) s = .next t
        ∧ Handed ((ok 0x34#8).setGroup g { a with heldList := held [r] }) u
        ∧ Handed (enter u g { heldList := held [r] }) t
        ∧ shown t ∧ (∀ k, a.armIndex = some k → Offered s t (r.toRecord g k)))
    ∧ (st ≠ .closed → st ≠ .cancelled →
        exec (.clearAuction tag g.val) s = .next (s.answered 0x34#8 tag .wrongState []))

/-- R93, of Read Auction replies and phase frames: until the cut or a withdrawal neither depends on a group's drawn end or nonce:
with another draw, and its deadlines moved with it, every reply and every frame is the same.  The DEFER record and the notice
of a deferral carry the drawn end as their VT (R93, R94) and are no part of this. -/
def Obligations.DrawIsWithheld : Prop :=
  ∀ (s : State) (g : Fin 32) (end_ : Option Nat) (nonce : Option Word64) (moved : Deadline → Nat),
    (s.group g).state ≠ .cut → (s.group g).state ≠ .closed → (s.group g).state ≠ .cancelled →
    let a : Auction := { s.group g with drawnEnd := end_, nonce := nonce }
    let other (d : Deadline) : Deadline :=
      if d.group = g ∧ (d.kind = .endAt ∨ d.kind = .deferLimit) then { d with instant := moved d } else d
    let s' : State := { s with auc := { s.auc with
      groups := s.auc.groups.set g a, deadlines := s.auc.deadlines.map other } }
    (∀ h, auctionBody s' h = auctionBody s h)
      ∧ (∀ i h vt, phaseFrame i h (s'.group h) vt = phaseFrame i h (s.group h) vt)
      ∧ ∀ (tag : Byte) (n : Nat), s.accepts = true → ∃ t t', exec (.readAuction tag n) s = .next t
        ∧ exec (.readAuction tag n) s' = .next t' ∧ t'.hli = t.hli

/-! ## The journal -/

/-- Every step keeps the store sound: the writer in the one open page, FREE pages blank, the journal state as the page table
gives it (R119, R122, R127, R133). -/
def Obligations.StoreSoundKept : Prop := ∀ s t : State, StoreSound s → step s = .next t → StoreSound t

/-- R112, R116, R120: a verified record stands in its slot with its index and chain value, its source is released, an
AUCTION_ARM reports its index, a full page or a requested close closes the page, and the writer decides again.  R118: a
failed record leaves a VOID slot, closes its page SHORT and is owed again in the next page or, with none FREE, lost.  R119: a
failed PAGE_OPEN makes its page DEFECTIVE.  That a PAGE_DEFECT record names its page in the subject byte alone is log 30. -/
def Obligations.WritesEnd : Prop :=
  ∀ (s : State) (w : Write), s.live = true → StoreSound s → s.ej.writer = some w →
    let serial := (s.page w.page).serial.getD 0
    let old := s.page w.page
    let holding (c : Slot) (pg : Page) : Page := { pg with slots := old.slots.set w.slot c }
    let closed (c : Slot) (cause : CloseCause) (count : Nat) (chain : Chain) : Page := holding c { old with
      state := .closed, closeCause := some cause, closeTime := some s.now, count := count, lastChain := some chain }
    let others (t : State) : Prop :=
      OutsideJournal s t ∧ ∀ p, p ≠ w.page → (s.page p).state ≠ .free → t.page p = s.page p
    let shown (t : State) (cause : CloseCause) (count : Nat) : Prop :=
      t.ej.closeRequested = false ∧ (∀ n, t.ej.openPage ≠ some (w.page, n))
        ∧ Noticed s t .pageClosed s.now (.page w.page.val) (be 4 serial ++ be 1 cause.code ++ be 1 count)
    (let chain := recordChain s.ej.chain w.record s.ej.epoch serial w.slot.val
     let bytes := recordBytes s.ej.chain w.record s.ej.epoch serial w.slot.val
     let arms (g : Fin 32) : Prop := w.record.kind = .auctionArm ∧ w.record.subject = g.val
     let goesOn : Prop := w.slot.val ≠ 127 ∧ s.ej.closeRequested = false
     ∃ t, exec .writeVerified s = .next t ∧ others t ∧ t.ej.chain = chain
       ∧ (s.ej.nextIndex < 18446744073709551614 → t.ej.nextIndex = s.ej.nextIndex + 1)
       ∧ (w.source = .intake → s.ej.intake.tail <+: t.ej.intake ∧ t.ej.rewriteOwed = false ∧ t.ej.gapOwed = s.ej.gapOwed)
       ∧ (∀ g, w.source = .gap g →
           s.ej.intake <+: t.ej.intake ∧ t.ej.gapOwed = none ∧ t.ej.rewriteOwed = s.ej.rewriteOwed)
       ∧ (w.source = .pageOpen →
           s.ej.intake <+: t.ej.intake ∧ t.ej.gapOwed = s.ej.gapOwed ∧ t.ej.rewriteOwed = s.ej.rewriteOwed)
       ∧ (∀ g, arms g → (t.group g).armIndex = some s.ej.nextIndex ∧ (t.group g).heldList = []
           ∧ ∀ r rest, (s.group g).heldList = r :: rest → s.ej.takes r.kind.critical = true →
               r.toRecord g s.ej.nextIndex ∈ t.ej.intake)
       ∧ (∀ g, (s.group g).state ≠ .deferred → ¬ arms g → t.group g = s.group g)
       ∧ (w.slot.val = 127 → t.page w.page = closed (.data bytes) .full 128 chain ∧ shown t .full 128)
       ∧ (w.slot.val ≠ 127 → s.ej.closeRequested = true →
           t.page w.page = closed (.data bytes) .request (w.slot.val + 1) chain ∧ shown t .request (w.slot.val + 1))
       ∧ (goesOn → t.page w.page = holding (.data bytes) old ∧ t.ej.openPage = some (w.page, w.slot.val + 1))
       ∧ (∀ r next rest, goesOn → w.source = .intake → w.record.kind ≠ .auctionArm → s.ej.gapOwed = none →
           s.ej.intake = r :: next :: rest →
           let gap : Gap := ⟨s.ej.criticalLost, s.ej.nonCriticalLost, s.ej.firstLoss, s.now⟩
           (gap.critical = 0 ∧ gap.nonCritical = 0 →
             t.ej.writer = some ⟨w.page, Fin.ofNat 128 (w.slot.val + 1), next, .intake⟩)
           ∧ (0 < gap.critical ∨ 0 < gap.nonCritical →
             t.ej.writer = some ⟨w.page, Fin.ofNat 128 (w.slot.val + 1), gap.record, .gap gap⟩
               ∧ t.ej.criticalLost = 0 ∧ t.ej.nonCriticalLost = 0 ∧ t.ej.firstLoss = none))
       ∧ (goesOn → w.source = .intake → w.record.kind ≠ .auctionArm → s.ej.gapOwed = none → s.ej.intake.tail = [] →
           t.ej.writer = none))
    ∧ (w.source ≠ .pageOpen → ∃ t, exec .writeFailed s = .next t ∧ others t
       ∧ t.page w.page = closed .void .short w.slot.val s.ej.chain ∧ shown t .short w.slot.val
       ∧ t.ej.nextIndex = s.ej.nextIndex ∧ t.ej.chain = s.ej.chain
       ∧ (∀ p, s.ej.firstFree = some p →
           (w.source = .intake → s.ej.intake <+: t.ej.intake ∧ t.ej.rewriteOwed = true)
           ∧ (∀ g, w.source = .gap g → s.ej.intake <+: t.ej.intake ∧ t.ej.gapOwed = some g)
           ∧ t.ej.openPage = some (p, 0) ∧ (t.page p).state = .opened ∧ (t.page p).serial = some s.ej.nextSerial
           ∧ ∃ r, r.kind = .pageOpen ∧ r.subject = p.val ∧ r.vt = s.now
               ∧ r.body = be 8 s.ej.nextIndex ++ be 4 s.ej.chain.toNat ++ be 4 s.ej.nextSerial ++ be 1 s.tsu.leapCount
               ∧ t.ej.writer = some ⟨p, 0, r, .pageOpen⟩)
       ∧ (s.ej.firstFree = none → t.ej.state = .stalled ∧ t.ej.writer = none
           ∧ (w.source = .intake → s.ej.intake.tail = t.ej.intake ∧ t.ej.rewriteOwed = false
               ∧ (w.record.kind ≠ .auctionArm → w.record.kind.critical = true → s.ej.criticalLost < Config.noIndex →
                   t.ej.criticalLost = s.ej.criticalLost + 1 ∧ t.ej.nonCriticalLost = s.ej.nonCriticalLost)
               ∧ (w.record.kind.critical = false → s.ej.nonCriticalLost < Config.noIndex →
                   t.ej.nonCriticalLost = s.ej.nonCriticalLost + 1 ∧ t.ej.criticalLost = s.ej.criticalLost)
               ∧ ∀ g : Fin 32, w.record.kind = .auctionArm → w.record.subject = g.val →
                   (t.group g).armIndex = some 18446744073709551615 ∧ (t.group g).heldList = [])
           ∧ ∀ g, w.source = .gap g → t.ej.intake = s.ej.intake ∧ t.ej.gapOwed = none
               ∧ (s.ej.criticalLost + g.critical ≤ Config.noIndex →
                   t.ej.criticalLost = s.ej.criticalLost + g.critical)
               ∧ (s.ej.nonCriticalLost + g.nonCritical ≤ Config.noIndex →
                   t.ej.nonCriticalLost = s.ej.nonCriticalLost + g.nonCritical)))
    ∧ (w.source = .pageOpen → ∃ t, exec .pageOpenFailed s = .next t ∧ others t
       ∧ t.page w.page = holding .void { old with state := .defective, defect := some .openFailed }
       ∧ (∀ n, t.ej.openPage ≠ some (w.page, n)) ∧ t.ej.closeRequested = false
       ∧ t.ej.nextIndex = s.ej.nextIndex ∧ t.ej.chain = s.ej.chain ∧ s.ej.intake <+: t.ej.intake
       ∧ t.ej.rewriteOwed = s.ej.rewriteOwed ∧ t.ej.gapOwed = s.ej.gapOwed
       ∧ Offered s t ⟨.pageDefect, w.page.val, s.now, be 4 serial ++ be 1 DefectCause.openFailed.code⟩
       ∧ Noticed s t .pageDefect s.now (.page w.page.val) (be 4 serial ++ be 1 DefectCause.openFailed.code))

/-- R127: at the end of an erase the page leaves the erase queue: FREE where it is blank, or DEFECTIVE, its serial kept.  That a
PAGE_DEFECT record names its page in the subject byte alone is the model's choice (log 30). -/
def Obligations.ErasesEnd : Prop :=
  ∀ (s : State) (p : Fin 64) (rest : List (Fin 64)) (notBlank : List (Fin 128)), s.live = true → StoreSound s →
    s.ej.eraseQueue = p :: rest →
    let serial := (s.page p).serial.getD 0
    let spoiled : List Byte := be 4 serial ++ be 1 DefectCause.eraseVerify.code
    ∃ t, exec (.eraseEnd notBlank) s = .next t ∧ OutsideJournal s t ∧ t.ej.eraseQueue = rest
      ∧ s.ej.intake <+: t.ej.intake ∧ t.ej.nextIndex = s.ej.nextIndex ∧ t.ej.chain = s.ej.chain
      ∧ (∀ q, q ≠ p → (s.page q).state ≠ .free → t.page q = s.page q)
      ∧ (∀ i : Fin 128, (t.page p).slots[i] = if i ∈ notBlank then .void else .blank)
      ∧ (∀ g, (s.group g).state ≠ .deferred → t.group g = s.group g)
      ∧ (notBlank = [] → (t.page p = {} ∨ t.page p = { state := .opened, serial := some s.ej.nextSerial })
          ∧ Noticed s t .pageFreed s.now (.page p.val) (be 4 serial))
      ∧ (notBlank ≠ [] → (t.page p).state = .defective ∧ (t.page p).defect = some .eraseVerify
          ∧ (t.page p).serial = (s.page p).serial ∧ (t.page p).count = 0 ∧ (t.page p).closeCause = none
          ∧ (t.page p).closeTime = none ∧ (t.page p).lastChain = none
          ∧ Offered s t ⟨.pageDefect, p.val, s.now, spoiled⟩ ∧ Noticed s t .pageDefect s.now (.page p.val) spoiled)

/-- R121, R125, R126, R128: closing, confirming, releasing and annotating, each with its refusals in their order.  That the notice
of a first loss gives the record's kind by its code of R181 is the model's choice (log 30). -/
def Obligations.JournalRequestsTakeEffect : Prop :=
  ∀ (s : State) (tag : Byte), s.accepts = true → StoreSound s →
    (let ok := s.answered 0x3A#8 tag .ok []
     (s.ej.openPage = none → exec (.closePage tag) s = .next (s.answered 0x3A#8 tag .wrongState []))
     ∧ (s.ej.openPage ≠ none → s.ej.closeRequested = true → exec (.closePage tag) s = .next ok)
     ∧ (s.ej.openPage ≠ none → s.ej.closeRequested = false → s.ej.writer ≠ none →
         exec (.closePage tag) s = .next { ok with ej := { s.ej with closeRequested := true } })
     ∧ (∀ p n, s.ej.openPage = some (p, n) → s.ej.closeRequested = false → s.ej.writer = none →
         ∃ t, exec (.closePage tag) s = .next t ∧ OutsideJournal ok t ∧ t.page p = { s.page p with
             state := .closed, closeCause := some .request, closeTime := some s.now, count := n,
             lastChain := some s.ej.chain }
           ∧ (∀ q, q ≠ p → (s.page q).state ≠ .free → t.page q = s.page q)
           ∧ (∀ g, (s.group g).state ≠ .deferred → t.group g = s.group g)
           ∧ (∀ m, t.ej.openPage ≠ some (p, m)) ∧ t.ej.nextIndex = s.ej.nextIndex ∧ t.ej.chain = s.ej.chain
           ∧ Noticed s t .pageClosed s.now (.page p.val)
               (be 4 ((s.page p).serial.getD 0) ++ be 1 CloseCause.request.code ++ be 1 n)))
    ∧ (∀ (serial chain : Nat) (retention : Option Nat),
      let answer (st : Status) := exec (.confirmExport tag serial chain retention) s = .next (s.answered 0x3B#8 tag st [])
      let days := retention.getD 7
      (s.ej.pageOf serial = none → answer .badArgument)
      ∧ (∀ p, s.ej.pageOf serial = some p →
        (4095 < days → answer .badArgument)
        ∧ (days ≤ 4095 → (s.page p).state ≠ .closed → answer .wrongState)
        ∧ (∀ c, days ≤ 4095 → (s.page p).state = .closed → (s.page p).lastChain = some c →
          (c.toNat ≠ chain → answer .chainMismatch)
          ∧ (c.toNat = chain → exec (.confirmExport tag serial chain retention) s = .next
              ((s.answered 0x3B#8 tag .ok []).setPage p { s.page p with state := .exported, retention := some days })))))
    ∧ (∀ serial : Nat,
      let answer (st : Status) := exec (.releasePage tag serial) s = .next (s.answered 0x3C#8 tag st [])
      (s.ej.pageOf serial = none → answer .badArgument)
      ∧ (∀ p, s.ej.pageOf serial = some p →
        ((s.page p).state = .opened ∨ (s.page p).state = .closed → answer .notExported)
        ∧ ((s.page p).state = .erasing ∨ (s.page p).state = .defective → answer .wrongState)
        ∧ ((s.page p).state = .exported →
          (s.ej.holdsLast p = true → answer .wrongState)
          ∧ (∀ closed days, s.ej.holdsLast p = false → (s.page p).closeTime = some closed →
              (s.page p).retention = some days →
            (s.now < closed + days * 86400 * 1000000000 → answer .retentionRunning)
            ∧ (closed + days * 86400 * 1000000000 ≤ s.now → exec (.releasePage tag serial) s = .next
                (let t := (s.answered 0x3C#8 tag .ok []).setPage p { s.page p with state := .erasing }
                 { t with ej := { t.ej with eraseQueue := s.ej.eraseQueue ++ [p] } }))))))
    ∧ (∀ data : List Byte, data.length = 40 →
      let r : Record := { kind := .annotation, subject := 255, vt := s.now, body := data }
      (s.ej.takes false = true → ∃ t, exec (.annotate tag data) s = .next t ∧ Handed (s.answered 0x3D#8 tag .ok []) t
        ∧ Offered s t r)
      ∧ (s.ej.takes false = false → ∃ t, exec (.annotate tag data) s = .next t
        ∧ Handed (s.answered 0x3D#8 tag .journalFull []) t
        ∧ (s.ej.nonCriticalLost < Config.noIndex →
            t.ej = { s.ej with
              nonCriticalLost := s.ej.nonCriticalLost + 1
              firstLoss := if s.ej.criticalLost = 0 ∧ s.ej.nonCriticalLost = 0 then some s.now else s.ej.firstLoss })
        ∧ (s.ej.criticalLost = 0 → s.ej.nonCriticalLost = 0 →
            Noticed s t .recordsLost s.now .nothing (be 1 RecKind.annotation.code))))

/-! ## The peer survey -/

/-- R153 to R156: configuring, enabling and disabling an agent, and resuming the survey, with their refusals.  A disabled agent's
transaction in flight is marked for discard; one that waits between two attempts ends.  That an AGENT_STATE record names its agent in
the subject byte alone, and gives the configuration of an enable last, is the model's choice (log 30). -/
def Obligations.SurveyRequestsTakeEffect : Prop :=
  ∀ (s : State) (tag : Byte) (a : Fin 8), s.accepts = true →
    let x := s.agent a
    let taken : Prop := ∃ b, b ≠ a ∧ (s.agent b).state ≠ .disabled ∧ (s.agent b).config.address = x.config.address
    (∀ r : AgentArgs, r.agent = a.val →
      let valid : Prop := 8 ≤ r.address ∧ r.address ≤ 119
        ∧ (r.periodMs = 125 ∨ r.periodMs = 250 ∨ r.periodMs = 500 ∨ r.periodMs = 1000)
        ∧ r.busClock ≤ 1 ∧ r.latency ≤ 65535 ∧ 1 ≤ r.limit ∧ r.limit ≤ 1000000 ∧ (r.binding ≤ 7 ∨ r.binding = 255)
      (¬ valid → exec (.configureAgent tag r) s = .next (s.answered 0x40#8 tag .badArgument []))
      ∧ (valid → x.state ≠ .disabled → exec (.configureAgent tag r) s = .next (s.answered 0x40#8 tag .wrongState []))
      ∧ (valid → x.state = .disabled → ∃ binding : Option (Fin 8), binding.map (·.val) =
            (if r.binding = 255 then none else some r.binding)
          ∧ exec (.configureAgent tag r) s = .next ((s.answered 0x40#8 tag .ok []).setAgent a { x with config :=
              { address := r.address, periodMs := r.periodMs, fast := r.busClock == 1, latency := r.latency,
                limit := r.limit, binding := binding } })))
    ∧ (x.state = .unknown ∨ x.state = .conforming ∨ x.state = .divergent ∨ x.state = .stale →
        exec (.enableAgent tag a.val) s = .next (s.answered 0x41#8 tag .wrongState []))
    ∧ (x.state = .disabled ∨ x.state = .faulted →
      (taken → exec (.enableAgent tag a.val) s = .next (s.answered 0x41#8 tag .badArgument []))
      ∧ (¬ taken → ∃ u, exec (.enableAgent tag a.val) s = .next (pollSchedule u)
          ∧ AgentMoved (s.answered 0x41#8 tag .ok []) u a
              { x with failures := 0, reading := none, lastError := none, nextDue := some s.osc } .unknown .enable
              x.config.bytes))
    ∧ (x.state = .disabled → exec (.disableAgent tag a.val) s = .next (s.answered 0x42#8 tag .ok []))
    ∧ (x.state ≠ .disabled →
      let ok := s.answered 0x42#8 tag .ok []
      let gone : Agent := { x with nextDue := none }
      ((∀ w, s.psm.txn = some w → w.agent ≠ a) → ∃ u, exec (.disableAgent tag a.val) s = .next (pollSchedule u)
        ∧ AgentMoved ok u a gone .disabled .disable [])
      ∧ (∀ w, s.psm.txn = some w → w.agent = a →
        let marked : Psm := { s.psm with txn := some { w with discard := true } }
        (w.waiting = false → ∃ u, exec (.disableAgent tag a.val) s = .next (pollSchedule u)
          ∧ AgentMoved { ok with psm := marked } u a gone .disabled .disable [])
        ∧ (w.waiting = true → ∃ u, exec (.disableAgent tag a.val) s = .next (pollSchedule u)
          ∧ AgentMoved { ok with psm := { s.psm with txn := none } } u a
              { gone with counters := { x.counters with discarded := sat32 x.counters.discarded } } .disabled .disable [])))
    ∧ (s.psm.survey = .halted → exec (.resumeSurvey tag) s
        = .next (pollSchedule { s.answered 0x43#8 tag .ok [] with psm := { s.psm with survey := .running } }))
    ∧ (s.psm.survey = .running → exec (.resumeSurvey tag) s = .next (s.answered 0x43#8 tag .ok []))

/-- R138 to R142, R146 to R151, R179: the longest waiting due agent is polled with its address byte, direction bit 0, and the
mark command byte; the mark is captured with VT and U; the read begins, with the address byte and direction bit 1, once the gap
has run and the bus is IDLE; a sound reading is stored and judged; failures are counted; and a reading too old makes its agent
STALE.  The bytes of a phase stand in the model's own field `sent`; the sixteen bytes of a reading come in one event (log 23).  An
AGENT_STATE record names its agent in the subject byte alone (log 30), and gives the error kind by the code of log 36. -/
def Obligations.PollsRunTheirPhases : Prop :=
  (∀ s : State, s.live = true →
    let due (a : Fin 8) (d : Nat) : Prop := (s.agent a).nextDue = some d ∧ d ≤ s.osc
      ∧ (s.agent a).state ≠ .disabled ∧ (s.agent a).state ≠ .faulted
    let free : Psm := { s.psm with bus := .idle, timer := none, clockHigh := true, dataHigh := true }
    let own (sent : Nat) : Psm := { s.psm with
      bus := .own, timer := some s.osc, clockHigh := true, dataHigh := false, sent := [BitVec.ofNat 8 sent] }
    let marked : Psm := { free with sent := s.psm.sent ++ [0x6D#8] }
    (∀ a, (∀ d, ¬ due a d) → exec (.agentDue a) s = .next s)
    ∧ (∀ a, s.psm.survey = .halted ∨ s.psm.txn ≠ none ∨ s.psm.bus ≠ .idle → exec (.agentDue a) s = .next s)
    ∧ (∀ a b d e, s.psm.survey = .running → s.psm.txn = none → s.psm.bus = .idle → due a d → due b e →
        (∀ c f, due c f → e < f ∨ (e = f ∧ b ≤ c)) →
        let x := s.agent b
        let polling : Txn := { agent := b, address := x.config.address, fast := x.config.fast }
        exec (.agentDue a) s = .next (({ s with psm := { own (2 * x.config.address) with txn := some polling } } : State).setAgent b
            { x with counters := { x.counters with begun := sat32 x.counters.begun } }))
    ∧ (∀ w, s.psm.txn = some w → s.psm.bus = .own → w.phase = .mark → w.waiting = false →
        let gap : Txn := { w with phase := .gap, mark := some (s.now, s.tsu.u), markCount := s.osc }
        exec (.markPhaseEnd .acknowledged) s = .next { s with psm := { marked with txn := some gap } }
        ∧ (∃ t, exec (.markPhaseEnd .addressNack) s = .next t ∧ PollFailed (s.onBus free) t w .addressNack)
        ∧ (∃ t, exec (.markPhaseEnd .dataNack) s = .next t ∧ PollFailed (s.onBus marked) t w .dataNack))
    ∧ (∀ w, s.psm.txn = some w → w.phase = .gap →
        (w.markCount + 125000 ≤ s.osc → s.psm.bus = .idle →
          exec .gapEnd s = .next { s with psm := { own (2 * w.address + 1) with
            txn := some { w with phase := .read, waiting := false } } })
        ∧ (s.osc < w.markCount + 125000 ∨ s.psm.bus ≠ .idle → exec .gapEnd s = .next s))
    ∧ (∀ w, s.psm.txn = some w → s.psm.bus = .own → w.phase = .read → w.waiting = false →
      let x := s.agent w.agent
      (∃ t, exec (.readPhaseEnd .addressNack) s = .next t ∧ PollFailed (s.onBus free) t w .addressNack)
      ∧ (∀ bytes e, checkReading bytes = .failed e ∨ w.discard = true →
          ∃ t, exec (.readPhaseEnd (.reading bytes)) s = .next t ∧ PollFailed (s.onBus free) t w e)
      ∧ (∀ bytes time u status vt ownU, w.discard = false → checkReading bytes = .good time u status →
          w.mark = some (vt, ownU) →
          let offset : Int := max (-9223372036854775807) (min 9223372036854775807
            ((time : Int) - vt - x.config.latency))
          let conforms : Prop := offset.natAbs + u + ownU ≤ x.config.limit ∧ status = .traceable
            ∧ s.osc - w.markCount ≤ 3 * x.config.periodCounts
          ∃ v st, exec (.readPhaseEnd (.reading bytes)) s = .next (pollSchedule v)
            ∧ (conforms → st = .conforming) ∧ (¬ conforms → st = .divergent)
            ∧ AgentMoved (s.onBus free) v w.agent
                { x.movedOn s.osc with
                  reading := some ⟨vt, ownU, time, u, status, offset, w.markCount⟩
                  failures := 0
                  lastError := none
                  counters := { x.counters with good := sat32 x.counters.good } } st .reading []))
    ∧ (∀ (a : Fin 8) (r : Reading), (s.agent a).reading = some r →
        (s.agent a).state = .conforming ∨ (s.agent a).state = .divergent →
        (3 * (s.agent a).config.periodCounts < s.osc - r.markCount →
          ∃ t, exec (.stale a) s = .next t ∧ AgentMoved s t a (s.agent a) .stale .stale [])
        ∧ (s.osc - r.markCount ≤ 3 * (s.agent a).config.periodCounts → exec (.stale a) s = .next s)))
  ∧ (∀ (x : Agent) (osc d : Nat), x.nextDue = some d → 0 < x.config.periodMs →
      ∃ k, x.movedOn osc = { x with nextDue := some (d + (k + 1) * (x.config.periodMs * 125000)) }
        ∧ osc < d + (k + 1) * (x.config.periodMs * 125000) ∧ (k = 0 ∨ d + k * (x.config.periodMs * 125000) ≤ osc))
  ∧ (∀ (second ns u : Nat) (status spare : Byte), second < 1099511627776 → ns < 4294967296 → u < 4294967296 →
      let fields := be 5 second ++ be 4 ns ++ be 4 u ++ [status, spare]
      (∀ c, c ≠ crc8 fields → checkReading (fields ++ [c]) = .failed .checkFail)
      ∧ (999999999 < ns ∨ status = 0 ∨ 3 < status.toNat → checkReading (fields ++ [crc8 fields]) = .failed .checkFail)
      ∧ (ns ≤ 999999999 →
          (status = 1#8 → checkReading (fields ++ [crc8 fields]) = .good (second * 1000000000 + ns) u .traceable)
          ∧ (status = 2#8 → checkReading (fields ++ [crc8 fields]) = .good (second * 1000000000 + ns) u .untraceable)
          ∧ (status = 3#8 → checkReading (fields ++ [crc8 fields]) = .failed .notReady)))

/-- R143 to R145: a lost arbitration is tried again up to the third attempt; a bus error ends the transaction and halts the
survey; a clock held low for more than 25 ms fails the poll and clears the bus.  R134, R135: the bus follows its lines, other
parties' conditions and its timer, and is cleared when held low; when it becomes IDLE the transaction in flight goes on, or the
scheduler decides.  The phase MARK between two attempts is the model's choice (log 24), as is
the discarded count of a bus error (log 23); the levels the model takes the lines to have,
the parts of the clearing, and the bus timer of a phase of the part's own, which runs from the last change of the lines shown to
the model, are log 24; the agent in the subject byte alone of a SURVEY_HALT record is log 30. -/
def Obligations.PeerBusEventsTakeEffect : Prop :=
  (∀ s : State, s.live = true →
    let p := s.psm
    let foreign (clock data : Bool) : Psm :=
      { p with bus := .foreign, timer := some s.osc, clockHigh := clock, dataHigh := data }
    let free : Psm := { p with bus := .idle, timer := none, clockHigh := true, dataHigh := true }
    (∀ w, p.txn = some w → p.bus = .own →
      let x := s.agent w.agent
      let c := x.counters
      let lost : Agent := { x with counters := { c with arbitrationLosses := sat32 c.arbitrationLosses } }
      let discarded : Agent :=
        if w.discard then { x with counters := { c with discarded := sat32 c.discarded } } else x
      let halting (q : Psm) : Psm :=
        { q with survey := .halted, halt := some ⟨w.agent, w.phase, s.now⟩, busErrors := sat32 p.busErrors }
      let halted (q : Psm) : State :=
        (s.onBus (halting q)).setAgent w.agent { discarded with lastError := some .busError }
      let r : Record := ⟨.surveyHalt, w.agent.val, s.now, be 1 w.phase.code ++ be 1 w.attempt ++ beVt s.now⟩
      let again : Txn := { w with attempt := w.attempt + 1, phase := .mark, mark := none, bytes := [], waiting := true }
      (w.discard = true → exec .arbitrationLost s = .next ((s.onBus (foreign true false)).setAgent w.agent discarded))
      ∧ (w.discard = false → w.attempt < 3 → exec .arbitrationLost s = .next
          (({ s with psm := { foreign true false with txn := some again } } : State).setAgent w.agent lost))
      ∧ (w.discard = false → 3 ≤ w.attempt → ∃ t, exec .arbitrationLost s = .next t
          ∧ PollFailed ((s.onBus (foreign true false)).setAgent w.agent lost) t w .arbitrationLost)
      ∧ (∀ isStart, ∃ t, exec (.busError isStart) s = .next t
          ∧ Handed (halted (if isStart then foreign true false else free)) t ∧ Offered s t r
          ∧ Noticed s t .surveyHalt s.now (.agent w.agent.val) (be 1 w.phase.code ++ be 1 w.attempt))
      ∧ (∀ dataHigh n, p.clockHigh = false → p.timer = some n →
          (n + 3125000 < s.osc → ∃ t, exec (.clockLowTimeout dataHigh) s = .next t
            ∧ PollFailed (s.onBus { p with
                bus := .clearing, timer := some s.osc, clockHigh := false, dataHigh := dataHigh, clearing := .waitClock })
              t w .timeout)
          ∧ (s.osc ≤ n + 3125000 → exec (.clockLowTimeout dataHigh) s = .next s))
      ∧ (∀ dataHigh, p.clockHigh = true → exec (.clockLowTimeout dataHigh) s = .next s))
    ∧ (∀ clock data : Bool,
      let cleared : Psm := { p with
        timer := some s.osc, clockHigh := clock, dataHigh := data,
        clearing := if p.clearing = .waitClock ∧ clock then .freeing else p.clearing }
      (p.bus = .idle → exec (.startConditionSeen clock data) s = .next { s with psm := foreign clock data }
        ∧ exec (.busLineChange clock data) s
            = .next (if clock && data then s else { s with psm := foreign clock data }))
      ∧ (p.bus = .foreign → exec (.startConditionSeen clock data) s = .next { s with psm := foreign clock data }
        ∧ exec (.busLineChange clock data) s = .next { s with psm := foreign clock data })
      ∧ (p.bus = .clearing → exec (.startConditionSeen clock data) s = .next { s with psm := cleared }
        ∧ exec (.busLineChange clock data) s = .next { s with psm := cleared })
      ∧ (p.bus = .own → exec (.startConditionSeen clock data) s = .next s
        ∧ exec (.busLineChange clock data) s
            = .next { s with psm := { p with clockHigh := clock, dataHigh := data, timer := some s.osc } }
        ∧ exec .stopConditionSeen s = .next s))
    ∧ (p.bus = .foreign ∨ p.bus = .clearing → exec .stopConditionSeen s = .next (busIdled { s with psm := free }))
    ∧ (∀ n, p.timer = some n →
      let clears : Psm := { p with
        bus := .clearing, timer := some s.osc, clearing := if p.clockHigh then .freeing else .waitClock }
      (s.osc < n + 3125000 → exec .busTimerExpiry s = .next s)
      ∧ (n + 3125000 ≤ s.osc → p.bus = .foreign →
        (p.clockHigh = true ∧ p.dataHigh = true → exec .busTimerExpiry s = .next (busIdled { s with psm := free }))
        ∧ (p.clockHigh = false ∨ p.dataHigh = false → exec .busTimerExpiry s = .next { s with psm := clears }))
      ∧ (n + 3125000 ≤ s.osc → p.bus = .clearing → p.clearing = .resting →
          exec .busTimerExpiry s = .next { s with psm := clears }))
    ∧ (p.bus = .clearing → p.clearing = .freeing →
        exec .clearingStopSent s = .next (busIdled { s with psm := free })
        ∧ exec .ninthClearingPulse s = .next { s with psm := { p with
            timer := some s.osc, clockHigh := true, dataHigh := false, clearing := .resting } }))
  ∧ (∀ u : State, u.psm.bus = .idle →
      let own (sent : Nat) : Psm := { u.psm with
        bus := .own, timer := some u.osc, clockHigh := true, dataHigh := false, sent := [BitVec.ofNat 8 sent] }
      (u.psm.txn = none → busIdled u = pollSchedule u)
      ∧ (∀ w, u.psm.txn = some w →
        (w.waiting = true →
          busIdled u = { u with psm := { own (2 * w.address) with
            txn := some { w with phase := .mark, waiting := false } } })
        ∧ (w.waiting = false → w.phase = .gap → w.markCount + 125000 ≤ u.osc →
            busIdled u = { u with psm := { own (2 * w.address + 1) with
              txn := some { w with phase := .read, waiting := false } } })
        ∧ (w.waiting = false → w.phase ≠ .gap ∨ u.osc < w.markCount + 125000 → busIdled u = u)))

/-! ## Encodings -/

/-- R175: the four checks over the nine bytes of the text 123456789, a number read back from its bytes, and the lengths of a
return frame's data and of a record.  R12, R86, R106: civil time to VT and back, with the civil times that have no VT, and the VT
such a time takes when it is converted again; the day numbers of the Gregorian calendar from 2000-01-01 on, and the date of each.
An instant outside the timescale is a free value (log 5). -/
def Obligations.EncodingsFollowTheirRule : Prop :=
  let text : List Byte := [0x31#8, 0x32#8, 0x33#8, 0x34#8, 0x35#8, 0x36#8, 0x37#8, 0x38#8, 0x39#8]
  crc16 text = 0x29B1#16 ∧ crc8 text = 0xF4#8 ∧ crc32 0 text = 0x89A1897F#32 ∧ crc64 text = 0x6C40DF5F0B497347#64
    ∧ (∀ n x : Nat, x < 256 ^ n → (be n x).length = n ∧ fromBe (be n x) = x)
    ∧ (∀ (prev : Chain) (r : Record) (epoch serial slot : Nat), r.body.length ≤ 40 →
        (recordBytes prev r epoch serial slot).length = 64)
    ∧ (∀ (t : Tsu) (c : Civil),
        let d : Int := (t.day + 1) * 86400 + t.leapCount
        let change (day : Int) : Int :=
          if day ≤ t.day then 0 else if t.pendingLeap = .insert then 1 else if t.pendingLeap = .delete then -1 else 0
        let none_ : Prop := (86400000000000 ≤ c.ns ∧ ¬ (c.day = t.day ∧ t.pendingLeap = .insert))
          ∨ (86399000000000 ≤ c.ns ∧ c.day = t.day ∧ t.pendingLeap = .delete)
        (none_ → t.fromCivil c = none
          ∧ t.fromCivilNext c = vtOfInt (((c.day + 1) * 86400 + t.leapCount + change (c.day + 1)) * 1000000000))
        ∧ (¬ none_ → c.ns < 86400000000000 →
            t.fromCivil c = some (vtOfInt ((c.day * 86400 + t.leapCount + change c.day) * 1000000000 + c.ns)))
        ∧ (¬ none_ → 86400000000000 ≤ c.ns →
            t.fromCivil c = some (vtOfInt (d * 1000000000 + (c.ns - 86400000000000 : Nat))))
        ∧ (∀ v, t.fromCivil c = some v → t.fromCivilNext c = v))
    ∧ (∀ (t : Tsu) (v : Nat),
        let d : Int := (t.day + 1) * 86400 + t.leapCount
        let sec : Int := (v / 1000000000 : Nat)
        let read (x : Int) : Civil := { day := x / 86400, ns := (x % 86400).toNat * 1000000000 + v % 1000000000 }
        (t.pendingLeap = .noLeap → t.toCivil v = read (sec - t.leapCount))
        ∧ (t.pendingLeap = .insert →
            (sec < d → t.toCivil v = read (sec - t.leapCount))
            ∧ (sec = d → t.toCivil v = { day := t.day, ns := 86400000000000 + v % 1000000000 })
            ∧ (d < sec → t.toCivil v = read (sec - t.leapCount - 1)))
        ∧ (t.pendingLeap = .delete →
            (sec < d - 1 → t.toCivil v = read (sec - t.leapCount))
            ∧ (d - 1 ≤ sec → t.toCivil v = read (sec - t.leapCount + 1))))
    ∧ (let days (y m : Nat) : Nat :=
        if m = 2 then (if (y % 4 = 0 ∧ y % 100 ≠ 0) ∨ y % 400 = 0 then 29 else 28)
        else if m = 4 ∨ m = 6 ∨ m = 9 ∨ m = 11 then 30 else 31
       dayNumber 2000 1 1 = 0
        ∧ ∀ y m d : Nat, 2000 ≤ y → 1 ≤ m → m ≤ 12 → 1 ≤ d → d ≤ days y m →
          dayNumber y m (d + 1) = dayNumber y m d + 1
            ∧ (m < 12 → dayNumber y (m + 1) 1 = dayNumber y m (days y m) + 1)
            ∧ dayNumber (y + 1) 1 1 = dayNumber y 12 31 + 1
            ∧ dateOf (dayNumber y m d) = ((y : Int), m, d)
            ∧ ∀ hour minute second milli, CivilArgs.toCivil ⟨y, m, d, hour, minute, second, milli⟩ =
                { day := dayNumber y m d, ns := (((hour * 60 + minute) * 60 + second) * 1000 + milli) * 1000000 })

end
end

