-- ==== Sys2Proof/Laws/State.lean ====
section
/-!
SUPPORT. Laws/State.lean: reading after updating: one lemma for each field of `State` and each table update, all of them true by
definition, and what a table entry reads as after its own or another entry is replaced.
-/
namespace Sys2Proof.Machine

/-! ## setLine -/

@[simp] theorem setLine_pending (s : State) (i : Fin 8) (x : Line) : (s.setLine i x).pending = s.pending := rfl
@[simp] theorem setLine_supply (s : State) (i : Fin 8) (x : Line) : (s.setLine i x).supply = s.supply := rfl
@[simp] theorem setLine_resetLow (s : State) (i : Fin 8) (x : Line) : (s.setLine i x).resetLow = s.resetLow := rfl
@[simp] theorem setLine_powerOwed (s : State) (i : Fin 8) (x : Line) : (s.setLine i x).powerOwed = s.powerOwed := rfl
@[simp] theorem setLine_osc (s : State) (i : Fin 8) (x : Line) : (s.setLine i x).osc = s.osc := rfl
@[simp] theorem setLine_restarts (s : State) (i : Fin 8) (x : Line) : (s.setLine i x).restarts = s.restarts := rfl
@[simp] theorem setLine_tsu (s : State) (i : Fin 8) (x : Line) : (s.setLine i x).tsu = s.tsu := rfl
@[simp] theorem setLine_rfe (s : State) (i : Fin 8) (x : Line) : (s.setLine i x).rfe = s.rfe := rfl
@[simp] theorem setLine_sis (s : State) (i : Fin 8) (x : Line) : (s.setLine i x).sis = s.sis := rfl
@[simp] theorem setLine_auc (s : State) (i : Fin 8) (x : Line) : (s.setLine i x).auc = s.auc := rfl
@[simp] theorem setLine_ej (s : State) (i : Fin 8) (x : Line) : (s.setLine i x).ej = s.ej := rfl
@[simp] theorem setLine_psm (s : State) (i : Fin 8) (x : Line) : (s.setLine i x).psm = s.psm := rfl
@[simp] theorem setLine_hli (s : State) (i : Fin 8) (x : Line) : (s.setLine i x).hli = s.hli := rfl
@[simp] theorem setLine_line_self (s : State) (i : Fin 8) (x : Line) : (s.setLine i x).line i = x := by
  simp [State.setLine, State.line]
theorem setLine_line_ne (s : State) (i : Fin 8) (x : Line) (i' : Fin 8) (h : i' ≠ i) : (s.setLine i x).line i' = s.line i' := by
  have h' : i.val ≠ i'.val := fun e => h (Fin.ext e.symm)
  simp [State.setLine, State.line, Vector.getElem_set_ne _ _ h']
theorem setLine_line (s : State) (i : Fin 8) (x : Line) (i' : Fin 8) : (s.setLine i x).line i' = if i' = i then x else s.line i' := by
  by_cases h : i' = i
  · subst h; simp
  · simp [h, setLine_line_ne]
@[simp] theorem setLine_group (s : State) (i : Fin 8) (x : Line) (g' : Fin 32) : (s.setLine i x).group g' = s.group g' := rfl
@[simp] theorem setLine_ref (s : State) (i : Fin 8) (x : Line) (i' : Fin 3) : (s.setLine i x).ref i' = s.ref i' := rfl
@[simp] theorem setLine_page (s : State) (i : Fin 8) (x : Line) (p' : Fin 64) : (s.setLine i x).page p' = s.page p' := rfl
@[simp] theorem setLine_agent (s : State) (i : Fin 8) (x : Line) (a' : Fin 8) : (s.setLine i x).agent a' = s.agent a' := rfl
@[simp] theorem setLine_live (s : State) (i : Fin 8) (x : Line) : (s.setLine i x).live = s.live := rfl
@[simp] theorem setLine_now (s : State) (i : Fin 8) (x : Line) : (s.setLine i x).now = s.now := rfl

/-! ## setGroup -/

@[simp] theorem setGroup_pending (s : State) (g : Fin 32) (x : Auction) : (s.setGroup g x).pending = s.pending := rfl
@[simp] theorem setGroup_supply (s : State) (g : Fin 32) (x : Auction) : (s.setGroup g x).supply = s.supply := rfl
@[simp] theorem setGroup_resetLow (s : State) (g : Fin 32) (x : Auction) : (s.setGroup g x).resetLow = s.resetLow := rfl
@[simp] theorem setGroup_powerOwed (s : State) (g : Fin 32) (x : Auction) : (s.setGroup g x).powerOwed = s.powerOwed := rfl
@[simp] theorem setGroup_osc (s : State) (g : Fin 32) (x : Auction) : (s.setGroup g x).osc = s.osc := rfl
@[simp] theorem setGroup_restarts (s : State) (g : Fin 32) (x : Auction) : (s.setGroup g x).restarts = s.restarts := rfl
@[simp] theorem setGroup_tsu (s : State) (g : Fin 32) (x : Auction) : (s.setGroup g x).tsu = s.tsu := rfl
@[simp] theorem setGroup_rfe (s : State) (g : Fin 32) (x : Auction) : (s.setGroup g x).rfe = s.rfe := rfl
@[simp] theorem setGroup_lines (s : State) (g : Fin 32) (x : Auction) : (s.setGroup g x).lines = s.lines := rfl
@[simp] theorem setGroup_sis (s : State) (g : Fin 32) (x : Auction) : (s.setGroup g x).sis = s.sis := rfl
@[simp] theorem setGroup_ej (s : State) (g : Fin 32) (x : Auction) : (s.setGroup g x).ej = s.ej := rfl
@[simp] theorem setGroup_psm (s : State) (g : Fin 32) (x : Auction) : (s.setGroup g x).psm = s.psm := rfl
@[simp] theorem setGroup_hli (s : State) (g : Fin 32) (x : Auction) : (s.setGroup g x).hli = s.hli := rfl
@[simp] theorem setGroup_auc_deadlines (s : State) (g : Fin 32) (x : Auction) : (s.setGroup g x).auc.deadlines = s.auc.deadlines := rfl
@[simp] theorem setGroup_auc_traceableView (s : State) (g : Fin 32) (x : Auction) : (s.setGroup g x).auc.traceableView = s.auc.traceableView := rfl
@[simp] theorem setGroup_auc_journalView (s : State) (g : Fin 32) (x : Auction) : (s.setGroup g x).auc.journalView = s.auc.journalView := rfl
@[simp] theorem setGroup_auc_draws (s : State) (g : Fin 32) (x : Auction) : (s.setGroup g x).auc.draws = s.auc.draws := rfl
@[simp] theorem setGroup_line (s : State) (g : Fin 32) (x : Auction) (i' : Fin 8) : (s.setGroup g x).line i' = s.line i' := rfl
@[simp] theorem setGroup_group_self (s : State) (g : Fin 32) (x : Auction) : (s.setGroup g x).group g = x := by
  simp [State.setGroup, State.group]
theorem setGroup_group_ne (s : State) (g : Fin 32) (x : Auction) (g' : Fin 32) (h : g' ≠ g) : (s.setGroup g x).group g' = s.group g' := by
  have h' : g.val ≠ g'.val := fun e => h (Fin.ext e.symm)
  simp [State.setGroup, State.group, Vector.getElem_set_ne _ _ h']
theorem setGroup_group (s : State) (g : Fin 32) (x : Auction) (g' : Fin 32) : (s.setGroup g x).group g' = if g' = g then x else s.group g' := by
  by_cases h : g' = g
  · subst h; simp
  · simp [h, setGroup_group_ne]
@[simp] theorem setGroup_ref (s : State) (g : Fin 32) (x : Auction) (i' : Fin 3) : (s.setGroup g x).ref i' = s.ref i' := rfl
@[simp] theorem setGroup_page (s : State) (g : Fin 32) (x : Auction) (p' : Fin 64) : (s.setGroup g x).page p' = s.page p' := rfl
@[simp] theorem setGroup_agent (s : State) (g : Fin 32) (x : Auction) (a' : Fin 8) : (s.setGroup g x).agent a' = s.agent a' := rfl
@[simp] theorem setGroup_live (s : State) (g : Fin 32) (x : Auction) : (s.setGroup g x).live = s.live := rfl
@[simp] theorem setGroup_now (s : State) (g : Fin 32) (x : Auction) : (s.setGroup g x).now = s.now := rfl

/-! ## setRef -/

@[simp] theorem setRef_pending (s : State) (i : Fin 3) (x : Ref) : (s.setRef i x).pending = s.pending := rfl
@[simp] theorem setRef_supply (s : State) (i : Fin 3) (x : Ref) : (s.setRef i x).supply = s.supply := rfl
@[simp] theorem setRef_resetLow (s : State) (i : Fin 3) (x : Ref) : (s.setRef i x).resetLow = s.resetLow := rfl
@[simp] theorem setRef_powerOwed (s : State) (i : Fin 3) (x : Ref) : (s.setRef i x).powerOwed = s.powerOwed := rfl
@[simp] theorem setRef_osc (s : State) (i : Fin 3) (x : Ref) : (s.setRef i x).osc = s.osc := rfl
@[simp] theorem setRef_restarts (s : State) (i : Fin 3) (x : Ref) : (s.setRef i x).restarts = s.restarts := rfl
@[simp] theorem setRef_tsu (s : State) (i : Fin 3) (x : Ref) : (s.setRef i x).tsu = s.tsu := rfl
@[simp] theorem setRef_lines (s : State) (i : Fin 3) (x : Ref) : (s.setRef i x).lines = s.lines := rfl
@[simp] theorem setRef_sis (s : State) (i : Fin 3) (x : Ref) : (s.setRef i x).sis = s.sis := rfl
@[simp] theorem setRef_auc (s : State) (i : Fin 3) (x : Ref) : (s.setRef i x).auc = s.auc := rfl
@[simp] theorem setRef_ej (s : State) (i : Fin 3) (x : Ref) : (s.setRef i x).ej = s.ej := rfl
@[simp] theorem setRef_psm (s : State) (i : Fin 3) (x : Ref) : (s.setRef i x).psm = s.psm := rfl
@[simp] theorem setRef_hli (s : State) (i : Fin 3) (x : Ref) : (s.setRef i x).hli = s.hli := rfl
@[simp] theorem setRef_rfe_selected (s : State) (i : Fin 3) (x : Ref) : (s.setRef i x).rfe.selected = s.rfe.selected := rfl
@[simp] theorem setRef_rfe_disagree (s : State) (i : Fin 3) (x : Ref) : (s.setRef i x).rfe.disagree = s.rfe.disagree := rfl
@[simp] theorem setRef_line (s : State) (i : Fin 3) (x : Ref) (i' : Fin 8) : (s.setRef i x).line i' = s.line i' := rfl
@[simp] theorem setRef_group (s : State) (i : Fin 3) (x : Ref) (g' : Fin 32) : (s.setRef i x).group g' = s.group g' := rfl
@[simp] theorem setRef_ref_self (s : State) (i : Fin 3) (x : Ref) : (s.setRef i x).ref i = x := by
  simp [State.setRef, State.ref]
theorem setRef_ref_ne (s : State) (i : Fin 3) (x : Ref) (i' : Fin 3) (h : i' ≠ i) : (s.setRef i x).ref i' = s.ref i' := by
  have h' : i.val ≠ i'.val := fun e => h (Fin.ext e.symm)
  simp [State.setRef, State.ref, Vector.getElem_set_ne _ _ h']
theorem setRef_ref (s : State) (i : Fin 3) (x : Ref) (i' : Fin 3) : (s.setRef i x).ref i' = if i' = i then x else s.ref i' := by
  by_cases h : i' = i
  · subst h; simp
  · simp [h, setRef_ref_ne]
@[simp] theorem setRef_page (s : State) (i : Fin 3) (x : Ref) (p' : Fin 64) : (s.setRef i x).page p' = s.page p' := rfl
@[simp] theorem setRef_agent (s : State) (i : Fin 3) (x : Ref) (a' : Fin 8) : (s.setRef i x).agent a' = s.agent a' := rfl
@[simp] theorem setRef_live (s : State) (i : Fin 3) (x : Ref) : (s.setRef i x).live = s.live := rfl
@[simp] theorem setRef_now (s : State) (i : Fin 3) (x : Ref) : (s.setRef i x).now = s.now := rfl

/-! ## setPage -/

@[simp] theorem setPage_pending (s : State) (p : Fin 64) (x : Page) : (s.setPage p x).pending = s.pending := rfl
@[simp] theorem setPage_supply (s : State) (p : Fin 64) (x : Page) : (s.setPage p x).supply = s.supply := rfl
@[simp] theorem setPage_resetLow (s : State) (p : Fin 64) (x : Page) : (s.setPage p x).resetLow = s.resetLow := rfl
@[simp] theorem setPage_powerOwed (s : State) (p : Fin 64) (x : Page) : (s.setPage p x).powerOwed = s.powerOwed := rfl
@[simp] theorem setPage_osc (s : State) (p : Fin 64) (x : Page) : (s.setPage p x).osc = s.osc := rfl
@[simp] theorem setPage_restarts (s : State) (p : Fin 64) (x : Page) : (s.setPage p x).restarts = s.restarts := rfl
@[simp] theorem setPage_tsu (s : State) (p : Fin 64) (x : Page) : (s.setPage p x).tsu = s.tsu := rfl
@[simp] theorem setPage_rfe (s : State) (p : Fin 64) (x : Page) : (s.setPage p x).rfe = s.rfe := rfl
@[simp] theorem setPage_lines (s : State) (p : Fin 64) (x : Page) : (s.setPage p x).lines = s.lines := rfl
@[simp] theorem setPage_sis (s : State) (p : Fin 64) (x : Page) : (s.setPage p x).sis = s.sis := rfl
@[simp] theorem setPage_auc (s : State) (p : Fin 64) (x : Page) : (s.setPage p x).auc = s.auc := rfl
@[simp] theorem setPage_psm (s : State) (p : Fin 64) (x : Page) : (s.setPage p x).psm = s.psm := rfl
@[simp] theorem setPage_hli (s : State) (p : Fin 64) (x : Page) : (s.setPage p x).hli = s.hli := rfl
@[simp] theorem setPage_ej_state (s : State) (p : Fin 64) (x : Page) : (s.setPage p x).ej.state = s.ej.state := rfl
@[simp] theorem setPage_ej_intake (s : State) (p : Fin 64) (x : Page) : (s.setPage p x).ej.intake = s.ej.intake := rfl
@[simp] theorem setPage_ej_writer (s : State) (p : Fin 64) (x : Page) : (s.setPage p x).ej.writer = s.ej.writer := rfl
@[simp] theorem setPage_ej_rewriteOwed (s : State) (p : Fin 64) (x : Page) : (s.setPage p x).ej.rewriteOwed = s.ej.rewriteOwed := rfl
@[simp] theorem setPage_ej_gapOwed (s : State) (p : Fin 64) (x : Page) : (s.setPage p x).ej.gapOwed = s.ej.gapOwed := rfl
@[simp] theorem setPage_ej_openPage (s : State) (p : Fin 64) (x : Page) : (s.setPage p x).ej.openPage = s.ej.openPage := rfl
@[simp] theorem setPage_ej_closeRequested (s : State) (p : Fin 64) (x : Page) : (s.setPage p x).ej.closeRequested = s.ej.closeRequested := rfl
@[simp] theorem setPage_ej_nextIndex (s : State) (p : Fin 64) (x : Page) : (s.setPage p x).ej.nextIndex = s.ej.nextIndex := rfl
@[simp] theorem setPage_ej_chain (s : State) (p : Fin 64) (x : Page) : (s.setPage p x).ej.chain = s.ej.chain := rfl
@[simp] theorem setPage_ej_epoch (s : State) (p : Fin 64) (x : Page) : (s.setPage p x).ej.epoch = s.ej.epoch := rfl
@[simp] theorem setPage_ej_nextSerial (s : State) (p : Fin 64) (x : Page) : (s.setPage p x).ej.nextSerial = s.ej.nextSerial := rfl
@[simp] theorem setPage_ej_criticalLost (s : State) (p : Fin 64) (x : Page) : (s.setPage p x).ej.criticalLost = s.ej.criticalLost := rfl
@[simp] theorem setPage_ej_nonCriticalLost (s : State) (p : Fin 64) (x : Page) : (s.setPage p x).ej.nonCriticalLost = s.ej.nonCriticalLost := rfl
@[simp] theorem setPage_ej_firstLoss (s : State) (p : Fin 64) (x : Page) : (s.setPage p x).ej.firstLoss = s.ej.firstLoss := rfl
@[simp] theorem setPage_ej_eraseQueue (s : State) (p : Fin 64) (x : Page) : (s.setPage p x).ej.eraseQueue = s.ej.eraseQueue := rfl
@[simp] theorem setPage_ej_restartCause (s : State) (p : Fin 64) (x : Page) : (s.setPage p x).ej.restartCause = s.ej.restartCause := rfl
@[simp] theorem setPage_ej_storedEpoch (s : State) (p : Fin 64) (x : Page) : (s.setPage p x).ej.storedEpoch = s.ej.storedEpoch := rfl
@[simp] theorem setPage_line (s : State) (p : Fin 64) (x : Page) (i' : Fin 8) : (s.setPage p x).line i' = s.line i' := rfl
@[simp] theorem setPage_group (s : State) (p : Fin 64) (x : Page) (g' : Fin 32) : (s.setPage p x).group g' = s.group g' := rfl
@[simp] theorem setPage_ref (s : State) (p : Fin 64) (x : Page) (i' : Fin 3) : (s.setPage p x).ref i' = s.ref i' := rfl
@[simp] theorem setPage_page_self (s : State) (p : Fin 64) (x : Page) : (s.setPage p x).page p = x := by
  simp [State.setPage, State.page]
theorem setPage_page_ne (s : State) (p : Fin 64) (x : Page) (p' : Fin 64) (h : p' ≠ p) : (s.setPage p x).page p' = s.page p' := by
  have h' : p.val ≠ p'.val := fun e => h (Fin.ext e.symm)
  simp [State.setPage, State.page, Vector.getElem_set_ne _ _ h']
theorem setPage_page (s : State) (p : Fin 64) (x : Page) (p' : Fin 64) : (s.setPage p x).page p' = if p' = p then x else s.page p' := by
  by_cases h : p' = p
  · subst h; simp
  · simp [h, setPage_page_ne]
@[simp] theorem setPage_agent (s : State) (p : Fin 64) (x : Page) (a' : Fin 8) : (s.setPage p x).agent a' = s.agent a' := rfl
@[simp] theorem setPage_live (s : State) (p : Fin 64) (x : Page) : (s.setPage p x).live = s.live := rfl
@[simp] theorem setPage_now (s : State) (p : Fin 64) (x : Page) : (s.setPage p x).now = s.now := rfl

/-! ## setAgent -/

@[simp] theorem setAgent_pending (s : State) (a : Fin 8) (x : Agent) : (s.setAgent a x).pending = s.pending := rfl
@[simp] theorem setAgent_supply (s : State) (a : Fin 8) (x : Agent) : (s.setAgent a x).supply = s.supply := rfl
@[simp] theorem setAgent_resetLow (s : State) (a : Fin 8) (x : Agent) : (s.setAgent a x).resetLow = s.resetLow := rfl
@[simp] theorem setAgent_powerOwed (s : State) (a : Fin 8) (x : Agent) : (s.setAgent a x).powerOwed = s.powerOwed := rfl
@[simp] theorem setAgent_osc (s : State) (a : Fin 8) (x : Agent) : (s.setAgent a x).osc = s.osc := rfl
@[simp] theorem setAgent_restarts (s : State) (a : Fin 8) (x : Agent) : (s.setAgent a x).restarts = s.restarts := rfl
@[simp] theorem setAgent_tsu (s : State) (a : Fin 8) (x : Agent) : (s.setAgent a x).tsu = s.tsu := rfl
@[simp] theorem setAgent_rfe (s : State) (a : Fin 8) (x : Agent) : (s.setAgent a x).rfe = s.rfe := rfl
@[simp] theorem setAgent_lines (s : State) (a : Fin 8) (x : Agent) : (s.setAgent a x).lines = s.lines := rfl
@[simp] theorem setAgent_sis (s : State) (a : Fin 8) (x : Agent) : (s.setAgent a x).sis = s.sis := rfl
@[simp] theorem setAgent_auc (s : State) (a : Fin 8) (x : Agent) : (s.setAgent a x).auc = s.auc := rfl
@[simp] theorem setAgent_ej (s : State) (a : Fin 8) (x : Agent) : (s.setAgent a x).ej = s.ej := rfl
@[simp] theorem setAgent_hli (s : State) (a : Fin 8) (x : Agent) : (s.setAgent a x).hli = s.hli := rfl
@[simp] theorem setAgent_psm_survey (s : State) (a : Fin 8) (x : Agent) : (s.setAgent a x).psm.survey = s.psm.survey := rfl
@[simp] theorem setAgent_psm_bus (s : State) (a : Fin 8) (x : Agent) : (s.setAgent a x).psm.bus = s.psm.bus := rfl
@[simp] theorem setAgent_psm_timer (s : State) (a : Fin 8) (x : Agent) : (s.setAgent a x).psm.timer = s.psm.timer := rfl
@[simp] theorem setAgent_psm_txn (s : State) (a : Fin 8) (x : Agent) : (s.setAgent a x).psm.txn = s.psm.txn := rfl
@[simp] theorem setAgent_psm_halt (s : State) (a : Fin 8) (x : Agent) : (s.setAgent a x).psm.halt = s.psm.halt := rfl
@[simp] theorem setAgent_psm_busErrors (s : State) (a : Fin 8) (x : Agent) : (s.setAgent a x).psm.busErrors = s.psm.busErrors := rfl
@[simp] theorem setAgent_psm_clockHigh (s : State) (a : Fin 8) (x : Agent) : (s.setAgent a x).psm.clockHigh = s.psm.clockHigh := rfl
@[simp] theorem setAgent_psm_dataHigh (s : State) (a : Fin 8) (x : Agent) : (s.setAgent a x).psm.dataHigh = s.psm.dataHigh := rfl
@[simp] theorem setAgent_psm_clearing (s : State) (a : Fin 8) (x : Agent) : (s.setAgent a x).psm.clearing = s.psm.clearing := rfl
@[simp] theorem setAgent_psm_sent (s : State) (a : Fin 8) (x : Agent) : (s.setAgent a x).psm.sent = s.psm.sent := rfl
@[simp] theorem setAgent_line (s : State) (a : Fin 8) (x : Agent) (i' : Fin 8) : (s.setAgent a x).line i' = s.line i' := rfl
@[simp] theorem setAgent_group (s : State) (a : Fin 8) (x : Agent) (g' : Fin 32) : (s.setAgent a x).group g' = s.group g' := rfl
@[simp] theorem setAgent_ref (s : State) (a : Fin 8) (x : Agent) (i' : Fin 3) : (s.setAgent a x).ref i' = s.ref i' := rfl
@[simp] theorem setAgent_page (s : State) (a : Fin 8) (x : Agent) (p' : Fin 64) : (s.setAgent a x).page p' = s.page p' := rfl
@[simp] theorem setAgent_agent_self (s : State) (a : Fin 8) (x : Agent) : (s.setAgent a x).agent a = x := by
  simp [State.setAgent, State.agent]
theorem setAgent_agent_ne (s : State) (a : Fin 8) (x : Agent) (a' : Fin 8) (h : a' ≠ a) : (s.setAgent a x).agent a' = s.agent a' := by
  have h' : a.val ≠ a'.val := fun e => h (Fin.ext e.symm)
  simp [State.setAgent, State.agent, Vector.getElem_set_ne _ _ h']
theorem setAgent_agent (s : State) (a : Fin 8) (x : Agent) (a' : Fin 8) : (s.setAgent a x).agent a' = if a' = a then x else s.agent a' := by
  by_cases h : a' = a
  · subst h; simp
  · simp [h, setAgent_agent_ne]
@[simp] theorem setAgent_live (s : State) (a : Fin 8) (x : Agent) : (s.setAgent a x).live = s.live := rfl
@[simp] theorem setAgent_now (s : State) (a : Fin 8) (x : Agent) : (s.setAgent a x).now = s.now := rfl

end Sys2Proof.Machine
end

