-- ==== Sys2Proof/Laws/Deadlines.lean ====
section
/-!
SUPPORT. Laws/Deadlines.lean: the order of the deadline list is a strict order, insertion keeps it, and the list goes on following the
groups when an entry is replaced with its deadlines (R84).
-/
namespace Sys2Proof.Machine

theorem before_iff (d e : Deadline) :
    d.before e = true ↔ d.instant < e.instant ∨ (d.instant = e.instant ∧
      (d.group.val < e.group.val ∨ (d.group = e.group ∧ d.kind.ctorIdx < e.kind.ctorIdx))) := by
  simp [Deadline.before]

theorem before_trans {d e f : Deadline} (h1 : d.before e = true) (h2 : e.before f = true) : d.before f = true := by
  rw [before_iff] at *
  rcases h1 with h1 | ⟨h1, h1 | ⟨h1, h1'⟩⟩ <;> rcases h2 with h2 | ⟨h2, h2 | ⟨h2, h2'⟩⟩
  · exact .inl (by omega)
  · exact .inl (by omega)
  · exact .inl (by omega)
  · exact .inl (by omega)
  · exact .inr ⟨by omega, .inl (by omega)⟩
  · exact .inr ⟨by omega, .inl (by rw [← h2]; exact h1)⟩
  · exact .inl (by omega)
  · exact .inr ⟨by omega, .inl (by rw [h1]; exact h2)⟩
  · exact .inr ⟨by omega, .inr ⟨h1.trans h2, by omega⟩⟩

theorem kind_eq_of_ctorIdx {a b : DeadlineKind} (h : a.ctorIdx = b.ctorIdx) : a = b := by
  cases a <;> cases b <;> simp_all [DeadlineKind.ctorIdx]

theorem before_total {d e : Deadline} (h : d.before e = false) (hne : d ≠ e) : e.before d = true := by
  have h' : ¬ (d.before e = true) := by simp [h]
  rw [before_iff] at h' ⊢
  rcases Nat.lt_trichotomy d.instant e.instant with hi | hi | hi
  · exact absurd (.inl hi) h'
  · rcases Nat.lt_trichotomy d.group.val e.group.val with hg | hg | hg
    · exact absurd (.inr ⟨hi, .inl hg⟩) h'
    · rcases Nat.lt_trichotomy d.kind.ctorIdx e.kind.ctorIdx with hk | hk | hk
      · exact absurd (.inr ⟨hi, .inr ⟨Fin.ext hg, hk⟩⟩) h'
      · exfalso; apply hne
        cases d; cases e; simp_all
        exact ⟨Fin.ext hg, kind_eq_of_ctorIdx hk⟩
      · exact .inr ⟨hi.symm, .inr ⟨(Fin.ext hg).symm, hk⟩⟩
    · exact .inr ⟨hi.symm, .inl hg⟩
  · exact .inl hi

theorem mem_insertDeadline (d x : Deadline) (l : List Deadline) : x ∈ insertDeadline d l ↔ x = d ∨ x ∈ l := by
  induction l with
  | nil => simp [insertDeadline]
  | cons e es ih =>
    simp only [insertDeadline]
    split
    · simp
    · simp only [List.mem_cons, ih]
      constructor
      · rintro (h | h | h) <;> simp [h]
      · rintro (h | h | h) <;> simp [h]

theorem insertDeadline_sorted (d : Deadline) (l : List Deadline) (hs : l.Pairwise fun a b => a.before b = true)
    (hd : d ∉ l) : (insertDeadline d l).Pairwise fun a b => a.before b = true := by
  induction l with
  | nil => simp [insertDeadline]
  | cons e es ih =>
    rw [List.pairwise_cons] at hs
    simp only [insertDeadline]
    split
    · rename_i hb
      refine List.pairwise_cons.2 ⟨?_, List.pairwise_cons.2 hs⟩
      intro x hx
      rcases List.mem_cons.1 hx with rfl | hx
      · exact hb
      · exact before_trans hb (hs.1 x hx)
    · rename_i hb
      have hb' : d.before e = false := by simpa using hb
      refine List.pairwise_cons.2 ⟨?_, ih hs.2 (fun h => hd (List.mem_cons_of_mem _ h))⟩
      intro x hx
      rcases (mem_insertDeadline d x es).1 hx with rfl | hx
      · exact before_total hb' (fun h => hd (h ▸ List.mem_cons_self))
      · exact hs.1 x hx

/-- The deadlines of an entry are its group's. -/
theorem deadlines_group (a : Auction) (g : Fin 32) : ∀ d ∈ a.deadlines g, d.group = g := by
  intro d hd
  unfold Auction.deadlines at hd
  split at hd <;> simp_all
  · rcases hd with rfl | rfl <;> rfl

theorem deadlines_nodup (a : Auction) (g : Fin 32) : (a.deadlines g).Nodup := by
  unfold Auction.deadlines
  split <;> simp

theorem foldl_insert_mem (ds l : List Deadline) (x : Deadline) :
    x ∈ ds.foldl (fun l d => insertDeadline d l) l ↔ x ∈ ds ∨ x ∈ l := by
  induction ds generalizing l with
  | nil => simp
  | cons d ds ih =>
    simp only [List.foldl_cons, ih, mem_insertDeadline, List.mem_cons]
    constructor
    · rintro (h | h | h) <;> simp [h]
    · rintro ((h | h) | h) <;> simp [h]

theorem foldl_insert_sorted (ds l : List Deadline) (hs : l.Pairwise fun a b => a.before b = true) (hn : ds.Nodup)
    (hd : ∀ d ∈ ds, d ∉ l) : (ds.foldl (fun l d => insertDeadline d l) l).Pairwise fun a b => a.before b = true := by
  induction ds generalizing l with
  | nil => exact hs
  | cons d ds ih =>
    rw [List.nodup_cons] at hn
    refine ih _ (insertDeadline_sorted d l hs (hd d List.mem_cons_self)) hn.2 ?_
    intro e he h
    rcases (mem_insertDeadline d e l).1 h with rfl | h
    · exact hn.1 he
    · exact hd e (List.mem_cons_of_mem _ he) h

/-- An entry replaced by `enter` keeps the list following the groups. -/
theorem enter_listFollows (s : State) (g : Fin 32) (a : Auction) (h : s.auc.listFollows) :
    (enter s g a).auc.listFollows := by
  obtain ⟨hs, hm⟩ := h
  have hrest : ∀ d, d ∈ s.auc.deadlines.filter (fun d => d.group != g) ↔ d ∈ s.auc.deadlines ∧ d.group ≠ g := by
    intro d; simp
  constructor
  · simp only [enter, refreshDeadlines, setGroup_auc_deadlines]
    refine foldl_insert_sorted _ _ (hs.filter _) (deadlines_nodup _ _) ?_
    intro d hd hf
    exact ((hrest d).1 hf).2 (deadlines_group _ _ d hd)
  · intro d
    simp only [enter, refreshDeadlines, setGroup_auc_deadlines, setGroup_group_self]
    rw [foldl_insert_mem, hrest]
    have hv : ∀ x : Fin 32, ((s.setGroup g a).auc.groups[x]) = if x = g then a else s.auc.groups[x] := by
      intro x; exact setGroup_group s g a x
    show _ ↔ d ∈ ((s.setGroup g a).auc.groups[d.group]).deadlines d.group
    rw [hv]
    by_cases hg : d.group = g
    · subst hg
      simp only [if_true]
      constructor
      · rintro (h | h)
        · exact h
        · exact absurd rfl h.2
      · exact .inl
    · simp only [hg, if_false]
      constructor
      · rintro (h | h)
        · exact absurd (deadlines_group _ _ d h) hg
        · exact (hm d).1 h.1
      · intro h; exact .inr ⟨(hm d).2 h, hg⟩

/-- An entry replaced by one with the same deadlines keeps the list following the groups. -/
theorem setGroup_listFollows (s : State) (g : Fin 32) (a : Auction) (hd : a.deadlines g = (s.group g).deadlines g)
    (h : s.auc.listFollows) : (s.setGroup g a).auc.listFollows := by
  refine ⟨h.1, fun d => ?_⟩
  rw [show (s.setGroup g a).auc.deadlines = s.auc.deadlines from rfl, h.2 d]
  have : ((s.setGroup g a).auc.groups[d.group]) = if d.group = g then a else s.auc.groups[d.group] :=
    setGroup_group s g a d.group
  rw [this]
  by_cases hg : d.group = g
  · subst hg; simp only [if_true, hd]; rfl
  · simp only [hg, if_false]

end Sys2Proof.Machine
end

