-- ==== Sys2Proof/Laws/Handed.lean ====
section
/-!
SUPPORT. Laws/Handed.lean: everything the shared operations of handing on can do, said once: each of them relates the state before and
after by `Handed`, which provers cite in place of the definitions.
-/
namespace Sys2Proof.Machine

theorem LineKept.refl (l : Line) : LineKept l l :=
  ⟨rfl, rfl, rfl, rfl, rfl, rfl, rfl, rfl, rfl, List.suffix_refl _, id⟩

theorem LineKept.trans {a b c : Line} (h : LineKept a b) (k : LineKept b c) : LineKept a c :=
  ⟨k.state.trans h.state, k.rec_.trans h.rec_, k.mode.trans h.mode, k.filters.trans h.filters,
    k.pathDelay.trans h.pathDelay, k.owed.trans h.owed, k.drain.trans h.drain, k.pause.trans h.pause,
    k.frame.trans h.frame, k.queue.trans h.queue, fun x => k.interleave (h.interleave x)⟩

theorem Handed.refl (s : State) : Handed s s where
  pending := rfl
  supply := rfl
  resetLow := rfl
  powerOwed := rfl
  osc := rfl
  restarts := rfl
  tsu := rfl
  rfe := rfl
  sis := rfl
  psm := rfl
  lines := fun _ => LineKept.refl _
  groups := fun _ _ => rfl
  held := fun _ => ⟨rfl, rfl⟩
  listFollows := id
  traceableView := rfl
  draws := rfl
  host := rfl
  notices := List.prefix_refl _
  noticeRoom := id
  starting := id
  running := id
  rewriteOwed := rfl
  gapOwed := rfl
  closeRequested := rfl
  nextIndex := rfl
  chain := rfl
  epoch := rfl
  storedEpoch := rfl
  eraseQueue := rfl
  restartCause := rfl
  intake := List.prefix_refl _
  pages := fun _ _ => rfl
  slots := fun _ => rfl

theorem Handed.trans {s t u : State} (h : Handed s t) (k : Handed t u) : Handed s u where
  pending := k.pending.trans h.pending
  supply := k.supply.trans h.supply
  resetLow := k.resetLow.trans h.resetLow
  powerOwed := k.powerOwed.trans h.powerOwed
  osc := k.osc.trans h.osc
  restarts := k.restarts.trans h.restarts
  tsu := k.tsu.trans h.tsu
  rfe := k.rfe.trans h.rfe
  sis := k.sis.trans h.sis
  psm := k.psm.trans h.psm
  lines := fun i => (h.lines i).trans (k.lines i)
  groups := fun g hg => by
    have e := h.groups g hg
    rw [k.groups g (by rw [e]; exact hg), e]
  held := fun g => ⟨(k.held g).1.trans (h.held g).1, (k.held g).2.trans (h.held g).2⟩
  listFollows := fun x => k.listFollows (h.listFollows x)
  traceableView := k.traceableView.trans h.traceableView
  draws := k.draws.trans h.draws
  host := by rw [k.host, h.host]
  notices := h.notices.trans k.notices
  noticeRoom := fun x => k.noticeRoom (h.noticeRoom x)
  starting := fun x => k.starting (h.starting x)
  running := fun x => k.running (h.running x)
  rewriteOwed := k.rewriteOwed.trans h.rewriteOwed
  gapOwed := k.gapOwed.trans h.gapOwed
  closeRequested := k.closeRequested.trans h.closeRequested
  nextIndex := k.nextIndex.trans h.nextIndex
  chain := k.chain.trans h.chain
  epoch := k.epoch.trans h.epoch
  storedEpoch := k.storedEpoch.trans h.storedEpoch
  eraseQueue := k.eraseQueue.trans h.eraseQueue
  restartCause := k.restartCause.trans h.restartCause
  intake := h.intake.trans k.intake
  pages := fun p hp => by
    have e := h.pages p hp
    rw [k.pages p (by rw [e]; exact hp), e]
  slots := fun p => (k.slots p).trans (h.slots p)

/-- Transitivity from the last operation back. -/
theorem Handed.back {s t u : State} (k : Handed t u) (h : Handed s t) : Handed s u := h.trans k

/-- The part's pins and oscillator bear on what follows only through `live` and `now`, which handing on keeps. -/
theorem Handed.live {s t : State} (h : Handed s t) : t.live = s.live := by simp [State.live, h.supply, h.resetLow]

theorem Handed.now {s t : State} (h : Handed s t) : t.now = s.now := by simp [State.now, h.tsu]

/-- A change of the journal's own volatile fields that keeps what `Handed` keeps. -/
theorem handed_ej (s : State) (e : Ej) (hs : (s.ej.state = .starting → e.state = .starting))
    (hr : s.ej.state ≠ .starting → e.state ≠ .starting) (h1 : e.rewriteOwed = s.ej.rewriteOwed)
    (h2 : e.gapOwed = s.ej.gapOwed) (h3 : e.closeRequested = s.ej.closeRequested) (h4 : e.nextIndex = s.ej.nextIndex)
    (h5 : e.chain = s.ej.chain) (h6 : e.epoch = s.ej.epoch) (h7 : e.storedEpoch = s.ej.storedEpoch)
    (h8 : e.eraseQueue = s.ej.eraseQueue) (h9 : e.restartCause = s.ej.restartCause)
    (h10 : s.ej.intake <+: e.intake) (h11 : e.pages = s.ej.pages) : Handed s { s with ej := e } :=
  { Handed.refl s with
    starting := hs, running := hr, rewriteOwed := h1, gapOwed := h2, closeRequested := h3, nextIndex := h4, chain := h5,
    epoch := h6, storedEpoch := h7, eraseQueue := h8, restartCause := h9, intake := h10,
    pages := fun p _ => by show (e.pages[p]) = _; rw [h11]; rfl
    slots := fun p => by show (e.pages[p]).slots = _; rw [h11]; rfl }

/-- A line replaced by one that is kept. -/
theorem handed_setLine (s : State) (i : Fin 8) (l : Line) (h : LineKept (s.line i) l) : Handed s (s.setLine i l) :=
  { Handed.refl s with
    lines := fun j => by
      rw [setLine_line]
      by_cases hj : j = i
      · subst hj; simpa using h
      · simp only [hj, if_false]; exact LineKept.refl _ }

/-! ## Notices and the intake -/

theorem handed_notifyAt (s : State) (k : NoticeKind) (vt : Nat) (x : Subject) (d : List Byte) :
    Handed s (notifyAt s k vt x d) := by
  unfold notifyAt
  simp only []
  split
  · rename_i h
    exact { Handed.refl s with
      host := rfl
      notices := List.prefix_append _ _
      noticeRoom := fun _ => by simp; omega }
  · exact { Handed.refl s with host := rfl, notices := List.prefix_refl _, noticeRoom := id }

theorem handed_notify (s : State) (k : NoticeKind) (x : Subject) (d : List Byte) : Handed s (notify s k x d) :=
  handed_notifyAt s k s.now x d

/-- A change of the loss counts and the first-loss VT. -/
theorem handed_losses (s : State) (c n : Nat) (f : Option Nat) :
    Handed s { s with ej := { s.ej with criticalLost := c, nonCriticalLost := n, firstLoss := f } } :=
  handed_ej s _ id id rfl rfl rfl rfl rfl rfl rfl rfl rfl (List.prefix_refl _) rfl

theorem handed_loseRecord (s : State) (k : RecKind) : Handed s (loseRecord s k) := by
  unfold loseRecord
  cases k.critical <;> simp only [] <;> split
  · exact Handed.back (handed_notify _ _ _ _) (handed_losses s _ _ _)
  · exact handed_losses s _ _ _
  · exact Handed.back (handed_notify _ _ _ _) (handed_losses s _ _ _)
  · exact handed_losses s _ _ _

theorem handed_enqueue (s : State) (r : Record) : Handed s (enqueue s r) := by
  unfold enqueue
  split
  · exact handed_ej s _ id id rfl rfl rfl rfl rfl rfl rfl rfl rfl (List.prefix_append _ _) rfl
  · exact handed_loseRecord s _

/-! ## The lanes, over any way of offering that hands on -/

section
variable {offer : Offerer} (ho : ∀ s r, Handed s (offer s r))

theorem handed_foldl {α : Type} (f : State → α → State) (h : ∀ s a, Handed s (f s a)) (l : List α) (s : State) :
    Handed s (l.foldl f s) := by
  induction l generalizing s with
  | nil => exact Handed.refl s
  | cons a l ih => exact (h s a).trans (ih _)

include ho in
theorem handed_scheduleWith (s : State) (i : Fin 8) : Handed s (scheduleWith offer s i) := by
  unfold scheduleWith
  simp only []
  split
  · split
    · unfold sendDrop
      refine Handed.back (ho _ _) (handed_setLine s i _
        ⟨rfl, rfl, rfl, rfl, rfl, rfl, rfl, rfl, rfl, List.suffix_refl _, fun _ => Nat.zero_le _⟩)
    · split
      · exact handed_setLine s i _
          ⟨rfl, rfl, rfl, rfl, rfl, rfl, rfl, rfl, rfl, List.suffix_refl _, fun _ => Nat.zero_le _⟩
      · exact handed_setLine s i _
          ⟨rfl, rfl, rfl, rfl, rfl, rfl, rfl, rfl, rfl, List.suffix_refl _, fun _ => Nat.zero_le _⟩
      · split
        · rename_i a rest hq
          refine handed_setLine s i _ ⟨rfl, rfl, rfl, rfl, rfl, rfl, rfl, rfl, rfl, ?_, fun _ => Nat.min_le_left _ _⟩
          rw [hq]; exact List.suffix_cons _ _
        · exact Handed.refl s
  · exact Handed.refl s

include ho in
theorem handed_qualityPendingWith (s : State) : Handed s (qualityPendingWith offer s) := by
  unfold qualityPendingWith
  refine handed_foldl _ (fun s i => ?_) _ s
  unfold qualityOnWith
  simp only []
  split
  · exact Handed.back (handed_scheduleWith ho _ _) (handed_setLine s i _
      ⟨rfl, rfl, rfl, rfl, rfl, rfl, rfl, rfl, rfl, List.suffix_refl _, id⟩)
  · exact Handed.refl s

include ho in
theorem handed_phasePendingWith (s : State) (g : Fin 32) : Handed s (phasePendingWith offer s g) := by
  unfold phasePendingWith
  refine handed_foldl _ (fun s i => ?_) _ s
  unfold phaseOnWith
  simp only []
  split
  · exact Handed.back (handed_scheduleWith ho _ _) (handed_setLine s i _
      ⟨rfl, rfl, rfl, rfl, rfl, rfl, rfl, rfl, rfl, List.suffix_refl _, id⟩)
  · exact Handed.refl s

include ho in
theorem handed_showGroupWith (s : State) (g : Fin 32) (vt : Nat) : Handed s (showGroupWith offer s g vt) := by
  unfold showGroupWith
  exact Handed.back (handed_notifyAt _ _ _ _ _) (handed_phasePendingWith ho s g)

/-- An entry of a DEFERRED group replaced. -/
theorem handed_enterDeferred (s : State) (g : Fin 32) (a : Auction) (h : (s.group g).state = .deferred)
    (h1 : a.heldList = (s.group g).heldList) (h2 : a.armIndex = (s.group g).armIndex) :
    Handed s (enter s g a) :=
  { Handed.refl s with
    groups := fun g' hg => by
      have : g' ≠ g := fun e => hg (e ▸ h)
      exact setGroup_group_ne s g a g' this
    held := fun g' => by
      show ((s.setGroup g a).group g').heldList = _ ∧ ((s.setGroup g a).group g').armIndex = _
      rw [setGroup_group]
      by_cases hg : g' = g
      · subst hg; simp [h1, h2]
      · simp [hg]
    listFollows := enter_listFollows s g a }

include ho in
theorem handed_cutDeferredWith (s : State) (g : Fin 32) : Handed s (cutDeferredWith offer s g) := by
  unfold cutDeferredWith
  split
  · rename_i h
    unfold cutGroupWith
    exact Handed.back (handed_showGroupWith ho _ _ _) (handed_enterDeferred s g _ h rfl rfl)
  · exact Handed.refl s

include ho in
theorem handed_cutAllWith (s : State) : Handed s (cutAllWith offer s) := by
  unfold cutAllWith
  split
  · exact handed_foldl _ (handed_cutDeferredWith ho) _ s
  · exact Handed.refl s

/-- The AUC's journal view replaced. -/
theorem handed_journalView (s : State) (v : JournalState) :
    Handed s { s with auc := { s.auc with journalView := v } } :=
  { Handed.refl s with listFollows := id }

include ho in
theorem handed_journalReportWith (s : State) (v : JournalState) : Handed s (journalReportWith offer s v) := by
  unfold journalReportWith
  exact Handed.back (handed_cutAllWith ho _) (handed_journalView s v)

theorem judged_ne_starting (e : Ej) : e.judged ≠ .starting := by
  unfold Ej.judged
  split
  · simp
  · split <;> simp

/-- The journal state replaced by one that is not STARTING, where it was not STARTING. -/
theorem handed_journalState (s : State) (v : JournalState) (h : s.ej.state ≠ .starting) (hv : v ≠ .starting) :
    Handed s { s with ej := { s.ej with state := v } } :=
  handed_ej s _ (fun x => absurd x h) (fun _ => hv) rfl rfl rfl rfl rfl rfl rfl rfl rfl (List.prefix_refl _) rfl

include ho in
theorem handed_judgeJournalWith (s : State) : Handed s (judgeJournalWith offer s) := by
  unfold judgeJournalWith
  split
  · exact Handed.refl s
  · exact Handed.refl s
  all_goals
    rename_i h
    simp only []
    split
    · exact Handed.refl s
    · exact Handed.back (handed_notify _ _ _ _) (Handed.back (handed_journalReportWith ho _ _)
        (handed_journalState s _ (by rw [h]; simp) (judged_ne_starting _)))

end

/-! ## The writer and the offer of a record -/

theorem handed_beginWrite (s : State) (p : Fin 64) (slot : Nat) (r : Record) (src : WriteSource) :
    Handed s (beginWrite s p slot r src) :=
  handed_ej s _ id id rfl rfl rfl rfl rfl rfl rfl rfl rfl (List.prefix_refl _) rfl

/-- A FREE page's entry replaced, its slots kept. -/
theorem handed_setPage (s : State) (p : Fin 64) (pg : Page) (hf : (s.page p).state = .free)
    (h : pg.slots = (s.page p).slots) : Handed s (s.setPage p pg) :=
  { Handed.refl s with
    pages := fun q hq => setPage_page_ne s p pg q (fun e => hq (e ▸ hf))
    slots := fun q => by
      rw [setPage_page]
      by_cases hq : q = p
      · subst hq; simp [h]
      · simp [hq] }

/-- A page opened in the open-page field, the next serial moved on. -/
theorem handed_openField (s : State) (o : Option (Fin 64 × Nat)) (n : Nat) :
    Handed s { s with ej := { s.ej with openPage := o, nextSerial := n } } :=
  handed_ej s _ id id rfl rfl rfl rfl rfl rfl rfl rfl rfl (List.prefix_refl _) rfl

theorem handed_openPage (s : State) (p : Fin 64) (hf : (s.page p).state = .free) : Handed s (openPage s p) := by
  unfold openPage
  exact Handed.back (handed_judgeJournalWith handed_enqueue _) (Handed.back (handed_beginWrite _ _ _ _ _)
    (Handed.back (handed_openField _ _ _) (handed_setPage s p _ hf rfl)))

theorem handed_beginNext (s : State) (p : Fin 64) (slot : Nat) : Handed s (beginNext s p slot) := by
  unfold beginNext
  simp only []
  split
  · exact handed_beginWrite _ _ _ _ _
  · exact handed_beginWrite _ _ _ _ _
  · exact Handed.refl s
  · split
    · exact Handed.back (handed_beginWrite _ _ _ _ _) (handed_losses s _ _ _)
    · exact handed_beginWrite _ _ _ _ _

/-- The page the writer opens is FREE. -/
theorem firstFree_free (s : State) (p : Fin 64) (h : s.ej.firstFree = some p) : (s.page p).state = .free := by
  have := List.find?_some h
  exact eq_of_beq this

theorem handed_writerDecide (s : State) : Handed s (writerDecide s) := by
  unfold writerDecide
  split
  · split
    · split
      · rename_i p hp
        exact handed_openPage _ _ (firstFree_free s p hp)
      · exact Handed.refl s
    · exact handed_beginNext _ _ _
  · exact Handed.refl s

theorem handed_offer (s : State) (r : Record) : Handed s (offer s r) := by
  unfold offer
  simp only []
  split
  · exact (handed_enqueue s r).trans (handed_writerDecide _)
  · exact handed_enqueue s r

theorem handed_schedule (s : State) (i : Fin 8) : Handed s (schedule s i) := handed_scheduleWith handed_offer s i

theorem handed_qualityPending (s : State) : Handed s (qualityPending s) := handed_qualityPendingWith handed_offer s

theorem handed_phasePending (s : State) (g : Fin 32) : Handed s (phasePending s g) :=
  handed_phasePendingWith handed_offer s g

theorem handed_showGroup (s : State) (g : Fin 32) (vt : Nat) : Handed s (showGroup s g vt) :=
  handed_showGroupWith handed_offer s g vt

theorem handed_judgeJournal (s : State) : Handed s (judgeJournal s) := handed_judgeJournalWith handed_offer s

theorem handed_journalReport (s : State) (v : JournalState) : Handed s (journalReport s v) :=
  handed_journalReportWith handed_offer s v

/-- The report of the traceable predicate hands on once the view has its new value. -/
theorem handed_traceableReport (s : State) (v : Bool) :
    Handed { s with auc := { s.auc with traceableView := v } } (traceableReport s v) :=
  handed_cutAllWith handed_offer _

/-! ## Handing on beside other changes: an update that `Handed` would keep may be made before or after -/

/-- A line replaced on both sides. -/
theorem Handed.setLine {s t : State} (h : Handed s t) (i : Fin 8) (l : Line) : Handed (s.setLine i l) (t.setLine i l) :=
  { h with
    lines := fun j => by
      rw [setLine_line, setLine_line]
      by_cases hj : j = i
      · simp only [hj, if_true]; exact LineKept.refl _
      · simp only [hj, if_false]; exact h.lines j
    groups := h.groups
    held := h.held
    pages := h.pages
    slots := h.slots }

/-- A reply made on both sides. -/
theorem Handed.addReply {s t : State} (h : Handed s t) (kind tag : Byte) (st : Status) (body : List Byte) :
    Handed (addReply s kind tag st body) (Machine.addReply t kind tag st body) :=
  { h with
    lines := h.lines
    groups := h.groups
    held := h.held
    host := by simp only [Machine.addReply]; rw [h.host]
    pages := h.pages
    slots := h.slots }

/-- The Stamp Issuer's state replaced on both sides. -/
theorem Handed.withSis {s t : State} (h : Handed s t) (x : Sis) : Handed { s with sis := x } { t with sis := x } :=
  { h with sis := rfl, lines := h.lines, groups := h.groups, held := h.held, pages := h.pages, slots := h.slots }

/-- The TSU's state replaced on both sides. -/
theorem Handed.withTsu {s t : State} (h : Handed s t) (x : Tsu) : Handed { s with tsu := x } { t with tsu := x } :=
  { h with tsu := rfl, lines := h.lines, groups := h.groups, held := h.held, pages := h.pages, slots := h.slots }

/-- The RFE's state replaced on both sides. -/
theorem Handed.withRfe {s t : State} (h : Handed s t) (x : Rfe) : Handed { s with rfe := x } { t with rfe := x } :=
  { h with rfe := rfl, lines := h.lines, groups := h.groups, held := h.held, pages := h.pages, slots := h.slots }

/-- The survey's state replaced on both sides. -/
theorem Handed.withPsm {s t : State} (h : Handed s t) (x : Psm) : Handed { s with psm := x } { t with psm := x } :=
  { h with psm := rfl, lines := h.lines, groups := h.groups, held := h.held, pages := h.pages, slots := h.slots }

/-! ## Lines that are not RUNNING are left alone by everything but their own scheduler -/

/-- Every line that is not RUNNING is the same before and after. -/
def Still (s t : State) : Prop := ∀ i, (s.line i).state ≠ .running → t.line i = s.line i

theorem Still.refl (s : State) : Still s s := fun _ _ => rfl

theorem Still.back {s t u : State} (k : Still t u) (h : Still s t) : Still s u := fun i hi => by
  have e := h i hi
  rw [k i (by rw [e]; exact hi), e]

/-- An operation that leaves the lines alone. -/
theorem still_of_lines {s t : State} (h : t.lines = s.lines) : Still s t := fun i _ => by simp [State.line, h]

theorem lines_notifyAt (s : State) (k : NoticeKind) (vt : Nat) (x : Subject) (d : List Byte) :
    (notifyAt s k vt x d).lines = s.lines := by unfold notifyAt; simp only []; split <;> rfl

theorem lines_notify (s : State) (k : NoticeKind) (x : Subject) (d : List Byte) : (notify s k x d).lines = s.lines :=
  lines_notifyAt _ _ _ _ _

theorem lines_enqueue (s : State) (r : Record) : (enqueue s r).lines = s.lines := by
  unfold enqueue loseRecord
  simp only []
  split
  · rfl
  · split
    · rw [lines_notify]
    · rfl

theorem still_foldl {α : Type} (f : State → α → State) (h : ∀ s a, Still s (f s a)) (l : List α) (s : State) :
    Still s (l.foldl f s) := by
  induction l generalizing s with
  | nil => exact Still.refl s
  | cons a l ih => exact Still.back (ih _) (h s a)

/-- A RUNNING line replaced. -/
theorem still_setLine (s : State) (i : Fin 8) (l : Line) (h : (s.line i).state = .running) : Still s (s.setLine i l) :=
  fun j hj => setLine_line_ne s i l j (fun e => hj (e ▸ h))

section
variable {offer : Offerer} (ho : ∀ s r, Still s (offer s r))

include ho in
theorem still_scheduleWith (s : State) (i : Fin 8) (h : (s.line i).state = .running) : Still s (scheduleWith offer s i) := by
  unfold scheduleWith
  simp only []
  split
  · split
    · unfold sendDrop
      exact Still.back (ho _ _) (still_setLine s i _ h)
    · split
      · exact still_setLine s i _ h
      · exact still_setLine s i _ h
      · split
        · exact still_setLine s i _ h
        · exact Still.refl s
  · exact Still.refl s

include ho in
theorem still_qualityPendingWith (s : State) : Still s (qualityPendingWith offer s) := by
  unfold qualityPendingWith
  refine still_foldl _ (fun s i => ?_) _ s
  unfold qualityOnWith
  simp only []
  split
  · rename_i h
    exact Still.back (still_scheduleWith ho _ _ (by simpa using h)) (still_setLine s i _ h)
  · exact Still.refl s

include ho in
theorem still_phasePendingWith (s : State) (g : Fin 32) : Still s (phasePendingWith offer s g) := by
  unfold phasePendingWith
  refine still_foldl _ (fun s i => ?_) _ s
  unfold phaseOnWith
  simp only []
  split
  · rename_i h
    exact Still.back (still_scheduleWith ho _ _ (by simpa using h)) (still_setLine s i _ h)
  · exact Still.refl s

include ho in
theorem still_showGroupWith (s : State) (g : Fin 32) (vt : Nat) : Still s (showGroupWith offer s g vt) := by
  unfold showGroupWith
  exact Still.back (still_of_lines (lines_notifyAt _ _ _ _ _)) (still_phasePendingWith ho s g)

include ho in
theorem still_cutAllWith (s : State) : Still s (cutAllWith offer s) := by
  unfold cutAllWith
  split
  · refine still_foldl _ (fun s g => ?_) _ s
    unfold cutDeferredWith
    split
    · unfold cutGroupWith
      exact Still.back (still_showGroupWith ho _ _ _) (still_of_lines rfl)
    · exact Still.refl s
  · exact Still.refl s

include ho in
theorem still_judgeJournalWith (s : State) : Still s (judgeJournalWith offer s) := by
  unfold judgeJournalWith
  split
  · exact Still.refl s
  · exact Still.refl s
  all_goals
    simp only []
    split
    · exact Still.refl s
    · unfold journalReportWith
      exact Still.back (still_of_lines (lines_notify _ _ _ _)) (Still.back (still_cutAllWith ho _) (still_of_lines rfl))

end

theorem still_writerDecide (s : State) : Still s (writerDecide s) := by
  unfold writerDecide
  split
  · split
    · split
      · unfold openPage
        exact Still.back (still_judgeJournalWith (fun s r => still_of_lines (lines_enqueue s r)) _) (still_of_lines rfl)
      · exact Still.refl s
    · unfold beginNext
      simp only []
      split
      · exact still_of_lines rfl
      · exact still_of_lines rfl
      · exact Still.refl s
      · split <;> exact still_of_lines rfl
  · exact Still.refl s

theorem still_offer (s : State) (r : Record) : Still s (offer s r) := by
  unfold offer
  simp only []
  split
  · exact Still.back (still_writerDecide _) (still_of_lines (lines_enqueue s r))
  · exact still_of_lines (lines_enqueue s r)

end Sys2Proof.Machine
end

