-- ==== Sys2Proof/Laws/Link.lean ====
section
/-!
SUPPORT. Laws/Link.lean: what a request command comes to, said once for all request commands (R163, R164).
-/
namespace Sys2Proof.Machine

/-- The parts of acceptance. -/
theorem accepts_iff (s : State) : s.accepts = true ↔
    s.live = true ∧ s.hli.restartOwed = false ∧ s.hli.hasRoom = true ∧ s.hli.outstanding = none
      ∧ s.ej.state ≠ .starting := by
  simp [State.accepts, bne_iff_ne, and_assoc]

/-- An accepted request is its owner's answer with the reply made. -/
theorem hostRequest_accepted (tag : Byte) (r : Request) (owner : State → Answered) (s : State) (h : s.accepts = true)
    (hc : checkedRequest r = .request r) :
    hostRequest tag r owner s = .next (addReply (owner (acceptRequest s (kindOf r) tag)).state (kindOf r) tag
      (owner (acceptRequest s (kindOf r) tag)).status (owner (acceptRequest s (kindOf r) tag)).body) := by
  obtain ⟨h1, h2, h3, h4, h5⟩ := (accepts_iff s).1 h
  have h5' : (acceptRequest s (kindOf r) tag).ej.state ≠ .starting := h5
  simp [hostRequest, whenLive, receiveWith, performWith, hc, h1, h2, h3, h4, h5']

/-- A request its owner refuses with a status changes nothing but the host link's account of it. -/
theorem hostRequest_refused (tag : Byte) (r : Request) (owner : State → Answered) (s : State) (st : Status)
    (h : s.accepts = true) (hc : checkedRequest r = .request r)
    (ho : owner (acceptRequest s (kindOf r) tag) = refuse (acceptRequest s (kindOf r) tag) st) :
    hostRequest tag r owner s = .next (s.answered (kindOf r) tag st []) := by
  rw [hostRequest_accepted tag r owner s h hc, ho]; rfl

/-- Taking a request touches the host link alone. -/
@[simp] theorem acceptRequest_line (s : State) (k t : Byte) (i : Fin 8) : (acceptRequest s k t).line i = s.line i := rfl
@[simp] theorem acceptRequest_group (s : State) (k t : Byte) (g : Fin 32) : (acceptRequest s k t).group g = s.group g := rfl
@[simp] theorem acceptRequest_ref (s : State) (k t : Byte) (i : Fin 3) : (acceptRequest s k t).ref i = s.ref i := rfl
@[simp] theorem acceptRequest_page (s : State) (k t : Byte) (p : Fin 64) : (acceptRequest s k t).page p = s.page p := rfl
@[simp] theorem acceptRequest_agent (s : State) (k t : Byte) (a : Fin 8) : (acceptRequest s k t).agent a = s.agent a := rfl
@[simp] theorem acceptRequest_tsu (s : State) (k t : Byte) : (acceptRequest s k t).tsu = s.tsu := rfl
@[simp] theorem acceptRequest_rfe (s : State) (k t : Byte) : (acceptRequest s k t).rfe = s.rfe := rfl
@[simp] theorem acceptRequest_lines (s : State) (k t : Byte) : (acceptRequest s k t).lines = s.lines := rfl
@[simp] theorem acceptRequest_sis (s : State) (k t : Byte) : (acceptRequest s k t).sis = s.sis := rfl
@[simp] theorem acceptRequest_auc (s : State) (k t : Byte) : (acceptRequest s k t).auc = s.auc := rfl
@[simp] theorem acceptRequest_ej (s : State) (k t : Byte) : (acceptRequest s k t).ej = s.ej := rfl
@[simp] theorem acceptRequest_psm (s : State) (k t : Byte) : (acceptRequest s k t).psm = s.psm := rfl
@[simp] theorem acceptRequest_osc (s : State) (k t : Byte) : (acceptRequest s k t).osc = s.osc := rfl
@[simp] theorem acceptRequest_now (s : State) (k t : Byte) : (acceptRequest s k t).now = s.now := rfl

/-- A number a table has an entry for. -/
@[simp] theorem named_val (n : Nat) (i : Fin n) : named n i.val = some i := by simp [named]

/-- A number a table has no entry for. -/
theorem named_none (n x : Nat) (h : n ≤ x) : named n x = none := by simp [named, Nat.not_lt.2 h]

end Sys2Proof.Machine
end

