-- ==== Sys2Proof/Laws/Offered.lean ====
section
/-!
SUPPORT. Laws/Offered.lean: records offered and notices produced stay where they are put: `Offered` and `Noticed` hold of the operation
that makes them and of every state it is handed on to.
-/
namespace Sys2Proof.Machine

theorem mem_drop_of_prefix {α : Type} {a b : List α} (h : a <+: b) (n : Nat) {x : α} (hx : x ∈ a.drop n) : x ∈ b.drop n := by
  obtain ⟨c, rfl⟩ := h
  rw [List.drop_append]
  exact List.mem_append_left _ hx

theorem mem_drop_le {α : Type} {l : List α} {m n : Nat} (h : n ≤ m) {x : α} (hx : x ∈ l.drop m) : x ∈ l.drop n := by
  obtain ⟨k, rfl⟩ := Nat.exists_eq_add_of_le h
  rw [← List.drop_drop] at hx
  exact List.mem_of_mem_drop hx

theorem offered_enqueue (s : State) (r : Record) : Offered s (enqueue s r) r := by
  intro h
  simp [enqueue, h]

theorem Offered.later {s t u : State} {r : Record} (h : Offered s t r) (k : Handed t u) : Offered s u r :=
  fun x => mem_drop_of_prefix k.intake _ (h x)

/-- The state a record is offered in matters only through the journal. -/
theorem Offered.sooner {s s' t : State} {r : Record} (h : Offered s' t r) (e : s'.ej = s.ej) : Offered s t r := by
  intro x; rw [← e] at x ⊢; exact h x

theorem Offered.upto {s t t' : State} {r : Record} (h : Offered s t r) (e : t'.ej.intake = t.ej.intake) : Offered s t' r := by
  intro x; rw [e]; exact h x

theorem offered_offer (s : State) (r : Record) : Offered s (offer s r) r := by
  unfold offer
  simp only []
  split
  · exact (offered_enqueue s r).later (handed_writerDecide _)
  · exact offered_enqueue s r

theorem noticed_notifyAt (s : State) (k : NoticeKind) (vt : Nat) (x : Subject) (d : List Byte) :
    Noticed s (notifyAt s k vt x d) k vt x d := by
  intro h
  unfold notifyAt at h ⊢
  simp only [] at h ⊢
  split
  · rename_i h'
    exact ⟨⟨s.hli.nextNotice, k, vt, x, d⟩, by simp, rfl, rfl, rfl, rfl⟩
  · rename_i h'
    rw [if_neg h'] at h
    exact absurd h h'

theorem noticed_notify (s : State) (k : NoticeKind) (x : Subject) (d : List Byte) :
    Noticed s (notify s k x d) k s.now x d := noticed_notifyAt s k s.now x d

theorem Noticed.later {s t u : State} {k : NoticeKind} {vt : Nat} {x : Subject} {d : List Byte} (h : Noticed s t k vt x d)
    (j : Handed t u) : Noticed s u k vt x d := by
  intro hu
  obtain ⟨n, hn, e⟩ := h (Nat.lt_of_le_of_lt j.notices.length_le hu)
  exact ⟨n, mem_drop_of_prefix j.notices _ hn, e⟩

theorem Noticed.sooner {s s' t : State} {k : NoticeKind} {vt : Nat} {x : Subject} {d : List Byte} (h : Noticed s' t k vt x d)
    (j : s.hli.notices.length ≤ s'.hli.notices.length) : Noticed s t k vt x d := by
  intro ht
  obtain ⟨n, hn, e⟩ := h ht
  exact ⟨n, mem_drop_le j hn, e⟩

theorem Noticed.upto {s t t' : State} {k : NoticeKind} {vt : Nat} {x : Subject} {d : List Byte} (h : Noticed s t k vt x d)
    (e : t'.hli.notices = t.hli.notices) : Noticed s t' k vt x d := by
  intro ht; rw [e] at ht ⊢; exact h ht

theorem Handed.noticesLe {s t : State} (h : Handed s t) : s.hli.notices.length ≤ t.hli.notices.length := h.notices.length_le

/-- An update that leaves the queue of notices and the intake, on both sides of handing on. -/
theorem setGroup_self (s : State) (g : Fin 32) : s.setGroup g (s.group g) = s := by
  simp [State.setGroup, State.group]

/-- A record of a group produced: it has joined the held list, or it has been offered and the list is as it was. -/
theorem handed_produce (s : State) (g : Fin 32) (r : HeldRecord) :
    Handed (s.setGroup g { s.group g with
      heldList := if (s.group g).armIndex.isNone then (s.group g).heldList ++ [r] else (s.group g).heldList }) (produce s g r) := by
  cases h : (s.group g).armIndex with
  | none => simp only [produce, h, Option.isNone_none, if_true]; exact Handed.refl _
  | some k =>
    simp only [produce, h, Option.isNone_some, Bool.false_eq_true, if_false]
    have : s.setGroup g { s.group g with heldList := (s.group g).heldList, armIndex := some k } = s := by
      rw [← h]; exact setGroup_self s g
    have h' := handed_offer s (r.toRecord g k)
    rw [← this] at h'
    simpa [this] using h'

/-- A record of a group whose arming index is known is offered. -/
theorem offered_produce (s : State) (g : Fin 32) (r : HeldRecord) (k : Nat) (h : (s.group g).armIndex = some k) :
    Offered s (produce s g r) (r.toRecord g k) := by
  unfold produce
  rw [h]
  exact offered_offer _ _

/-- The held list of an entry may be replaced before or after the entry is entered: it has no deadlines. -/
theorem enter_setGroup (s : State) (g : Fin 32) (a b : Auction) (h : b.deadlines g = a.deadlines g) :
    (enter s g a).setGroup g b = enter s g b := by
  unfold enter refreshDeadlines
  simp only [setGroup_group_self, h]
  simp [State.setGroup]

@[simp] theorem enter_group_self (s : State) (g : Fin 32) (a : Auction) : (enter s g a).group g = a := setGroup_group_self s g a

theorem enter_group_ne (s : State) (g : Fin 32) (a : Auction) (g' : Fin 32) (h : g' ≠ g) :
    (enter s g a).group g' = s.group g' := setGroup_group_ne s g a g' h

/-- The traceable view replaced on both sides. -/
theorem Handed.withView {s t : State} (h : Handed s t) (v : Bool) :
    Handed { s with auc := { s.auc with traceableView := v } } { t with auc := { t.auc with traceableView := v } } :=
  { h with
    lines := h.lines, groups := h.groups, held := h.held, listFollows := h.listFollows, traceableView := rfl,
    pages := h.pages, slots := h.slots }

/-- A clock change handed on, with no entry to TRACKING in it: the AUC's view has followed the predicate (R8). -/
theorem handed_clockHandOn (s : State) (old : Tsu) (cause : ClockCause)
    (h : s.tsu.clock = .tracking → old.clock = .tracking) : Handed (s.viewing old) (clockHandOn s old cause) := by
  have hv : s.tsu.traceable = old.traceable → s.viewing old = s := by
    intro e; simp [State.viewing, e]
  unfold clockHandOn
  split
  · unfold clockChanged
    simp only []
    have ho := handed_offer s (clockRecord s old.clock cause)
    have hn : ∀ x : State, Handed (s.viewing old) x →
        Handed (s.viewing old) (notify (qualityPending x) .clockState .nothing (be 1 s.tsu.clock.code ++ be 1 s.tsu.grade.code)) := by
      intro x hx
      exact Handed.back (handed_notify _ _ _ _) (Handed.back (handed_qualityPending _) hx)
    have ht : (qualityPending (offer s (clockRecord s old.clock cause))).tsu = s.tsu :=
      (handed_qualityPending _).tsu.trans ho.tsu
    have hnt : ¬ (s.tsu.clock = .tracking ∧ old.clock ≠ .tracking) := fun ⟨a, b⟩ => b (h a)
    rw [if_neg hnt]
    by_cases e : s.tsu.traceable = old.traceable
    · rw [if_pos e]
      refine hn _ ?_
      rw [hv e]; exact ho
    · rw [if_neg e]
      refine hn _ ?_
      refine Handed.back (handed_traceableReport _ _) ?_
      have := ho.withView s.tsu.traceable
      simpa [State.viewing, e] using this
  · rename_i hne
    simp only [not_or, Decidable.not_not] at hne
    rw [hv hne.2]
    split
    · exact handed_qualityPending _
    · exact Handed.refl _

end Sys2Proof.Machine
end

