-- ==== Sys2Proof/Laws/Around.lean ====
section
/-!
SUPPORT. Laws/Around.lean: what a clock event keeps (`AroundClock`), said once of every operation of the Timescale Unit, and what the two
ways of changing the pending leap do to the auctions.
-/
namespace Sys2Proof.Machine

theorem AroundClock.refl (s : State) : AroundClock s s :=
  ⟨rfl, ⟨rfl, rfl, rfl⟩, ⟨rfl, rfl⟩, rfl, fun _ => LineKept.refl _, fun _ _ _ _ => rfl, rfl, List.prefix_refl _,
    List.prefix_refl _, fun _ _ => rfl⟩

theorem AroundClock.trans {s t u : State} (h : AroundClock s t) (k : AroundClock t u) : AroundClock s u where
  pending := k.pending.trans h.pending
  pins := ⟨k.pins.1.trans h.pins.1, k.pins.2.1.trans h.pins.2.1, k.pins.2.2.trans h.pins.2.2⟩
  osc := ⟨k.osc.1.trans h.osc.1, k.osc.2.trans h.osc.2⟩
  psm := k.psm.trans h.psm
  lines := fun i => (h.lines i).trans (k.lines i)
  groups := fun g h1 h2 h3 => by
    have e := h.groups g h1 h2 h3
    rw [k.groups g (by rw [e]; exact h1) (by rw [e]; exact h2) (by rw [e]; exact h3), e]
  host := by rw [k.host, h.host]
  notices := h.notices.trans k.notices
  intake := h.intake.trans k.intake
  pages := fun p hp => by
    have e := h.pages p hp
    rw [k.pages p (by rw [e]; exact hp), e]

theorem Handed.around {s t : State} (h : Handed s t) : AroundClock s t where
  pending := h.pending
  pins := ⟨h.supply, h.resetLow, h.powerOwed⟩
  osc := ⟨h.osc, h.restarts⟩
  psm := h.psm
  lines := h.lines
  groups := fun g _ _ hd => h.groups g hd
  host := h.host
  notices := h.notices
  intake := h.intake
  pages := h.pages

theorem AroundClock.noticesLe {s t : State} (h : AroundClock s t) : s.hli.notices.length ≤ t.hli.notices.length :=
  h.notices.length_le

theorem Offered.around {s t u : State} {r : Record} (h : Offered s t r) (k : AroundClock t u) : Offered s u r :=
  fun x => mem_drop_of_prefix k.intake _ (h x)

theorem Noticed.around {s t u : State} {k : NoticeKind} {vt : Nat} {x : Subject} {d : List Byte} (h : Noticed s t k vt x d)
    (j : AroundClock t u) : Noticed s u k vt x d := by
  intro hu
  obtain ⟨n, hn, e⟩ := h (Nat.lt_of_le_of_lt j.noticesLe hu)
  exact ⟨n, mem_drop_of_prefix j.notices _ hn, e⟩

theorem around_tsu (s : State) (x : Tsu) : AroundClock s { s with tsu := x } := { AroundClock.refl s with lines := fun _ => LineKept.refl _ }

theorem around_sis (s : State) (x : Sis) : AroundClock s { s with sis := x } := { AroundClock.refl s with lines := fun _ => LineKept.refl _ }

theorem around_rfe (s : State) (x : Rfe) : AroundClock s { s with rfe := x } := { AroundClock.refl s with lines := fun _ => LineKept.refl _ }

theorem around_view (s : State) (v : Bool) : AroundClock s { s with auc := { s.auc with traceableView := v } } :=
  { AroundClock.refl s with lines := fun _ => LineKept.refl _ }

/-! ## The leap report -/

/-- Re-conversion moves nothing in the states without a start's deadline. -/
theorem again_of_not (a : Auction) (t : Tsu) (h1 : a.state ≠ .armed) (h2 : a.state ≠ .call) : a.again t = a := by
  unfold Auction.again
  split <;> simp_all

theorem again_state (a : Auction) (t : Tsu) : (a.again t).state = a.state := by
  unfold Auction.again
  split <;> rfl

/-- What a re-conversion of some groups makes of the state: they are converted, everything else is kept. -/
structure Reconverted (s t : State) (gs : List (Fin 32)) : Prop where
  out : ∃ x d, t = { s with auc := { s.auc with groups := x, deadlines := d } }
  done : ∀ g ∈ gs, t.group g = (s.group g).again s.tsu
  other : ∀ g, g ∉ gs → t.group g = s.group g

theorem reconverted_group (s : State) (g : Fin 32) : Reconverted s (reconvertGroup s g) [g] := by
  unfold reconvertGroup
  split
  · rename_i h
    exact ⟨⟨_, _, rfl⟩, fun g' hg => by rw [List.mem_singleton.1 hg, h], fun _ _ => rfl⟩
  · exact ⟨⟨_, _, rfl⟩, fun g' hg => by rw [List.mem_singleton.1 hg, enter_group_self],
      fun g' hg => enter_group_ne _ _ _ _ (by simpa using hg)⟩

theorem Reconverted.tsu {s t : State} {gs : List (Fin 32)} (h : Reconverted s t gs) : t.tsu = s.tsu := by
  obtain ⟨_, _, e⟩ := h.out; rw [e]

theorem reconverted_foldl (gs : List (Fin 32)) (hn : gs.Nodup) (s : State) :
    Reconverted s (gs.foldl reconvertGroup s) gs := by
  induction gs generalizing s with
  | nil => exact ⟨⟨_, _, rfl⟩, fun _ h => (List.not_mem_nil h).elim, fun _ _ => rfl⟩
  | cons g gs ih =>
    have h1 := reconverted_group s g
    have h2 := ih (List.nodup_cons.1 hn).2 (reconvertGroup s g)
    have ht := h1.tsu
    refine ⟨?_, ?_, ?_⟩
    · obtain ⟨x, d, e⟩ := h2.out
      obtain ⟨x', d', e'⟩ := h1.out
      refine ⟨x, d, ?_⟩
      rw [List.foldl_cons, e, e']
    · intro g' hg'
      show (gs.foldl reconvertGroup (reconvertGroup s g)).group g' = _
      rcases List.mem_cons.1 hg' with e | e
      · subst e
        rw [h2.other _ (List.nodup_cons.1 hn).1, h1.done _ (by simp)]
      · rw [h2.done _ e, ht, h1.other _ (by
          intro e'; rw [List.mem_singleton.1 e'] at e; exact (List.nodup_cons.1 hn).1 e)]
    · intro g' hg'
      show (gs.foldl reconvertGroup (reconvertGroup s g)).group g' = _
      rw [h2.other _ (fun e => hg' (List.mem_cons_of_mem _ e)), h1.other _ (fun e => hg' (by simp_all))]

theorem reconverted_all (s : State) : Reconverted s (allGroups.foldl reconvertGroup s) allGroups :=
  reconverted_foldl _ (List.nodup_finRange 32) s

theorem mem_allGroups (g : Fin 32) : g ∈ allGroups := List.mem_finRange g

theorem reconverted_listFollows (s : State) (h : s.auc.listFollows) (gs : List (Fin 32)) :
    (gs.foldl reconvertGroup s).auc.listFollows := by
  induction gs generalizing s with
  | nil => exact h
  | cons g gs ih =>
    refine ih _ ?_
    unfold reconvertGroup
    split
    · exact h
    · exact enter_listFollows _ _ _ h

/-- The state after the re-conversion is that before it but for the auctions, and a leap report hands on from there. -/
theorem around_reconverted (s : State) : AroundClock s (allGroups.foldl reconvertGroup s) := by
  have h := reconverted_all s
  have hg : ∀ g, (s.group g).state ≠ .armed → (s.group g).state ≠ .call →
      (allGroups.foldl reconvertGroup s).group g = s.group g := fun g h1 h2 => by
    rw [h.done g (mem_allGroups g), again_of_not _ _ h1 h2]
  obtain ⟨x, d, e⟩ := h.out
  rw [e] at hg ⊢
  exact { AroundClock.refl s with lines := fun _ => LineKept.refl _, groups := fun g h1 h2 _ => hg g h1 h2 }

theorem handed_leapReport (s : State) : Handed (allGroups.foldl reconvertGroup s) (leapReport s) := by
  unfold leapReport
  exact handed_foldl _ (fun s g => handed_phasePending s g) _ _

theorem around_leapReport (s : State) : AroundClock s (leapReport s) :=
  (around_reconverted s).trans (handed_leapReport s).around

/-- What a leap report leaves of the blocks around the auctions, and what it makes of each group. -/
theorem leapReport_spec (s : State) :
    AroundClock s (leapReport s) ∧ (leapReport s).tsu = s.tsu ∧ (leapReport s).rfe = s.rfe ∧ (leapReport s).sis = s.sis
      ∧ (leapReport s).auc.traceableView = s.auc.traceableView
      ∧ ∀ g, (s.group g).state ≠ .deferred → (leapReport s).group g = (s.group g).again s.tsu := by
  have h := reconverted_all s
  have k := handed_leapReport s
  have hk : (allGroups.foldl reconvertGroup s).rfe = s.rfe ∧ (allGroups.foldl reconvertGroup s).sis = s.sis
      ∧ (allGroups.foldl reconvertGroup s).auc.traceableView = s.auc.traceableView := by
    obtain ⟨_, _, e⟩ := h.out
    rw [e]
    exact ⟨rfl, rfl, rfl⟩
  refine ⟨around_leapReport s, k.tsu.trans h.tsu, k.rfe.trans hk.1, k.sis.trans hk.2.1, k.traceableView.trans hk.2.2, ?_⟩
  · intro g hg
    have e := h.done g (mem_allGroups g)
    rw [k.groups g (by rw [e, again_state]; exact hg), e]

/-! ## The clock's other operations -/

/-- The issuer opened, its record and notice handed on. -/
theorem handed_openIssuer (s : State) (cause : OpenCause) :
    Handed { s with sis := { s.sis with state := .opened, next := some 1, opening := some (cause, s.now) } }
      (openIssuer s cause) := by
  unfold openIssuer
  exact Handed.back (handed_notify _ _ _ _) (handed_offer _ _)

/-- A state reached from `s` with the clock and the references as they were, only handed-on changes around them. -/
def Carried (s t : State) : Prop := AroundClock s t ∧ t.tsu = s.tsu ∧ t.rfe = s.rfe

theorem Carried.refl (s : State) : Carried s s := ⟨AroundClock.refl s, rfl, rfl⟩

theorem Handed.carried {s t : State} (h : Handed s t) : Carried s t := ⟨h.around, h.tsu, h.rfe⟩

theorem Carried.trans {s t u : State} (h : Carried s t) (k : Carried t u) : Carried s u :=
  ⟨h.1.trans k.1, k.2.1.trans h.2.1, k.2.2.trans h.2.2⟩

theorem carried_traceableReport (s : State) (v : Bool) : Carried s (traceableReport s v) :=
  Carried.trans ⟨around_view s v, rfl, rfl⟩ (handed_traceableReport s v).carried

theorem carried_trackingReport (s : State) : Carried s (trackingReport s) := by
  unfold trackingReport
  split
  · have h := (handed_openIssuer s .tracking).carried
    exact ⟨(around_sis s _).trans h.1, h.2.1, h.2.2⟩
  · exact Carried.refl s

/-- A clock change handed on keeps what surrounds the clock; the clock's own state stands; the issuer opens only at an entry to
TRACKING. -/
theorem carried_clockHandOn (s : State) (old : Tsu) (cause : ClockCause) : Carried s (clockHandOn s old cause) := by
  unfold clockHandOn
  split
  · unfold clockChanged
    simp only []
    refine Carried.trans ?_ (handed_notify _ _ _ _).carried
    refine Carried.trans ?_ (handed_qualityPending _).carried
    have h1 := (handed_offer s (clockRecord s old.clock cause)).carried
    split <;> split
    · exact h1.trans (carried_trackingReport _)
    · exact (h1.trans (carried_traceableReport _ _)).trans (carried_trackingReport _)
    · exact h1
    · exact h1.trans (carried_traceableReport _ _)
  · split
    · exact (handed_qualityPending s).carried
    · exact Carried.refl s

/-- The steps of a clock change's hand-on up to the notice. -/
theorem carried_beforeNotice (s : State) (old : Tsu) (cause : ClockCause) :
    Carried s (let t := s.tsu
      let s := offer s (clockRecord s old.clock cause)
      let s := if t.traceable = old.traceable then s else traceableReport s t.traceable
      let s := if t.clock = .tracking ∧ old.clock ≠ .tracking then trackingReport s else s
      qualityPending s) := by
  simp only []
  refine Carried.trans ?_ (handed_qualityPending _).carried
  have h1 := (handed_offer s (clockRecord s old.clock cause)).carried
  split <;> split
  · exact h1.trans (carried_trackingReport _)
  · exact (h1.trans (carried_traceableReport _ _)).trans (carried_trackingReport _)
  · exact h1
  · exact h1.trans (carried_traceableReport _ _)

/-- A clock change is noticed with the new state and grade (R8, step 5). -/
theorem noticed_clockHandOn (s : State) (old : Tsu) (cause : ClockCause)
    (h : s.tsu.clock ≠ old.clock ∨ s.tsu.traceable ≠ old.traceable) :
    Noticed s (clockHandOn s old cause) .clockState s.now .nothing (be 1 s.tsu.clock.code ++ be 1 s.tsu.grade.code) := by
  have hb := carried_beforeNotice s old cause
  unfold clockHandOn
  rw [if_pos h]
  unfold clockChanged
  simp only [] at hb ⊢
  revert hb
  generalize qualityPending _ = x
  intro hb
  have e : x.now = s.now := by simp [State.now, hb.2.1]
  rw [← e]
  exact (noticed_notify x _ _ _).sooner hb.1.noticesLe

/-- A clock change is recorded first (R8, step 1). -/
theorem offered_clockHandOn (s : State) (old : Tsu) (cause : ClockCause)
    (h : s.tsu.clock ≠ old.clock ∨ s.tsu.traceable ≠ old.traceable) :
    Offered s (clockHandOn s old cause) (clockRecord s old.clock cause) := by
  unfold clockHandOn
  rw [if_pos h]
  unfold clockChanged
  simp only []
  refine Offered.around (offered_offer s _) ?_
  refine AroundClock.trans ?_ (handed_notify _ _ _ _).around
  refine AroundClock.trans ?_ (handed_qualityPending _).around
  split <;> split
  · exact (carried_trackingReport _).1
  · exact ((carried_traceableReport _ _).trans (carried_trackingReport _)).1
  · exact AroundClock.refl _
  · exact (carried_traceableReport _ _).1

/-- The clock state judged again, as one expression (R18, step 4). -/
theorem rejudged_eq (t : Tsu) : t.rejudged =
    { t with clock := (if t.clock = .holdover ∧ t.limits.traceability < t.u then ClockState.untraceable
        else if t.clock = .untraceable ∧ t.u ≤ t.limits.traceability then ClockState.holdover else t.clock) } := by
  cases h : t.clock <;> simp only [Tsu.rejudged, h, reduceCtorEq, false_and, true_and, if_false]
  · rw [← h]
  · rw [← h]
  · rw [← h]
  · split
    · rfl
    · rw [← h]
  · split
    · rfl
    · rw [← h]

/-- U recomputed for a new base uncertainty, as one expression (R9). -/
theorem rebased_eq (t : Tsu) (o : Nat) : t.rebased o =
    { t with u := (if t.limits.baseU ≠ o ∧ (t.clock = .acquiring ∨ t.clock = .tracking)
        then min 16777215 (t.limits.baseU + t.lastJ + if t.stepped then 0 else t.theta.natAbs) else t.u) } := by
  unfold Tsu.rebased
  split <;> simp_all [Tsu.updateU]

/-- A change of view on the right of a handed state. -/
theorem Handed.viewing {s t : State} (h : Handed s t) (old : Tsu) : Handed (s.viewing old) (t.viewing old) := by
  have := h.withView (if s.tsu.traceable = old.traceable then s.auc.traceableView else s.tsu.traceable)
  simpa [State.viewing, h.tsu, h.traceableView] using this

/-! ## Leaps -/

/-- What a change of the pending leap or the leap count leaves: the clock's new state, the blocks around it, and the groups
with a start's deadline converted again. -/
structure LeapTold (s t : State) : Prop where
  around : AroundClock s t
  rfe : t.rfe = s.rfe
  sis : t.sis = s.sis
  view : t.auc.traceableView = s.auc.traceableView
  groups : ∀ g, (s.group g).state ≠ .deferred → t.group g = (s.group g).again t.tsu

/-- The last steps of a leap's hand-on: the quality frames and the notice. -/
theorem leap_shown (s : State) (a : LeapAction) :
    Handed s (notifyLeap (qualityPending s) a)
      ∧ Noticed s (notifyLeap (qualityPending s) a) .leap s.now .nothing
          (be 1 a.code ++ be 1 s.tsu.leapCount ++ be 1 s.tsu.pendingLeap.code) := by
  have q := handed_qualityPending s
  unfold notifyLeap
  rw [q.tsu]
  refine ⟨q.trans (handed_notify _ _ _ _), ?_⟩
  have n := noticed_notify (qualityPending s) .leap .nothing
    (be 1 a.code ++ be 1 s.tsu.leapCount ++ be 1 s.tsu.pendingLeap.code)
  have e : (qualityPending s).now = s.now := by unfold State.now; rw [q.tsu]
  rw [e] at n
  exact n.sooner q.noticesLe

/-- The end of a leap's hand-on, after its records: report, frames, notice. -/
theorem leapTold_end (s s' : State) (x : Tsu) (h : Handed { s with tsu := x } s') (a : LeapAction) :
    LeapTold s (notifyLeap (qualityPending (leapReport s')) a)
      ∧ (notifyLeap (qualityPending (leapReport s')) a).tsu = x
      ∧ AroundClock s' (notifyLeap (qualityPending (leapReport s')) a)
      ∧ Noticed s (notifyLeap (qualityPending (leapReport s')) a) .leap (x.vt) .nothing
          (be 1 a.code ++ be 1 x.leapCount ++ be 1 x.pendingLeap.code) := by
  have r := leapReport_spec s'
  have k := leap_shown (leapReport s') a
  have hq := k.1
  have e : (leapReport s').tsu = x := by rw [r.2.1, h.tsu]
  have ha : AroundClock s (leapReport s') := ((around_tsu s x).trans h.around).trans r.1
  refine ⟨⟨ha.trans hq.around, ?_, ?_, ?_, ?_⟩, by rw [hq.tsu, e], r.1.trans hq.around, ?_⟩
  · rw [hq.rfe, r.2.2.1, h.rfe]
  · rw [hq.sis, r.2.2.2.1, h.sis]
  · rw [hq.traceableView, r.2.2.2.2.1, h.traceableView]
  · intro g hg
    have h1 : s'.group g = s.group g := h.groups g hg
    have h2 := r.2.2.2.2.2 g (by rw [h1]; exact hg)
    rw [hq.groups g (by rw [h2, again_state, h1]; exact hg), h2, h1, hq.tsu, r.2.1]
  · have n := k.2
    unfold State.now at n
    rw [e] at n
    exact n.sooner ha.noticesLe

/-- The clock's state after the pending leap is applied (R15). -/
def Tsu.leapApplied (t : Tsu) : Tsu := { t with leapCount := t.leapNext, pendingLeap := .noLeap, leapDone := true }

/-- The pending leap applied (R15): recorded, shown and noticed, and nothing else. -/
theorem applyLeap_spec (s : State) :
    Handed { s with tsu := s.tsu.leapApplied } (applyLeap s)
      ∧ Offered s (applyLeap s)
        { kind := .leap, subject := 255, vt := s.now, body := be 1 2 ++ be 1 s.tsu.leapNext ++ be 1 0 ++ beVt s.now }
      ∧ Noticed s (applyLeap s) .leap s.now .nothing (be 1 2 ++ be 1 s.tsu.leapNext ++ be 1 0) := by
  let r := leapRecord { s with tsu := s.tsu.leapApplied } .applied .noLeap (some s.now)
  have h := handed_offer { s with tsu := s.tsu.leapApplied } r
  have o := offered_offer { s with tsu := s.tsu.leapApplied } r
  have k := leap_shown (offer { s with tsu := s.tsu.leapApplied } r) .applied
  have n := k.2
  unfold State.now at n
  rw [h.tsu] at n
  exact ⟨h.trans k.1, (o.sooner rfl).later k.1, n.sooner h.noticesLe⟩

/-- The pending leap changed to another one (R13). -/
theorem setPending_spec (s : State) (new : Leap) (h : s.tsu.pendingLeap ≠ new) :
    LeapTold s (setPending s new) ∧ (setPending s new).tsu = { s.tsu with pendingLeap := new }
      ∧ Noticed s (setPending s new) .leap s.now .nothing
          (be 1 (if new = .noLeap then 1 else 0) ++ be 1 s.tsu.leapCount ++ be 1 new.code) := by
  unfold setPending
  simp only [h, if_false]
  have h1 : ∀ (c : Prop) [Decidable c] (x : State) (r : Record), Handed x (if c then x else offer x r) := by
    intro c _ x r
    split
    · exact Handed.refl x
    · exact handed_offer x r
  have a1 := h1 (s.tsu.pendingLeap = .noLeap) { s with tsu := { s.tsu with pendingLeap := new } }
    (leapRecord { s with tsu := { s.tsu with pendingLeap := new } } .withdrawn .noLeap none)
  generalize (if s.tsu.pendingLeap = .noLeap then _ else _) = x at a1 ⊢
  have a2 := h1 (new = .noLeap) x (leapRecord x .announced new none)
  have k := leapTold_end s _ _ (a1.trans a2) (if new = .noLeap then .withdrawn else .announced)
  refine ⟨k.1, k.2.1, ?_⟩
  have e : (if new = Leap.noLeap then LeapAction.withdrawn else .announced).code = if new = .noLeap then 1 else 0 := by
    split <;> rfl
  have := k.2.2.2
  rw [e] at this
  exact this

/-- A conflict's records are handed on. -/
theorem handed_showConflict (s : State) (old : Tsu) : Handed s (showConflict s old) := by
  unfold showConflict leapConflict
  simp only []
  split <;> split
  · exact (handed_offer _ _).trans (handed_offer _ _)
  · exact handed_offer _ _
  · exact handed_offer _ _
  · exact Handed.refl _

/-- The clock's state with nothing changed but what belongs to leap seconds and the civil day. -/
def LeapOnly (a b : Tsu) : Prop :=
  b = { a with
    leapCount := b.leapCount, labelLeap := b.labelLeap, hostLeap := b.hostLeap, pendingLeap := b.pendingLeap,
    latched := b.latched, day := b.day, loadedSec := b.loadedSec, leapDone := b.leapDone,
    rangeConflict := b.rangeConflict }

theorem LeapOnly.refl (a : Tsu) : LeapOnly a a := rfl

theorem LeapOnly.trans {a b c : Tsu} (h : LeapOnly a b) (k : LeapOnly b c) : LeapOnly a c := by
  unfold LeapOnly at *
  rw [k, h]

/-- A state reached through leap changes alone. -/
structure LeapStep (s t : State) : Prop where
  around : AroundClock s t
  rfe : t.rfe = s.rfe
  sis : t.sis = s.sis
  view : t.auc.traceableView = s.auc.traceableView
  tsu : LeapOnly s.tsu t.tsu

theorem LeapStep.refl (s : State) : LeapStep s s := ⟨AroundClock.refl s, rfl, rfl, rfl, rfl⟩

theorem LeapStep.trans {s t u : State} (h : LeapStep s t) (k : LeapStep t u) : LeapStep s u :=
  ⟨h.around.trans k.around, k.rfe.trans h.rfe, k.sis.trans h.sis, k.view.trans h.view, h.tsu.trans k.tsu⟩

theorem Handed.leapStep {s t : State} (h : Handed s t) : LeapStep s t :=
  ⟨h.around, h.rfe, h.sis, h.traceableView, by rw [h.tsu]; exact LeapOnly.refl _⟩

theorem leapStep_tsu (s : State) (x : Tsu) (h : LeapOnly s.tsu x) : LeapStep s { s with tsu := x } :=
  ⟨around_tsu s x, rfl, rfl, rfl, h⟩

theorem leapStep_leapReport (s : State) : LeapStep s (leapReport s) := by
  have r := leapReport_spec s
  exact ⟨r.1, r.2.2.1, r.2.2.2.1, r.2.2.2.2.1, by rw [r.2.1]; exact LeapOnly.refl _⟩

theorem leapStep_applyLeap (s : State) : LeapStep s (applyLeap s) := by
  exact (leapStep_tsu s s.tsu.leapApplied rfl).trans (applyLeap_spec s).1.leapStep

theorem leapStep_setPending (s : State) (new : Leap) : LeapStep s (setPending s new) := by
  by_cases h : s.tsu.pendingLeap = new
  · simp only [setPending, h, if_true]; exact LeapStep.refl s
  · obtain ⟨a, b, _⟩ := setPending_spec s new h
    exact ⟨a.around, a.rfe, a.sis, a.view, by rw [b]; exact rfl⟩

theorem leapStep_announce (s : State) (t : Tsu) (h : LeapOnly s.tsu t) : LeapStep s (announce s t) := by
  unfold announce derivePending
  have k := (leapStep_tsu s t h).trans (handed_showConflict { s with tsu := t } s.tsu).leapStep
  split
  · exact k
  · exact k.trans (leapStep_setPending _ _)

theorem leapStep_takeWarning (s : State) (w : Leap) : LeapStep s (takeWarning s w) := leapStep_announce _ _ rfl

theorem leapStep_leapLatch (s : State) : LeapStep s (leapLatch s) := by
  unfold leapLatch
  split
  · simp only []
    split
    · exact (leapStep_tsu s { s.tsu with latched := true } rfl).trans (leapStep_applyLeap _)
    · exact leapStep_tsu s _ rfl
  · exact LeapStep.refl s

theorem leapStep_leapApplication (s : State) : LeapStep s (leapApplication s) := by
  unfold leapApplication
  split
  · exact leapStep_applyLeap s
  · exact LeapStep.refl s

theorem leapStep_civilMidnight (s : State) : LeapStep s (civilMidnight s) := by
  unfold civilMidnight
  split
  · exact leapStep_tsu s _ rfl
  · exact LeapStep.refl s

theorem skipDays_leapOnly (t : Tsu) : LeapOnly t t.skipDays := by
  unfold Tsu.skipDays
  split <;> rfl

theorem leapStep_catchUp (s : State) : LeapStep s (catchUp s) := by
  unfold catchUp
  simp only []
  have h1 := (leapStep_tsu s s.tsu.dayBack rfl).trans ((leapStep_leapLatch _).trans (leapStep_leapApplication _))
  have h2 := h1.trans (leapStep_civilMidnight _)
  have h3 := fun x : State => (leapStep_tsu x _ (skipDays_leapOnly x.tsu)).trans (leapStep_leapLatch _)
  exact h2.trans (h3 _)

theorem leapStep_adoptCount (s : State) (k : Nat) (first : Bool) : LeapStep s (adoptCount s k first) := by
  unfold adoptCount
  simp only []
  have h := (leapStep_tsu s (({ s.tsu with leapCount := k } : Tsu).dayBack) rfl).trans
    ((handed_offer _ (leapRecord { s with tsu := ({ s.tsu with leapCount := k } : Tsu).dayBack } .adopted
      (({ s.tsu with leapCount := k } : Tsu).dayBack).pendingLeap none)).leapStep.trans (leapStep_leapReport _))
  split
  · exact h
  · unfold leapConflict notifyLeap
    exact (h.trans (handed_offer _ _).leapStep).trans (handed_notify _ _ _ _).leapStep

/-- Step 2 of an update changes the VT-set flag and leap matters alone. -/
theorem leapStep_takeCount (s : State) (k : Nat) :
    LeapStep { s with tsu := { s.tsu with vtSet := true } } (takeCount s k) := by
  unfold takeCount
  simp only []
  split
  · exact LeapStep.refl _
  · split
    · exact leapStep_applyLeap _
    · exact leapStep_adoptCount _ _ _

end Sys2Proof.Machine
end

