-- ==== Sys2Proof/Laws/Civil.lean ====
section
/-!
SUPPORT. Laws/Civil.lean: the Gregorian calendar of R12: the date of a day number is the date it was made from.
-/
namespace Sys2Proof.Machine

/-- The year of an era of 400, from the days of the era. -/
theorem yearOfEra (g h k doy : Nat) (hg : g < 4) (hh : h < 25) (hk : k < 4) (hd : doy < 366)
    (hl : doy = 365 → k = 3 ∧ (h ≠ 24 ∨ g = 3)) (doe : Nat) (he : doe = 36524 * g + 1461 * h + 365 * k + doy) :
    (doe - doe / 1460 + doe / 36524 - doe / 146096) / 365 = 100 * g + 4 * h + k := by
  by_cases hlast : doe = 146096
  · subst hlast; omega
  have h0 : doe < 146096 := by omega
  have a : doe / 146096 = 0 := by omega
  have b : doe / 36524 = g := by omega
  by_cases e : 24 * g + h + 365 * k + doy < 1460
  · have c : doe / 1460 = 25 * g + h := by omega
    rw [a, b, c]; omega
  · have c : doe / 1460 = 25 * g + h + 1 := by omega
    rw [a, b, c]; omega

/-- The days before January and February, counted from the March before. -/
theorem daysBeforeMonth_early (y m : Nat) (h1 : 1 ≤ m) (h2 : m ≤ 2) : daysBeforeMonth y m + 306 = (153 * (m + 9) + 2) / 5 := by
  interval_cases m <;> simp [daysBeforeMonth, monthLength]

/-- The days before a month from March on. -/
theorem daysBeforeMonth_late (y m : Nat) (h1 : 3 ≤ m) (h2 : m ≤ 12) :
    daysBeforeMonth y m = (153 * (m - 3) + 2) / 5 + 59 + if leapYear y then 1 else 0 := by
  interval_cases m <;> simp [daysBeforeMonth, monthLength] <;> split <;> rfl

/-- The days before a year, counted by the year that begins in March. -/
theorem daysBeforeYear_march (y m : Nat) (hy : 1 ≤ y) :
    let Y := if m ≤ 2 then y - 1 else y
    daysBeforeYear y + (if m ≤ 2 then 0 else (if leapYear y then 1 else 0 : Nat) : Int) + 730484 =
      365 * (y : Int) + (Y / 4 : Nat) - (Y / 100 : Nat) + (Y / 400 : Nat) := by
  unfold daysBeforeYear
  have hl : (leapYear y = true ∧ ((y % 4 = 0 ∧ y % 100 ≠ 0) ∨ y % 400 = 0))
      ∨ (leapYear y = false ∧ ¬ ((y % 4 = 0 ∧ y % 100 ≠ 0) ∨ y % 400 = 0)) := by
    cases e : leapYear y <;> simp [leapYear] at e ⊢ <;> omega
  by_cases hm2 : m ≤ 2
  · simp only [hm2, if_true]; omega
  · simp only [hm2, if_false]
    have a4 : (((y : Int) - 1) / 4) = (y / 4 : Nat) - if y % 4 = 0 then 1 else 0 := by split <;> omega
    have a100 : (((y : Int) - 1) / 100) = (y / 100 : Nat) - if y % 100 = 0 then 1 else 0 := by split <;> omega
    have a400 : (((y : Int) - 1) / 400) = (y / 400 : Nat) - if y % 400 = 0 then 1 else 0 := by split <;> omega
    rw [a4, a100, a400]
    generalize y / 4 = p4 at *
    generalize y / 100 = p100 at *
    generalize y / 400 = p400 at *
    by_cases b4 : y % 4 = 0 <;> by_cases b100 : y % 100 = 0 <;> by_cases b400 : y % 400 = 0 <;>
      simp [leapYear, b4, b100, b400] <;> omega

/-- A year from 1 on in the eras of 400 years from March. -/
theorem eraOf (Y : Nat) : ∃ c g h k, g < 4 ∧ h < 25 ∧ k < 4 ∧ Y = 400 * c + (100 * g + 4 * h + k) ∧ Y / 4 = 100 * c + 25 * g + h
    ∧ Y / 100 = 4 * c + g ∧ Y / 400 = c :=
  ⟨Y / 400, Y % 400 / 100, Y % 100 / 4, Y % 4, by omega, by omega, by omega, by omega, by omega, by omega, rfl⟩

/-- The leap years by era. -/
theorem leapYear_era (c g h k : Nat) (hg : g < 4) (hh : h < 25) (hk : k < 4) :
    leapYear (400 * c + (100 * g + 4 * h + k) + 1) = true ↔ k = 3 ∧ (h ≠ 24 ∨ g = 3) := by
  simp only [leapYear, Bool.or_eq_true, Bool.and_eq_true, beq_iff_eq, bne_iff_ne]
  omega

/-- The day of a year from March, and the month and day back from it. -/
theorem dayOfYear_le (y m d : Nat) (h1 : 1 ≤ m) (h12 : m ≤ 12) (hd : 1 ≤ d) (hm : d ≤ monthLength y m) :
    let mp := if m ≤ 2 then m + 9 else m - 3
    let doy := (153 * mp + 2) / 5 + d - 1
    doy < 366 ∧ (doy = 365 → m = 2 ∧ leapYear y = true) ∧ (5 * doy + 2) / 153 = mp ∧ doy - (153 * mp + 2) / 5 + 1 = d
      ∧ (if mp < 10 then mp + 3 else mp - 9) = m := by
  interval_cases m <;> simp [monthLength] at hm ⊢ <;> (try split at hm) <;> (try simp_all) <;> omega

/-- The date of a day number is the date it was made from (R12). -/
theorem dateOf_dayNumber (y m d : Nat) (hy : 2000 ≤ y) (h1 : 1 ≤ m) (h12 : m ≤ 12) (hd : 1 ≤ d) (hm : d ≤ monthLength y m) :
    dateOf (dayNumber y m d) = ((y : Int), m, d) := by
  obtain ⟨Y, hY⟩ : ∃ Y, Y = if m ≤ 2 then y - 1 else y := ⟨_, rfl⟩
  obtain ⟨mp, hmp⟩ : ∃ mp, mp = if m ≤ 2 then m + 9 else m - 3 := ⟨_, rfl⟩
  obtain ⟨doy, hdoy⟩ : ∃ doy, doy = (153 * mp + 2) / 5 + d - 1 := ⟨_, rfl⟩
  obtain ⟨c, g, h, k, hg, hh, hk, hYc, hY4, hY100, hY400⟩ := eraOf Y
  obtain ⟨hdl, hlast, hmonth, hday, hm'⟩ := dayOfYear_le y m d h1 h12 hd hm
  rw [← hmp] at hdl hlast hmonth hday hm'
  rw [← hdoy] at hdl hlast hmonth hday
  have hleap : doy = 365 → k = 3 ∧ (h ≠ 24 ∨ g = 3) := by
    intro e
    obtain ⟨em, el⟩ := hlast e
    rw [em] at hY
    have : y = 400 * c + (100 * g + 4 * h + k) + 1 := by simp at hY; omega
    rw [this] at el
    exact (leapYear_era c g h k hg hh hk).1 el
  obtain ⟨doe, hdoe⟩ : ∃ doe, doe = 36524 * g + 1461 * h + 365 * k + doy := ⟨_, rfl⟩
  have hz : dayNumber y m d + 730425 = (c : Int) * 146097 + doe := by
    have hq := daysBeforeYear_march y m (by omega)
    simp only [← hY, hY4, hY100, hY400] at hq
    unfold dayNumber
    clear hlast hleap hmonth hday hm' hY4 hY100 hY400
    by_cases hm2 : m ≤ 2
    · have hb := daysBeforeMonth_early y m h1 hm2
      simp only [hm2, if_true] at hY hmp hq
      rw [← hmp] at hb
      omega
    · have hb := daysBeforeMonth_late y m (by omega) h12
      simp only [hm2, if_false] at hY hmp hq
      rw [← hmp] at hb
      generalize (if leapYear y then 1 else 0) = x at *
      omega
  have hdoel : doe < 146097 := by clear hz hY hmp hdoy hlast hmonth hday; omega
  have yoe := yearOfEra g h k doy hg hh hk hdl hleap doe hdoe
  have e1 : (dayNumber y m d + 730425) / 146097 = c := by rw [hz]; clear hdoe; omega
  have e2 : ((dayNumber y m d + 730425) % 146097).toNat = doe := by rw [hz]; clear hdoe; omega
  have e3 : doe - (365 * (100 * g + 4 * h + k) + (100 * g + 4 * h + k) / 4 - (100 * g + 4 * h + k) / 100) = doy := by
    have a : (100 * g + 4 * h + k) / 4 = 25 * g + h := by clear hdoe hz; omega
    have b : (100 * g + 4 * h + k) / 100 = g := by clear hdoe hz; omega
    rw [a, b, hdoe]
    clear hz hmp hdoy; omega
  unfold dateOf
  simp only [e1, e2, yoe, e3, hmonth, hday, hm']
  refine Prod.ext ?_ rfl
  simp only []
  by_cases hm2 : m ≤ 2
  · simp only [hm2, if_true] at hY ⊢
    omega
  · simp only [hm2, if_false] at hY ⊢
    omega

end Sys2Proof.Machine
end

