-- ==== Sys2Proof/Laws/Layout.lean ====
section
/-!
SUPPORT. Laws/Layout.lean: an encoded field read back is the number it was made from (R175), and how long encoded fields are.
-/
namespace Sys2Proof.Machine

@[simp] theorem be_length (n x : Nat) : (be n x).length = n := by
  induction n with
  | zero => rfl
  | succ n ih => simp [be, ih]

/-- Only the low `n` bytes of a number enter its `n` byte field. -/
theorem be_mod (n x : Nat) : be n x = be n (x % 256 ^ n) := by
  induction n generalizing x with
  | zero => rfl
  | succ m ih =>
    simp only [be]
    rw [ih x, ih (x % 256 ^ (m + 1))]
    congr 1
    · rw [Nat.pow_succ, Nat.mod_mul_right_div_self]
      apply BitVec.eq_of_toNat_eq; simp
    · rw [Nat.mod_mod_of_dvd]; exact Nat.pow_dvd_pow 256 (Nat.le_succ m)

theorem foldl_be (n x acc : Nat) (h : x < 256 ^ n) :
    (be n x).foldl (fun acc b => acc * 256 + b.toNat) acc = acc * 256 ^ n + x := by
  induction n generalizing x acc with
  | zero => simp [be] at *; omega
  | succ n ih =>
    simp only [be, List.foldl_cons]
    rw [be_mod n x, ih _ _ (Nat.mod_lt _ (Nat.pos_of_ne_zero (by simp)))]
    have hd : x / 256 ^ n < 256 := by
      rw [Nat.div_lt_iff_lt_mul (Nat.pos_of_ne_zero (by simp))]; rw [Nat.pow_succ] at h; omega
    simp only [BitVec.toNat_ofNat]
    rw [Nat.mod_eq_of_lt (by omega), Nat.pow_succ]
    have := Nat.div_add_mod x (256 ^ n)
    rw [Nat.add_mul, Nat.mul_assoc, Nat.mul_comm 256 (256 ^ n)]
    rw [Nat.mul_comm (x / 256 ^ n)]; omega

/-- A number that fits its field is spelled by it. -/
theorem fromBe_be (n x : Nat) (h : x < 256 ^ n) : fromBe (be n x) = x := by
  unfold fromBe; rw [foldl_be n x 0 h]; simp

/-- The first field of a message. -/
theorem field_first (n x : Nat) (h : x < 256 ^ n) (rest : List Byte) : field (be n x ++ rest) 0 n = x := by
  unfold field
  rw [List.drop_zero, List.take_append_of_le_length (by simp), List.take_of_length_le (by simp), fromBe_be n x h]

/-- The only field of a message. -/
theorem field_only (n x : Nat) (h : x < 256 ^ n) : field (be n x) 0 n = x := by
  have := field_first n x h []
  simpa using this

/-- A later field of a message: the first field passed over. -/
theorem field_later (m y off n : Nat) (h : m ≤ off) (rest : List Byte) :
    field (be m y ++ rest) off n = field rest (off - m) n := by
  unfold field
  rw [List.drop_append]
  simp [List.drop_eq_nil_of_le, h]

end Sys2Proof.Machine
end

