-- ==== Sys2Proof/Laws/PerInstr.lean ====
section
/-!
SUPPORT. Laws/PerInstr.lean: one lemma per command for the family Named: a request command is well formed exactly when its request
is, and its kind leaves the top bit to the reply (R180).
-/
namespace Sys2Proof.Laws.Named

open Sys2Proof.Machine

/-- The command's request, where it carries one, has the command's well-formedness and a kind below 80H. -/
def Statement (c : Instr) : Prop := ∀ tag r, c.request? = some (tag, r) → c.wf = r.wf ∧ (kindOf r).msb = false

/-- Every request kind is below 80H. -/
theorem kind_msb (r : Request) : (kindOf r).msb = false := by cases r <;> simp only [kindOf] <;> decide

/-- A command that carries a request meets the statement. -/
theorem of_request {c : Instr} {tag : Byte} {r : Request} (h : c.request? = some (tag, r)) : Statement c := by
  intro t q hq
  rw [h] at hq
  obtain ⟨rfl, rfl⟩ := Prod.mk.inj (Option.some.inj hq)
  exact ⟨by simp [Instr.wf, h], kind_msb _⟩

/-- A command that carries no request meets the statement. -/
theorem of_event {c : Instr} (h : c.request? = none) : Statement c := by
  intro t q hq
  rw [h] at hq
  exact absurd hq (by simp)

theorem powerUp (hrate0 hrate1 : Bool) : Statement (.powerUp hrate0 hrate1) := of_event rfl

theorem resetAssert (lowNs : Nat) : Statement (.resetAssert lowNs) := of_event rfl

theorem resetRelease (hrate0 hrate1 : Bool) : Statement (.resetRelease hrate0 hrate1) := of_event rfl

theorem recoveryEnd : Statement (.recoveryEnd) := of_event rfl

theorem hostByteReceived (value : Byte) (stopLow : Bool) : Statement (.hostByteReceived value stopLow) := of_event rfl

theorem byteTimeout : Statement (.byteTimeout) := of_event rfl

theorem receivedRequest (kind tag : Byte) (body : List Byte) : Statement (.receivedRequest kind tag body) := of_event rfl

theorem replySent (hrate0 hrate1 : Bool) : Statement (.replySent hrate0 hrate1) := of_event rfl

theorem identify (tag : Byte) : Statement (.identify tag) := of_request rfl

theorem restart (tag : Byte) : Statement (.restart tag) := of_request rfl

theorem fetchNotices (tag : Byte) (count : Nat) : Statement (.fetchNotices tag count) := of_request rfl

theorem setClockLimits (tag : Byte) (limits : ClockLimits) : Statement (.setClockLimits tag limits) := of_request rfl

theorem readClock (tag : Byte) : Statement (.readClock tag) := of_request rfl

theorem announceLeap (tag : Byte) (value : Nat) : Statement (.announceLeap tag value) := of_request rfl

theorem configureReference (tag : Byte) (args : RefArgs) : Statement (.configureReference tag args) := of_request rfl

theorem enableReference (tag : Byte) (ref : Nat) : Statement (.enableReference tag ref) := of_request rfl

theorem disableReference (tag : Byte) (ref : Nat) : Statement (.disableReference tag ref) := of_request rfl

theorem readReference (tag : Byte) (ref : Nat) : Statement (.readReference tag ref) := of_request rfl

theorem holdLine (tag : Byte) (line : Nat) : Statement (.holdLine tag line) := of_request rfl

theorem configureLine (tag : Byte) (line mode delay : Nat) : Statement (.configureLine tag line mode delay) := of_request rfl

theorem setFilter (tag : Byte) (line index enabled code mask : Nat) : Statement (.setFilter tag line index enabled code mask) := of_request rfl

theorem releaseLine (tag : Byte) (line : Nat) : Statement (.releaseLine tag line) := of_request rfl

theorem reconnectLine (tag : Byte) (line : Nat) : Statement (.reconnectLine tag line) := of_request rfl

theorem readLine (tag : Byte) (line : Nat) : Statement (.readLine tag line) := of_request rfl

theorem openStamping (tag : Byte) : Statement (.openStamping tag) := of_request rfl

theorem readIssuer (tag : Byte) : Statement (.readIssuer tag) := of_request rfl

theorem armAuction (tag : Byte) (args : ArmArgs) : Statement (.armAuction tag args) := of_request rfl

theorem extendAuction (tag : Byte) (group : Nat) : Statement (.extendAuction tag group) := of_request rfl

theorem cutNow (tag : Byte) (group : Nat) : Statement (.cutNow tag group) := of_request rfl

theorem cancelAuction (tag : Byte) (group : Nat) : Statement (.cancelAuction tag group) := of_request rfl

theorem clearAuction (tag : Byte) (group : Nat) : Statement (.clearAuction tag group) := of_request rfl

theorem readAuction (tag : Byte) (group : Nat) : Statement (.readAuction tag group) := of_request rfl

theorem readJournal (tag : Byte) : Statement (.readJournal tag) := of_request rfl

theorem readRecords (tag : Byte) (serial slot count : Nat) : Statement (.readRecords tag serial slot count) := of_request rfl

theorem closePage (tag : Byte) : Statement (.closePage tag) := of_request rfl

theorem confirmExport (tag : Byte) (serial chain : Nat) (retention : Option Nat) : Statement (.confirmExport tag serial chain retention) := of_request rfl

theorem releasePage (tag : Byte) (serial : Nat) : Statement (.releasePage tag serial) := of_request rfl

theorem annotate (tag : Byte) (data : List Byte) : Statement (.annotate tag data) := of_request rfl

theorem configureAgent (tag : Byte) (args : AgentArgs) : Statement (.configureAgent tag args) := of_request rfl

theorem enableAgent (tag : Byte) (agent : Nat) : Statement (.enableAgent tag agent) := of_request rfl

theorem disableAgent (tag : Byte) (agent : Nat) : Statement (.disableAgent tag agent) := of_request rfl

theorem resumeSurvey (tag : Byte) : Statement (.resumeSurvey tag) := of_request rfl

theorem readAgent (tag : Byte) (agent : Nat) : Statement (.readAgent tag agent) := of_request rfl

theorem secondBoundary : Statement (.secondBoundary) := of_event rfl

theorem clockSummary : Statement (.clockSummary) := of_event rfl

theorem leapLatch : Statement (.leapLatch) := of_event rfl

theorem leapApplication : Statement (.leapApplication) := of_event rfl

theorem civilMidnight : Statement (.civilMidnight) := of_event rfl

theorem pulseEdge (ref : Fin 3) (rising : Bool) (eighth : Fin 8) : Statement (.pulseEdge ref rising eighth) := of_event rfl

theorem edgeJudged (ref : Fin 3) : Statement (.edgeJudged ref) := of_event rfl

theorem overrun (ref : Fin 3) : Statement (.overrun ref) := of_event rfl

theorem missingPulse (ref : Fin 3) : Statement (.missingPulse ref) := of_event rfl

theorem labelFrame (ref : Fin 2) (bytes : List Byte) (stopLow : Bool) : Statement (.labelFrame ref bytes stopLow) := of_event rfl

theorem labelTimeout (cut : CutLabel) : Statement (.labelTimeout cut) := of_event rfl

theorem tagStartDelimiter (line : Fin 8) (bytes : List Byte) : Statement (.tagStartDelimiter line bytes) := of_event rfl

theorem tagFrameEnd (line : Fin 8) (bytes : List Byte) (ending : FrameEnding) : Statement (.tagFrameEnd line bytes ending) := of_event rfl

theorem returnFrameEnd (line : Fin 8) : Statement (.returnFrameEnd line) := of_event rfl

theorem pauseAssert (line : Fin 8) : Statement (.pauseAssert line) := of_event rfl

theorem pauseDeassert (line : Fin 8) : Statement (.pauseDeassert line) := of_event rfl

theorem drainTimeout (line : Fin 8) : Statement (.drainTimeout line) := of_event rfl

theorem grant : Statement (.grant) := of_event rfl

theorem callStart (group : Fin 32) : Statement (.callStart group) := of_event rfl

theorem windowStart (group : Fin 32) : Statement (.windowStart group) := of_event rfl

theorem endExpiry (group : Fin 32) : Statement (.endExpiry group) := of_event rfl

theorem deferLimit (group : Fin 32) : Statement (.deferLimit group) := of_event rfl

theorem settle (group : Fin 32) : Statement (.settle group) := of_event rfl

theorem writeVerified : Statement (.writeVerified) := of_event rfl

theorem writeFailed : Statement (.writeFailed) := of_event rfl

theorem pageOpenFailed : Statement (.pageOpenFailed) := of_event rfl

theorem eraseEnd (notBlank : List (Fin 128)) : Statement (.eraseEnd notBlank) := of_event rfl

theorem agentDue (agent : Fin 8) : Statement (.agentDue agent) := of_event rfl

theorem markPhaseEnd (outcome : MarkOutcome) : Statement (.markPhaseEnd outcome) := of_event rfl

theorem gapEnd : Statement (.gapEnd) := of_event rfl

theorem readPhaseEnd (outcome : ReadOutcome) : Statement (.readPhaseEnd outcome) := of_event rfl

theorem arbitrationLost : Statement (.arbitrationLost) := of_event rfl

theorem busError (isStart : Bool) : Statement (.busError isStart) := of_event rfl

theorem clockLowTimeout (dataHigh : Bool) : Statement (.clockLowTimeout dataHigh) := of_event rfl

theorem startConditionSeen (clockHigh dataHigh : Bool) : Statement (.startConditionSeen clockHigh dataHigh) := of_event rfl

theorem stopConditionSeen : Statement (.stopConditionSeen) := of_event rfl

theorem busTimerExpiry : Statement (.busTimerExpiry) := of_event rfl

theorem clearingStopSent : Statement (.clearingStopSent) := of_event rfl

theorem stale (agent : Fin 8) : Statement (.stale agent) := of_event rfl

theorem supplyLoss : Statement (.supplyLoss) := of_event rfl

theorem busLineChange (clockHigh dataHigh : Bool) : Statement (.busLineChange clockHigh dataHigh) := of_event rfl

theorem ninthClearingPulse : Statement (.ninthClearingPulse) := of_event rfl

end Sys2Proof.Laws.Named
end

