-- ==== Sys2Proof/Laws/Store.lean ====
section
/-!
SUPPORT. Laws/Store.lean: the soundness of the journal's store in a form that can be decided.
-/
namespace Sys2Proof.Machine

/-- What `StoreSound` says, decided. -/
def State.storeCheck (s : State) : Bool :=
  let e := s.ej
  decide ((e.state = .starting ∨ e.state = .exhausted → e.writer = none ∧ e.openPage = none)
      ∧ (e.state = .starting → e.eraseQueue = []))
    && (e.state == .starting || decide (∀ p, (s.page p).state = .opened ↔ e.openPage.map (·.1) = some p))
    && e.openPage.all (fun x => decide (x.2 < 128))
    && e.writer.all (fun w => decide (e.openPage = some (w.page, w.slot.val)
        ∧ (w.source = .intake → e.intake.head? = some w.record)))
    && decide (∀ p, (s.page p).state = .free → s.page p = {})
    && decide (e.eraseQueue.Nodup ∧ ∀ p ∈ e.eraseQueue, (s.page p).state = .erasing)
    && decide (e.state = .starting ∨ e.state = .exhausted ∨ e.state = e.judged)

/-- A store that passes the check is sound. -/
theorem StoreSound.of_check {s : State} (h : s.storeCheck = true) : StoreSound s := by
  simp only [State.storeCheck, Bool.and_eq_true, decide_eq_true_eq, Bool.or_eq_true, beq_iff_eq] at h
  obtain ⟨⟨⟨⟨⟨⟨⟨h1, h2⟩, h3⟩, h4⟩, h5⟩, h6⟩, h7⟩, h8⟩ := h
  refine ⟨h1, h2, ?_, ?_, ?_, ?_, h6, h7, h8⟩
  · intro hs p
    rw [(h3.resolve_left hs) p, Option.map_eq_some_iff]
    constructor
    · rintro ⟨⟨q, n⟩, hq, rfl⟩; exact ⟨n, hq⟩
    · rintro ⟨n, hn⟩; exact ⟨(p, n), hn, rfl⟩
  · intro p n hp
    rw [hp] at h4; simpa using h4
  · intro w hw
    rw [hw] at h5; simp at h5; exact h5.1
  · intro w hw hs
    rw [hw] at h5; simp at h5; exact h5.2.resolve_left (fun h => h hs)

end Sys2Proof.Machine
end

