-- ==== Sys2Proof/Tests/Slice0.lean ====
section
/-!
SUPPORT. Tests/Slice0.lean: the smoke test of WellFormed, a state and operands that meet the hypotheses of every statement (clause by
clause, at the edges of their ranges), and small tests of single commands.
-/
namespace Sys2Proof.Tests

open Sys2Proof.Machine

set_option Elab.async false

/-! ## WellFormed refuses what cannot reach the part -/

theorem test_wf_count : (Instr.fetchNotices 1#8 256).wf = false ∧ (Instr.fetchNotices 1#8 255).wf = true := by decide
theorem test_wf_limits : (Instr.setClockLimits 1#8 { ({} : Tsu).limits with tau := 65536 }).wf = false
    ∧ (Instr.setClockLimits 1#8 ({} : Tsu).limits).wf = true := by decide
theorem test_wf_reference : (Instr.configureReference 1#8 ⟨256, 0, 0, 0, 0, 0, 0, 0⟩).wf = false
    ∧ (Instr.configureReference 1#8 ⟨255, 0, 0, 0, 0, 0, 0, 0⟩).wf = true := by decide
theorem test_wf_filter : (Instr.setFilter 1#8 0 0 0 65536 0).wf = false
    ∧ (Instr.setFilter 1#8 0 0 0 65535 65535).wf = true := by decide
theorem test_wf_line : (Instr.configureLine 1#8 0 0 65536).wf = false ∧ (Instr.holdLine 1#8 256).wf = false := by decide
theorem test_wf_civil : (Instr.armAuction 1#8 ⟨0, ⟨65536, 1, 1, 0, 0, 0, 0⟩, ⟨2030, 1, 1, 0, 0, 0, 0⟩, 0, 0, 0, 0⟩).wf = false := by
  decide
theorem test_wf_arm : (Instr.armAuction 1#8 ⟨0, ⟨2030, 1, 1, 0, 0, 0, 0⟩, ⟨2030, 1, 1, 0, 0, 0, 0⟩, 0, 65536, 0, 0⟩).wf = false := by
  decide
theorem test_wf_agent : (Instr.configureAgent 1#8 ⟨0, 8, 65536, 0, 0, 1, 255⟩).wf = false := by decide
theorem test_wf_records : (Instr.readRecords 1#8 4294967296 0 1).wf = false
    ∧ (Instr.confirmExport 1#8 0 0 (some 65536)).wf = false ∧ (Instr.confirmExport 1#8 0 0 none).wf = true := by decide
theorem test_wf_annotation : (Instr.annotate 1#8 (List.replicate 39 0#8)).wf = false
    ∧ (Instr.annotate 1#8 (List.replicate 40 0#8)).wf = true := by decide
theorem test_wf_request_body : (Instr.receivedRequest 1#8 1#8 (List.replicate 1025 0#8)).wf = false := by decide +kernel
theorem test_wf_label : (Instr.labelFrame 0 (List.replicate 10 0#8) false).wf = false
    ∧ (Instr.labelFrame 0 [0xB5#8] false).wf = false ∧ (Instr.labelFrame 0 [0xB5#8] true).wf = false
    ∧ (Instr.labelFrame 0 [0xB5#8, 0#8] true).wf = true := by decide
theorem test_wf_label_timeout : (Instr.labelTimeout ⟨0, []⟩).wf = false ∧ (Instr.labelTimeout ⟨0, [0#8]⟩).wf = false
    ∧ (Instr.labelTimeout ⟨0, 0xB5#8 :: List.replicate 9 0#8⟩).wf = false ∧ (Instr.labelTimeout ⟨0, [0xB5#8]⟩).wf = true := by decide
theorem test_wf_tag_bytes : (Instr.tagStartDelimiter 0 (List.replicate 17 0#8)).wf = false
    ∧ (Instr.tagFrameEnd 0 (List.replicate 15 0#8) .extraByte).wf = false
    ∧ (Instr.tagFrameEnd 0 (List.replicate 16 0#8) .extraByte).wf = true := by decide
theorem test_wf_reading : (Instr.readPhaseEnd (.reading (List.replicate 15 0#8))).wf = false
    ∧ (Instr.readPhaseEnd (.reading (List.replicate 16 0#8))).wf = true := by decide
theorem test_wf_erase : (Instr.eraseEnd [3, 3]).wf = false ∧ (Instr.eraseEnd [3, 4]).wf = true := by decide

/-! ## Small states -/

/-- A part that runs, recovery ended, every page FREE, the first epoch begun. -/
def up : State :=
  { ej := { state := .normal, epoch := 1, storedEpoch := 1 }, sis := { epoch := 1 }, auc := { journalView := .normal } }

/-- The part with its clock TRACKING at 1,000 s of VT, the auctions told of it. -/
def tracking : State :=
  { up with
    tsu := { up.tsu with clock := .tracking, vtSet := true, tracked := true, u := 100, vt := 1000000000000 }
    auc := { up.auc with traceableView := true } }

/-- The part with the Stamp Issuer OPEN. -/
def issuing : State := { tracking with sis := { up.sis with state := .opened } }

/-- The part with one line as given. -/
def withLine (l : Line) : State := up.setLine 0 l

/-- The part with one reference as given. -/
def withRef (r : Ref) : State := up.setRef 0 r

/-- A group as given, its deadlines in the list. -/
def withGroup (s : State) (a : Auction) : State := enter s 0 a

/-- An auction that has been armed, its index known. -/
def armed : Auction :=
  { state := .armed, callStart := some ⟨⟨0, 0⟩, 1000000000000⟩, windowStart := some ⟨⟨0, 0⟩, 1002000000000⟩,
    windowLength := 1000, extLength := 10, maxExt := 2, deferLimit := 5, armIndex := some 7 }

/-- The same auction with a draw. -/
def drawn (st : AuctionState) : Auction :=
  { armed with state := st, drawnEnd := some 1000000000000, nonce := some 5#64, drawCheck := .value 0#64 }

/-- The part with page 0 OPEN, its PAGE_OPEN written. -/
def withPage : State :=
  let s := up.setPage 0 { up.page 0 with state := .opened, serial := some 1 }
  { s with ej := { s.ej with openPage := some (0, 1), nextIndex := 1, nextSerial := 2 } }

/-- A record. -/
def note : Record := { kind := .annotation, subject := 255, vt := 0, body := List.replicate 40 1#8 }

/-- The writer at work in a slot of page 0. -/
def writing (slot : Fin 128) (r : Record) (src : WriteSource) (intake : List Record) : State :=
  { withPage with ej := { withPage.ej with
      openPage := some (0, slot.val), writer := some ⟨0, slot, r, src⟩, intake := intake } }

/-- The same, with every other page in use. -/
def lastPage (s : State) : State :=
  { s with ej := { s.ej with
      state := .tight
      pages := Vector.ofFn fun p : Fin 64 => if p = 0 then s.page 0 else { state := .closed, serial := some (p.val + 1) } } }

/-- A transaction in a phase. -/
def txn (ph : Phase) : Txn := { agent := 0, address := 8, fast := false, phase := ph, mark := some (0, 0) }

/-- The part with a transaction in a phase of its own on the bus. -/
def polling (ph : Phase) : State :=
  { up with psm := { up.psm with
      bus := .own, timer := some 0, txn := some (txn ph),
      agents := up.psm.agents.set 0 { config := { address := 8 }, state := .unknown, nextDue := some 0 } } }

/-- The part with the peer bus in a state and its timer at the limit. -/
def busIn (b : BusState) : State :=
  { up with osc := 3125000, psm := { up.psm with bus := b, timer := some 0, clearing := .resting } }

/-- A command goes on, to a state that passes a test. -/
def goes (c : Instr) (s : State) (p : State → Bool) : Bool :=
  match exec c s with
  | .next t => p t
  | .fault _ => false
  | .refused _ => false

/-- The status of the last reply. -/
def lastStatus (t : State) : Option Status := (t.hli.replies.getLast?).map (·.status)

/-! ## Witnesses: the step, time and restarts -/

theorem meets_StepTakesFrontCommand : ({ up with pending := [.gapEnd] } : State).pending = .gapEnd :: [] := by decide

theorem meets_IdleStepRunsDueOrTicks : up.pending = [] ∧ dueCommand up = none
    ∧ dueCommand { up with tsu := { up.tsu with boundaryDue := true } } = some .secondBoundary := by decide +kernel

theorem up_bounded : Bounded up := by constructor <;> decide +kernel

theorem meets_TickAdvancesVenueTime : up.live = true ∧ up.ej.state ≠ .starting ∧ Bounded up
    ∧ up.tsu.vt + 9 < Config.vtSpan ∧ up.pending = [] ∧ dueCommand up = none :=
  ⟨by decide +kernel, by decide +kernel, up_bounded, by decide +kernel, by decide +kernel, by decide +kernel⟩

/-- A part that owes a restart, with the Restart reply at the head of its queue. -/
def owing : State := { up with hli := { up.hli with restartOwed := true, replies := [⟨0x82#8, 7#8, .ok, []⟩] } }

theorem meets_RestartClearsAllButTheStore :
    (({ up with supply := false } : State).supply = false ∧ ({ up with supply := false } : State).resetLow = false)
    ∧ (({ up with resetLow := true } : State).resetLow = true ∧ ({ up with resetLow := true } : State).supply = true)
    ∧ (({ up with supply := false, resetLow := true } : State).supply = false
        ∧ ({ up with supply := false, resetLow := true } : State).resetLow = true)
    ∧ (owing.live = true ∧ owing.hli.restartOwed = true ∧ owing.hli.replies = ⟨0x82#8, 7#8, .ok, []⟩ :: []) := by decide +kernel

theorem meets_HeldPartStandsAtRestartValues : up.resetLow = false ∧ 1000 ≤ 1000 ∧ 999 < 1000 ∧ up.supply = true := by decide

theorem meets_StoppedPartTakesNothing : ({ up with supply := false } : State).live = false
    ∧ (∀ h0 h1, Instr.gapEnd ≠ .powerUp h0 h1) ∧ (∀ n, Instr.gapEnd ≠ .resetAssert n)
    ∧ (∀ h0 h1, Instr.gapEnd ≠ .resetRelease h0 h1) ∧ Instr.gapEnd ≠ .supplyLoss
    ∧ (∀ i, Instr.gapEnd ≠ .pauseAssert i) ∧ (∀ i, Instr.gapEnd ≠ .pauseDeassert i) := by
  refine ⟨by decide, ?_, ?_, ?_, ?_, ?_, ?_⟩ <;> intros <;> simp

/-- A part at its last epoch. -/
def lastEpoch : State := { State.reset with ej := { State.reset.ej with storedEpoch := 4294967295 } }

theorem meets_RecoveryEndBeginsEpoch : State.reset.live = true ∧ State.reset.ej.state = .starting
    ∧ max (recoveredFrom (State.reset.ej.pages.map Page.recovered)).epoch State.reset.ej.storedEpoch < 4294967295
    ∧ lastEpoch.live = true ∧ lastEpoch.ej.state = .starting
    ∧ 4294967295 ≤ max (recoveredFrom (lastEpoch.ej.pages.map Page.recovered)).epoch lastEpoch.ej.storedEpoch
    ∧ ((State.reset.setPage 3 { state := .opened, serial := some 1 }).page 3).state = .opened
    ∧ ((State.reset.setPage 3 { state := .closed, serial := some 1 }).page 3).state ≠ .opened
    ∧ ((State.reset.setPage 3 { state := .closed, serial := some 1 }).page 3).state ≠ .free
    ∧ (∀ g, (State.reset.group g).state ≠ .deferred) ∧ (∀ p, ((State.reset.page p).serial.getD 0) ≤ 0) ∧ 0 < 4294967294
    ∧ (State.reset.page 0).state = .free
    ∧ (State.reset.setPage 3 { state := .closed, serial := some 1, count := 1 } |>.page 3).count = 1 := by decide +kernel

theorem reset_store : StoreSound State.reset := .of_check (by decide +kernel)

/-- The clause on serials and the first page, of a new store and of one whose greatest serial is 1. -/
theorem meets_RecoveryEndBeginsEpoch_serials : StoreSound State.reset
    ∧ StoreSound (State.reset.setPage 3 { state := .closed, serial := some 1 })
    ∧ (∀ p, ((State.reset.setPage 3 { state := .closed, serial := some 1 }).page p).serial.getD 0 ≤ 1)
    ∧ ((State.reset.setPage 3 { state := .closed, serial := some 1 }).page 3).serial = some 1 :=
  ⟨reset_store, .of_check (by decide +kernel), by decide +kernel⟩

/-! ## Witnesses: the host link -/

/-- A part whose framer is in a state, a count past the limit of its byte timer. -/
def framing (f : Framer) (a : Assembly) : State :=
  { up with osc := 125001, hli := { up.hli with framer := f, assembly := a, byteTimer := some 0 } }

theorem meets_FramerHuntsAndRejects : up.live = true ∧ up.hli.restartOwed = false ∧ up.hli.framer = .hunt
    ∧ (framing .header {}).hli.framer ≠ .hunt ∧ (framing .header {}).hli.byteTimer = some 0
    ∧ 0 + 125000 < (framing .header {}).osc ∧ (framing .header {}).live = true
    ∧ ¬ (0 + 125000 + 1250 < (framing .header {}).osc) ∧ 0 + 125000 + 1250 < 126251 ∧ 125000 ≤ 0 + 125000
    ∧ (framing .length { lengthBytes := [4#8] }).hli.assembly.lengthBytes = [4#8] ∧ 1024 < (4#8).toNat * 256 + (1#8).toNat
    ∧ (framing .check { check := [0#8] }).hli.assembly.check = [0#8]
    ∧ (0#8).toNat * 256 + (0#8).toNat ≠ (crc16 (framing .check { check := [0#8] }).hli.assembly.checked).toNat
    ∧ (framing .header {}).hli.replies.length < 8
    ∧ 8 ≤ ({ up.hli with replies := List.replicate 8 ⟨1#8, 1#8, .ok, []⟩ } : Hli).replies.length := by decide +kernel

theorem meets_WholeFrameIsOneRequest : up.live = true ∧ up.hli.restartOwed = false ∧ up.hli.framer = .hunt
    ∧ (List.replicate 1024 (0#8)).length ≤ 1024 := by decide +kernel

theorem meets_RequestBodyRoundTrip : (Request.fetchNotices 255).wf = true := by decide

theorem meets_ReceivedRequestIsItsCommand : (Instr.holdLine 5#8 7).request? = some (5#8, .holdLine 7)
    ∧ (Request.holdLine 7).wf = true := by decide

/-- A part with a reply queue of a length, and a request outstanding or none. -/
def replying (n : Nat) (out : Option (Byte × Byte)) : State :=
  { up with hli := { up.hli with replies := List.replicate n ⟨1#8, 1#8, .ok, []⟩, outstanding := out } }

theorem meets_RequestGatesInOrder : (Instr.holdLine 5#8 7).request? = some (5#8, .holdLine 7) ∧ (Request.holdLine 7).wf = true
    ∧ (owing.live = true ∧ owing.hli.restartOwed = true)
    ∧ ((replying 8 none).hli.restartOwed = false ∧ 8 ≤ (replying 8 none).hli.replies.length)
    ∧ ((replying 7 (some (1#8, 1#8))).hli.replies.length < 8 ∧ (replying 7 (some (1#8, 1#8))).hli.outstanding ≠ none)
    ∧ (State.reset.hli.replies.length < 8 ∧ State.reset.hli.outstanding = none ∧ State.reset.ej.state = .starting
        ∧ Request.holdLine 7 ≠ .identify)
    ∧ parseRequest 0x7F#8 [] = .unknownKind ∧ parseRequest 0x20#8 [] = .badLength := by decide +kernel

theorem up_accepts : up.accepts = true := by decide +kernel

theorem meets_AcceptedRequestIsAnsweredOnce : (Instr.readClock 5#8).request? = some (5#8, .readClock)
    ∧ Request.readClock.wf = true ∧ up.accepts = true := ⟨by decide, by decide, up_accepts⟩

theorem meets_SentReplyEndsItsRequest : (replying 1 none).live = true
    ∧ (replying 1 none).hli.replies = ⟨1#8, 1#8, .ok, []⟩ :: [] ∧ (replying 1 none).hli.restartOwed = false := by decide +kernel

theorem withPage_accepts : withPage.accepts = true := by decide +kernel

theorem meets_ReadOutsChangeNothing : withPage.accepts = true ∧ 1 ≤ 12 ∧ 12 ≤ 12 ∧ 116 + 12 ≤ 128
    ∧ (withPage.page 0).serial = some 1 ∧ (withPage.page 0).state ≠ .erasing ∧ (∀ q, q < 0 → (withPage.page q).serial ≠ some 1)
    ∧ (∀ p, (withPage.page p).serial ≠ some 2)
    ∧ ((withPage.setPage 0 { state := .erasing, serial := some 1 }).page 0).state = .erasing
    ∧ (0 < 1 ∨ 12 < 0 ∨ 128 < 0 + 0) ∧ 12 < 13 ∧ 128 < 117 + 12
    ∧ (State.reset.live = true ∧ State.reset.hli.restartOwed = false ∧ State.reset.hli.replies.length < 8
        ∧ State.reset.hli.outstanding = none ∧ State.reset.ej.state = .starting) := ⟨withPage_accepts, by decide +kernel⟩

theorem meets_FetchNoticesDrainsInOrder : up.accepts = true ∧ (1 ≤ 16 ∧ 16 ≤ 16) ∧ (0 < 1 ∨ 16 < 0) ∧ (17 < 1 ∨ 16 < 17) :=
  ⟨up_accepts, by decide⟩

theorem meets_RestartRequestStopsTheFramer : up.accepts = true ∧ owing.live = true ∧ owing.hli.restartOwed = true :=
  ⟨up_accepts, by decide⟩

theorem meets_UnknownReferenceIsRefused : up.accepts = true ∧ 2 < 3 ∧ (⟨3, 0, 0, 0, 0, 0, 0, 0⟩ : RefArgs).ref = 3 :=
  ⟨up_accepts, by decide⟩

/-- A civil time. -/
def noon : CivilArgs := ⟨2030, 1, 1, 12, 0, 0, 0⟩

theorem meets_UnknownGroupIsRefused : up.accepts = true ∧ 31 < 32 ∧ (⟨32, noon, noon, 0, 0, 0, 0⟩ : ArmArgs).group = 32 :=
  ⟨up_accepts, by decide⟩

theorem meets_UnknownAgentIsRefused : up.accepts = true ∧ 7 < 8 ∧ (⟨8, 8, 125, 0, 0, 1, 255⟩ : AgentArgs).agent = 8 :=
  ⟨up_accepts, by decide⟩

/-! ## Witnesses: the clock -/

/-- The part with a clock as given. -/
def withClock (t : Tsu) : State := { up with tsu := t }

/-- A clock in HOLDOVER past its traceability limit. -/
def lapsed : Tsu := { clock := .holdover, u := 100001, vtSet := true }

theorem meets_ClockLimitsTakeEffect : (withClock lapsed).accepts = true ∧ ClockLimits.valid ({} : Tsu).limits = true
    ∧ ({} : Tsu).limits.traceability < lapsed.u ∧ ClockLimits.valid { ({} : Tsu).limits with tau := 7 } = false
    ∧ (withClock { clock := .acquiring }).accepts = true ∧ (50 : Nat) ≠ ({} : Tsu).limits.baseU ∧ up.ej.takes true = true
    ∧ withPage.ej.openPage ≠ none ∧ withPage.ej.intake.length + 1 < 32 := by
  decide +kernel

theorem meets_AnnounceLeapTakesEffect :
    ((withClock { latched := true }).accepts = true ∧ (withClock { latched := true }).tsu.latched = true)
    ∧ ((withClock {}).accepts = true ∧ (withClock {}).tsu.latched = false ∧ 2 < 3)
    ∧ (withClock { leapCount := 255 }).tsu.leapCount = 255 ∧ (withClock {}).tsu.leapCount = 0
    ∧ Leap.code .insert = 1 ∧ (withClock {}).tsu.cannotApply .insert = false
    ∧ Leap.insert ≠ (withClock {}).tsu.hostLeap ∧ Leap.code .noLeap = 0 ∧ (withClock {}).tsu.cannotApply .noLeap = false
    ∧ Leap.noLeap = (withClock {}).tsu.hostLeap
    ∧ ((withClock { leapCount := 5, labelLeap := .insert }).tsu.cannotApply .delete = false
        ∧ (withClock { leapCount := 5, labelLeap := .insert }).tsu.labelLeap = .insert
        ∧ (withClock { leapCount := 5, labelLeap := .insert }).tsu.hostLeap = .noLeap)
    ∧ ((withClock { pendingLeap := .insert, hostLeap := .insert }).tsu.labelLeap = .noLeap
        ∧ (withClock { pendingLeap := .insert, hostLeap := .insert }).tsu.leapDone = false)
    ∧ (up.setGroup 0 armed |>.group 0).state = .armed := by decide +kernel

theorem meets_SecondBoundaryGrowsAndCounts : (withClock { lapsed with boundaryDue := true, u := 99999 }).live = true
    ∧ (withClock { lapsed with boundaryDue := true, u := 99999 }).tsu.boundaryDue = true
    ∧ lapsed.limits.traceability < 99999 + lapsed.limits.unaidedRate
    ∧ ((withLine { state := .running }).line 0).state = .running
    ∧ (withClock { summaryDue := true }).tsu.summaryDue = true := by decide +kernel

/-- A clock in a second of the first day. -/
def atSecond (sec k : Nat) (p : Leap) : Tsu := { vt := sec * 1000000000, leapCount := k, pendingLeap := p }

theorem meets_LeapInstantsTakeEffect : (withClock (atSecond 86399 0 .noLeap)).live = true
    ∧ ((atSecond 86399 0 .noLeap).latched = false ∧ (atSecond 86399 0 .noLeap).dayEnd - 1 ≤ (atSecond 86399 0 .noLeap).sec
        ∧ (atSecond 86399 0 .noLeap).loadedSec < (atSecond 86399 0 .noLeap).dayEnd - 1)
    ∧ (let loaded : Tsu := { atSecond 86399 0 .noLeap with loadedSec := 86399 }
       loaded.dayEnd - 1 ≤ loaded.loadedSec ∧ loaded.latchDue = false)
    ∧ (atSecond 86398 0 .noLeap).sec < (atSecond 86398 0 .noLeap).dayEnd - 1
    ∧ ((atSecond 86400 1 .delete).dayEnd - 1 ≤ (atSecond 86400 1 .delete).sec ∧ 0 < (atSecond 86400 1 .delete).leapCount
        ∧ (atSecond 86400 1 .delete).pendingLeap = .delete)
    ∧ ((atSecond 86401 0 .insert).dayEnd + 1 ≤ (atSecond 86401 0 .insert).sec ∧ (atSecond 86401 0 .insert).leapCount < 255
        ∧ (atSecond 86401 0 .insert).pendingLeap = .insert)
    ∧ (atSecond 86400 0 .noLeap).dayEnd ≤ (atSecond 86400 0 .noLeap).sec := by decide +kernel

theorem meets_UpdateSteersOrSteps :
    (withClock { clock := .acquiring, lock := 7 }).tsu.clock = .acquiring
    ∧ (withClock { clock := .acquiring }).sis.state = .closed ∧ 0 < (withClock {}).sis.epoch
    ∧ (1000000 : Int).natAbs ≤ ({} : Tsu).limits.stepThreshold ∧ ({} : Tsu).limits.stepThreshold < (1000001 : Int).natAbs
    ∧ issuing.sis.state ≠ .closed ∧ issuing.tsu.clock = .tracking
    ∧ ({} : Tsu).limits.lockCount ≤ satSucc 255 7 ∧ satSucc 255 6 < ({} : Tsu).limits.lockCount
    ∧ ({} : Tsu).limits.unlockCount ≤ satSucc 255 2 ∧ satSucc 255 1 < ({} : Tsu).limits.unlockCount
    ∧ 255 ≤ 255 ∧ ((atSecond 5 7 .insert).pendingLeap = .insert ∧ 8 = (atSecond 5 7 .insert).leapCount + 1)
    ∧ ((atSecond 5 7 .delete).pendingLeap = .delete ∧ 6 + 1 = (atSecond 5 7 .delete).leapCount)
    ∧ (9 ≠ (atSecond 5 7 .insert).leapCount ∧ 9 ≠ (atSecond 5 7 .insert).leapCount + 1)
    ∧ (withClock { clock := .acquiring, vtSet := true }).tsu.vtSet = true
    ∧ ({} : Tsu).rangeConflict = false
    ∧ (({ labelLeap := .noLeap, hostLeap := .delete, pendingLeap := .delete } : Tsu).leapDone = false
        ∧ ({ labelLeap := .noLeap, hostLeap := .delete, pendingLeap := .delete } : Tsu).latched = false)
    ∧ (up.setGroup 0 armed |>.group 0).state = .armed := by decide +kernel

theorem meets_GradeAndSelectionFollowTheirRules :
    let ok : Ref := { state := .qualified }
    (ok.state = .qualified ∧ ok.config.labelUse = true) ∧ ¬ (({} : Ref).state = .qualified) := by decide

/-! ## Witnesses: invariants -/

theorem issuing_bounded : Bounded issuing := by constructor <;> decide +kernel

theorem step_issuing : step issuing = .next (tick issuing) := by
  have h : dueCommand issuing = none := by decide +kernel
  simp [step, show issuing.pending = [] from rfl, h]

theorem meets_VenueTimeNeverDecreases : step issuing = .next (tick issuing) ∧ Bounded issuing
    ∧ issuing.tsu.vt + 9 < Config.vtSpan ∧ issuing.sis.state ≠ .closed ∧ issuing.ej.state ≠ .starting
    ∧ (tick issuing).restarts = issuing.restarts :=
  ⟨step_issuing, issuing_bounded, by decide +kernel, by decide +kernel, by decide +kernel, by decide +kernel⟩

theorem meets_BoundedKept : Bounded issuing ∧ step issuing = .next (tick issuing) ∧ (∀ i, issuing.sis.offersOf i ≤ 2) :=
  ⟨issuing_bounded, step_issuing, by decide +kernel⟩

theorem meets_DeadlineListKept : issuing.auc.listFollows ∧ step issuing = .next (tick issuing) := by
  refine ⟨⟨List.Pairwise.nil, fun d => ?_⟩, step_issuing⟩
  simp [issuing, tracking, up, Auction.deadlines]

theorem meets_AuctionsAreToldAndCut : issuing.auc.traceableView = issuing.tsu.traceable
    ∧ issuing.auc.journalView = issuing.ej.state
    ∧ (issuing.auc.cutConditions = true ∧ ∀ g, (issuing.group g).state ≠ .deferred)
    ∧ step issuing = .next (tick issuing) :=
  ⟨by decide +kernel, by decide +kernel, by decide +kernel, step_issuing⟩

/-- An issuer at work: a stamp at VT 5 issued, a capture at 6 in a cell and an offer of one at 5 pending. -/
def atWork : State := { issuing with sis := { issuing.sis with
  next := some 2, last := some (1, 5), cells := (Vector.replicate 8 none).set 0 (some ⟨6, false⟩),
  offers := [⟨1, 5, false, ⟨7, 255#8, 1#8, 9⟩, true, none⟩] } }

theorem atWork_ordered : CaptureOrdered atWork.sis :=
  ⟨by decide +kernel, List.pairwise_singleton _ _, by
    intro q c h o ho
    obtain ⟨_, rfl⟩ : q = 1 ∧ c = 5 := by simpa [atWork, eq_comm] using h
    simp only [atWork, List.mem_singleton] at ho; subst ho; exact Nat.le_refl 5⟩

theorem meets_StampsAreAccountedFor : (Accounted issuing ∧ step issuing = .next (tick issuing))
    ∧ CaptureOrdered atWork.sis ∧ step atWork = exec .grant atWork ∧ atWork.sis.state ≠ .closed
    ∧ (∀ (i : Fin 8) (c : Capture) (q v : Nat), atWork.sis.cells[i] = some c → atWork.sis.last = some (q, v) → v ≤ c.time)
    ∧ (exec .grant atWork = .next (grantOffer atWork) ∧ (grantOffer atWork).sis.last = some (2, 5))
    ∧ up.sis.state = .closed ∧ up.pending.head? = none ∧ dueCommand up = none := by
  refine ⟨⟨⟨by decide +kernel, fun _ => ⟨1, by decide +kernel⟩, by decide +kernel, by decide +kernel, by decide +kernel,
    by decide +kernel, by decide +kernel, by decide +kernel⟩, step_issuing⟩, atWork_ordered, ?_, by decide +kernel, ?_, ?_, by decide +kernel⟩
  · have h : dueCommand atWork = some .grant := by decide +kernel
    simp [step, show atWork.pending = [] from rfl, h]
  · have all : ∀ i : Fin 8, atWork.sis.cells[i] = none ∨ atWork.sis.cells[i] = some ⟨6, false⟩ := by decide +kernel
    intro i c q v hc hl
    obtain ⟨_, rfl⟩ : q = 1 ∧ v = 5 := by simpa [atWork, eq_comm] using hl
    rcases all i with e | e <;> rw [e] at hc <;> cases hc
    decide
  · exact ⟨rfl, by decide +kernel⟩

theorem up_store : StoreSound up := .of_check (by decide +kernel)

theorem step_up : step up = .next (tick up) := by
  have h : dueCommand up = none := by decide +kernel
  simp [step, show up.pending = [] from rfl, h]

theorem meets_StoreSoundKept : StoreSound up ∧ step up = .next (tick up) := ⟨up_store, step_up⟩

/-! ## Witnesses: the reference inputs -/

/-- A CANDIDATE reference of the 1 Hz profile one interval after its anchor, with a good label held. -/
def candidate : Ref :=
  { state := .candidate, candidate := some .hz1, anchor := some 0, fValid := true, lock := 7, lastSecond := some 41,
    heldLabel := some ⟨42, 0, .noLeap, true⟩, cell := some ⟨1000000000, 1000000000⟩ }

theorem meets_ReferenceRequestsTakeEffect : up.accepts = true
    ∧ (⟨0, 0, 1, 3, 31, 7, 1, 1⟩ : RefArgs).ref = (0 : Fin 3).val
    ∧ RefArgs.valid ⟨0, 0, 1, 3, 31, 7, 1, 1⟩ 0 = true ∧ RefArgs.valid ⟨0, 0, 8, 3, 31, 7, 1, 1⟩ 0 = false
    ∧ RefArgs.valid ⟨2, 1, 7, 0, 1, 1, 0, 0⟩ 2 = true ∧ RefArgs.valid ⟨2, 1, 7, 0, 1, 1, 1, 0⟩ 2 = false
    ∧ (up.ref 0).state = .disabled ∧ (withRef candidate).accepts = true
    ∧ ((withRef candidate).ref 0).state ≠ .disabled := by decide +kernel

theorem meets_PulseEdgeIsCaptured : up.live = true ∧ (up.ref 0).state = .disabled
    ∧ ((withRef { state := .searching }).ref 0).state ≠ .disabled
    ∧ true = ((withRef { state := .searching }).ref 0).config.rising ∧ ((withRef { state := .searching }).ref 0).cell = none
    ∧ ((withRef candidate).ref 0).cell ≠ none ∧ false ≠ ((withRef candidate).ref 0).config.rising := by decide +kernel

/-- REF0 about to close a good interval, its edge `n` eighths after REF1's for the same second; no reference is selected. -/
def apart (n : Nat) : State :=
  (withRef { candidate with state := .qualified, lock := 8 }).setRef 1
    { config := { priority := 1 }, state := .qualified, offset := some ⟨0, 42, 1000000000 - n⟩ }

theorem meets_EdgeJudgedIsHandedOff : (withRef candidate).live = true
    ∧ ((withRef candidate).ref 0).cell = some ⟨1000000000, 1000000000⟩ ∧ ((withRef candidate).ref 0).anchor = some 0
    ∧ candidate.afterMissing (phaseSince 0 1000000000) = false ∧ candidate.afterMissing (phaseSince 0 2000000000) = true
    ∧ ((withRef { candidate with anchor := none }).ref 0).anchor = none
    ∧ (let r : Ref := { candidate with state := .qualified, lock := 8, cell := none }
       (r.judgeEdge 0 ⟨1000000000, 1000000000⟩ 1000000000).sample ≠ none
         ∧ (r.judgeEdge 0 ⟨1000000000, 1000000000⟩ 1000000000).ref.state = r.state)
    ∧ (let r : Ref := { candidate with state := .qualified, cell := none }
       (r.judgeEdge 0 ⟨1000000000, 1000000000⟩ 999999000).good = false
         ∧ (r.judgeEdge 0 ⟨1000000000, 1000000000⟩ 999999000).ref.state = r.state)
    ∧ (∀ n ∈ [50, 1000, 1001], (apart n).live = true ∧ ((apart n).ref 0).cell = some ⟨1000000000, 1000000000⟩
        ∧ ((apart n).ref 1).state = .qualified ∧ ((apart n).ref 1).offset = some ⟨0, 42, 1000000000 - n⟩
        ∧ (1000000000 - (1000000000 - n : Nat) - (n : Int)) % 281474976710656 = 0 ∧ -140737488355328 ≤ (n : Int)
        ∧ (n : Int) < 140737488355328)
    ∧ (correctedNs 1000 0).natAbs ≤ (apart 0).tsu.limits.tracking ∧ (apart 0).tsu.limits.tracking < (correctedNs 1001 0).natAbs
    ∧ goes (.edgeJudged 0) (apart 1001) (fun t => t.rfe.disagree && t.ej.intake.length == 1) = true
    ∧ goes (.edgeJudged 0) (apart 1000) (fun t => !t.rfe.disagree) = true := by decide +kernel

theorem meets_IntervalsAreClassified : candidate.candidate = some .hz1 ∧ candidate.state = .candidate
    ∧ correctedNs 999999799 0 - (Profile.nominal .hz1 : Int) < -(bandOf 1 : Int)
    ∧ -(bandOf 1 : Int) ≤ correctedNs 999999800 0 - (Profile.nominal .hz1 : Int)
    ∧ correctedNs 1000000200 0 - (Profile.nominal .hz1 : Int) ≤ (bandOf 1 : Int)
    ∧ candidate.labelsPass 0 = true ∧ ({ candidate with heldLabel := none } : Ref).labelsPass 0 = false
    ∧ candidate.labelled 0 = true ∧ candidate.labelled 2 = false ∧ candidate.config.lockValue ≤ candidate.lock + 1
    ∧ ({ candidate with lock := 6 } : Ref).lock + 1 < candidate.config.lockValue
    ∧ 1 + 1 < candidate.config.unlockValue ∧ candidate.config.unlockValue ≤ 2 + 1
    ∧ (candidate.judgeEdge 0 ⟨0, 0⟩ 999999799).good = false
    ∧ (let r : Ref := { state := .searching }
       r.candidate = none ∧ r.identified 1000000000 = some .hz1 ∧ r.identified 500000000 = none ∧ r.fValid = false)
    ∧ (frequencySample .hz1 1000100000).natAbs ≤ 100000000 ∧ 100000000 < (frequencySample .hz1 1000100001).natAbs
    ∧ 100000000 < (frequencySample .hz10 1000000000).natAbs ∧ 100000000 < (frequencySample .hz100 1000000000).natAbs
    ∧ candidate.heldLabel = some ⟨42, 0, .noLeap, true⟩ ∧ candidate.lastSecond = some 41 ∧ candidate.labelBad = false
    ∧ (let r : Ref := { candidate with state := .searching, candidate := none }
       r.identified 1000000000 = some .hz1 ∧ r.fValid = true
         ∧ (correctedNs 1000000000 0 - (Profile.nominal .hz1 : Int)).natAbs ≤ bandOf 1 ∧ r.labelsPass 0 = true) := by
  decide +kernel

theorem meets_OverrunsAndMissingPulsesAreJudged :
    (withRef { candidate with overrunsDue := 1 }).live = true ∧ 0 < ((withRef { candidate with overrunsDue := 1 }).ref 0).overrunsDue
    ∧ ((withRef { candidate with overrunsDue := 1 }).ref 0).state ≠ .disabled
    ∧ (let s : State := { withRef { candidate with cell := none } with osc := 125000027 }
       (s.ref 0).anchor = some 0 ∧ (s.ref 0).candidate = some .hz1 ∧ s.missingDue 0 = true)
    ∧ (1000000000 + 200 < 8 * 125000026 ∧ 8 * 125000026 ≤ 281474976710648 ∧ ¬ (1000000000 + 200 < 8 * 125000025))
    ∧ (up.ref 0).overrunsDue = 0 ∧ (up.ref 0).anchor = none := by decide +kernel

/-- The nine bytes of a label of second 42 after its sync, and its check. -/
def labelBytes : List Byte := be 5 42 ++ [0#8, 0#8, 1#8]

theorem meets_LabelsAreTaken : up.live = true ∧ (up.ref 0).state = .disabled
    ∧ ((withRef candidate).ref 0).state ≠ .disabled ∧ ((withRef candidate).ref 0).config.labelUse = true
    ∧ ((withRef candidate).ref 0).anchor = some 0 ∧ ([] : List Byte).head? ≠ some 0xB5#8
    ∧ parseLabel (0xB5#8 :: labelBytes ++ [crc8 labelBytes]) false = some ⟨42, 0, .noLeap, true⟩
    ∧ parseLabel [0xB5#8, 0#8] true = none ∧ ([0xB5#8] : List Byte).length = 1 ∧ ([0xB5#8] : List Byte).head? = some 0xB5#8
    ∧ 9 < 10 ∧ 10 ≤ (0xB5#8 :: labelBytes ++ [crc8 labelBytes]).length
    ∧ correctedNs (phaseSince 0 (8 * 12499999)) 0 < 100000000 ∧ 100000000 ≤ correctedNs (phaseSince 0 (8 * 12500000)) 0
    ∧ correctedNs (phaseSince 0 (8 * 112500000)) 0 ≤ 900000000 ∧ 900000000 < correctedNs (phaseSince 0 (8 * 112500001)) 0
    ∧ ((withRef { candidate with heldLabel := none }).ref 0).heldLabel = none
    ∧ ((withRef candidate).ref 0).heldLabel ≠ none ∧ 1099511627775 < 1099511627776 ∧ 255 < 256 ∧ (0#8 : Byte) ≠ crc8 labelBytes := by
  decide +kernel

/-! ## Witnesses: the tag links and return lanes -/

/-- A stamp. -/
def stamp (q : Nat) : Stamp :=
  { epoch := 1, sequence := q, line := 0, capture := 0, grade := .a, u := 1, disposition := .accepted, phase := none, hit := none,
    lineDegraded := false, peerNotConforming := false, leapSecond := false, echo := ⟨0, 255#8, 1#8, 0⟩ }

theorem meets_HoldLineTakesEffect : up.accepts = true ∧ (up.line 0).state = .off
    ∧ (withLine { state := .running, queue := [.stamp (stamp 1)] }).accepts = true
    ∧ ({ state := .running, queue := [.stamp (stamp 1)] } : Line).drained = false
    ∧ (withLine { state := .running }).accepts = true ∧ ({ state := .running } : Line).drained = true
    ∧ ((withLine { state := .held }).line 0).state = .held ∧ ((withLine { state := .isolated }).line 0).state = .isolated
    ∧ 7 < 8 := by decide +kernel

theorem meets_LineIsConfiguredWhileHeld : (withLine { state := .held }).accepts = true
    ∧ ((withLine { state := .held }).line 0).state = .held ∧ 65535 ≤ 65535 ∧ 1 < 2 ∧ 3 < 4 ∧ 7 < 8
    ∧ (up.line 0).state ≠ .held := by decide +kernel

theorem meets_LineIsReleasedAndReconnected : (withLine { state := .held, pause := true }).accepts = true
    ∧ ((withLine { state := .held, pause := true }).line 0).state = .held
    ∧ ((withLine { state := .held, pause := true }).line 0).pause = true ∧ (up.line 0).state ≠ .held
    ∧ ((withLine { state := .isolated, rec_ := 255 }).line 0).state = .isolated ∧ (up.line 0).state ≠ .isolated
    ∧ (withGroup (withLine { state := .held, pause := true }) armed |>.group 0).state ≠ .idle := by decide +kernel

/-- The fourteen bytes of a tag frame before its check. -/
def tagHead : List Byte := be 2 7 ++ [255#8, 1#8] ++ be 4 9 ++ List.replicate 6 0#8

/-- A whole tag frame. -/
def tagBytes : List Byte := tagHead ++ be 2 (crc16 tagHead).toNat

theorem meets_TagFramesAreCapturedAndJudged :
    ((withLine { state := .running }).live = true ∧ ((withLine { state := .running }).line 0).frame ≠ .judged
      ∧ ((withLine { state := .running }).line 0).state = .running)
    ∧ ((up.line 0).frame ≠ .judged ∧ (up.line 0).state ≠ .running)
    ∧ ((withLine { state := .running, frame := .judged, owed := 1 }).line 0).frame = .judged
    ∧ ((withLine { frame := .ignored }).line 0).frame = .ignored
    ∧ judgeFrame [] .unresolved = .bad .framing ∧ judgeFrame tagBytes .endDelimiter = .valid ⟨7, 255#8, 1#8, 9⟩
    ∧ 255 ≤ 247 + 8 ∧ ¬ (255 ≤ 246 + 8)
    ∧ ({ state := .holding, frame := .noFrame, owed := 0 } : Line).drained = true
    ∧ ({ state := .holding, frame := .noFrame, owed := 1 } : Line).drained = false
    ∧ healthOf 95 ≠ healthOf (95 + 8) ∧ healthOf 0 = healthOf (0 + 8) ∧ healthOf 96 ≠ healthOf (96 - 1) := by decide +kernel

theorem meets_SchedulerFollowsItsOrder :
    let l : Line := { state := .running }
    (withLine l).live = true ∧ ({ l with lane := some [] } : Line).lane = some [] ∧ ({ l with pause := true } : Line).pause = true
    ∧ ({ l with state := .holding, lane := none } : Line).drained = true ∧ l.lane = none ∧ ({} : Line).state ≠ .running
    ∧ ({} : Line).state ≠ .holding
    ∧ 0 < ({ l with tally := ⟨1, some 1, some 1⟩ } : Line).tally.count ∧ l.tally.count = 0 ∧ l.queue = []
    ∧ ({ l with quality := true } : Line).quality = true ∧ ({ l with phases := [31] } : Line).phases = 31 :: []
    ∧ ({ l with queue := [.stamp (stamp 1)], interleave := 7 } : Line).interleave ≠ 8
    ∧ ({ l with queue := [.stamp (stamp 1)], interleave := 8, quality := true } : Line).interleave = 8
    ∧ l.pause = false := by decide +kernel

theorem meets_DrainTimeoutHoldsTheLine :
    let s : State := { withLine { state := .holding, drain := some 0, queue := [.stamp (stamp 1)] } with osc := 1250000 }
    s.live = true ∧ (s.line 0).state = .holding ∧ (s.line 0).drain = some 0 ∧ 0 + 1250000 ≤ s.osc := by decide +kernel

theorem meets_TagFrameLayoutIsRead : 65535 < 65536 ∧ 4294967295 < 4294967296 ∧ (List.replicate 6 (0#8)).length = 6
    ∧ 1 ≤ (5#8 : Byte).toNat ∧ (5#8 : Byte).toNat ≤ 5 ∧ 5 < (6#8 : Byte).toNat ∧ (0#8 : Byte).toNat = 0
    ∧ [0#8, 0#8] ≠ be 2 (crc16 tagHead).toNat ∧ (List.replicate 15 (0#8)).length ≠ 16 := by decide +kernel

/-! ## Witnesses: stamp issue -/

/-- An offer of line 0 to a group. -/
def offerTo (g : Nat) (accepted : Bool) : Offer := ⟨0, 1000000000000, false, ⟨7, BitVec.ofNat 8 g, 1#8, 9⟩, accepted, none⟩

/-- An issuer with one offer, its last grant two counts ago. -/
def granting (st : IssuerState) (next : Option Nat) (l : Line) : State :=
  { issuing.setLine 0 l with
    osc := 2, sis := { up.sis with state := st, next := next, offers := [offerTo 255 true], lastGrant := some 0 } }

theorem meets_GrantsAreAnsweredInOrder :
    let s := granting .opened (some 1) { state := .running, owed := 1 }
    let last := granting .opened (some 281474976710655) { state := .running, owed := 1 }
    (s.live = true ∧ s.sis.offers = offerTo 255 true :: [] ∧ s.sis.lastGrant = some 0 ∧ 0 + 2 ≤ s.osc)
    ∧ (s.sis.state = .opened ∧ s.sis.next = some 1) ∧ (s.line 0).state = .running ∧ (s.line 0).queue.length < 16
    ∧ last.sis.next = some 281474976710655
    ∧ ((granting .opened (some 1) { state := .held }).line 0).state ≠ .running
    ∧ ((granting .opened (some 1) { state := .held }).line 0).state ≠ .holding
    ∧ (granting .opened (some 1) { state := .running, lane := some [] }).sis.offers = offerTo 255 true :: []
    ∧ ((granting .opened (some 1) { state := .running, queue := List.replicate 16 (.stamp (stamp 1)), pause := true }).line 0).pause = true
    ∧ 16 ≤ (List.replicate 16 (Answer.stamp (stamp 1))).length ∧ 15 < 16
    ∧ ({ s with osc := 1 } : State).osc < 0 + 2
    ∧ ((s.setAgent 0 { config := { address := 8, binding := some 0 } }).agent 0).config.binding = some (offerTo 255 true).line
    ∧ ((s.setAgent 0 { config := { address := 8, binding := some 0 } }).agent 0).state ≠ .conforming
    ∧ (∀ a, (s.agent a).config.binding ≠ some (offerTo 255 true).line)
    ∧ (granting .closed (some 1) {}).sis.state ≠ .opened ∧ (granting .exhausted none {}).sis.next = none
    ∧ (up.accepts = true ∧ up.sis.state = .closed ∧ 0 < up.sis.epoch)
    ∧ ({ up with sis := {} } : State).sis.epoch = 0 ∧ issuing.sis.state = .opened
    ∧ (granting .exhausted none {}).sis.state = .exhausted := by decide +kernel

theorem meets_DispositionsAreDecidedInOrder :
    (offerTo 0 false).accepted = false ∧ (offerTo 32 true).fields.group.toNat = 32 ∧ (offerTo 254 true).fields.group.toNat = 254
    ∧ (offerTo 255 true).fields.group.toNat = 255 ∧ (offerTo 31 true).fields.group.toNat = (31 : Fin 32).val
    ∧ ((up.setGroup 31 { state := .cut, cutTime := some 999999999999 }).group 31).cutTime = some 999999999999
    ∧ ((up.setGroup 31 { state := .cut, cutTime := some 999999999999 }).group 31).state = .cut
    ∧ 999999999999 < (offerTo 31 true).capture ∧ (up.group 31).state ≠ .cut ∧ (up.group 31).state ≠ .closed
    ∧ AuctionState.window ≠ .idle ∧ AuctionState.window ≠ .armed ∧ AuctionState.window ≠ .cancelled := by decide +kernel

/-! ## Witnesses: closing auctions -/

/-- A part with a traceable clock whose journal has room, armed times two seconds away. -/
def armAt (start : Nat) : ArmArgs :=
  ⟨0, ⟨2000, 1, 1, 0, 16, start, 0⟩, ⟨2000, 1, 1, 0, 16, 42, 0⟩, 1000, 10, 2, 5⟩

/-- The same part where the intake has no room left. -/
def intakeFull : State := { tracking with ej := { tracking.ej with intake := List.replicate 32 note } }

theorem meets_ArmingFollowsItsChecks :
    tracking.accepts = true ∧ (armAt 41).group = (0 : Fin 32).val ∧ ArmArgs.inRange (armAt 41) = true
    ∧ ArmArgs.inRange { armAt 41 with windowLength := 999 } = false
    ∧ (tracking.group 0).state = .idle ∧ tracking.auc.journalView = .normal ∧ (tracking.group 0).heldList = []
    ∧ (withGroup tracking (drawn .cut)).accepts = true ∧ (withGroup tracking (drawn .cut) |>.group 0).state = .cut
    ∧ ({ tracking with auc := { tracking.auc with journalView := .tight } } : State).auc.journalView ≠ .normal
    ∧ tracking.tsu.fromCivil (CivilArgs.toCivil (armAt 41).callStart) = some 1001000000000
    ∧ tracking.tsu.fromCivil (CivilArgs.toCivil (armAt 41).windowStart) = some 1002000000000
    ∧ tracking.tsu.fromCivil (CivilArgs.toCivil ⟨2000, 1, 1, 23, 59, 60, 0⟩) = none
    ∧ 1001000000000 < 1002000000000 ∧ tracking.now + 1000000000 ≤ 1002000000000
    ∧ tracking.tsu.fromCivil (CivilArgs.toCivil (armAt 40).callStart) = some 1000000000000 ∧ 1000000000000 ≤ tracking.now
    ∧ tracking.ej.takes true = true ∧ intakeFull.ej.takes true = false ∧ intakeFull.accepts = true
    ∧ (withGroup tracking { state := .closed } |>.group 0).state = .closed
    ∧ (withGroup tracking { state := .cancelled, armIndex := some 3 } |>.group 0).armIndex = some 3
    ∧ (withGroup tracking { state := .cancelled, armIndex := some 3 }).accepts = true
    ∧ CivilArgs.valid ⟨2000, 2, 29, 23, 59, 60, 999⟩ = true ∧ CivilArgs.valid ⟨2100, 2, 29, 0, 0, 0, 0⟩ = false
    ∧ CivilArgs.valid ⟨2030, 4, 30, 0, 0, 0, 0⟩ = true ∧ CivilArgs.valid ⟨2030, 4, 31, 0, 0, 0, 0⟩ = false
    ∧ CivilArgs.valid ⟨1999, 12, 31, 0, 0, 0, 0⟩ = false ∧ CivilArgs.valid ⟨2030, 1, 1, 23, 58, 60, 0⟩ = false := by decide +kernel

/-- A group of a state in the part with its clock and journal in order, or with the clock not traceable. -/
def auction (st : AuctionState) (clock : Bool) : State :=
  let s := if clock then tracking else { tracking with auc := { tracking.auc with traceableView := false } }
  withGroup s { drawn st with callStart := some ⟨⟨0, 0⟩, 1000000000000⟩, cutTime := some 999999998000, deferLimit := 0 }

theorem meets_DeadlinesTakeEffect :
    let first (st : AuctionState) (k : DeadlineKind) : Prop :=
      (auction st true).auc.deadlines.head? = some ⟨1000000000000, 0, k⟩ ∧ 1000000000000 ≤ (auction st true).now
        ∧ (auction st true).live = true
    first .armed .callStart ∧ first .window .endAt ∧ first .deferred .deferLimit ∧ first .cut .settle
    ∧ (withGroup tracking { armed with state := .call, windowStart := some ⟨⟨0, 0⟩, 1000000000000⟩ }).auc.deadlines
        = ⟨1000000000000, 0, .windowStart⟩ :: []
    ∧ 0 < armed.windowLength ∧ 1000000000000 + armed.windowLength * 1000000 ≤ Config.vtSpan
    ∧ (auction .window true).auc.cutConditions = true ∧ (auction .window false).auc.deferReason = some .clock
    ∧ (auction .window false).auc.traceableView = false ∧ (auction .window true |>.group 0).armIndex = some 7
    ∧ (auction .window false).auc.deadlines.head? = some ⟨1000000000000, 0, .endAt⟩ := by decide +kernel

theorem meets_AuctionRequestsTakeEffect :
    (∀ st, (auction st true).accepts = true ∧ ((auction st true).group 0).state = st)
    ∧ armed.extUsed ≠ armed.maxExt ∧ ({ armed with extUsed := 2 } : Auction).extUsed = armed.maxExt
    ∧ (auction .held true |>.group 0).drawnEnd = some 1000000000000 ∧ (auction .held true |>.group 0).nonce = some 5#64
    ∧ armed.armIndex = some 7 := by
  refine ⟨fun st => ?_, by decide, by decide, by decide +kernel, by decide +kernel, by decide⟩
  cases st <;> decide +kernel

theorem meets_DrawIsWithheld : (auction .window true |>.group 0).state ≠ .cut ∧ (auction .window true |>.group 0).state ≠ .closed
    ∧ (auction .window true |>.group 0).state ≠ .cancelled ∧ (auction .window true).accepts = true := by decide +kernel

/-! ## Witnesses: the journal -/

/-- An AUCTION_ARM record of group 0. -/
def armRecord : Record := { kind := .auctionArm, subject := 0, vt := 0, body := [] }

/-- A GAP of one critical loss. -/
def oneLoss : Gap := ⟨1, 0, some 0, 0⟩

/-- The page whose PAGE_OPEN is being written. -/
def opening : State := writing 0 { note with kind := .pageOpen } .pageOpen [note]

theorem writing_store : StoreSound (writing 1 note .intake [note, note]) := .of_check (by decide +kernel)
theorem lastPage_store : StoreSound (lastPage (writing 1 note .intake [note])) := .of_check (by decide +kernel)
theorem fullPage_store : StoreSound (writing 127 armRecord .intake [armRecord]) := .of_check (by decide +kernel)
theorem gap_store : StoreSound (writing 1 oneLoss.record (.gap oneLoss) [note]) := .of_check (by decide +kernel)
theorem opening_store : StoreSound opening := .of_check (by decide +kernel)

theorem meets_WritesEnd :
    (let s := writing 1 note .intake [note, note]
     StoreSound s ∧ s.live = true ∧ s.ej.writer = some ⟨0, 1, note, .intake⟩ ∧ s.ej.nextIndex < 18446744073709551614
       ∧ (1 : Fin 128).val ≠ 127 ∧ s.ej.closeRequested = false ∧ s.ej.gapOwed = none ∧ s.ej.intake = note :: note :: []
       ∧ s.ej.criticalLost = 0 ∧ s.ej.nonCriticalLost = 0 ∧ s.ej.firstFree = some 1 ∧ note.kind ≠ .auctionArm)
    ∧ (let s := lastPage (writing 1 note .intake [note])
       StoreSound s ∧ s.live = true ∧ s.ej.writer = some ⟨0, 1, note, .intake⟩ ∧ s.ej.firstFree = none
         ∧ note.kind.critical = false ∧ s.ej.nonCriticalLost < Config.noIndex ∧ s.ej.intake.tail = [])
    ∧ (let s := writing 127 armRecord .intake [armRecord]
       StoreSound s ∧ s.ej.writer = some ⟨0, 127, armRecord, .intake⟩ ∧ (127 : Fin 128).val = 127
         ∧ armRecord.kind = .auctionArm ∧ armRecord.subject = (0 : Fin 32).val ∧ armRecord.kind.critical = true)
    ∧ (let s := writing 1 oneLoss.record (.gap oneLoss) [note]
       StoreSound s ∧ s.ej.writer = some ⟨0, 1, oneLoss.record, .gap oneLoss⟩
         ∧ s.ej.criticalLost + oneLoss.critical ≤ Config.noIndex)
    ∧ (StoreSound opening ∧ opening.live = true ∧ opening.ej.writer = some ⟨0, 0, { note with kind := .pageOpen }, .pageOpen⟩) := by
  refine ⟨⟨writing_store, by decide +kernel⟩, ⟨lastPage_store, by decide +kernel⟩, ⟨fullPage_store, by decide +kernel⟩,
    ⟨gap_store, by decide +kernel⟩, opening_store, by decide +kernel⟩

/-- The part with page 5 being erased. -/
def erasing : State :=
  let s := up.setPage 5 { state := .erasing, serial := some 3 }
  { s with ej := { s.ej with eraseQueue := [5] } }

theorem erasing_store : StoreSound erasing := .of_check (by decide +kernel)

theorem meets_ErasesEnd : StoreSound erasing ∧ erasing.live = true ∧ erasing.ej.eraseQueue = 5 :: []
    ∧ ([127] : List (Fin 128)) ≠ [] := ⟨erasing_store, by decide +kernel⟩

theorem withPage_store : StoreSound withPage := .of_check (by decide +kernel)

/-- The part with page 5 in a state, closed at VT 0 with chain value 9 and retained for one day. -/
def holdingPage (st : PageState) (now : Nat) : State :=
  let s := up.setPage 5 { state := st, serial := some 3, closeTime := some 0, lastChain := some 9, retention := some 1, count := 1 }
  { s with tsu := { s.tsu with vt := now } }

theorem holdingPage_store : StoreSound (holdingPage .exported 86400000000000) := .of_check (by decide +kernel)

theorem meets_JournalRequestsTakeEffect :
    (StoreSound up ∧ up.accepts = true ∧ up.ej.openPage = none ∧ up.ej.pageOf 3 = none)
    ∧ (StoreSound withPage ∧ withPage.accepts = true ∧ withPage.ej.openPage = some (0, 1)
        ∧ withPage.ej.closeRequested = false ∧ withPage.ej.writer = none)
    ∧ ((writing 1 note .intake [note]).ej.writer ≠ none ∧ (writing 1 note .intake [note]).ej.openPage ≠ none)
    ∧ ((holdingPage .closed 0).ej.pageOf 3 = some 5 ∧ ((holdingPage .closed 0).page 5).state = .closed
        ∧ ((holdingPage .closed 0).page 5).lastChain = some 9 ∧ (9 : Chain).toNat ≠ 8 ∧ 4095 ≤ 4095 ∧ 4095 < 4096
        ∧ (holdingPage .closed 0).accepts = true)
    ∧ (StoreSound (holdingPage .exported 86400000000000) ∧ (holdingPage .exported 86400000000000).accepts = true
        ∧ ((holdingPage .exported 0).page 5).state = .exported ∧ (holdingPage .exported 0).ej.holdsLast 5 = true)
    ∧ (let s := (holdingPage .exported 86400000000000).setPage 6 { state := .closed, serial := some 4, count := 1 }
       s.ej.pageOf 3 = some 5 ∧ s.ej.holdsLast 5 = false ∧ 0 + 1 * 86400 * 1000000000 ≤ s.now
         ∧ 86399999999999 < 0 + 1 * 86400 * 1000000000)
    ∧ ((holdingPage .erasing 0).page 5).state = .erasing ∧ (List.replicate 40 (1#8)).length = 40
    ∧ up.ej.takes false = true ∧ intakeFull.ej.takes false = false ∧ intakeFull.ej.nonCriticalLost < Config.noIndex := by
  refine ⟨⟨up_store, by decide +kernel⟩, ⟨withPage_store, by decide +kernel⟩, by decide +kernel, by decide +kernel,
    ⟨holdingPage_store, by decide +kernel⟩, by decide +kernel, by decide +kernel⟩

/-! ## Witnesses: the peer survey -/

/-- The part with agent 0 in a state. -/
def withAgent (x : Agent) : State := up.setAgent 0 x

/-- An agent in a state. -/
def agentIn (st : AgentState) : Agent := { config := { address := 8, periodMs := 125 }, state := st, nextDue := some 0 }

theorem meets_SurveyRequestsTakeEffect :
    (∀ st, (withAgent (agentIn st)).accepts = true ∧ ((withAgent (agentIn st)).agent 0).state = st)
    ∧ (⟨0, 119, 125, 1, 65535, 1000000, 7⟩ : AgentArgs).agent = (0 : Fin 8).val
    ∧ AgentArgs.valid ⟨0, 119, 125, 1, 65535, 1000000, 7⟩ = true ∧ AgentArgs.valid ⟨0, 8, 126, 1, 65535, 1, 255⟩ = false
    ∧ ((withAgent (agentIn .disabled)).setAgent 1 (agentIn .unknown) |>.agent 1).state ≠ .disabled
    ∧ ((withAgent (agentIn .disabled)).setAgent 1 (agentIn .unknown) |>.agent 1).config.address = 8
    ∧ (polling .mark).accepts = true ∧ (polling .mark).psm.txn = some (txn .mark) ∧ (txn .mark).agent = 0
    ∧ (txn .mark).waiting = false ∧ ({ txn .mark with waiting := true } : Txn).waiting = true
    ∧ up.psm.survey = .running ∧ ({ up.psm with survey := .halted } : Psm).survey = .halted := by
  refine ⟨fun st => ?_, by decide +kernel⟩
  cases st <;> decide +kernel

/-- Fifteen bytes of a reading: second 5, 999,999,999 ns, U 0, TRACEABLE. -/
def readingBytes : List Byte := be 5 5 ++ be 4 999999999 ++ be 4 0 ++ [1#8, 0#8]

theorem meets_PollsRunTheirPhases :
    ((withAgent (agentIn .unknown)).live = true ∧ ((withAgent (agentIn .unknown)).agent 0).nextDue = some 0
      ∧ 0 ≤ (withAgent (agentIn .unknown)).osc ∧ (withAgent (agentIn .unknown)).psm.survey = .running
      ∧ (withAgent (agentIn .unknown)).psm.txn = none ∧ (withAgent (agentIn .unknown)).psm.bus = .idle
      ∧ (withAgent (agentIn .unknown)).longestWaiting = some 0)
    ∧ (up.agent 0).nextDue = none
    ∧ ((polling .mark).psm.txn = some (txn .mark) ∧ (polling .mark).psm.bus = .own)
    ∧ (let s : State := { polling .gap with osc := 125000, psm := { (polling .gap).psm with bus := .idle } }
       s.psm.txn = some (txn .gap) ∧ (txn .gap).markCount + 125000 ≤ s.osc ∧ s.psm.bus = .idle)
    ∧ 124999 < (txn .gap).markCount + 125000
    ∧ ((polling .read).psm.txn = some (txn .read) ∧ (txn .read).phase = .read ∧ (txn .read).discard = false
        ∧ (txn .read).mark = some (0, 0) ∧ (polling .read).psm.bus = .own)
    ∧ checkReading (readingBytes ++ [crc8 readingBytes]) = .good 5999999999 0 .traceable
    ∧ checkReading (List.replicate 16 1#8) = .failed .checkFail
    ∧ (let r : Reading := ⟨0, 0, 0, 0, .traceable, 0, 0⟩
       let x : Agent := { agentIn .conforming with reading := some r }
       ((withAgent x).agent 0).reading = some r ∧ ((withAgent x).agent 0).state = .conforming
         ∧ 3 * x.config.periodCounts < 46875001 - r.markCount ∧ 46875000 - r.markCount ≤ 3 * x.config.periodCounts)
    ∧ (agentIn .unknown).nextDue = some 0 ∧ 0 < (agentIn .unknown).config.periodMs ∧ 1000000000 < 4294967296 := by decide +kernel

/-- A mark phase whose clock line went low at count 0 and has stayed low. -/
def heldClock (osc : Nat) : State :=
  { polling .mark with osc := osc, psm := { (polling .mark).psm with clockHigh := false, dataHigh := false } }

theorem meets_PeerBusEventsTakeEffect :
    ((polling .mark).live = true ∧ (polling .mark).psm.txn = some (txn .mark) ∧ (polling .mark).psm.bus = .own
      ∧ (txn .mark).discard = false ∧ ({ txn .mark with attempt := 2 } : Txn).attempt < 3
      ∧ 3 ≤ ({ txn .mark with attempt := 3 } : Txn).attempt ∧ ({ txn .mark with discard := true } : Txn).discard = true)
    ∧ ((heldClock 3125001).live = true ∧ (heldClock 3125001).psm.txn = some (txn .mark) ∧ (heldClock 3125001).psm.clockHigh = false
      ∧ (heldClock 3125001).psm.timer = some 0 ∧ 0 + 3125000 < (heldClock 3125001).osc ∧ (heldClock 3125000).osc ≤ 0 + 3125000
      ∧ (polling .mark).psm.clockHigh = true)
    ∧ (∀ b, (busIn b).live = true ∧ (busIn b).psm.bus = b ∧ (busIn b).psm.timer = some 0 ∧ 0 + 3125000 ≤ (busIn b).osc)
    ∧ (busIn .clearing).psm.clearing = .resting ∧ up.psm.clearing = .waitClock ∧ (busIn .foreign).psm.clockHigh = true
    ∧ ({ (busIn .clearing).psm with clearing := .freeing } : Psm).clearing = .freeing ∧ 3124999 < 0 + 3125000 := by
  refine ⟨by decide +kernel, by decide +kernel, fun b => ?_, by decide +kernel⟩
  cases b <;> decide +kernel

theorem meets_EncodingsFollowTheirRule : 255 < 256 ^ 1 ∧ note.body.length ≤ 40
    ∧ (2000 ≤ 2000 ∧ 1 ≤ 2 ∧ 2 ≤ 12 ∧ 1 ≤ 29 ∧ 29 ≤ monthLength 2000 2) ∧ (1 ≤ 12 ∧ 12 ≤ 12 ∧ 31 ≤ monthLength 2030 12)
    ∧ (atSecond 86400 0 .insert).fromCivil ⟨0, 86400000000000⟩ = some 86400000000000
    ∧ (atSecond 86398 1 .delete).fromCivil ⟨0, 86399000000000⟩ = none
    ∧ (atSecond 86400 0 .insert).toCivil 86400999999999 = ⟨0, 86400999999999⟩
    ∧ (atSecond 86400 0 .insert).toCivil 86401000000000 = ⟨1, 0⟩ ∧ (atSecond 0 1 .delete).toCivil 86400000000000 = ⟨1, 0⟩
    ∧ dateOf (dayNumber 2000 2 29) = (2000, 2, 29) ∧ dayNumber 2001 1 1 = 366 := by decide +kernel

/-! ## Single commands -/

theorem test_idle_ticks : (match step up with | .next t => t.osc == 1 && t.tsu.vt == 8 | _ => false) = true := by decide +kernel
theorem test_restart_request : goes (.restart 1#8) up (fun t => t.hli.restartOwed && lastStatus t == some .ok) = true := by
  decide +kernel
theorem test_starting_refuses : goes (.readClock 1#8) State.reset (fun t => lastStatus t == some .starting) = true := by
  decide +kernel
theorem test_recovery : goes .recoveryEnd State.reset (fun t =>
    t.ej.state == .normal && t.ej.epoch == 1 && t.sis.epoch == 1 && t.ej.openPage == some (0, 0)) = true := by decide +kernel
theorem test_hold_line : goes (.holdLine 1#8 0) up (fun t => (t.line 0).state == .held && lastStatus t == some .ok) = true := by
  decide +kernel
theorem test_release_sends_quality : goes (.releaseLine 1#8 0) (withLine { state := .held }) (fun t =>
    (t.line 0).state == .running && (t.line 0).lane.isSome && (t.line 0).counters.qualitySent == 1) = true := by decide +kernel
theorem test_bad_frame_isolates : goes (.tagFrameEnd 0 [] .unresolved) (withLine { state := .running, frame := .judged, rec_ := 247 })
    (fun t => (t.line 0).state == .isolated && (t.line 0).rec_ == 255) = true := by decide +kernel
theorem test_good_frame_is_offered : goes (.tagFrameEnd 0 tagBytes .endDelimiter)
    ({ withLine { state := .running, frame := .judged, rec_ := 3 } with sis := { cells := (Vector.replicate 8 none).set 0 (some ⟨5, false⟩) } })
    (fun t => (t.line 0).rec_ == 2 && t.sis.offers.length == 1 && t.sis.cells[0] == none) = true := by decide +kernel
theorem test_grant_stamps : goes .grant (granting .opened (some 1) { state := .running, owed := 1 }) (fun t =>
    t.sis.next == some 2 && t.sis.accepted == 1 && (t.line 0).owed == 0 && (t.line 0).lane.isSome) = true := by decide +kernel
theorem test_last_sequence : goes .grant (granting .opened (some 281474976710655) { state := .running, owed := 1 }) (fun t =>
    t.sis.state == .exhausted && t.sis.next == none) = true := by decide +kernel
theorem test_lock : goes (.edgeJudged 0)
    (withRef { candidate with overrunsBehind := 2 }) (fun t =>
      (t.ref 0).state == .qualified && t.rfe.selected == some 0 && (t.ref 0).overrunsDue == 2 && (t.ref 0).good == 1) = true := by
  decide +kernel
theorem test_missing_pulse : goes (.missingPulse 0) { withRef { candidate with cell := none } with osc := 125000027 } (fun t =>
    (t.ref 0).state == .searching && (t.ref 0).badMissing == 1 && (t.ref 0).anchor == some 1000000000) = true := by decide +kernel
theorem test_open_stamping : goes (.openStamping 1#8) up (fun t => t.sis.state == .opened) = true := by decide +kernel
theorem test_arm : goes (.armAuction 1#8 (armAt 41)) tracking (fun t =>
    (t.group 0).state == .armed && lastStatus t == some .ok && t.auc.deadlines.length == 2) = true := by decide +kernel
theorem test_end_cuts : goes (.endExpiry 0) (auction .window true) (fun t =>
    (t.group 0).state == .cut && (t.group 0).cutTime == some 1000000000000) = true := by decide +kernel
theorem test_end_defers : goes (.endExpiry 0) (auction .window false) (fun t => (t.group 0).state == .deferred) = true := by
  decide +kernel
theorem test_settle_closes : goes (.settle 0) (auction .cut true) (fun t =>
    (t.group 0).state == .closed && t.auc.deadlines == []) = true := by decide +kernel
theorem test_cancel : goes (.cancelAuction 1#8 0) (auction .armed true) (fun t =>
    (t.group 0).state == .cancelled && t.auc.deadlines == []) = true := by decide +kernel
theorem test_write_fails : goes .writeFailed (writing 1 note .intake [note]) (fun t =>
    (t.page 0).state == .closed && (t.page 0).count == 1 && t.ej.rewriteOwed && t.ej.openPage == some (1, 0)) = true := by
  decide +kernel
theorem test_full_page_closes : goes .writeVerified (writing 127 armRecord .intake [armRecord]) (fun t =>
    (t.page 0).state == .closed && (t.page 0).count == 128 && (t.group 0).armIndex == some 1) = true := by decide +kernel
theorem test_erase_frees : goes (.eraseEnd []) erasing (fun t => (t.page 5).state == .free && t.ej.eraseQueue == []) = true := by
  decide +kernel
theorem test_erase_spoils : goes (.eraseEnd [127]) erasing (fun t =>
    (t.page 5).state == .defective && (t.page 5).slots[127] == .void) = true := by decide +kernel
theorem test_poll : goes (.agentDue 0) (withAgent (agentIn .unknown)) (fun t => t.psm.bus == .own && t.psm.txn.isSome) = true := by
  decide +kernel
theorem test_mark : goes (.markPhaseEnd .acknowledged) (polling .mark) (fun t =>
    t.psm.bus == .idle && (t.psm.txn.map (·.phase)) == some .gap) = true := by decide +kernel
theorem test_reading : goes (.readPhaseEnd (.reading (readingBytes ++ [crc8 readingBytes]))) (polling .read) (fun t =>
    (t.agent 0).state == .divergent && (t.agent 0).nextDue == some 125000000 && t.psm.txn == none) = true := by decide +kernel
theorem test_bus_error : goes (.busError false) (polling .read) (fun t =>
    t.psm.survey == .halted && t.psm.bus == .idle && (t.agent 0).failures == 0) = true := by decide +kernel
theorem test_bus_held_low : goes .busTimerExpiry { busIn .foreign with psm := { (busIn .foreign).psm with dataHigh := false } }
    (fun t => t.psm.bus == .clearing && t.psm.clearing == .freeing) = true := by decide +kernel
theorem test_step_record_keeps_vt_before :
    (stepVt tracking (-5000000000)).tsu.vt = 1005000000000
      ∧ (stepVt tracking (-5000000000)).ej.intake.map (·.vt) = [1000000000000] := by decide +kernel
theorem test_leap_insert : goes .leapApplication (withClock (atSecond 86401 0 .insert)) (fun t =>
    t.tsu.leapCount == 1 && t.tsu.pendingLeap == .noLeap) = true := by decide +kernel
/-- A start that a pending deletion holds at D - 1 keeps its VT when the deletion is applied there. -/
theorem test_deletion_keeps_start :
    let a : Auction := { state := .call, windowStart := some ⟨⟨0, 86399000000000⟩, 86400000000000⟩ }
    goes .leapLatch (withClock (atSecond 86400 1 .delete) |>.setGroup 0 a) (fun t =>
      t.tsu.leapCount == 0 && t.group 0 == a) = true := by decide +kernel
/-- An edge in the last eighth of a count is neither judged on its own count nor makes the next pulse missing. -/
theorem test_late_eighth : goes (.pulseEdge 0 true 7) { withRef { candidate with cell := none } with osc := 125000000 } (fun t =>
    !t.judgeDue 0 && !t.missingDue 0 && !({ t with osc := 125000123 } : State).judgeDue 0
      && ({ t with osc := 125000124 } : State).judgeDue 0) = true := by decide +kernel
/-- A load into the last second of a day passes D - 1 over; a day later, or stepped back before it, the latch is due again. -/
theorem test_loaded_past_latch :
    let t := (loadClock State.reset 86399000000005 0).tsu
    t.latchDue = false ∧ ({ t with vt := 172799000000000, day := 1 } : Tsu).latchDue = true
      ∧ ({ ({ t with vt := 86398000000000 } : Tsu).dayBack with vt := 86399000000000 } : Tsu).latchDue = true := by
  decide +kernel
theorem test_label_sync_stop_low : goes (.labelFrame 0 [0xB5#8] true) (withRef candidate) (fun t =>
    (t.ref 0).discards == 0 && !(t.ref 0).labelBad) = true := by decide +kernel
theorem test_label_timeout : goes (.labelTimeout ⟨0, [0xB5#8]⟩) (withRef candidate) (fun t => (t.ref 0).discards == 1) = true
    ∧ goes (.labelTimeout ⟨0, []⟩) (withRef candidate) (fun t => (t.ref 0).discards == 0) = true := by decide +kernel
theorem test_late_byte : goes (.hostByteReceived 0#8 false) { framing .header {} with osc := 126251 } (fun t =>
    t.hli.counters.rejectedTimeout == 1 && t.hli.counters.hunt == 1) = true
    ∧ goes (.hostByteReceived 0#8 false) { framing .header {} with osc := 126250 } (fun t =>
      t.hli.counters.rejectedTimeout == 0) = true ∧ dueCommand { framing .header {} with osc := 126250 } = none := by decide +kernel
theorem test_held_clock : dueCommand (heldClock 3125001) = some (.clockLowTimeout false) ∧ dueCommand (heldClock 3125000) = none
    ∧ goes (.clockLowTimeout false) (heldClock 3125001) (fun t =>
      t.psm.bus == .clearing && (t.agent 0).lastError == some .timeout) = true := by decide +kernel
theorem test_poll_bytes : goes (.agentDue 0) (withAgent (agentIn .unknown)) (fun t => t.psm.sent == [0x10#8]) = true
    ∧ goes (.markPhaseEnd .acknowledged) (polling .mark) (fun t => t.psm.sent == [0x6D#8]) = true
    ∧ goes .gapEnd { polling .gap with osc := 125000, psm := { (polling .gap).psm with bus := .idle } }
        (fun t => t.psm.sent == [0x11#8]) = true := by decide +kernel
theorem test_rebased_before_update : goes (.setClockLimits 1#8 { ({} : Tsu).limits with baseU := 77 }) (withClock { clock := .acquiring })
    (fun t => t.tsu.u == 77) = true := by decide +kernel
theorem test_pause_counts : goes (.pauseAssert 0) up (fun t => (t.line 0).pause && (t.line 0).counters.pauses == 1) = true := by
  decide +kernel

/-- The draw check of the manual's worked layout is over end, nonce, group and index; another group has another check. -/
theorem test_draw_check_binds_group : drawCheckOf 0 0#64 0 0 ≠ drawCheckOf 0 0#64 1 0 := by decide +kernel

end Sys2Proof.Tests
end

