-- ==== Sys2Proof/Proofs/HandsOn.lean ====
section
/-!
PROOFS. Proofs/HandsOn.lean: what handing on does beyond `Handed`: the auctions stay told of the journal state and no group is left
waiting for its cut, a line that is served stays served, and the intake grows by no more records than the event offers.
-/
namespace Sys2Proof.Machine

/-- The auctions have been told the journal state, and no group is DEFERRED while the cut conditions hold. -/
structure Settled (s : State) : Prop where
  journal : s.auc.journalView = s.ej.state
  cut : s.auc.cutConditions = true → ∀ g, (s.group g).state ≠ .deferred

/-- A quality frame is pending on the line, or a frame is on its lane. -/
def State.serves (s : State) (i : Fin 8) : Prop := (s.line i).quality = true ∨ (s.line i).lane ≠ none

/-- The lines whose return lane is idle, each of which can still send one DROP frame in an event. -/
def State.idleLanes (s : State) : Finset (Fin 8) := Finset.univ.filter fun i => (s.line i).lane = none

/-- What every report and hand-on keeps, with at most `c` critical records offered on the way. -/
structure Passes (c : Nat) (s t : State) : Prop where
  told : s.auc.journalView = s.ej.state → t.auc.journalView = t.ej.state
  settled : Settled s → Settled t
  serves : ∀ i, s.serves i → t.serves i
  running : s.ej.state ≠ .starting → t.ej.state ≠ .starting
  room : max 24 t.ej.intake.length ≤ max 24 s.ej.intake.length + c

/-- A hand-on that judges the journal at most where it opens a page: critical records go on being taken, and with a page open the
journal state stands and every record joins in the place of `n` records or of an idle lane's DROP. -/
structure HandsOn (c n : Nat) (s t : State) : Prop extends Passes c s t where
  critical : s.ej.state ≠ .stalled → s.ej.state ≠ .exhausted → t.ej.state ≠ .stalled ∧ t.ej.state ≠ .exhausted
  paged : s.ej.openPage ≠ none → t.ej.openPage ≠ none ∧ t.ej.state = s.ej.state
    ∧ t.ej.intake.length + t.idleLanes.card ≤ s.ej.intake.length + s.idleLanes.card + n

theorem Passes.refl (s : State) : Passes 0 s s := ⟨id, id, fun _ => id, id, Nat.le_refl _⟩

theorem Passes.trans {c d : Nat} {s t u : State} (h : Passes c s t) (k : Passes d t u) : Passes (c + d) s u where
  told := fun x => k.told (h.told x)
  settled := fun x => k.settled (h.settled x)
  serves := fun i x => k.serves i (h.serves i x)
  running := fun x => k.running (h.running x)
  room := by have := h.room; have := k.room; omega

theorem HandsOn.refl (s : State) : HandsOn 0 0 s s :=
  { Passes.refl s with critical := fun a b => ⟨a, b⟩, paged := fun a => ⟨a, rfl, Nat.le_refl _⟩ }

theorem HandsOn.trans {c d n m : Nat} {s t u : State} (h : HandsOn c n s t) (k : HandsOn d m t u) :
    HandsOn (c + d) (n + m) s u where
  toPasses := h.toPasses.trans k.toPasses
  critical := fun a b => k.critical (h.critical a b).1 (h.critical a b).2
  paged := fun a => by
    obtain ⟨hp, hs, hn⟩ := h.paged a
    obtain ⟨kp, ks, kn⟩ := k.paged hp
    exact ⟨kp, ks.trans hs, by omega⟩

/-- Composition where the first part offers nothing. -/
theorem HandsOn.after {c n : Nat} {s t u : State} (k : HandsOn c n t u) (h : HandsOn 0 0 s t) : HandsOn c n s u := by
  simpa using h.trans k

/-- Composition where the second part offers nothing. -/
theorem HandsOn.then {c n : Nat} {s t u : State} (h : HandsOn c n s t) (k : HandsOn 0 0 t u) : HandsOn c n s u := h.trans k

theorem HandsOn.mono {c d n m : Nat} {s t : State} (h : HandsOn c n s t) (hc : c ≤ d) (hn : n ≤ m) : HandsOn d m s t where
  toPasses := { h.toPasses with room := by have := h.room; omega }
  critical := h.critical
  paged := fun a => by
    obtain ⟨hp, hs, hl⟩ := h.paged a
    exact ⟨hp, hs, by omega⟩

theorem Passes.mono {c d : Nat} {s t : State} (h : Passes c s t) (hc : c ≤ d) : Passes d s t :=
  { h with room := by have := h.room; omega }

theorem handsOn_foldl {α : Type} (f : State → α → State) (h : ∀ s a, HandsOn 0 0 s (f s a)) (l : List α) (s : State) :
    HandsOn 0 0 s (l.foldl f s) := by
  induction l generalizing s with
  | nil => exact HandsOn.refl s
  | cons a l ih => exact (ih (f s a)).after (h s a)

/-! ## Changes that nothing of this bears on -/

theorem idleLanes_congr {s t : State} (h : t.lines = s.lines) : t.idleLanes = s.idleLanes := by
  unfold State.idleLanes State.line
  rw [h]

/-- A change outside the auctions' views, the lines and the intake. -/
theorem handsOn_frame {s t : State} (ha : t.auc = s.auc) (hl : t.lines = s.lines) (hs : t.ej.state = s.ej.state)
    (ho : t.ej.openPage = s.ej.openPage) (hi : t.ej.intake = s.ej.intake) : HandsOn 0 0 s t where
  told := fun x => by rw [ha, hs]; exact x
  settled := fun x => ⟨by rw [ha, hs]; exact x.journal, fun hc g => by
    rw [ha] at hc
    simpa [State.group, ha] using x.cut hc g⟩
  serves := fun i x => by simpa [State.serves, State.line, hl] using x
  running := fun x => by rw [hs]; exact x
  room := by rw [hi]; omega
  critical := fun a b => by rw [hs]; exact ⟨a, b⟩
  paged := fun a => by
    refine ⟨by rw [ho]; exact a, hs, ?_⟩
    rw [idleLanes_congr hl, hi]; omega

theorem handsOn_notifyAt (s : State) (k : NoticeKind) (vt : Nat) (x : Subject) (d : List Byte) :
    HandsOn 0 0 s (notifyAt s k vt x d) := by
  unfold notifyAt
  simp only []
  split <;> exact handsOn_frame rfl rfl rfl rfl rfl

theorem handsOn_notify (s : State) (k : NoticeKind) (x : Subject) (d : List Byte) : HandsOn 0 0 s (notify s k x d) :=
  handsOn_notifyAt s k s.now x d

theorem handsOn_tsu (s : State) (x : Tsu) : HandsOn 0 0 s { s with tsu := x } := handsOn_frame rfl rfl rfl rfl rfl

theorem handsOn_sis (s : State) (x : Sis) : HandsOn 0 0 s { s with sis := x } := handsOn_frame rfl rfl rfl rfl rfl

/-- An entry replaced by one that is not DEFERRED, or while the cut conditions fail. -/
theorem handsOn_enter (s : State) (g : Fin 32) (a : Auction) (h : a.state ≠ .deferred ∨ s.auc.cutConditions = false) :
    HandsOn 0 0 s (enter s g a) where
  told := id
  settled := fun x => ⟨x.journal, fun hc g' => by
    have hc' : s.auc.cutConditions = true := hc
    have ha : a.state ≠ .deferred := h.resolve_right (by simp [hc'])
    show ((s.setGroup g a).group g').state ≠ .deferred
    rw [setGroup_group]
    split
    · exact ha
    · exact x.cut hc' g'⟩
  serves := fun _ => id
  running := id
  room := Nat.le_refl _
  critical := fun a b => ⟨a, b⟩
  paged := fun a => ⟨a, rfl, Nat.le_refl _⟩

/-- A line replaced: where it was served it is, and a lane in use stays in use. -/
theorem handsOn_setLine (s : State) (i : Fin 8) (l : Line) (hq : s.serves i → l.quality = true ∨ l.lane ≠ none)
    (hl : l.lane = none → (s.line i).lane = none) : HandsOn 0 0 s (s.setLine i l) where
  told := id
  settled := fun x => ⟨x.journal, x.cut⟩
  serves := fun j x => by
    unfold State.serves at x ⊢
    rw [setLine_line]
    split
    · rename_i e; subst e; exact hq x
    · exact x
  running := id
  room := Nat.le_refl _
  critical := fun a b => ⟨a, b⟩
  paged := fun a => by
    refine ⟨a, rfl, ?_⟩
    have : (s.setLine i l).idleLanes ⊆ s.idleLanes := by
      intro j hj
      simp only [State.idleLanes, Finset.mem_filter, Finset.mem_univ, true_and] at hj ⊢
      rw [setLine_line] at hj
      split at hj
      · rename_i e; subst e; exact hl hj
      · exact hj
    have := Finset.card_le_card this
    simp only [setLine_ej]
    omega

/-- A frame put on an idle lane. -/
theorem idleLanes_setLine (s : State) (i : Fin 8) (l : Line) (h : (s.line i).lane = none) (hl : l.lane ≠ none) :
    (s.setLine i l).idleLanes.card + 1 = s.idleLanes.card := by
  have hi : i ∈ s.idleLanes := by simp [State.idleLanes, h]
  have e : (s.setLine i l).idleLanes = s.idleLanes.erase i := by
    ext j
    simp only [State.idleLanes, Finset.mem_filter, Finset.mem_univ, true_and, Finset.mem_erase, setLine_line]
    by_cases hj : j = i <;> simp [hj, hl]
  rw [e, Finset.card_erase_add_one hi]

/-! ## The intake -/

theorem takes_critical_iff (e : Ej) :
    e.takes true = true ↔ e.state ≠ .stalled ∧ e.state ≠ .exhausted ∧ e.intake.length < 32 := by
  cases h : e.state <;> simp [Ej.takes, h]

theorem takes_open_iff (e : Ej) :
    e.takes false = true ↔ (e.state = .starting ∨ e.state = .normal) ∧ e.intake.length < 24 := by
  cases h : e.state <;> simp [Ej.takes, h]

/-- A record of the intake counts for the critical ones where it is one. -/
def RecKind.weight (k : RecKind) : Nat := if k.critical then 1 else 0

theorem handsOn_lost (s : State) (k : RecKind) : HandsOn 0 0 s (loseRecord s k) := by
  unfold loseRecord
  cases k.critical <;> simp only [] <;> split
  · exact (handsOn_notify _ _ _ _).after (handsOn_frame rfl rfl rfl rfl rfl)
  · exact handsOn_frame rfl rfl rfl rfl rfl
  · exact (handsOn_notify _ _ _ _).after (handsOn_frame rfl rfl rfl rfl rfl)
  · exact handsOn_frame rfl rfl rfl rfl rfl

theorem handsOn_enqueue (s : State) (r : Record) : HandsOn r.kind.weight 1 s (enqueue s r) := by
  unfold enqueue
  split
  · rename_i h
    exact {
      told := id
      settled := fun x => ⟨x.journal, x.cut⟩
      serves := fun _ => id
      running := id
      room := by
        simp only [List.length_append, List.length_singleton, RecKind.weight]
        cases hc : r.kind.critical
        · rw [hc, takes_open_iff] at h
          simp only [Bool.false_eq_true, if_false]; omega
        · simp only [if_true]; omega
      critical := fun a b => ⟨a, b⟩
      paged := fun a => ⟨a, rfl, by
        have e : ({ s with ej := { s.ej with intake := s.ej.intake ++ [r] } } : State).idleLanes = s.idleLanes := rfl
        simp only [e, List.length_append, List.length_singleton]; omega⟩ }
  · exact (handsOn_lost s r.kind).mono (Nat.zero_le _) (Nat.zero_le _)

/-! ## The lanes, over any way of offering that hands on -/

/-- A way of offering that hands on and offers its one record. -/
structure Offering (offer : Offerer) : Prop where
  handed : ∀ s r, Handed s (offer s r)
  handsOn : ∀ s r, HandsOn r.kind.weight 1 s (offer s r)

theorem enqueue_offering : Offering enqueue := ⟨handed_enqueue, handsOn_enqueue⟩

section
variable {offer : Offerer} (ho : Offering offer)

include ho in
/-- A frame takes an idle lane, and its DROP record the lane's place. -/
theorem handsOn_dropSent (s : State) (i : Fin 8) (l : Line) (r : Record) (h : (s.line i).lane = none) (hl : l.lane ≠ none)
    (hr : r.kind = .drop) : HandsOn 0 0 s (offer (s.setLine i l) r) := by
  have h1 : HandsOn 0 0 s (s.setLine i l) := handsOn_setLine s i l (fun _ => .inr hl) (fun e => absurd e hl)
  have h2 : HandsOn 0 1 (s.setLine i l) (offer (s.setLine i l) r) := by
    simpa [hr, RecKind.weight, RecKind.critical] using ho.handsOn (s.setLine i l) r
  refine { h1.toPasses.trans h2.toPasses with critical := (h1.trans h2).critical, paged := fun a => ?_ }
  obtain ⟨p1, s1, -⟩ := h1.paged a
  obtain ⟨p2, s2, n2⟩ := h2.paged p1
  have := idleLanes_setLine s i l h hl
  exact ⟨p2, s2.trans s1, by simp only [setLine_ej] at n2; omega⟩

include ho in
theorem handsOn_sendDrop (s : State) (i : Fin 8) (h : (s.line i).lane = none) : HandsOn 0 0 s (sendDrop offer s i) :=
  handsOn_dropSent ho s i _ _ h (by simp) rfl

include ho in
theorem handsOn_scheduleWith (s : State) (i : Fin 8) : HandsOn 0 0 s (scheduleWith offer s i) := by
  unfold scheduleWith
  simp only []
  split
  · rename_i hm
    have hl : (s.line i).lane = none := by simp only [Line.maySend] at hm; simp_all
    split
    · exact handsOn_sendDrop ho s i hl
    · split
      · exact handsOn_setLine s i _ (fun _ => .inr (by simp)) (fun e => by simp at e)
      · exact handsOn_setLine s i _ (fun _ => .inr (by simp)) (fun e => by simp at e)
      · split
        · exact handsOn_setLine s i _ (fun _ => .inr (by simp)) (fun e => by simp at e)
        · exact HandsOn.refl s
  · exact HandsOn.refl s

include ho in
theorem handsOn_qualityOnWith (s : State) (i : Fin 8) : HandsOn 0 0 s (qualityOnWith offer s i) := by
  unfold qualityOnWith
  simp only []
  split
  · exact (handsOn_scheduleWith ho _ _).after (handsOn_setLine s i _ (fun _ => .inl rfl) id)
  · exact HandsOn.refl s

include ho in
theorem handsOn_qualityPendingWith (s : State) : HandsOn 0 0 s (qualityPendingWith offer s) :=
  handsOn_foldl _ (handsOn_qualityOnWith ho) _ s

include ho in
theorem handsOn_phasePendingWith (s : State) (g : Fin 32) : HandsOn 0 0 s (phasePendingWith offer s g) := by
  refine handsOn_foldl _ (fun s i => ?_) _ s
  unfold phaseOnWith
  simp only []
  split
  · exact (handsOn_scheduleWith ho _ _).after (handsOn_setLine s i _ id id)
  · exact HandsOn.refl s

include ho in
theorem handsOn_showGroupWith (s : State) (g : Fin 32) (vt : Nat) : HandsOn 0 0 s (showGroupWith offer s g vt) := by
  unfold showGroupWith
  exact (handsOn_notifyAt _ _ _ _ _).after (handsOn_phasePendingWith ho s g)

include ho in
theorem handsOn_cutGroupWith (s : State) (g : Fin 32) (cutTime : Nat) (forced : Bool) :
    HandsOn 0 0 s (cutGroupWith offer s g cutTime forced) := by
  unfold cutGroupWith
  exact (handsOn_showGroupWith ho _ _ _).after (handsOn_enter s g _ (.inl (by simp)))

include ho in
theorem handsOn_cutDeferredWith (s : State) (g : Fin 32) : HandsOn 0 0 s (cutDeferredWith offer s g) := by
  unfold cutDeferredWith
  split
  · exact handsOn_cutGroupWith ho _ _ _ _
  · exact HandsOn.refl s

include ho in
theorem handsOn_cutAllWith (s : State) : HandsOn 0 0 s (cutAllWith offer s) := by
  unfold cutAllWith
  split
  · exact handsOn_foldl _ (handsOn_cutDeferredWith ho) _ s
  · exact HandsOn.refl s

include ho in
/-- A group a report has cut, or that was not DEFERRED, is not DEFERRED after it. -/
theorem cutDeferredWith_group (s : State) (g : Fin 32) : ((cutDeferredWith offer s g).group g).state ≠ .deferred := by
  unfold cutDeferredWith
  split
  · unfold cutGroupWith
    simp only []
    rw [(handed_showGroupWith ho.handed _ g _).groups g (by simp)]
    simp
  · assumption

include ho in
theorem cutDeferred_foldl (gs : List (Fin 32)) (s : State) :
    ∀ g ∈ gs, ((gs.foldl (cutDeferredWith offer) s).group g).state ≠ .deferred := by
  induction gs generalizing s with
  | nil => simp
  | cons x gs ih =>
    intro g hg
    rcases List.mem_cons.1 hg with rfl | hg
    · have h := cutDeferredWith_group ho s g
      rw [List.foldl_cons, (handed_foldl _ (handed_cutDeferredWith ho.handed) gs _).groups g h]
      exact h
    · exact ih _ g hg

include ho in
/-- Every report leaves no group DEFERRED while the cut conditions hold (R95). -/
theorem settled_cutAllWith (s : State) (h : s.auc.journalView = s.ej.state) : Settled (cutAllWith offer s) := by
  refine ⟨(handsOn_cutAllWith ho s).told h, fun hc g => ?_⟩
  unfold cutAllWith at hc ⊢
  split at hc
  · rename_i hs
    rw [if_pos hs]
    exact cutDeferred_foldl ho allGroups s g (mem_allGroups g)
  · exact absurd hc (by assumption)

include ho in
theorem settled_traceableReportWith (s : State) (v : Bool) (h : s.auc.journalView = s.ej.state) :
    Settled (traceableReportWith offer s v) := settled_cutAllWith ho _ h

include ho in
theorem settled_journalReportWith (s : State) (v : JournalState) (h : v = s.ej.state) :
    Settled (journalReportWith offer s v) := settled_cutAllWith ho _ h

/-- A report's new view, then the cuts. -/
theorem HandsOn.reported {c n : Nat} {s u t : State} (h : HandsOn c n u t) (hl : u.lines = s.lines) (he : u.ej = s.ej)
    (told : s.auc.journalView = s.ej.state → t.auc.journalView = t.ej.state) (settled : Settled s → Settled t) :
    HandsOn c n s t where
  told := told
  settled := settled
  serves := fun i x => h.serves i (by simpa [State.serves, State.line, hl] using x)
  running := fun x => h.running (by rw [he]; exact x)
  room := by rw [← he]; exact h.room
  critical := by rw [← he]; exact h.critical
  paged := by
    rw [← he, ← idleLanes_congr hl]; exact h.paged

include ho in
theorem handsOn_traceableReportWith (s : State) (v : Bool) : HandsOn 0 0 s (traceableReportWith offer s v) :=
  (handsOn_cutAllWith ho _).reported (s := s) rfl rfl (fun h => (settled_traceableReportWith ho s v h).journal)
    fun h => settled_traceableReportWith ho s v h.journal

include ho in
theorem handsOn_journalReportWith (s : State) (v : JournalState) (h : v = s.ej.state) :
    HandsOn 0 0 s (journalReportWith offer s v) :=
  (handsOn_cutAllWith ho _).reported (s := s) rfl rfl (fun _ => (settled_journalReportWith ho s v h).journal)
    fun _ => settled_journalReportWith ho s v h

include ho in
/-- The journal judged: with a page open its state is then the one the page table gives. -/
theorem judgeJournalWith_spec (s : State) : Passes 0 s (judgeJournalWith offer s)
    ∧ (s.ej.openPage ≠ none → (judgeJournalWith offer s).ej.openPage ≠ none
        ∧ ((judgeJournalWith offer s).ej.state = s.ej.state ∨ (judgeJournalWith offer s).ej.state = s.ej.judged)) := by
  unfold judgeJournalWith
  split
  · exact ⟨Passes.refl s, fun h => ⟨h, .inl rfl⟩⟩
  · exact ⟨Passes.refl s, fun h => ⟨h, .inl rfl⟩⟩
  all_goals
    simp only []
    split
    · exact ⟨Passes.refl s, fun h => ⟨h, .inl rfl⟩⟩
    · have h1 := settled_journalReportWith ho { s with ej := { s.ej with state := s.ej.judged } } s.ej.judged rfl
      have h2 := (handsOn_notify _ .journalState .nothing
        (be 1 s.ej.state.code ++ be 1 s.ej.judged.code ++ be 1 ((journalReportWith offer
          { s with ej := { s.ej with state := s.ej.judged } } s.ej.judged).ej.pagesIn .free))).after
        (handsOn_journalReportWith ho { s with ej := { s.ej with state := s.ej.judged } } s.ej.judged rfl)
      have h3 := (handsOn_notify _ .journalState .nothing
        (be 1 s.ej.state.code ++ be 1 s.ej.judged.code ++ be 1 ((journalReportWith offer
          { s with ej := { s.ej with state := s.ej.judged } } s.ej.judged).ej.pagesIn .free))).settled h1
      rename_i hs _
      exact ⟨⟨fun _ => h3.journal, fun _ => h3, h2.serves, fun _ => h2.running (judged_ne_starting _), h2.room⟩,
        fun h => ⟨(h2.paged h).1, .inr (h2.paged h).2.1⟩⟩

end

/-! ## The writer and the offer of a record -/

/-- With a page OPEN the journal is not STALLED. -/
theorem judged_of_opened (s : State) (p : Fin 64) (h : (s.page p).state = .opened) : s.ej.judged ≠ .stalled ∧ s.ej.judged ≠ .exhausted := by
  have hp : 0 < s.ej.pagesIn .opened := by
    unfold Ej.pagesIn
    rw [List.countP_pos_iff]
    exact ⟨s.page p, by simp [State.page], by simp [h]⟩
  unfold Ej.judged
  simp only [hp, or_true, if_true]
  split <;> simp

/-- A page opened is judged with the writer busy: critical records go on being taken. -/
theorem handsOn_opened (s x : State) (p : Fin 64) (h : s.ej.openPage = none) (h1 : Passes 0 s x) (hs : x.ej.state = s.ej.state)
    (hp : x.ej.openPage ≠ none) (ho : (x.page p).state = .opened) : HandsOn 0 0 s (judgeJournalWith enqueue x) := by
  obtain ⟨h2, h3⟩ := judgeJournalWith_spec enqueue_offering x
  refine { h1.trans h2 with critical := fun a b => ?_, paged := fun a => absurd h a }
  rcases (h3 hp).2 with e | e
  · rw [e, hs]; exact ⟨a, b⟩
  · rw [e]; exact judged_of_opened x p ho

theorem handsOn_openPage (s : State) (p : Fin 64) (h : s.ej.openPage = none) : HandsOn 0 0 s (openPage s p) := by
  refine handsOn_opened s _ p h ⟨id, fun a => ⟨a.journal, a.cut⟩, fun _ => id, id, Nat.le_refl _⟩ rfl (by simp [beginWrite]) ?_
  exact congrArg Page.state (setPage_page_self s p _)

theorem handsOn_beginNext (s : State) (p : Fin 64) (slot : Nat) : HandsOn 0 0 s (beginNext s p slot) := by
  unfold beginNext
  simp only []
  split
  · exact handsOn_frame rfl rfl rfl rfl rfl
  · exact handsOn_frame rfl rfl rfl rfl rfl
  · exact HandsOn.refl s
  · split <;> exact handsOn_frame rfl rfl rfl rfl rfl

theorem handsOn_writerDecide (s : State) : HandsOn 0 0 s (writerDecide s) := by
  unfold writerDecide
  split
  · split
    · split
      · exact handsOn_openPage _ _ (by assumption)
      · exact HandsOn.refl s
    · exact handsOn_beginNext _ _ _
  · exact HandsOn.refl s

theorem handsOn_offer (s : State) (r : Record) : HandsOn r.kind.weight 1 s (offer s r) := by
  unfold offer
  simp only []
  split
  · exact (handsOn_enqueue s r).then (handsOn_writerDecide _)
  · exact handsOn_enqueue s r

theorem offer_offering : Offering offer := ⟨handed_offer, handsOn_offer⟩

theorem handsOn_schedule (s : State) (i : Fin 8) : HandsOn 0 0 s (schedule s i) := handsOn_scheduleWith offer_offering s i

theorem handsOn_qualityPending (s : State) : HandsOn 0 0 s (qualityPending s) := handsOn_qualityPendingWith offer_offering s

theorem handsOn_phasePending (s : State) (g : Fin 32) : HandsOn 0 0 s (phasePending s g) :=
  handsOn_phasePendingWith offer_offering s g

theorem handsOn_showGroup (s : State) (g : Fin 32) (vt : Nat) : HandsOn 0 0 s (showGroup s g vt) :=
  handsOn_showGroupWith offer_offering s g vt

theorem handsOn_traceableReport (s : State) (v : Bool) : HandsOn 0 0 s (traceableReport s v) :=
  handsOn_traceableReportWith offer_offering s v

theorem passes_judgeJournal (s : State) : Passes 0 s (judgeJournal s) := (judgeJournalWith_spec offer_offering s).1

end Sys2Proof.Machine
end

