-- ==== Sys2Proof/Proofs/Tick.lean ====
section
/-!
PROOFS. Proofs/Tick.lean: one count of the oscillator (R1): what VT gains in it, and the tick of a part with nothing to do.
-/
namespace Sys2Proof.Machine

/-- An instant inside the timescale is its own VT. -/
theorem vtOfInt_natCast (n : Nat) (h : n < Config.vtSpan) : vtOfInt n = n := by
  unfold vtOfInt
  rw [if_pos ⟨by omega, by exact_mod_cast h⟩, Int.toNat_natCast]

/-- The gain of one count is the nearest 65,536th of a ns, halves upward, and lies close to 8 ns (R1). -/
theorem perCount_spec (t : Tsu) (lo : -(Config.maxRate : Int) ≤ t.c) (hi : t.c ≤ Config.maxRate) :
    2 * 1000000000000 * (t.perCount : Int) ≤ 2 * 524288 * (1000000000000 + t.c) + 1000000000000
      ∧ 2 * 524288 * (1000000000000 + t.c) + 1000000000000 < 2 * 1000000000000 * ((t.perCount : Int) + 1)
      ∧ 524236 ≤ t.perCount ∧ t.perCount ≤ 524340 := by
  have pos : 0 ≤ 524288 * (1000000000000 + t.c) := by
    simp only [Config.maxRate] at lo; omega
  unfold Tsu.perCount divRound
  rw [if_pos pos]
  simp only [Config.maxRate] at lo hi
  push_cast at lo hi ⊢
  omega

/-- What a count gains carries from the fraction into the ns and from the ns into the seconds (R1). -/
theorem advance_spec (t : Tsu) (lo : -(Config.maxRate : Int) ≤ t.c) (hi : t.c ≤ Config.maxRate) (hf : t.frac < 65536)
    (hv : t.vt + 9 < Config.vtSpan) :
    ∃ vt frac : Nat, vt * 65536 + frac = t.vt * 65536 + t.frac + t.perCount ∧ frac < 65536
      ∧ t.advance = { t with vt := vt, frac := frac,
                             boundaryDue := t.boundaryDue || decide (t.vt / nsPerSecond < vt / nsPerSecond) } := by
  obtain ⟨-, -, -, hg⟩ := perCount_spec t lo hi
  obtain ⟨ns, hns⟩ : ∃ ns, ns = (t.frac + t.perCount) / 65536 := ⟨_, rfl⟩
  have hle : ns ≤ 9 := by omega
  refine ⟨t.vt + ns, (t.frac + t.perCount) % 65536, by omega, by omega, ?_⟩
  have carry : decide (nsPerSecond ≤ t.vt % nsPerSecond + ns) = decide (t.vt / nsPerSecond < (t.vt + ns) / nsPerSecond) := by
    rw [decide_eq_decide]
    simp only [nsPerSecond]
    omega
  unfold Tsu.advance
  simp only [← hns, carry]
  rw [vtOfInt_natCast _ (by omega)]

theorem tick_of_running (s : State) (hl : s.live = true) (hs : s.ej.state ≠ .starting) :
    tick s = { s with osc := s.osc + 1, tsu := s.tsu.advance } := by
  simp [tick, hl, hs]

/-- With nothing waiting and nothing due a step is a tick. -/
theorem step_of_idle (s : State) (hp : s.pending = []) (hd : dueCommand s = none) : step s = .next (tick s) := by
  simp [step, hp, hd]

/-- Settles O3: the rounding of R1 is that of `perCount`, and a tick is the advance of VT and the count alone. -/
theorem tickAdvancesVenueTime : Obligations.TickAdvancesVenueTime := by
  intro s hl hs hb hv hp hd
  obtain ⟨h1, h2, h3, h4⟩ := perCount_spec s.tsu hb.rateLow hb.rateHigh
  obtain ⟨vt, frac, h5, h6, h7⟩ := advance_spec s.tsu hb.rateLow hb.rateHigh hb.frac hv
  exact ⟨s.tsu.perCount, vt, frac, h1, h2, h3, h4, h5, h6, by rw [step_of_idle s hp hd, tick_of_running s hl hs, h7]⟩

end Sys2Proof.Machine
end

