-- ==== Sys2Proof/Proofs/ClockHandsOn.lean ====
section
/-!
PROOFS. Proofs/ClockHandsOn.lean: how many records the operations of the Timescale Unit offer, and that each of them hands on.
-/
namespace Sys2Proof.Machine

/-! ## Leap matters (R13 to R16) -/

/-- An entry that a re-conversion changes has a start's deadline. -/
theorem again_ne (a : Auction) (t : Tsu) (h : a.again t ≠ a) : a.state = .armed ∨ a.state = .call := by
  by_contra hc
  rw [not_or] at hc
  exact h (again_of_not a t hc.1 hc.2)

theorem handsOn_reconvertGroup (s : State) (g : Fin 32) : HandsOn 0 0 s (reconvertGroup s g) := by
  unfold reconvertGroup
  split
  · exact HandsOn.refl s
  · rename_i h
    refine handsOn_enter s g _ (.inl ?_)
    rw [again_state]
    rcases again_ne _ _ h with e | e <;> simp [e]

theorem handsOn_leapReport (s : State) : HandsOn 0 0 s (leapReport s) := by
  unfold leapReport
  exact (handsOn_foldl _ (fun s g => handsOn_phasePending s g) _ _).after (handsOn_foldl _ handsOn_reconvertGroup _ s)

/-- An offer of a record after changes that nothing of the hand-on bears on. -/
theorem handsOn_offer_of {s u : State} {c : Nat} (r : Record) (h : HandsOn 0 0 s u) (hc : r.kind.weight = c) :
    HandsOn c 1 s (offer u r) := hc ▸ (handsOn_offer u r).after h

theorem handsOn_notifyLeap (s : State) (a : LeapAction) : HandsOn 0 0 s (notifyLeap s a) := handsOn_notify _ _ _ _

theorem handsOn_applyLeap (s : State) : HandsOn 1 1 s (applyLeap s) := by
  unfold applyLeap
  exact ((handsOn_offer_of _ (handsOn_tsu s _) (by rfl)).then (handsOn_qualityPending _)).then (handsOn_notifyLeap _ _)

/-- A record offered on a condition. -/
theorem handsOn_offer_if (p : Prop) [Decidable p] (s : State) (r : Record) {c : Nat} (hc : r.kind.weight = c) :
    HandsOn c 1 s (if p then s else offer s r) := by
  split
  · exact (HandsOn.refl s).mono (Nat.zero_le _) (Nat.zero_le _)
  · exact hc ▸ handsOn_offer s r

theorem handsOn_setPending (s : State) (new : Leap) : HandsOn 2 2 s (setPending s new) := by
  unfold setPending
  simp only []
  split
  · exact (HandsOn.refl s).mono (Nat.zero_le _) (Nat.zero_le _)
  · have h1 := (handsOn_offer_if (s.tsu.pendingLeap = .noLeap) { s with tsu := { s.tsu with pendingLeap := new } }
      (leapRecord { s with tsu := { s.tsu with pendingLeap := new } } .withdrawn .noLeap none) (c := 1) rfl).after
      (handsOn_tsu s _)
    have h2 := fun x : State => handsOn_offer_if (new = .noLeap) x (leapRecord x .announced new none) (c := 1) rfl
    exact (((h1.trans (h2 _)).then (handsOn_leapReport _)).then (handsOn_qualityPending _)).then (handsOn_notifyLeap _ _)

theorem handsOn_leapConflict (s : State) (reason : ConflictReason) (x y : Nat) :
    HandsOn 0 1 s (leapConflict s reason x y) := handsOn_offer_of _ (HandsOn.refl s) rfl

theorem handsOn_showConflict (s : State) (old : Tsu) : HandsOn 0 2 s (showConflict s old) := by
  unfold showConflict
  simp only []
  split <;> split
  · exact (handsOn_leapConflict _ _ _ _).trans (handsOn_leapConflict _ _ _ _)
  · exact (handsOn_leapConflict _ _ _ _).mono (Nat.zero_le _) (by omega)
  · exact (handsOn_leapConflict _ _ _ _).mono (Nat.zero_le _) (by omega)
  · exact (HandsOn.refl s).mono (Nat.zero_le _) (by omega)

theorem handsOn_announce (s : State) (t : Tsu) : HandsOn 2 4 s (announce s t) := by
  unfold announce derivePending
  have h := (handsOn_showConflict { s with tsu := t } s.tsu).after (handsOn_tsu s t)
  split
  · exact h.mono (by omega) (by omega)
  · exact (h.trans (handsOn_setPending _ _)).mono (by omega) (by omega)

theorem handsOn_takeWarning (s : State) (w : Leap) : HandsOn 2 4 s (takeWarning s w) := handsOn_announce _ _

theorem handsOn_adoptCount (s : State) (k : Nat) (first : Bool) : HandsOn 1 2 s (adoptCount s k first) := by
  unfold adoptCount
  simp only []
  have h := fun x : State => (handsOn_offer x (leapRecord x .adopted x.tsu.pendingLeap none)).then (handsOn_leapReport _)
  have h1 := (h _).after (handsOn_tsu s ({ s.tsu with leapCount := k } : Tsu).dayBack)
  split
  · exact h1.mono (Nat.le_refl _) (by omega)
  · exact (h1.trans (handsOn_leapConflict _ _ _ _)).then (handsOn_notifyLeap _ _)

theorem handsOn_takeCount (s : State) (k : Nat) : HandsOn 1 2 s (takeCount s k) := by
  unfold takeCount
  simp only []
  split
  · exact (handsOn_tsu s _).mono (Nat.zero_le _) (Nat.zero_le _)
  · split
    · exact ((handsOn_applyLeap _).after (handsOn_tsu s _)).mono (Nat.le_refl _) (by omega)
    · exact (handsOn_adoptCount _ _ _).after (handsOn_tsu s _)

/-! ## What a step of VT passes over -/

/-- The applications a pending leap still stands for. -/
def Leap.weight : Leap → Nat
  | .noLeap => 0
  | .insert => 1
  | .delete => 1

theorem Leap.weight_le (l : Leap) : l.weight ≤ 1 := by cases l <;> simp [Leap.weight]

theorem Leap.weight_ne {l : Leap} (h : l ≠ .noLeap) : l.weight = 1 := by cases l <;> simp_all [Leap.weight]

/-- Handing on that applies a pending leap at most once: every record offered takes from what the pending leap stands for. -/
def Spends (s t : State) : Prop := ∃ c, HandsOn c c s t ∧ c + t.tsu.pendingLeap.weight ≤ s.tsu.pendingLeap.weight

theorem Spends.trans {s t u : State} (h : Spends s t) (k : Spends t u) : Spends s u := by
  obtain ⟨c, h1, h2⟩ := h
  obtain ⟨d, k1, k2⟩ := k
  exact ⟨c + d, h1.trans k1, by omega⟩

theorem spends_tsu (s : State) (x : Tsu) (h : x.pendingLeap = s.tsu.pendingLeap) : Spends s { s with tsu := x } :=
  ⟨0, handsOn_tsu s x, by simp [h]⟩

theorem spends_applyLeap (s : State) (h : s.tsu.pendingLeap ≠ .noLeap) : Spends s (applyLeap s) :=
  ⟨1, handsOn_applyLeap s, by rw [Leap.weight_ne h, (applyLeap_spec s).1.tsu]; rfl⟩

theorem spends_leapLatch (s : State) : Spends s (leapLatch s) := by
  unfold leapLatch
  have h := spends_tsu s { s.tsu with latched := true } rfl
  split
  · simp only []
    split
    · rename_i hd
      exact h.trans (spends_applyLeap _ (by rw [hd]; simp))
    · exact h
  · exact spends_tsu s s.tsu rfl

theorem spends_leapApplication (s : State) : Spends s (leapApplication s) := by
  unfold leapApplication
  split
  · rename_i h
    exact spends_applyLeap s (fun e => by simp [Tsu.leapDue, e] at h)
  · exact spends_tsu s s.tsu rfl

theorem spends_civilMidnight (s : State) : Spends s (civilMidnight s) := by
  unfold civilMidnight
  split
  · exact spends_tsu s _ rfl
  · exact spends_tsu s s.tsu rfl

theorem skipDays_pendingLeap (t : Tsu) : t.skipDays.pendingLeap = t.pendingLeap := by
  unfold Tsu.skipDays
  split <;> rfl

theorem spends_catchUp (s : State) : Spends s (catchUp s) := by
  unfold catchUp
  have h1 := (spends_tsu s s.tsu.dayBack rfl).trans ((spends_leapLatch _).trans (spends_leapApplication _))
  have h2 := h1.trans (spends_civilMidnight _)
  exact h2.trans ((spends_tsu _ _ (skipDays_pendingLeap _)).trans (spends_leapLatch _))

theorem handsOn_catchUp (s : State) : HandsOn 1 1 s (catchUp s) := by
  obtain ⟨c, h, hc⟩ := spends_catchUp s
  have := s.tsu.pendingLeap.weight_le
  exact h.mono (by omega) (by omega)

/-! ## Changes of the clock state (R8) -/

theorem handsOn_openIssuer (s : State) (cause : OpenCause) : HandsOn 1 1 s (openIssuer s cause) := by
  unfold openIssuer
  exact (handsOn_offer_of _ (handsOn_sis s _) (by rfl)).then (handsOn_notify _ _ _ _)

theorem handsOn_trackingReport (s : State) : HandsOn 1 1 s (trackingReport s) := by
  unfold trackingReport
  split
  · exact handsOn_openIssuer _ _
  · exact (HandsOn.refl s).mono (Nat.zero_le _) (Nat.zero_le _)

theorem handsOn_clockHandOn (s : State) (old : Tsu) (cause : ClockCause) : HandsOn 2 2 s (clockHandOn s old cause) := by
  unfold clockHandOn
  split
  · unfold clockChanged
    simp only []
    have h1 := handsOn_offer s (clockRecord s old.clock cause)
    have h2 : ∀ u, HandsOn 0 0 u (if s.tsu.traceable = old.traceable then u else traceableReport u s.tsu.traceable) := by
      intro u
      split
      · exact HandsOn.refl u
      · exact handsOn_traceableReport _ _
    have h3 : ∀ u, HandsOn 1 1 u (if s.tsu.clock = .tracking ∧ old.clock ≠ .tracking then trackingReport u else u) := by
      intro u
      split
      · exact handsOn_trackingReport u
      · exact (HandsOn.refl u).mono (Nat.zero_le _) (Nat.zero_le _)
    exact (((h1.then (h2 _)).trans (h3 _)).then (handsOn_qualityPending _)).then (handsOn_notify _ _ _ _)
  · split
    · exact (handsOn_qualityPending s).mono (Nat.zero_le _) (Nat.zero_le _)
    · exact (HandsOn.refl s).mono (Nat.zero_le _) (Nat.zero_le _)

theorem handsOn_shiftCaptures (s : State) (theta : Int) : HandsOn 0 0 s (shiftCaptures s theta) :=
  handsOn_frame rfl rfl rfl rfl rfl

theorem handsOn_stepVt (s : State) (theta : Int) : HandsOn 2 2 s (stepVt s theta) := by
  unfold stepVt
  simp only []
  exact ((handsOn_offer_of _ ((handsOn_shiftCaptures _ _).after (handsOn_tsu s _)) (by rfl)).then
    (handsOn_notify _ _ _ _)).trans (handsOn_catchUp _)

end Sys2Proof.Machine
end

