-- ==== Sys2Proof/Proofs/Onward.lean ====
section
/-!
PROOFS. Proofs/Onward.lean: what every command but a restart keeps: the auctions stay told of the clock and the journal and settled, an
issuer that has opened stays open with VT standing, and the journal does not return to STARTING.  One lemma for each operation, then for
each command.
-/
namespace Sys2Proof.Machine

/-- The auctions' views of the traceable predicate and of the journal are the true ones, and no cut is owed. -/
structure Told (s : State) : Prop extends Settled s where
  view : s.auc.traceableView = s.tsu.traceable

/-- What every command but a restart keeps. -/
structure Onward (s t : State) : Prop where
  told : Told s → Told t
  issuer : s.sis.state ≠ .closed → t.sis.state ≠ .closed
  running : s.ej.state ≠ .starting → t.ej.state ≠ .starting
  time : s.sis.state ≠ .closed → s.ej.state ≠ .starting → t.tsu.vt = s.tsu.vt

theorem Onward.refl (s : State) : Onward s s := ⟨id, id, id, fun _ _ => rfl⟩

theorem Onward.trans {s t u : State} (h : Onward s t) (k : Onward t u) : Onward s u where
  told := fun x => k.told (h.told x)
  issuer := fun x => k.issuer (h.issuer x)
  running := fun x => k.running (h.running x)
  time := fun x y => (k.time (h.issuer x) (h.running y)).trans (h.time x y)

/-- Composition from the last operation back. -/
theorem Onward.after {s t u : State} (k : Onward t u) (h : Onward s t) : Onward s u := h.trans k

/-- A change outside VT, the traceable predicate, the issuer's state, the auctions and the journal's state. -/
theorem onward_frame {s t : State} (ht : t.tsu.traceable = s.tsu.traceable) (hv : t.tsu.vt = s.tsu.vt)
    (hi : t.sis.state = s.sis.state) (ha : t.auc = s.auc) (hs : t.ej.state = s.ej.state) : Onward s t where
  told := fun x => ⟨⟨by rw [ha, hs]; exact x.journal, fun hc g => by
    rw [ha] at hc
    simpa [State.group, ha] using x.cut hc g⟩, by rw [ha, ht]; exact x.view⟩
  issuer := fun x => by rw [hi]; exact x
  running := fun x => by rw [hs]; exact x
  time := fun _ _ => hv

/-- A change that handing on makes. -/
theorem Handed.onward {c : Nat} {s t : State} (h : Handed s t) (p : Passes c s t) : Onward s t where
  told := fun x => ⟨p.settled x.toSettled, by rw [h.traceableView, h.tsu]; exact x.view⟩
  issuer := fun x => by rw [h.sis]; exact x
  running := h.running
  time := fun _ _ => by rw [h.tsu]

theorem LeapOnly.traceable {a b : Tsu} (h : LeapOnly a b) : b.traceable = a.traceable := by rw [h]; rfl

theorem LeapOnly.vt {a b : Tsu} (h : LeapOnly a b) : b.vt = a.vt := by rw [h]

/-- A change of leap matters. -/
theorem LeapStep.onward {c : Nat} {s t : State} (h : LeapStep s t) (p : Passes c s t) : Onward s t where
  told := fun x => ⟨p.settled x.toSettled, by rw [h.view, h.tsu.traceable]; exact x.view⟩
  issuer := fun x => by rw [h.sis]; exact x
  running := p.running
  time := fun _ _ => h.tsu.vt

theorem onward_foldl {α : Type} (f : State → α → State) (h : ∀ s a, Onward s (f s a)) (l : List α) (s : State) :
    Onward s (l.foldl f s) := by
  induction l generalizing s with
  | nil => exact Onward.refl s
  | cons a l ih => exact (h s a).trans (ih _)

/-! ## Shared operations -/

theorem onward_offer (s : State) (r : Record) : Onward s (offer s r) := (handed_offer s r).onward (handsOn_offer s r).toPasses

theorem onward_notifyAt (s : State) (k : NoticeKind) (vt : Nat) (x : Subject) (d : List Byte) :
    Onward s (notifyAt s k vt x d) := (handed_notifyAt s k vt x d).onward (handsOn_notifyAt s k vt x d).toPasses

theorem onward_notify (s : State) (k : NoticeKind) (x : Subject) (d : List Byte) : Onward s (notify s k x d) :=
  onward_notifyAt _ _ _ _ _

theorem onward_loseRecord (s : State) (k : RecKind) : Onward s (loseRecord s k) :=
  (handed_loseRecord s k).onward (handsOn_lost s k).toPasses

theorem onward_schedule (s : State) (i : Fin 8) : Onward s (schedule s i) :=
  (handed_schedule s i).onward (handsOn_schedule s i).toPasses

theorem onward_qualityPending (s : State) : Onward s (qualityPending s) :=
  (handed_qualityPending s).onward (handsOn_qualityPending s).toPasses

theorem onward_showGroup (s : State) (g : Fin 32) (vt : Nat) : Onward s (showGroup s g vt) :=
  (handed_showGroup s g vt).onward (handsOn_showGroup s g vt).toPasses

theorem onward_writerDecide (s : State) : Onward s (writerDecide s) :=
  (handed_writerDecide s).onward (handsOn_writerDecide s).toPasses

theorem onward_judgeJournal (s : State) : Onward s (judgeJournal s) := (handed_judgeJournal s).onward (passes_judgeJournal s)

theorem onward_setLine (s : State) (i : Fin 8) (l : Line) : Onward s (s.setLine i l) := onward_frame rfl rfl rfl rfl rfl

theorem onward_setRef (s : State) (i : Fin 3) (r : Ref) : Onward s (s.setRef i r) := onward_frame rfl rfl rfl rfl rfl

theorem onward_setPage (s : State) (p : Fin 64) (x : Page) : Onward s (s.setPage p x) := onward_frame rfl rfl rfl rfl rfl

theorem onward_setAgent (s : State) (a : Fin 8) (x : Agent) : Onward s (s.setAgent a x) := onward_frame rfl rfl rfl rfl rfl

theorem onward_psm (s : State) (p : Psm) : Onward s { s with psm := p } := onward_frame rfl rfl rfl rfl rfl

theorem onward_hli (s : State) (h : Hli) : Onward s { s with hli := h } := onward_frame rfl rfl rfl rfl rfl

theorem onward_rfe (s : State) (x : Rfe) : Onward s { s with rfe := x } := onward_frame rfl rfl rfl rfl rfl

/-- The journal's own fields changed, its state apart. -/
theorem onward_ej (s : State) (e : Ej) (h : e.state = s.ej.state) : Onward s { s with ej := e } :=
  onward_frame rfl rfl rfl rfl h

/-- The issuer's fields changed, CLOSED not entered. -/
theorem onward_sis (s : State) (x : Sis) (h : s.sis.state ≠ .closed → x.state ≠ .closed) : Onward s { s with sis := x } :=
  ⟨fun k => ⟨⟨k.journal, k.cut⟩, k.view⟩, h, id, fun _ _ => rfl⟩

/-- An entry replaced by one that is not DEFERRED, or while the cut conditions fail. -/
theorem onward_enter (s : State) (g : Fin 32) (a : Auction) (h : a.state ≠ .deferred ∨ s.auc.cutConditions = false) :
    Onward s (enter s g a) :=
  ⟨fun k => ⟨(handsOn_enter s g a h).settled k.toSettled, k.view⟩, id, id, fun _ _ => rfl⟩

/-- An entry replaced by one in the same auction state. -/
theorem onward_setGroup (s : State) (g : Fin 32) (a : Auction) (h : a.state = (s.group g).state) : Onward s (s.setGroup g a) :=
  ⟨fun k => ⟨⟨k.journal, fun hc g' => by
    rw [setGroup_group]
    split
    · rename_i e; subst e; rw [h]; exact k.cut hc g'
    · exact k.cut hc g'⟩, k.view⟩, id, id, fun _ _ => rfl⟩

/-! ## The clock -/

/-- What a clock change's hand-on asks of the auctions before it, and gives after it. -/
theorem told_clockHandOn (s : State) (old : Tsu) (cause : ClockCause) (hs : Settled s)
    (hv : s.auc.traceableView = old.traceable) : Told (clockHandOn s old cause) := by
  refine ⟨(handsOn_clockHandOn s old cause).settled hs, ?_⟩
  rw [(carried_clockHandOn s old cause).2.1]
  unfold clockHandOn
  split
  · unfold clockChanged
    simp only []
    have hshow : ∀ u d, (notify (qualityPending u) .clockState .nothing d).auc.traceableView = u.auc.traceableView := by
      intro u d
      exact ((handed_qualityPending u).trans (handed_notify _ _ _ _)).traceableView
    have htrack : ∀ u : State, (trackingReport u).auc.traceableView = u.auc.traceableView := by
      intro u
      unfold trackingReport
      split
      · exact (handed_openIssuer u .tracking).traceableView
      · rfl
    have hview : ∀ u : State, u.auc.traceableView = old.traceable →
        (if s.tsu.traceable = old.traceable then u else traceableReport u s.tsu.traceable).auc.traceableView
          = s.tsu.traceable := by
      intro u hu
      split
      · rename_i e; rw [hu, e]
      · exact (handed_traceableReport u s.tsu.traceable).traceableView
    have ho : (offer s (clockRecord s old.clock cause)).auc.traceableView = old.traceable :=
      (handed_offer s _).traceableView.trans hv
    rw [hshow]
    split
    · rw [htrack]; exact hview _ ho
    · exact hview _ ho
  · rename_i hn
    simp only [not_or, Decidable.not_not] at hn
    split
    · rw [(handed_qualityPending s).traceableView, hv, hn.2]
    · rw [hv, hn.2]

theorem onward_openIssuer (s : State) (cause : OpenCause) : Onward s (openIssuer s cause) := by
  unfold openIssuer
  exact (onward_notify _ _ _ _).after ((onward_offer _ _).after (onward_sis s _ (by simp)))

theorem onward_trackingReport (s : State) : Onward s (trackingReport s) := by
  unfold trackingReport
  split
  · exact onward_openIssuer s _
  · exact Onward.refl s

/-- A clock change handed on closes no issuer. -/
theorem issuer_clockHandOn (s : State) (old : Tsu) (cause : ClockCause) (h : s.sis.state ≠ .closed) :
    (clockHandOn s old cause).sis.state ≠ .closed := by
  unfold clockHandOn
  split
  · unfold clockChanged
    simp only []
    refine (onward_notify _ _ _ _).issuer ((onward_qualityPending _).issuer ?_)
    have h2 : ∀ u : State, u.sis.state ≠ .closed →
        (if s.tsu.traceable = old.traceable then u else traceableReport u s.tsu.traceable).sis.state ≠ .closed := by
      intro u hu
      split
      · exact hu
      · rw [(handed_traceableReport u s.tsu.traceable).sis]; exact hu
    split
    · exact (onward_trackingReport _).issuer (h2 _ ((onward_offer _ _).issuer h))
    · exact h2 _ ((onward_offer _ _).issuer h)
  · split
    · exact (onward_qualityPending s).issuer h
    · exact h

/-- The clock changed, then the change handed on (R8). -/
theorem onward_clockHandOn (s u : State) (cause : ClockCause) (hp : Settled s → Settled u)
    (hv : u.auc.traceableView = s.auc.traceableView) (hi : s.sis.state ≠ .closed → u.sis.state ≠ .closed)
    (hr : s.ej.state ≠ .starting → u.ej.state ≠ .starting)
    (ht : s.sis.state ≠ .closed → s.ej.state ≠ .starting → u.tsu.vt = s.tsu.vt) :
    Onward s (clockHandOn u s.tsu cause) where
  told := fun x => told_clockHandOn u s.tsu cause (hp x.toSettled) (hv.trans x.view)
  issuer := fun x => issuer_clockHandOn u s.tsu cause (hi x)
  running := fun x => (handsOn_clockHandOn u s.tsu cause).running (hr x)
  time := fun x y => by rw [(carried_clockHandOn u s.tsu cause).2.1]; exact ht x y

theorem onward_clockSummary (s : State) : Onward s (clockSummary s) := by
  unfold clockSummary
  split
  · exact (onward_offer _ _).after (onward_frame rfl rfl rfl rfl rfl)
  · exact Onward.refl s

theorem grow_vt (t : Tsu) : t.grow.vt = t.vt := by
  unfold Tsu.grow
  split <;> rfl

/-- The clock at a boundary that has been acted on, before the summary counts. -/
def Tsu.crossed (t : Tsu) : Tsu := { t.grow with boundaryDue := false }

/-- The summary counter one further (R10, R17). -/
def Tsu.counted (t : Tsu) : Tsu :=
  { t with summary := t.summary + 1, summaryDue := decide (t.limits.summaryInterval ≤ t.summary + 1) }

/-- A state with another clock. -/
def State.withTsu (s : State) (t : Tsu) : State := { s with tsu := t }

theorem secondBoundary_eq (s : State) (h : s.tsu.boundaryDue = true) :
    secondBoundary s =
      (qualityPending (clockHandOn (s.withTsu s.tsu.crossed) s.tsu .uLimit)).withTsu
        (qualityPending (clockHandOn (s.withTsu s.tsu.crossed) s.tsu .uLimit)).tsu.counted := by
  unfold secondBoundary
  rw [if_pos h]
  simp only [State.withTsu, Tsu.crossed]
  generalize qualityPending _ = u
  rfl

theorem counted_traceable (t : Tsu) : t.counted.traceable = t.traceable := rfl

theorem counted_vt (t : Tsu) : t.counted.vt = t.vt := rfl

theorem onward_withTsu (s : State) (t : Tsu) (ht : t.traceable = s.tsu.traceable) (hv : t.vt = s.tsu.vt) :
    Onward s (s.withTsu t) := onward_frame ht hv rfl rfl rfl

theorem onward_secondBoundary (s : State) : Onward s (secondBoundary s) := by
  by_cases h : s.tsu.boundaryDue = true
  · rw [secondBoundary_eq s h]
    refine (onward_withTsu _ _ (counted_traceable _) (counted_vt _)).after ((onward_qualityPending _).after ?_)
    exact onward_clockHandOn s (s.withTsu s.tsu.crossed) _ (fun x => ⟨x.journal, x.cut⟩) rfl id id fun _ _ => grow_vt s.tsu
  · simp only [secondBoundary, h]
    exact Onward.refl s

theorem onward_leapLatch (s : State) : Onward s (leapLatch s) := by
  obtain ⟨c, h, -⟩ := spends_leapLatch s
  exact (leapStep_leapLatch s).onward h.toPasses

theorem onward_leapApplication (s : State) : Onward s (leapApplication s) := by
  obtain ⟨c, h, -⟩ := spends_leapApplication s
  exact (leapStep_leapApplication s).onward h.toPasses

theorem onward_civilMidnight (s : State) : Onward s (civilMidnight s) := by
  obtain ⟨c, h, -⟩ := spends_civilMidnight s
  exact (leapStep_civilMidnight s).onward h.toPasses

theorem select_vt (t : Tsu) (new : Option (Fin 2)) : (t.select new).vt = t.vt := by
  unfold Tsu.select
  simp only []
  split <;> try rfl
  split <;> rfl

theorem onward_selectionReport (s : State) (new : Option (Fin 2)) : Onward s (selectionReport s new) := by
  unfold selectionReport
  simp only []
  split
  · exact Onward.refl s
  · exact onward_clockHandOn s { s with tsu := s.tsu.select new } _ (fun x => ⟨x.journal, x.cut⟩) rfl id id
      fun _ _ => select_vt s.tsu new

theorem rejudged_vt (t : Tsu) : t.rejudged.vt = t.vt := by rw [rejudged_eq]

theorem rebased_vt (t : Tsu) (o : Nat) : (t.rebased o).vt = t.vt := by rw [rebased_eq]

/-- The clock under new limits, U and the clock state following them (R9, R18). -/
def Tsu.underLimits (t : Tsu) (l : ClockLimits) : Tsu := (({ t with limits := l } : Tsu).rebased t.limits.baseU).rejudged

/-- The CLOCK_LIMITS record (R18). -/
def limitsRecord (s : State) (l : ClockLimits) : Record :=
  { kind := .clockLimits, subject := 255, vt := s.now, body := ClockLimits.bytes l }

/-- The CLOCK_LIMITS record offered under new limits. -/
def State.limitsOffered (s : State) (l : ClockLimits) : State :=
  offer (s.withTsu { s.tsu with limits := l }) (limitsRecord s l)

/-- The state in which a change by new limits is handed on: their record offered, the clock under them. -/
def State.limited (s : State) (l : ClockLimits) : State := (s.limitsOffered l).withTsu (s.tsu.underLimits l)

theorem handed_limitsOffered (s : State) (l : ClockLimits) : Handed (s.withTsu { s.tsu with limits := l }) (s.limitsOffered l) :=
  handed_offer _ _

theorem setClockLimits_eq (l : ClockLimits) (s : State) (h : ClockLimits.valid l = true) :
    setClockLimits l s = done (clockHandOn (s.limited l) s.tsu .limits) := by
  have e : s.tsu.underLimits l = ((s.limitsOffered l).tsu.rebased s.tsu.limits.baseU).rejudged := by
    rw [(handed_limitsOffered s l).tsu]; rfl
  unfold State.limited
  rw [e]
  simp only [setClockLimits, h, if_true, State.withTsu, State.limitsOffered, limitsRecord]
  rfl

theorem handed_limited (s : State) (l : ClockLimits) : Handed (s.withTsu (s.tsu.underLimits l)) (s.limited l) :=
  (handed_limitsOffered s l).withTsu (s.tsu.underLimits l)

theorem handsOn_limited (s : State) (l : ClockLimits) : HandsOn 1 1 s (s.limited l) :=
  ((handsOn_offer (s.withTsu { s.tsu with limits := l }) (limitsRecord s l)).after (handsOn_tsu s _)).then (handsOn_tsu _ _)

theorem underLimits_vt (t : Tsu) (l : ClockLimits) : (t.underLimits l).vt = t.vt := by
  rw [Tsu.underLimits, rejudged_vt, rebased_vt]

theorem onward_setClockLimits (l : ClockLimits) (s : State) : Onward s (setClockLimits l s).state := by
  by_cases h : ClockLimits.valid l = true
  · rw [setClockLimits_eq l s h]
    have k := handed_limited s l
    exact onward_clockHandOn s (s.limited l) _ (handsOn_limited s l).settled k.traceableView
      (fun x => by rw [k.sis]; exact x) k.running fun _ _ => by rw [k.tsu]; exact underLimits_vt s.tsu l
  · simp only [setClockLimits, h]
    exact Onward.refl s

theorem onward_announceLeap (v : Nat) (s : State) : Onward s (announceLeap v s).state := by
  unfold announceLeap
  split
  · exact Onward.refl s
  · split
    · exact Onward.refl s
    · split
      · exact Onward.refl s
      · split
        · exact Onward.refl s
        · exact LeapStep.onward (leapStep_announce s _ (by rfl)) (handsOn_announce s _).toPasses

/-! ## Updates -/

/-- The judgement of R6 moves the clock state, its two counters and the tracked flag, and nothing else. -/
theorem judge_frame (t : Tsu) :
    t.judge = { t with clock := t.judge.clock, lock := t.judge.lock, unlock := t.judge.unlock, tracked := t.judge.tracked } := by
  unfold Tsu.judge
  simp only []
  cases t.clock with
  | acquiring => simp only []; split <;> split <;> rfl
  | tracking => simp only []; split <;> split <;> rfl
  | free | holdover | untraceable => rfl

theorem judge_vt (t : Tsu) : t.judge.vt = t.vt := by rw [judge_frame]

/-- The part of an update before steering: the frequency, the leap count and the warning are taken. -/
def State.sampled (s : State) (x : Sample) : State :=
  takeWarning (takeCount { s with tsu := { s.tsu with f := x.f } } x.leapCount) x.warning

/-- Taking a sample's label changes leap matters alone. -/
theorem leapStep_sampled (s : State) (x : Sample) :
    LeapStep { s with tsu := { s.tsu with f := x.f, vtSet := true } } (s.sampled x) :=
  (leapStep_takeCount { s with tsu := { s.tsu with f := x.f } } x.leapCount).trans (leapStep_takeWarning _ _)

theorem handsOn_sampled (s : State) (x : Sample) : HandsOn 3 6 s (s.sampled x) :=
  ((handsOn_takeCount _ _).after (handsOn_tsu s _)).trans (handsOn_takeWarning _ _)

/-- VT stepped or steered, by the step condition (R3, R4). -/
def State.corrected (s : State) (theta : Int) : State :=
  if s.stepDue theta then stepVt s theta else { s with tsu := s.tsu.steer theta }

theorem takeSample_eq (s : State) (x : Sample) (h : s.tsu.clock = .acquiring ∨ s.tsu.clock = .tracking) :
    takeSample s x =
      let u := (s.sampled x).corrected x.theta
      let t : Tsu := { u.tsu with lastJ := min x.j Config.maxU }
      clockHandOn { u with tsu := { t with u := t.updateU } } s.tsu (updateCause s.tsu { t with u := t.updateU }) := by
  unfold takeSample
  simp only [h, if_true]
  rfl

theorem handsOn_corrected (s : State) (theta : Int) : HandsOn 2 2 s (s.corrected theta) := by
  unfold State.corrected
  split
  · exact handsOn_stepVt s theta
  · exact (handsOn_tsu s _).mono (Nat.zero_le _) (Nat.zero_le _)

/-- With the issuer open an update only steers. -/
theorem corrected_of_open (s : State) (theta : Int) (h : s.sis.state ≠ .closed) :
    s.corrected theta = { s with tsu := s.tsu.steer theta } := by
  simp [State.corrected, State.stepDue, h]

/-- What a step of VT is made of: the leap matters passed over, behind the step's record and notice. -/
theorem stepVt_spec (s : State) (theta : Int) :
    LeapStep (notify (offer (shiftCaptures { s with tsu := s.tsu.step theta } theta)
        { kind := .step, subject := 255, vt := s.now,
          body := beVt s.now ++ beInt 8 theta ++ beOpt (s.tsu.selected.map (·.val)) }) .step .nothing (beInt 8 theta))
      (stepVt s theta)
    ∧ Handed (shiftCaptures { s with tsu := s.tsu.step theta } theta)
      (notify (offer (shiftCaptures { s with tsu := s.tsu.step theta } theta)
        { kind := .step, subject := 255, vt := s.now,
          body := beVt s.now ++ beInt 8 theta ++ beOpt (s.tsu.selected.map (·.val)) }) .step .nothing (beInt 8 theta)) :=
  ⟨leapStep_catchUp _, (handed_offer _ _).trans (handed_notify _ _ _ _)⟩

theorem view_corrected (s : State) (theta : Int) : (s.corrected theta).auc.traceableView = s.auc.traceableView := by
  unfold State.corrected
  split
  · obtain ⟨h1, h2⟩ := stepVt_spec s theta
    rw [h1.view, h2.traceableView]; rfl
  · rfl

theorem onward_takeSample (s : State) (x : Sample) : Onward s (takeSample s x) := by
  by_cases h : s.tsu.clock = .acquiring ∨ s.tsu.clock = .tracking
  · rw [takeSample_eq s x h]
    have l := leapStep_sampled s x
    have p := (handsOn_sampled s x).trans (handsOn_corrected (s.sampled x) x.theta)
    have open_ : s.sis.state ≠ .closed → (s.sampled x).sis.state ≠ .closed := fun k => by rw [l.sis]; exact k
    refine onward_clockHandOn s _ _ (fun k => ?_) ((view_corrected _ _).trans l.view) (fun k => ?_) p.running (fun k _ => ?_)
    · have := p.settled k
      exact ⟨this.journal, this.cut⟩
    · show ((s.sampled x).corrected x.theta).sis.state ≠ _
      rw [corrected_of_open _ _ (open_ k)]; exact open_ k
    · show ((s.sampled x).corrected x.theta).tsu.vt = _
      rw [corrected_of_open _ _ (open_ k)]
      exact (judge_vt _).trans l.tsu.vt
  · simp only [takeSample, h, if_false]
    exact Onward.refl s

/-! ## References -/

theorem onward_reselect (s : State) (i : Fin 3) (old : RefState) : Onward s (reselect s i old) := by
  unfold reselect
  split
  · split
    · exact (onward_selectionReport _ _).after (onward_rfe s _)
    · exact onward_frame rfl rfl rfl rfl rfl
  · exact Onward.refl s

theorem onward_clearDisagree (s : State) (i : Fin 3) (old : RefState) : Onward s (clearDisagree s i old) := by
  unfold clearDisagree
  split
  · exact onward_rfe s _
  · exact Onward.refl s

theorem onward_showRefChange (s : State) (i : Fin 3) (old : RefState) (cause : RefCause) (extra : List Byte) :
    Onward s (showRefChange s i old cause extra) := by
  unfold showRefChange
  split
  · exact Onward.refl s
  · exact (onward_reselect _ _ _).after ((onward_offer _ _).after (onward_clearDisagree s i old))

theorem onward_checkDisagree (s : State) (i : Fin 3) : Onward s (checkDisagree s i) := by
  unfold checkDisagree
  split
  · exact Onward.refl s
  · simp only []
    split
    · split
      · exact Onward.refl s
      · unfold showDisagree
        exact (onward_notify _ _ _ _).after ((onward_offer _ _).after (onward_rfe s _))
    · exact onward_rfe s _

theorem onward_notifyRef (s : State) (i : Fin 3) : Onward s (notifyRef s i) := onward_notify _ _ _ _

theorem onward_handSample (s : State) (i : Fin 3) (x : Option Sample) : Onward s (handSample s i x) := by
  unfold handSample
  split
  · split
    · exact onward_takeSample _ _
    · exact Onward.refl s
  · exact Onward.refl s

/-- One operation or none, by a condition. -/
theorem Onward.ite {s u t : State} (p : Prop) [Decidable p] (h : Onward s u) (k : Onward s t) : Onward s (if p then u else t) := by
  split
  · exact h
  · exact k

/-- An operation, and a further one by a condition. -/
theorem Onward.thenIf {s u t : State} (p : Prop) [Decidable p] (h : Onward s u) (k : Onward u t) :
    Onward s (if p then t else u) := Onward.ite p (h.trans k) h

theorem onward_handOffRef (s : State) (i : Fin 3) (j : RefStep) : Onward s (handOffRef s i j) := by
  unfold handOffRef
  simp only []
  have h := (onward_handSample _ i j.sample).after
    ((onward_showRefChange _ i (s.ref i).state j.cause []).after (onward_setRef s i j.ref))
  have k := Onward.thenIf (j.good = true ∧ i.val < 2) h (onward_checkDisagree _ i)
  exact Onward.ite _ k ((onward_notifyRef _ i).after k)

theorem onward_pulseEdge (s : State) (i : Fin 3) (rising : Bool) (eighth : Fin 8) : Onward s (pulseEdge s i rising eighth) := by
  unfold pulseEdge
  simp only []
  split
  · exact Onward.refl s
  · split <;> exact onward_setRef s i _

theorem onward_edgeJudged (s : State) (i : Fin 3) : Onward s (edgeJudged s i) := by
  unfold edgeJudged
  simp only []
  split
  · exact Onward.refl s
  · split
    · exact onward_setRef s i _
    · exact Onward.ite _ (Onward.refl s) (onward_handOffRef s i _)

theorem onward_labelArrives (s : State) (i : Fin 2) (l : Option Label) : Onward s (labelArrives s i l) := by
  unfold labelArrives
  simp only []
  split
  · exact Onward.refl s
  · exact onward_setRef s _ _

/-! ## Lines -/

theorem onward_enterHeld (s : State) (i : Fin 8) (l : Line) (cause : LineCause) (extra : List Byte) :
    Onward s (enterHeld s i l cause extra) := by
  unfold enterHeld notifyHeld
  exact (onward_notify _ _ _ _).after ((onward_offer _ _).after (onward_setLine s i _))

theorem onward_drainTest (s : State) (i : Fin 8) : Onward s (drainTest s i) :=
  Onward.ite _ (onward_enterHeld s i _ _ _) (Onward.refl s)

theorem onward_notifyLine (s : State) (i : Fin 8) : Onward s (notifyLine s i) := onward_notify _ _ _ _

theorem onward_isolate (s : State) (i : Fin 8) : Onward s (isolate s i) := by
  unfold isolate
  exact (onward_notifyLine _ _).after ((onward_offer _ _).after (onward_setLine s i _))

theorem onward_showHealth (s : State) (i : Fin 8) (old : Option Health) : Onward s (showHealth s i old) :=
  Onward.ite _ (Onward.refl s) ((onward_notifyLine _ _).after (onward_offer s _))

theorem onward_releaseCell (s : State) (i : Fin 8) : Onward s (releaseCell s i) := onward_sis s _ id

theorem onward_frameBad (s : State) (i : Fin 8) (cause : BadCause) : Onward s (frameBad s i cause) := by
  have h := fun l => (onward_setLine (releaseCell s i) i l).after (onward_releaseCell s i)
  unfold frameBad
  exact Onward.ite _ ((onward_isolate _ _).after (h _)) ((onward_drainTest _ _).after ((onward_showHealth _ _ _).after (h _)))

theorem onward_frameValid (s : State) (i : Fin 8) (fields : TagFields) : Onward s (frameValid s i fields) := by
  have h := fun l => (onward_showHealth _ i (s.line i).health).after
    ((onward_setLine (releaseCell s i) i l).after (onward_releaseCell s i))
  unfold frameValid
  simp only []
  split
  · exact h _
  · exact (h _).trans (onward_sis _ _ id)

theorem onward_frameJudged (s : State) (i : Fin 8) (j : Judged) : Onward s (frameJudged s i j) := by
  cases j with
  | bad cause => exact onward_frameBad s i cause
  | valid fields => exact onward_frameValid s i fields

theorem onward_handOff (s : State) (i : Fin 8) (a : Answer) : Onward s (handOff s i a) := by
  unfold handOff
  exact (onward_drainTest _ _).after ((onward_schedule _ _).after (onward_setLine s i _))

theorem onward_startDelimiter (s : State) (i : Fin 8) (bytes : List Byte) : Onward s (startDelimiter s i bytes) := by
  have h : ∀ u : State, Onward u (beginFrame u i) := fun u =>
    Onward.ite _ ((onward_setLine _ i _).after (onward_sis u _ id)) (onward_setLine u i _)
  exact (h _).after (Onward.ite _ (onward_frameJudged s i _) (Onward.refl s))

theorem onward_frameEnd (s : State) (i : Fin 8) (bytes : List Byte) (ending : FrameEnding) :
    Onward s (frameEnd s i bytes ending) := by
  unfold frameEnd
  split
  · exact onward_frameJudged s i _
  · exact onward_setLine s i _
  · exact Onward.refl s

theorem onward_laneEnd (s : State) (i : Fin 8) : Onward s (laneEnd s i) :=
  Onward.ite _ ((onward_schedule _ _).after ((onward_drainTest _ _).after (onward_setLine s i _))) (Onward.refl s)

theorem onward_assertPause (s : State) (i : Fin 8) : Onward s (assertPause s i) :=
  Onward.ite _ (Onward.refl s) (onward_setLine s i _)

theorem onward_drainTimeout (s : State) (i : Fin 8) : Onward s (drainTimeout s i) :=
  Onward.ite _ (onward_enterHeld s i _ _ _) (Onward.refl s)

/-! ## Stamp issue -/

theorem reported_state (a : Auction) (d : Disposition) (phase : AuctionState) (sequence : Nat) :
    (a.reported d phase sequence).state = a.state := by
  unfold Auction.reported
  split <;> rfl

theorem onward_reportIssue (s : State) (st : Stamp) : Onward s (reportIssue s st) := by
  unfold reportIssue
  split
  · exact onward_setGroup s _ _ (reported_state _ _ _ _)
  · exact Onward.refl s

theorem onward_exhaustIssuer (s : State) (st : Stamp) : Onward s (exhaustIssuer s st) := by
  unfold exhaustIssuer
  exact (onward_notify _ _ _ _).after ((onward_offer _ _).after (onward_sis s _ (by simp)))

theorem onward_issueStamp (s : State) (o : Offer) (sequence : Nat) : Onward s (issueStamp s o sequence) := by
  unfold issueStamp
  exact Onward.thenIf _ ((onward_handOff _ _ _).after ((onward_reportIssue _ _).after (onward_sis s _ id)))
    (onward_exhaustIssuer _ _)

theorem onward_answerNotOpen (s : State) (o : Offer) : Onward s (answerNotOpen s o) := by
  unfold answerNotOpen
  exact (onward_handOff _ _ _).after (onward_sis s _ id)

theorem onward_grantOffer (s : State) : Onward s (grantOffer s) := by
  unfold grantOffer
  split
  · split
    · exact Onward.refl s
    · rename_i o rest _
      have h := onward_sis s { s.sis with offers := rest, lastGrant := some s.osc } id
      simp only []
      split
      · exact h.trans (onward_issueStamp _ _ _)
      · exact h.trans (onward_answerNotOpen _ _)
  · exact Onward.refl s

/-! ## Auctions -/

theorem onward_produce (s : State) (g : Fin 32) (r : HeldRecord) : Onward s (produce s g r) := by
  unfold produce
  split
  · exact onward_setGroup s g _ rfl
  · exact onward_offer s _

theorem onward_cutGroup (s : State) (g : Fin 32) (cutTime : Nat) (forced : Bool) : Onward s (cutGroup s g cutTime forced) := by
  unfold cutGroup cutGroupWith
  exact (onward_showGroup _ _ _).after (onward_enter s g _ (.inl (by simp)))

theorem onward_expire (s : State) (g : Fin 32) (k : DeadlineKind) (effect : State → State) (h : Onward s (effect s)) :
    Onward s (expire s g k effect) := Onward.ite _ h (Onward.refl s)

theorem onward_callStarted (g : Fin 32) (s : State) : Onward s (callStarted g s) := by
  unfold callStarted
  exact (onward_showGroup _ _ _).after (onward_enter s g _ (.inl (by simp)))

/-- An entry entered, a record produced, the group shown. -/
theorem onward_entered (s : State) (g : Fin 32) (a : Auction) (r : HeldRecord) (vt : Nat)
    (h : a.state ≠ .deferred ∨ s.auc.cutConditions = false) : Onward s (showGroup (produce (enter s g a) g r) g vt) :=
  (onward_showGroup _ _ _).after ((onward_produce _ _ _).after (onward_enter s g a h))

/-- The draw counted. -/
theorem onward_draws (s : State) (n : Nat) : Onward s { s with auc := { s.auc with draws := n } } :=
  ⟨fun k => ⟨⟨k.journal, k.cut⟩, k.view⟩, id, id, fun _ _ => rfl⟩

theorem onward_windowStarted (g : Fin 32) (s : State) : Onward s (windowStarted g s) := by
  unfold windowStarted
  exact (onward_entered _ g _ _ _ (.inl (by simp))).after (onward_draws s _)

/-- A reason to defer is a cut condition that fails (R94). -/
theorem cutConditions_of_deferReason {a : Auc} {r : DeferReason} (h : a.deferReason = some r) : a.cutConditions = false := by
  unfold Auc.deferReason at h
  unfold Auc.cutConditions
  cases hv : a.traceableView <;> cases hj : a.journalAccepts <;> simp_all

theorem onward_ended (g : Fin 32) (s : State) : Onward s (ended g s) := by
  unfold ended
  split
  · exact onward_cutGroup s g _ _
  · rename_i reason h
    exact onward_entered s g _ _ _ (.inr (cutConditions_of_deferReason h))

theorem onward_heldBack (g : Fin 32) (s : State) : Onward s (heldBack g s) := onward_entered s g _ _ _ (.inl (by simp))

theorem onward_settled (g : Fin 32) (s : State) : Onward s (settled g s) := onward_entered s g _ _ _ (.inl (by simp))

theorem onward_clearGroup (g : Fin 32) (s : State) : Onward s (clearGroup g s) := by
  unfold clearGroup
  exact (onward_showGroup _ _ _).after ((onward_enter _ g _ (.inl (by simp))).after (onward_produce s g _))

theorem onward_cancelGroup (g : Fin 32) (s : State) : Onward s (cancelGroup g s) := by
  unfold cancelGroup
  exact (onward_showGroup _ _ _).after ((onward_enter _ g _ (.inl (by simp))).after (onward_produce s g _))

theorem onward_showExtension (g : Fin 32) (s : State) : Onward s (showExtension g s) := by
  unfold showExtension
  exact (onward_showGroup _ _ _).after (onward_produce s g _)

theorem onward_extendEarly (g : Fin 32) (s : State) (h : (s.group g).state ≠ .deferred) : Onward s (extendEarly g s) :=
  (onward_showExtension g _).after (onward_enter s g _ (.inl h))

theorem onward_extendLate (g : Fin 32) (s : State) : Onward s (extendLate g s) := by
  unfold extendLate
  simp only []
  split
  · exact ((onward_showExtension g _).after (onward_enter _ g _ (.inl (by simp)))).after (onward_produce s g _)
  · exact (onward_showExtension g _).after (onward_enter s g _ (.inl (by simp)))

theorem loadedEntry_state (a : ArmArgs) (call window : Start) (entered : AuctionState) :
    (loadedEntry a call window entered).state = entered := rfl

theorem onward_armGroup (g : Fin 32) (a : ArmArgs) (call window : Start) (s : State) :
    Onward s (armGroup g a call window s).state := by
  have h := Onward.ite ((s.group g).state = .idle) (Onward.refl s) (onward_clearGroup g s)
  unfold armGroup
  generalize (if (s.group g).state = .idle then s else clearGroup g s) = u at h ⊢
  simp only []
  split
  · simp only [done]
    refine h.trans ((onward_showGroup _ g _).after ((onward_enter _ g _ (.inl ?_)).after (onward_offer u _)))
    rw [loadedEntry_state]
    split <;> simp
  · exact h.trans (onward_offer u _)

/-! ## The journal -/

theorem onward_closePage (s : State) (cause : CloseCause) : Onward s (closePage s cause) := by
  unfold closePage closePageWith
  split
  · exact Onward.refl s
  · rename_i p next _
    have h := fun pg => (onward_ej (s.setPage p pg) { (s.setPage p pg).ej with openPage := none, closeRequested := false } rfl).after
      (onward_setPage s p pg)
    exact (onward_notify _ _ _ _).after ((onward_judgeJournal _).after (h _))

theorem onward_setSlot (s : State) (p : Fin 64) (i : Fin 128) (c : Slot) : Onward s (setSlot s p i c) := onward_setPage s p _

theorem onward_writerNext (s : State) : Onward s (writerNext s) := (onward_writerDecide _).after (onward_ej s _ rfl)

theorem onward_reportIndex (s : State) (g : Fin 32) (index : Nat) : Onward s (reportIndex s g index) := by
  unfold reportIndex
  exact (onward_foldl _ (fun s _ => onward_offer s _) _ _).after (onward_setGroup s g _ rfl)

theorem onward_reportArm (s : State) (r : Record) (index : Nat) : Onward s (reportArm s r index) := by
  unfold reportArm
  split
  · exact onward_reportIndex s _ _
  · exact Onward.refl s

theorem onward_releaseSource (s : State) (src : WriteSource) : Onward s (releaseSource s src) := by
  cases src with
  | pageOpen => exact Onward.refl s
  | intake => exact onward_ej s _ rfl
  | gap g => exact onward_ej s _ rfl

theorem onward_closeAfter (s : State) (slot : Fin 128) : Onward s (closeAfter s slot) :=
  Onward.ite _ (onward_closePage s _) (Onward.ite _ (onward_closePage s _) (Onward.refl s))

theorem onward_standRecord (s : State) (w : Write) : Onward s (standRecord s w) := onward_frame rfl rfl rfl rfl rfl

theorem onward_writeVerified (s : State) : Onward s (writeVerified s) := by
  unfold writeVerified
  split
  · exact Onward.refl s
  · exact (onward_writerNext _).after ((onward_closeAfter _ _).after ((onward_reportArm _ _ _).after
      ((onward_releaseSource _ _).after (onward_standRecord s _))))

theorem onward_oweAgain (s : State) (src : WriteSource) : Onward s (oweAgain s src) := by
  cases src with
  | pageOpen => exact Onward.refl s
  | intake => exact onward_ej s _ rfl
  | gap g => exact onward_ej s _ rfl

theorem onward_loseFailed (s : State) (r : Record) (src : WriteSource) : Onward s (loseFailed s r src) := by
  cases src with
  | pageOpen => exact Onward.refl s
  | intake => exact (onward_reportArm _ _ _).after ((onward_loseRecord _ _).after (onward_ej s _ rfl))
  | gap g => exact onward_ej s _ rfl

theorem onward_writeFailed (s : State) : Onward s (writeFailed s) := by
  unfold writeFailed
  split
  · exact Onward.refl s
  · have h := fun p i => (onward_closePage _ .short).after (onward_setSlot s p i .void)
    exact Onward.ite _ (Onward.refl s) ((onward_writerNext _).after
      (Onward.ite _ ((onward_oweAgain _ _).after (h _ _)) ((onward_loseFailed _ _ _).after (h _ _))))

theorem onward_showDefect (s : State) (p : Fin 64) (serial : Nat) (cause : DefectCause) : Onward s (showDefect s p serial cause) := by
  unfold showDefect
  exact (onward_judgeJournal _).after ((onward_notify _ _ _ _).after (onward_offer s _))

theorem onward_pageOpenFailed (s : State) : Onward s (pageOpenFailed s) := by
  unfold pageOpenFailed
  split
  · exact Onward.refl s
  · refine Onward.ite _ ((onward_writerNext _).after ((onward_showDefect _ _ _ _).after ?_)) (Onward.refl s)
    exact onward_frame rfl rfl rfl rfl rfl

theorem onward_eraseEnd (s : State) (notBlank : List (Fin 128)) : Onward s (eraseEnd s notBlank) := by
  unfold eraseEnd
  split
  · exact Onward.refl s
  · rename_i p rest _
    have h := onward_ej s { s.ej with eraseQueue := rest } rfl
    refine Onward.ite _ (Onward.trans h ?_) (Onward.trans h ?_)
    · unfold pageFreed
      exact (onward_writerDecide _).after ((onward_judgeJournal _).after ((onward_notify _ _ _ _).after (onward_setPage _ p _)))
    · unfold pageSpoiled
      exact (onward_showDefect _ _ _ _).after (onward_setPage _ p _)

/-- The end of recovery: the clock is loaded while the journal is in STARTING, and the auctions are told the journal state. -/
theorem onward_recoveryEnd (s : State) : Onward s (recoveryEnd s) := by
  unfold recoveryEnd
  split
  · rename_i hst
    simp only []
    generalize hx : loadClock _ _ _ = x
    have hk : x.tsu.traceable = s.tsu.traceable := by rw [← hx]; rfl
    have hi : x.sis = s.sis := by rw [← hx]; rfl
    have hv : x.auc = s.auc := by rw [← hx]; rfl
    generalize recoveredFrom _ = r
    generalize (s.ej.pages.toList.any _) = truncated
    have hb : Told s → Told (beginEpoch x r truncated) := by
      intro k
      have view : ∀ u v, u.auc = s.auc → u.tsu.traceable = s.tsu.traceable → v = u.ej.state → Told (journalReport u v) := by
        intro u v ha ht he
        have h := handed_journalReport u v
        exact ⟨settled_journalReportWith offer_offering u v he, by rw [h.traceableView, h.tsu, ha, ht]; exact k.view⟩
      unfold beginEpoch
      simp only []
      split
      · exact view _ _ hv hk rfl
      · exact view _ _ hv hk rfl
    have hc : s.sis.state ≠ .closed → (beginEpoch x r truncated).sis.state ≠ .closed := by
      intro k
      unfold beginEpoch
      simp only []
      split <;> (rw [(handed_journalReport _ _).sis]; show x.sis.state ≠ _; rw [hi]; exact k)
    have hu : Onward s (beginEpoch x r truncated) := ⟨hb, hc, fun k => absurd hst k, fun _ k => absurd hst k⟩
    exact (onward_writerDecide _).after ((onward_ej _ _ (by rfl)).after ((onward_notify _ _ _ _).after hu))
  · exact Onward.refl s

/-! ## The survey -/

theorem onward_pollSchedule (s : State) : Onward s (pollSchedule s) := by
  unfold pollSchedule
  split
  · split
    · exact onward_frame rfl rfl rfl rfl rfl
    · exact Onward.refl s
  · exact Onward.refl s

theorem onward_beginPhase (s : State) (t : Txn) (phase : Phase) : Onward s (beginPhase s t phase) := onward_psm s _

theorem onward_busIdled (s : State) : Onward s (busIdled s) := by
  unfold busIdled
  split
  · exact onward_pollSchedule s
  · exact Onward.ite _ (onward_beginPhase s _ _) (Onward.ite _ (onward_beginPhase s _ _) (Onward.refl s))

theorem onward_agentChanged (s : State) (a : Fin 8) (old : AgentState) (cause : AgentCause) (extra : List Byte) :
    Onward s (agentChanged s a old cause extra) := by
  unfold agentChanged
  exact (onward_notify _ _ _ _).after (onward_offer s _)

theorem onward_moveAgent (s : State) (a : Fin 8) (new : AgentState) (cause : AgentCause) : Onward s (moveAgent s a new cause) :=
  Onward.ite _ (Onward.refl s) ((onward_agentChanged _ _ _ _ _).after (onward_setAgent s a _))

theorem onward_failPoll (s : State) (a : Fin 8) (e : PollError) : Onward s (failPoll s a e) := by
  have h := fun x => onward_setAgent s a x
  exact Onward.ite _ ((onward_moveAgent _ _ _ _).after (h _)) (h _)

theorem onward_endTxn (s : State) (t : Txn) (outcome : State → State) (h : ∀ u, Onward u (outcome u)) :
    Onward s (endTxn s t outcome) := by
  have h1 := onward_psm s { s.psm with txn := none }
  exact Onward.ite _ (h1.trans (onward_setAgent _ _ _)) ((h _).after (h1.trans (onward_setAgent _ _ _)))

theorem onward_endFailed (s : State) (t : Txn) (e : PollError) : Onward s (endFailed s t e) :=
  (onward_pollSchedule _).after (onward_endTxn s t _ fun u => onward_failPoll u _ _)

theorem onward_checkBytes (s : State) (t : Txn) : Onward s (checkBytes s t) := by
  unfold checkBytes
  split
  · exact onward_failPoll s _ _
  · unfold takeReading
    exact (onward_moveAgent _ _ _ _).after (onward_setAgent s _ _)

theorem onward_markPhaseEnd (s : State) (outcome : MarkOutcome) : Onward s (markPhaseEnd s outcome) := by
  unfold markPhaseEnd
  split
  · exact Onward.refl s
  · cases outcome with
    | addressNack => exact (onward_endFailed _ _ _).after (onward_psm s _)
    | dataNack => exact (onward_endFailed _ _ _).after (onward_psm s _)
    | acknowledged => exact onward_psm s _

theorem onward_gapEnd (s : State) : Onward s (gapEnd s) := by
  unfold gapEnd
  split
  · exact Onward.ite _ (onward_beginPhase s _ _) (Onward.refl s)
  · exact Onward.refl s

theorem onward_readPhaseEnd (s : State) (outcome : ReadOutcome) : Onward s (readPhaseEnd s outcome) := by
  unfold readPhaseEnd
  split
  · exact Onward.refl s
  · cases outcome with
    | addressNack => exact (onward_endFailed _ _ _).after (onward_psm s _)
    | reading bytes =>
      exact ((onward_pollSchedule _).after (onward_endTxn _ _ _ fun u => onward_checkBytes u _)).after (onward_psm s _)

theorem onward_countLoss (s : State) (a : Fin 8) : Onward s (countLoss s a) := onward_setAgent s a _

theorem onward_arbitrationLost (s : State) : Onward s (arbitrationLost s) := by
  unfold arbitrationLost
  split
  · exact Onward.refl s
  · rename_i t _
    have h := onward_psm s (s.psm.foreign true false s.osc)
    refine Onward.ite _ (h.trans ((onward_pollSchedule _).after (onward_endTxn _ _ _ fun u => Onward.refl u)))
      (Onward.trans (h.trans (onward_countLoss _ t.agent)) ?_)
    exact Onward.ite _ (onward_psm _ _) (onward_endFailed _ _ _)

theorem onward_countDiscard (s : State) (a : Fin 8) : Onward s (countDiscard s a) := onward_setAgent s a _

theorem onward_haltSurvey (s : State) (t : Txn) : Onward s (haltSurvey s t) := by
  have h := Onward.ite (t.discard = true) (onward_countDiscard s t.agent) (Onward.refl s)
  unfold haltSurvey
  exact (onward_psm _ _).after ((onward_setAgent _ _ _).after h)

theorem onward_busError (s : State) (isStart : Bool) : Onward s (busError s isStart) := by
  unfold busError
  split
  · exact Onward.refl s
  · exact (onward_notify _ _ _ _).after ((onward_offer _ _).after ((onward_haltSurvey _ _).after (onward_psm s _)))

theorem onward_clockLowTimeout (s : State) (dataHigh : Bool) : Onward s (clockLowTimeout s dataHigh) := by
  unfold clockLowTimeout
  split
  · exact Onward.refl s
  · exact Onward.ite _ ((onward_endFailed _ _ _).after (onward_psm s _)) (Onward.refl s)

theorem onward_lineChange (s : State) (clockHigh dataHigh : Bool) : Onward s (lineChange s clockHigh dataHigh) := by
  unfold lineChange
  split
  · exact Onward.ite _ (Onward.refl s) (onward_psm s _)
  · exact onward_psm s _
  · exact onward_psm s _
  · exact onward_psm s _

theorem onward_startConditionSeen (s : State) (clockHigh dataHigh : Bool) :
    Onward s (startConditionSeen s clockHigh dataHigh) := by
  unfold startConditionSeen
  split
  · exact onward_psm s _
  · exact Onward.refl s
  · exact onward_lineChange s _ _
  · exact onward_lineChange s _ _

theorem onward_busTimerExpiry (s : State) : Onward s (busTimerExpiry s) :=
  Onward.ite _ (Onward.ite _ ((onward_busIdled _).after (onward_psm s _)) (onward_psm s _)) (Onward.refl s)

theorem onward_discardTxn (s : State) (a : Fin 8) : Onward s (discardTxn s a) := by
  unfold discardTxn
  split
  · exact Onward.refl s
  · exact Onward.ite _ (Onward.refl s) (Onward.ite _ (onward_endTxn s _ _ fun u => Onward.refl u) (onward_psm s _))

theorem onward_enable (s : State) (a : Fin 8) : Onward s (enable s a) := by
  unfold enable
  exact (onward_pollSchedule _).after ((onward_agentChanged _ _ _ _ _).after (onward_setAgent s a _))

theorem onward_disable (s : State) (a : Fin 8) : Onward s (disable s a) := by
  unfold disable
  exact (onward_pollSchedule _).after ((onward_agentChanged _ _ _ _ _).after
    ((onward_discardTxn _ _).after (onward_setAgent s a _)))

end Sys2Proof.Machine
end

