-- ==== Sys2Proof/Proofs/Commands.lean ====
section
/-!
PROOFS. Proofs/Commands.lean: every request, every event and every step keeps what Proofs/Onward.lean says, or restarts the part; the two
invariants of the family follow.
-/
namespace Sys2Proof.Machine

/-! ## Requests -/

/-- An owner whose answer keeps it. -/
def OnwardOwner (owner : State → Answered) : Prop := ∀ s, Onward s (owner s).state

theorem onward_onLine (n : Nat) (s : State) (k : Fin 8 → Answered) (h : ∀ i, Onward s (k i).state) :
    Onward s (onLine n s k).state := by
  unfold onLine
  split
  · exact h _
  · exact Onward.refl s

theorem onward_onGroup (n : Nat) (s : State) (k : Fin 32 → Answered) (h : ∀ g, Onward s (k g).state) :
    Onward s (onGroup n s k).state := by
  unfold onGroup
  split
  · exact h _
  · exact Onward.refl s

theorem onward_onRef (n : Nat) (s : State) (k : Fin 3 → Answered) (h : ∀ i, Onward s (k i).state) :
    Onward s (onRef n s k).state := by
  unfold onRef
  split
  · exact h _
  · exact Onward.refl s

theorem onward_onAgent (n : Nat) (s : State) (k : Fin 8 → Answered) (h : ∀ a, Onward s (k a).state) :
    Onward s (onAgent n s k).state := by
  unfold onAgent
  split
  · exact h _
  · exact Onward.refl s

/-- One answer or another, by a condition. -/
theorem onward_iteAnswer {s : State} (p : Prop) [Decidable p] {a b : Answered} (h : Onward s a.state) (k : Onward s b.state) :
    Onward s (if p then a else b).state := by
  split
  · exact h
  · exact k

/-- OK, with the state as the owner leaves it. -/
theorem onward_done {s u : State} (h : Onward s u) : Onward s (done u).state := h

/-- A refusal. -/
theorem onward_refuse (s : State) (st : Status) : Onward s (refuse s st).state := Onward.refl s

theorem onward_requestRestart : OnwardOwner requestRestart := fun s => onward_hli s _

theorem onward_fetchNotices (n : Nat) : OnwardOwner (fetchNotices n) := fun s =>
  onward_iteAnswer _ (Onward.refl s) (onward_hli s _)

theorem onward_beginHold (s : State) (i : Fin 8) : Onward s (beginHold s i) := by
  unfold beginHold
  exact (onward_drainTest _ _).after ((onward_notifyLine _ _).after ((onward_offer _ _).after (onward_setLine s i _)))

theorem onward_holdLine (n : Nat) : OnwardOwner (holdLine n) := fun s =>
  onward_onLine n s _ fun i => by
    split
    · exact onward_enterHeld s i _ _ _
    · exact onward_beginHold s i
    · exact Onward.refl s
    · exact Onward.refl s
    · exact Onward.refl s

theorem onward_reconfigure (s : State) (i : Fin 8) (l : Line) : Onward s (reconfigure s i l) :=
  (onward_offer _ _).after (onward_setLine s i l)

theorem onward_configureLine (n mode delay : Nat) : OnwardOwner (configureLine n mode delay) := fun s =>
  onward_onLine n s _ fun i =>
    onward_iteAnswer _ (Onward.refl s) (onward_iteAnswer _ (onward_reconfigure s i _) (Onward.refl s))

theorem onward_setFilter (n index enabled code mask : Nat) : OnwardOwner (setFilter n index enabled code mask) := fun s =>
  onward_onLine n s _ fun i => by
    split
    · exact Onward.refl s
    · exact onward_iteAnswer _ (Onward.refl s) (onward_iteAnswer _ (onward_reconfigure s i _) (Onward.refl s))

theorem onward_runLine (s : State) (i : Fin 8) : Onward s (runLine s i) := by
  unfold runLine
  exact (onward_schedule _ _).after ((onward_notifyLine _ _).after ((onward_offer _ _).after (onward_setLine s i _)))

theorem onward_releaseLine (n : Nat) : OnwardOwner (releaseLine n) := fun s =>
  onward_onLine n s _ fun i => onward_iteAnswer _ (onward_runLine s i) (Onward.refl s)

theorem onward_reconnectLine (n : Nat) : OnwardOwner (reconnectLine n) := fun s =>
  onward_onLine n s _ fun i => onward_iteAnswer _ (onward_enterHeld s i _ _ _) (Onward.refl s)

theorem onward_openStamping : OnwardOwner openStamping := fun s => by
  unfold openStamping
  split
  · exact onward_iteAnswer _ (onward_openIssuer s _) (Onward.refl s)
  · exact Onward.refl s
  · exact Onward.refl s

theorem onward_armAuction (a : ArmArgs) : OnwardOwner (armAuction a) := fun s =>
  onward_onGroup _ s _ fun g => by
    refine onward_iteAnswer _ (Onward.refl s) (onward_iteAnswer _ (Onward.refl s) (onward_iteAnswer _ (Onward.refl s) ?_))
    split
    · exact onward_iteAnswer _ (onward_armGroup g a _ _ s) (Onward.refl s)
    · exact Onward.refl s
    · exact Onward.refl s

theorem onward_extendAuction (n : Nat) : OnwardOwner (extendAuction n) := fun s =>
  onward_onGroup n s _ fun g => by
    have early (h : (s.group g).state ≠ .deferred) := onward_done (onward_extendEarly g s h)
    have late := onward_done (onward_extendLate g s)
    simp only []
    split <;> rename_i hs
    · exact onward_refuse s _
    · exact onward_refuse s _
    · exact onward_refuse s _
    · exact onward_refuse s _
    · exact onward_iteAnswer _ (onward_refuse s _) (early (by simp [hs]))
    · exact onward_iteAnswer _ (onward_refuse s _) (early (by simp [hs]))
    · exact onward_iteAnswer _ (onward_refuse s _) late
    · exact onward_iteAnswer _ (onward_refuse s _) late
    · exact onward_iteAnswer _ (onward_refuse s _) late

theorem onward_cutNow (n : Nat) : OnwardOwner (cutNow n) := fun s =>
  onward_onGroup n s _ fun g => onward_iteAnswer _ (onward_done (onward_cutGroup s g _ _)) (onward_refuse s _)

theorem onward_cancelAuction (n : Nat) : OnwardOwner (cancelAuction n) := fun s =>
  onward_onGroup n s _ fun g => by
    have cancelled := onward_done (onward_cancelGroup g s)
    split
    · exact onward_refuse s _
    · exact onward_refuse s _
    · exact onward_refuse s _
    · exact onward_refuse s _
    · exact cancelled
    · exact cancelled
    · exact cancelled
    · exact cancelled
    · exact cancelled

theorem onward_clearAuction (n : Nat) : OnwardOwner (clearAuction n) := fun s =>
  onward_onGroup n s _ fun g => by
    have cleared := onward_done (onward_clearGroup g s)
    split
    · exact cleared
    · exact cleared
    all_goals exact onward_refuse s _

theorem onward_requestClose : OnwardOwner requestClose := fun s =>
  onward_iteAnswer _ (Onward.refl s) (onward_iteAnswer _ (Onward.refl s)
    (onward_iteAnswer _ (onward_closePage s _) (onward_ej s _ rfl)))

theorem onward_confirmExport (serial chain : Nat) (retention : Option Nat) :
    OnwardOwner (confirmExport serial chain retention) := fun s => by
  unfold confirmExport
  simp only []
  split
  · exact Onward.refl s
  · exact onward_iteAnswer _ (Onward.refl s) (onward_iteAnswer _ (Onward.refl s)
      (onward_iteAnswer _ (Onward.refl s) (onward_setPage s _ _)))

theorem onward_release (s : State) (p : Fin 64) : Onward s (release s p) := by
  unfold release
  exact (onward_ej _ _ (by rfl)).after (onward_setPage s p _)

theorem onward_releasePage (serial : Nat) : OnwardOwner (releasePage serial) := fun s => by
  unfold releasePage
  split
  · exact Onward.refl s
  · split
    · exact Onward.refl s
    · exact Onward.refl s
    · exact Onward.refl s
    · exact Onward.refl s
    · exact Onward.refl s
    · exact onward_iteAnswer _ (Onward.refl s) (onward_iteAnswer _ (Onward.refl s) (onward_release s _))

theorem onward_annotate (data : List Byte) : OnwardOwner (annotate data) := fun s =>
  onward_iteAnswer _ (onward_offer s _) (onward_offer s _)

theorem onward_configureReference (a : RefArgs) : OnwardOwner (configureReference a) := fun s =>
  onward_onRef _ s _ fun i =>
    onward_iteAnswer _ (Onward.refl s) (onward_iteAnswer _ (onward_setRef s i _) (Onward.refl s))

theorem onward_enableReference (n : Nat) : OnwardOwner (enableReference n) := fun s =>
  onward_onRef n s _ fun i =>
    onward_iteAnswer _ ((onward_notifyRef _ i).after ((onward_showRefChange _ _ _ _ _).after (onward_setRef s i _)))
      (Onward.refl s)

theorem onward_disableReference (n : Nat) : OnwardOwner (disableReference n) := fun s =>
  onward_onRef n s _ fun i => by
    refine onward_iteAnswer _ (Onward.refl s) ?_
    exact (onward_notifyRef _ i).after ((onward_showRefChange _ _ _ _ _).after ((onward_rfe _ _).after (onward_setRef s i _)))

theorem onward_configureAgent (args : AgentArgs) : OnwardOwner (configureAgent args) := fun s =>
  onward_onAgent _ s _ fun a =>
    onward_iteAnswer _ (Onward.refl s) (onward_iteAnswer _ (onward_setAgent s a _) (Onward.refl s))

theorem onward_enableAgent (n : Nat) : OnwardOwner (enableAgent n) := fun s =>
  onward_onAgent n s _ fun a => by
    split
    · exact onward_iteAnswer _ (Onward.refl s) (onward_enable s a)
    · exact onward_iteAnswer _ (Onward.refl s) (onward_enable s a)
    all_goals exact Onward.refl s

theorem onward_disableAgent (n : Nat) : OnwardOwner (disableAgent n) := fun s =>
  onward_onAgent n s _ fun a => onward_iteAnswer _ (Onward.refl s) (onward_disable s a)

theorem onward_resumeSurvey : OnwardOwner resumeSurvey := fun s => by
  unfold resumeSurvey
  split
  · exact (onward_pollSchedule _).after (onward_psm s _)
  · exact Onward.refl s

theorem onward_readRecords (serial slot count : Nat) : OnwardOwner (readRecords serial slot count) := fun s => by
  unfold readRecords
  refine onward_iteAnswer _ (Onward.refl s) ?_
  split
  · exact Onward.refl s
  · exact onward_iteAnswer _ (Onward.refl s) (Onward.refl s)

/-- Every request's owner keeps it. -/
theorem onward_perform (r : Request) : OnwardOwner (perform r) := by
  cases r with
  | identify => exact Onward.refl
  | restart => exact onward_requestRestart
  | fetchNotices n => exact onward_fetchNotices n
  | setClockLimits l => exact onward_setClockLimits l
  | readClock => exact Onward.refl
  | announceLeap v => exact onward_announceLeap v
  | configureReference a => exact onward_configureReference a
  | enableReference n => exact onward_enableReference n
  | disableReference n => exact onward_disableReference n
  | readReference n => exact fun s => onward_onRef n s _ fun _ => Onward.refl s
  | holdLine n => exact onward_holdLine n
  | configureLine n m d => exact onward_configureLine n m d
  | setFilter n i e c m => exact onward_setFilter n i e c m
  | releaseLine n => exact onward_releaseLine n
  | reconnectLine n => exact onward_reconnectLine n
  | readLine n => exact fun s => onward_onLine n s _ fun _ => Onward.refl s
  | openStamping => exact onward_openStamping
  | readIssuer => exact Onward.refl
  | armAuction a => exact onward_armAuction a
  | extendAuction n => exact onward_extendAuction n
  | cutNow n => exact onward_cutNow n
  | cancelAuction n => exact onward_cancelAuction n
  | clearAuction n => exact onward_clearAuction n
  | readAuction n => exact fun s => onward_onGroup n s _ fun _ => Onward.refl s
  | readJournal => exact Onward.refl
  | readRecords p i n => exact onward_readRecords p i n
  | closePage => exact onward_requestClose
  | confirmExport p c r => exact onward_confirmExport p c r
  | releasePage p => exact onward_releasePage p
  | annotate d => exact onward_annotate d
  | configureAgent a => exact onward_configureAgent a
  | enableAgent n => exact onward_enableAgent n
  | disableAgent n => exact onward_disableAgent n
  | resumeSurvey => exact onward_resumeSurvey
  | readAgent n => exact fun s => onward_onAgent n s _ fun _ => Onward.refl s

theorem onward_addReply (s : State) (kind tag : Byte) (st : Status) (body : List Byte) :
    Onward s (addReply s kind tag st body) := onward_hli s _

theorem onward_performWith (owner : Request → State → Answered) (h : ∀ r, OnwardOwner (owner r)) (kind tag : Byte) (p : Parsed)
    (s : State) : Onward s (performWith owner kind tag p s) := by
  cases p with
  | unknownKind => exact onward_addReply s _ _ _ _
  | badLength => exact onward_addReply s _ _ _ _
  | request r => exact Onward.ite _ (onward_addReply s _ _ _ _) ((onward_addReply _ _ _ _ _).after (h r s))

/-- A request received, over any owners that keep it. -/
theorem onward_receiveWith (owner : Request → State → Answered) (h : ∀ r, OnwardOwner (owner r)) (kind tag : Byte) (p : Parsed)
    (s : State) : Onward s (receiveWith owner kind tag p s) := by
  have busy : Onward s (answerBusy s kind tag) := (onward_addReply _ _ _ _ _).after (onward_hli s _)
  have taken : Onward s (performWith owner kind tag p (acceptRequest s kind tag)) :=
    (onward_performWith owner h kind tag p _).after (onward_hli s _)
  exact Onward.ite _ (Onward.refl s) (Onward.ite _ (onward_hli s _) (Onward.ite _ busy taken))

theorem onward_receivedRequest (s : State) (kind tag : Byte) (body : List Byte) :
    Onward s (receivedRequest s kind tag body) := onward_receiveWith perform onward_perform kind tag _ s

/-! ## The framer -/

theorem onward_rejectFrame (s : State) (cause : RejectCause) : Onward s (rejectFrame s cause) := by
  unfold rejectFrame
  exact Onward.ite _ ((onward_addReply _ _ _ _ _).after (onward_hli s _)) ((onward_hli _ _).after (onward_hli s _))

theorem onward_keepByte (s : State) (f : Framer) (a : Assembly) : Onward s (keepByte s f a) := onward_hli s _

theorem onward_frameComplete (s : State) (a : Assembly) : Onward s (frameComplete s a) :=
  Onward.ite _ ((onward_receivedRequest _ _ _ _).after (onward_hli s _)) ((onward_rejectFrame _ _).after (onward_hli s _))

theorem onward_frameByte (s : State) (b : Byte) (stopLow : Bool) : Onward s (frameByte s b stopLow) := by
  refine Onward.ite _ (onward_rejectFrame s _) ?_
  cases s.hli.framer with
  | hunt => exact Onward.refl s
  | length => exact Onward.ite _ (onward_keepByte s _ _) (Onward.ite _ (onward_rejectFrame s _) (onward_keepByte s _ _))
  | header =>
    show Onward s (headerByte s _ b)
    unfold headerByte
    split <;> exact onward_keepByte s _ _
  | body => exact onward_keepByte s _ _
  | check => exact Onward.ite _ (onward_keepByte s _ _) (onward_frameComplete s _)

theorem onward_huntByte (s : State) (b : Byte) (stopLow : Bool) : Onward s (huntByte s b stopLow) :=
  Onward.ite _ (onward_keepByte s _ _) (onward_hli s _)

theorem onward_hostByte (s : State) (b : Byte) (stopLow : Bool) : Onward s (hostByte s b stopLow) :=
  Onward.ite _ (Onward.refl s) (Onward.ite _ (onward_huntByte s b stopLow)
    (Onward.ite _ ((onward_huntByte _ b stopLow).after (onward_rejectFrame s _)) (onward_frameByte s b stopLow)))

theorem onward_byteTimeout (s : State) : Onward s (byteTimeout s) := Onward.ite _ (onward_rejectFrame s _) (Onward.refl s)

/-! ## Events of one condition -/

theorem onward_overrun (s : State) (i : Fin 3) : Onward s (overrun s i) := Onward.ite _ (onward_handOffRef s i _) (Onward.refl s)

theorem onward_missingPulse (s : State) (i : Fin 3) : Onward s (missingPulse s i) :=
  Onward.ite _ (onward_handOffRef s i _) (Onward.refl s)

theorem onward_labelFrame (s : State) (i : Fin 2) (bytes : List Byte) (stopLow : Bool) :
    Onward s (labelFrame s i bytes stopLow) := Onward.ite _ (onward_labelArrives s i _) (Onward.refl s)

theorem onward_labelTimeout (s : State) (cut : CutLabel) : Onward s (labelTimeout s cut) :=
  Onward.ite _ (onward_labelArrives s _ _) (Onward.refl s)

theorem onward_deassertPause (s : State) (i : Fin 8) : Onward s (deassertPause s i) :=
  (onward_schedule _ i).after (onward_setLine s i _)

theorem onward_agentDue (s : State) (a : Fin 8) : Onward s (agentDue s a) := Onward.ite _ (onward_pollSchedule s) (Onward.refl s)

theorem onward_stopConditionSeen (s : State) : Onward s (stopConditionSeen s) :=
  Onward.ite _ ((onward_busIdled _).after (onward_psm s _)) (Onward.refl s)

theorem onward_clearingStopSent (s : State) : Onward s (clearingStopSent s) :=
  Onward.ite _ ((onward_busIdled _).after (onward_psm s _)) (Onward.refl s)

theorem onward_ninthPulse (s : State) : Onward s (ninthPulse s) := Onward.ite _ (onward_psm s _) (Onward.refl s)

theorem onward_stale (s : State) (a : Fin 8) : Onward s (stale s a) := Onward.ite _ (onward_moveAgent s a _ _) (Onward.refl s)

/-! ## Restarts -/

/-- A restart: counted, with everything the auctions are told at its restart value. -/
structure Cleared (s t : State) : Prop where
  counted : t.restarts = s.restarts + 1
  told : Told t

/-- A command's step: what every command keeps, or a restart. -/
def Commanded (s t : State) : Prop := Onward s t ∨ Cleared s t

theorem told_of_cleared {t : State} {draws : Nat} (ht : t.tsu = {}) (ha : t.auc = { draws := draws })
    (hs : t.ej.state = .starting) : Told t where
  journal := by rw [ha, hs]
  cut := fun hc => by
    rw [ha] at hc
    exact absurd hc (by simp [Auc.cutConditions])
  view := by rw [ha, ht]; rfl

theorem cleared_restartPart (s : State) (cause : RestartCause) (hrate0 hrate1 : Bool) :
    Cleared s (restartPart s cause hrate0 hrate1) := ⟨rfl, told_of_cleared rfl rfl rfl⟩

theorem commanded_powerUp (s : State) (hrate0 hrate1 : Bool) : Commanded s (powerUp s hrate0 hrate1) := by
  unfold powerUp
  split
  · exact .inl (Onward.refl s)
  · split
    · exact .inl (onward_frame rfl rfl rfl rfl rfl)
    · obtain ⟨hc, ht⟩ := cleared_restartPart { s with supply := true } .power hrate0 hrate1
      exact .inr ⟨hc, ht⟩

theorem commanded_resetAssert (s : State) (lowNs : Nat) : Commanded s (resetAssert s lowNs) := by
  unfold resetAssert
  split
  · exact .inl (Onward.refl s)
  · exact .inr ⟨rfl, told_of_cleared rfl rfl rfl⟩

theorem commanded_resetRelease (s : State) (hrate0 hrate1 : Bool) : Commanded s (resetRelease s hrate0 hrate1) := by
  unfold resetRelease
  split
  · simp only []
    split
    · obtain ⟨hc, ht⟩ := cleared_restartPart { s with resetLow := false } (if s.powerOwed then .power else .pin) hrate0 hrate1
      exact .inr ⟨hc, ht⟩
    · exact .inl (onward_frame rfl rfl rfl rfl rfl)
  · exact .inl (Onward.refl s)

theorem commanded_supplyLoss (s : State) : Commanded s (supplyLoss s) := by
  unfold supplyLoss
  split
  · exact .inr ⟨rfl, told_of_cleared rfl rfl rfl⟩
  · exact .inl (Onward.refl s)

theorem commanded_replySent (s : State) (hrate0 hrate1 : Bool) : Commanded s (replySent s hrate0 hrate1) := by
  unfold replySent
  split
  · exact .inl (Onward.refl s)
  · simp only []
    split
    · exact .inr ⟨rfl, told_of_cleared rfl rfl rfl⟩
    · exact .inl (onward_hli s _)

/-! ## Every command and every step -/

/-- A command that carries a request is received with its kind's owner. -/
theorem exec_request {c : Instr} {tag : Byte} {r : Request} (h : c.request? = some (tag, r)) (s : State) :
    exec c s = hostRequest tag r (perform r) s := by
  cases c <;> cases h <;> rfl

/-- A command that does nothing while the part does not run. -/
theorem onward_whenLive {s t : State} {effect : State → State} (h : ∀ s, Onward s (effect s)) (ht : whenLive s effect = .next t) :
    Onward s t := by
  cases ht
  exact Onward.ite _ (h s) (Onward.refl s)

/-- An event that keeps it, while the part runs. -/
theorem commanded_whenLive {s t : State} {effect : State → State} (h : ∀ s, Onward s (effect s))
    (ht : whenLive s effect = .next t) : Commanded s t := .inl (onward_whenLive h ht)

theorem commanded_request {c : Instr} {tag : Byte} {r : Request} (h : c.request? = some (tag, r)) {s t : State}
    (ht : exec c s = .next t) : Commanded s t := by
  rw [exec_request h] at ht
  exact commanded_whenLive (onward_receiveWith _ (fun _ => onward_perform r) _ _ _) ht

/-- A command whose effect is the next state. -/
theorem commanded_next {s t u : State} (h : Commanded s u) (ht : (.next u : Host.Outcome State Fault Refusal) = .next t) :
    Commanded s t := by
  cases ht
  exact h

theorem commanded_exec {c : Instr} {s t : State} (ht : exec c s = .next t) : Commanded s t := by
  cases hr : c.request? with
  | some q => exact commanded_request hr ht
  | none =>
    cases c with
    | powerUp a b => exact commanded_next (commanded_powerUp s a b) ht
    | resetAssert n => exact commanded_next (commanded_resetAssert s n) ht
    | resetRelease a b => exact commanded_next (commanded_resetRelease s a b) ht
    | supplyLoss => exact commanded_next (commanded_supplyLoss s) ht
    | replySent a b =>
      cases ht
      show Commanded s (if s.live then _ else s)
      split
      · exact commanded_replySent s a b
      · exact .inl (Onward.refl s)
    | recoveryEnd => exact commanded_whenLive onward_recoveryEnd ht
    | hostByteReceived v b => exact commanded_whenLive (onward_hostByte · v b) ht
    | byteTimeout => exact commanded_whenLive onward_byteTimeout ht
    | receivedRequest k g b => exact commanded_whenLive (onward_receivedRequest · k g b) ht
    | secondBoundary => exact commanded_whenLive onward_secondBoundary ht
    | clockSummary => exact commanded_whenLive onward_clockSummary ht
    | leapLatch => exact commanded_whenLive onward_leapLatch ht
    | leapApplication => exact commanded_whenLive onward_leapApplication ht
    | civilMidnight => exact commanded_whenLive onward_civilMidnight ht
    | pulseEdge r b e => exact commanded_whenLive (onward_pulseEdge · r b e) ht
    | edgeJudged r => exact commanded_whenLive (onward_edgeJudged · r) ht
    | overrun r => exact commanded_whenLive (onward_overrun · r) ht
    | missingPulse r => exact commanded_whenLive (onward_missingPulse · r) ht
    | labelFrame r b p => exact commanded_whenLive (onward_labelFrame · r b p) ht
    | labelTimeout x => exact commanded_whenLive (onward_labelTimeout · x) ht
    | tagStartDelimiter i b => exact commanded_whenLive (onward_startDelimiter · i b) ht
    | tagFrameEnd i b e => exact commanded_whenLive (onward_frameEnd · i b e) ht
    | returnFrameEnd i => exact commanded_whenLive (onward_laneEnd · i) ht
    | pauseAssert i => exact commanded_next (.inl (Onward.ite _ (onward_assertPause s i) (onward_setLine s i _))) ht
    | pauseDeassert i => exact commanded_next (.inl (Onward.ite _ (onward_deassertPause s i) (onward_setLine s i _))) ht
    | drainTimeout i => exact commanded_whenLive (onward_drainTimeout · i) ht
    | grant => exact commanded_whenLive onward_grantOffer ht
    | callStart g => exact commanded_whenLive (fun s => onward_expire s g _ _ (onward_callStarted g s)) ht
    | windowStart g => exact commanded_whenLive (fun s => onward_expire s g _ _ (onward_windowStarted g s)) ht
    | endExpiry g => exact commanded_whenLive (fun s => onward_expire s g _ _ (onward_ended g s)) ht
    | deferLimit g => exact commanded_whenLive (fun s => onward_expire s g _ _ (onward_heldBack g s)) ht
    | settle g => exact commanded_whenLive (fun s => onward_expire s g _ _ (onward_settled g s)) ht
    | writeVerified => exact commanded_whenLive onward_writeVerified ht
    | writeFailed => exact commanded_whenLive onward_writeFailed ht
    | pageOpenFailed => exact commanded_whenLive onward_pageOpenFailed ht
    | eraseEnd l => exact commanded_whenLive (onward_eraseEnd · l) ht
    | agentDue a => exact commanded_whenLive (onward_agentDue · a) ht
    | markPhaseEnd o => exact commanded_whenLive (onward_markPhaseEnd · o) ht
    | gapEnd => exact commanded_whenLive onward_gapEnd ht
    | readPhaseEnd o => exact commanded_whenLive (onward_readPhaseEnd · o) ht
    | arbitrationLost => exact commanded_whenLive onward_arbitrationLost ht
    | busError b => exact commanded_whenLive (onward_busError · b) ht
    | clockLowTimeout b => exact commanded_whenLive (onward_clockLowTimeout · b) ht
    | startConditionSeen a b => exact commanded_whenLive (onward_startConditionSeen · a b) ht
    | stopConditionSeen => exact commanded_whenLive onward_stopConditionSeen ht
    | busTimerExpiry => exact commanded_whenLive onward_busTimerExpiry ht
    | clearingStopSent => exact commanded_whenLive onward_clearingStopSent ht
    | stale a => exact commanded_whenLive (onward_stale · a) ht
    | busLineChange a b => exact commanded_whenLive (onward_lineChange · a b) ht
    | ninthClearingPulse => exact commanded_whenLive onward_ninthPulse ht
    | _ => exact absurd hr (by simp [Instr.request?])

/-- A step is a command's, on the state as it was or with one command fewer waiting, or a tick. -/
theorem commanded_step {s t : State} (h : step s = .next t) : Commanded s t ∨ t = tick s := by
  unfold step at h
  split at h
  · rename_i c rest _
    rcases commanded_exec h with k | k
    · exact .inl (.inl (k.after (onward_frame rfl rfl rfl rfl rfl)))
    · exact .inl (.inr ⟨k.counted, k.told⟩)
  · split at h
    · exact .inl (commanded_exec h)
    · cases h
      exact .inr rfl

/-! ## The invariants -/

theorem advance_traceable (t : Tsu) : t.advance.traceable = t.traceable := by
  unfold Tsu.advance Tsu.traceable
  rfl

/-- A tick moves VT, its fraction and the boundary mark alone, and tells the auctions nothing. -/
theorem told_tick (s : State) (h : Told s) : Told (tick s) := by
  have ticked (t : Tsu) (ht : t.traceable = s.tsu.traceable) : Told { s with osc := s.osc + 1, tsu := t } :=
    ⟨⟨h.journal, h.cut⟩, h.view.trans ht.symm⟩
  unfold tick
  split
  · refine ticked _ ?_
    split
    · rfl
    · exact advance_traceable s.tsu
  · exact h

/-- While VT stays inside the timescale a tick does not set it back. -/
theorem vt_le_tick (s : State) (hb : Bounded s) (hv : s.tsu.vt + 9 < Config.vtSpan) : s.tsu.vt ≤ (tick s).tsu.vt := by
  unfold tick
  split
  · simp only []
    split
    · exact Nat.le_refl _
    · obtain ⟨vt, frac, hsum, hfrac, hadv⟩ := advance_spec s.tsu hb.rateLow hb.rateHigh hb.frac hv
      have := hb.frac
      rw [hadv]
      show s.tsu.vt ≤ vt
      omega
  · exact Nat.le_refl _

/-- Settles O28: every command but a restart keeps VT and an issuer that is not CLOSED; only a tick moves VT, and forward. -/
theorem venueTimeNeverDecreases : Obligations.VenueTimeNeverDecreases := by
  intro s t h hb hv hi hs hr
  rcases commanded_step h with (k | k) | k
  · exact ⟨(k.time hi hs).ge, k.issuer hi, k.running hs⟩
  · exact absurd k.counted (by omega)
  · rw [k]
    refine ⟨vt_le_tick s hb hv, ?_, ?_⟩ <;> unfold tick <;> split <;> assumption

/-- Settles O31: every command keeps what the auctions are told and leaves no cut owed, a restart sets it anew, a tick tells nothing. -/
theorem auctionsAreToldAndCut : Obligations.AuctionsAreToldAndCut := by
  intro s t hv hj hc h
  have told : Told s := ⟨⟨hj, hc⟩, hv⟩
  have kept : Told t := by
    rcases commanded_step h with (k | k) | k
    · exact k.told told
    · exact k.told
    · rw [k]; exact told_tick s told
  exact ⟨kept.view, kept.journal, kept.cut⟩

end Sys2Proof.Machine
end

