-- ==== Sys2Proof/Proofs/Boundaries.lean ====
section
/-!
PROOFS. Proofs/Boundaries.lean: records behind others in one event, and the statements about the grade, the whole-second boundary and the
leap instants.
-/
namespace Sys2Proof.Machine

/-! ## Records behind others -/

/-- A part of a clock event: it hands on and leaves what a clock event leaves. -/
structure Along (c n : Nat) (s t : State) : Prop extends HandsOn c n s t, AroundClock s t

theorem Along.trans {c d n m : Nat} {s t u : State} (h : Along c n s t) (k : Along d m t u) : Along (c + d) (n + m) s u :=
  ⟨h.toHandsOn.trans k.toHandsOn, h.toAroundClock.trans k.toAroundClock⟩

theorem Along.refl (s : State) : Along 0 0 s s := ⟨HandsOn.refl s, AroundClock.refl s⟩

/-- A record offered in an event behind at most `c` critical records, and at most `n` of any class and the DROPs of idle lanes. -/
def Behind (c n : Nat) (s t : State) (r : Record) : Prop := ∃ u, Along c n s u ∧ AroundClock (offer u r) t

theorem Behind.around {c n : Nat} {s t v : State} {r : Record} (h : Behind c n s t r) (k : AroundClock t v) : Behind c n s v r := by
  obtain ⟨u, hu, ho⟩ := h
  exact ⟨u, hu, ho.trans k⟩

theorem Behind.from {c d n m : Nat} {s s' t : State} {r : Record} (k : Behind d m s' t r) (h : Along c n s s') :
    Behind (c + d) (n + m) s t r := by
  obtain ⟨u, hu, ho⟩ := k
  exact ⟨u, h.trans hu, ho⟩

theorem Behind.joined {c n : Nat} {s t u : State} {r : Record} (h : Along c n s u) (k : AroundClock (offer u r) t)
    (ht : u.ej.takes r.kind.critical = true) : r ∈ t.ej.intake.drop s.ej.intake.length :=
  mem_drop_of_prefix k.intake _ (mem_drop_le h.intake.length_le (offered_offer u r ht))

/-- Behind a few critical records a critical record joins where the intake has room for all of them. -/
theorem Behind.offeredAfter {c n k : Nat} {s t : State} {r : Record} (h : Behind c n s t r) (hr : r.kind.critical = true)
    (hc : c ≤ k) (hk : k < 8) : OfferedAfter k s t r := by
  intro ht hroom
  obtain ⟨u, hu, ho⟩ := h
  rw [hr, takes_critical_iff] at ht
  obtain ⟨hst, hex, -⟩ := ht
  rw [if_pos hr] at hroom
  obtain ⟨ust, uex⟩ := hu.critical hst hex
  have room := hu.room
  simp only [Config.intakeSlots] at hroom
  exact Behind.joined hu ho (by rw [hr, takes_critical_iff]; exact ⟨ust, uex, by omega⟩)

theorem idleLanes_card_le (s : State) : s.idleLanes.card ≤ 8 := Finset.card_le_univ s.idleLanes

/-- A record that waits for open slots joins, with a page open, behind `n` records and eight DROPs. -/
theorem Behind.offeredAfter_open {c n k : Nat} {s t : State} {r : Record} (h : Behind c n s t r) (hr : r.kind.critical = false)
    (hk : n + 8 ≤ k) : OfferedAfter k s t r := by
  intro ht hroom
  obtain ⟨u, hu, ho⟩ := h
  rw [hr, takes_open_iff] at ht
  obtain ⟨hstate, -⟩ := ht
  rw [if_neg (by simp [hr])] at hroom
  obtain ⟨hopen, hlen⟩ := hroom
  obtain ⟨-, ustate, ulen⟩ := hu.paged hopen
  have := idleLanes_card_le s
  simp only [Config.intakeOpenSlots] at hlen
  exact Behind.joined hu ho (by rw [hr, takes_open_iff, ustate]; exact ⟨hstate, by omega⟩)

/-- What follows the record of a clock change (R8, step 1) in its hand-on. -/
theorem clockHandOn_after_record (s : State) (old : Tsu) (cause : ClockCause)
    (h : s.tsu.clock ≠ old.clock ∨ s.tsu.traceable ≠ old.traceable) :
    AroundClock (offer s (clockRecord s old.clock cause)) (clockHandOn s old cause) := by
  unfold clockHandOn
  rw [if_pos h]
  unfold clockChanged
  simp only []
  refine AroundClock.trans ?_ (handed_notify _ _ _ _).around
  refine AroundClock.trans ?_ (handed_qualityPending _).around
  split <;> split
  · exact (carried_trackingReport _).1
  · exact ((carried_traceableReport _ _).trans (carried_trackingReport _)).1
  · exact AroundClock.refl _
  · exact (carried_traceableReport _ _).1

/-! ## Grade and selection (R11, R33) -/

theorem traceable_iff (t : Tsu) :
    t.traceable = true ↔ (t.clock = .tracking ∨ t.clock = .holdover) ∧ t.u ≤ t.limits.traceability := by
  simp [Tsu.traceable]

theorem eligible_iff (r : Ref) : r.eligible = true ↔ r.state = .qualified ∧ r.config.labelUse = true := by
  simp [Ref.eligible]

/-- Settles O27, by the cases of the predicate, the tight limit and the VT-set flag, and of the two references' eligibility. -/
theorem gradeAndSelectionFollowTheirRules : Obligations.GradeAndSelectionFollowTheirRules := by
  refine ⟨fun t => ⟨traceable_iff t, ?_⟩, fun r0 r1 => ?_⟩
  · have tight : t.limits.tight < t.u ↔ ¬ t.u ≤ t.limits.tight := Nat.not_le.symm
    rw [tight]
    unfold Tsu.grade
    cases t.traceable
    · cases t.vtSet <;> simp
    · by_cases h : t.u ≤ t.limits.tight <;> simp [h]
  · simp only [← eligible_iff]
    unfold Rfe.choose
    cases r0.eligible <;> cases r1.eligible <;> simp

/-! ## The whole-second boundary (R10, R17) -/

theorem serves_qualityOnWith (s : State) (i : Fin 8) (h : (s.line i).state = .running) : (qualityOnWith offer s i).serves i := by
  unfold qualityOnWith
  rw [if_pos h]
  exact (handsOn_scheduleWith offer_offering _ i).serves i (.inl (by rw [setLine_line_self]))

theorem handed_qualityOnWith (s : State) (i : Fin 8) : Handed s (qualityOnWith offer s i) := by
  unfold qualityOnWith
  simp only []
  split
  · exact Handed.back (handed_schedule _ _) (handed_setLine s i _
      ⟨rfl, rfl, rfl, rfl, rfl, rfl, rfl, rfl, rfl, List.suffix_refl _, id⟩)
  · exact Handed.refl s

theorem serves_foldl (l : List (Fin 8)) (s : State) :
    ∀ i ∈ l, (s.line i).state = .running → (l.foldl (qualityOnWith offer) s).serves i := by
  induction l generalizing s with
  | nil => simp
  | cons j l ih =>
    intro i hi hr
    rw [List.foldl_cons]
    rcases List.mem_cons.1 hi with rfl | hi
    · exact (handsOn_foldl _ (handsOn_qualityOnWith offer_offering) l _).serves i (serves_qualityOnWith s i hr)
    · exact ih _ i hi (((handed_qualityOnWith s j).lines i).state.trans hr)

theorem mem_allEight : ∀ i : Fin 8, i ∈ allEight := by decide

/-- After the quality frames of R56 every RUNNING line has one pending or a frame on its lane. -/
theorem serves_qualityPending (s : State) (i : Fin 8) (h : (s.line i).state = .running) : (qualityPending s).serves i :=
  serves_foldl allEight s i (mem_allEight i) h

/-- U at a boundary (R10, step 1). -/
def Tsu.grownU (t : Tsu) : Nat :=
  if t.clock == .holdover || t.clock == .untraceable
  then min 16777215 (t.u + if t.aided then t.limits.aidedRate else t.limits.unaidedRate) else t.u

/-- The clock state at a boundary (R10, step 1). -/
def Tsu.grownClock (t : Tsu) : ClockState :=
  if t.clock = .holdover ∧ t.limits.traceability < t.grownU then .untraceable else t.clock

theorem grow_eq (t : Tsu) : t.grow = { t with u := t.grownU, clock := t.grownClock } := by
  unfold Tsu.grow Tsu.grownClock Tsu.grownU
  by_cases h : t.clock = .holdover ∨ t.clock = .untraceable
  · have hb : (t.clock == .holdover || t.clock == .untraceable) = true := by simpa using h
    rw [if_pos h, if_pos hb]
  · have hb : ¬ (t.clock == .holdover || t.clock == .untraceable) = true := by simpa using h
    rw [if_neg h, if_neg hb, if_neg (fun k => h (.inl k.1))]

theorem crossed_eq (t : Tsu) : t.crossed = { t with u := t.grownU, clock := t.grownClock, boundaryDue := false } := by
  rw [Tsu.crossed, grow_eq]

theorem counted_grade (t : Tsu) : t.counted.grade = t.grade := rfl

theorem crossed_of_tracking (t : Tsu) (h : t.crossed.clock = .tracking) : t.clock = .tracking := by
  rw [crossed_eq] at h
  simp only [Tsu.grownClock] at h
  split at h
  · cases h
  · exact h

/-- A command of a part that runs. -/
theorem whenLive_live (s : State) (effect : State → State) (h : s.live = true) : whenLive s effect = .next (effect s) := by
  rw [whenLive, if_pos h]

/-- The clock is no part of what a record or a notice has joined. -/
theorem Noticed.retimed {s t : State} {x : Tsu} {k : NoticeKind} {vt : Nat} {j : Subject} {d : List Byte}
    (h : Noticed (s.withTsu x) t k vt j d) (y : Tsu) : Noticed s (t.withTsu y) k vt j d := h

theorem Offered.retimed {s t : State} {x : Tsu} {r : Record} (h : Offered (s.withTsu x) t r) (y : Tsu) :
    Offered s (t.withTsu y) r := h

theorem handed_boundary (s : State) (b : State)
    (hb : b = qualityPending (clockHandOn (s.withTsu s.tsu.crossed) s.tsu .uLimit)) :
    Handed ((s.withTsu s.tsu.crossed).viewing s.tsu) b := hb ▸
  (handed_clockHandOn (s.withTsu s.tsu.crossed) s.tsu .uLimit (crossed_of_tracking s.tsu)).trans (handed_qualityPending _)

/-- Settles O24: the boundary is the clock grown, its change handed on, quality frames on every RUNNING line and the summary counted. -/
theorem secondBoundaryGrowsAndCounts : Obligations.SecondBoundaryGrowsAndCounts := by
  intro s hl
  refine ⟨fun hb => ?_, fun hb => ?_⟩
  · intro _ _ clock new r
    have hnew : s.tsu.crossed.counted = new := by rw [crossed_eq]; rfl
    have hclock : (s.withTsu s.tsu.crossed).tsu.clock = clock := congrArg Tsu.clock (crossed_eq s.tsu)
    have hgrade : (s.withTsu s.tsu.crossed).tsu.grade = new.grade := by
      rw [← hnew]; exact (counted_grade s.tsu.crossed).symm
    have hnow : (s.withTsu s.tsu.crossed).now = s.now := grow_vt s.tsu
    have hr : clockRecord (s.withTsu s.tsu.crossed) s.tsu.clock .uLimit = r := by
      rw [clockRecord, State.withTsu, crossed_eq]; rfl
    obtain ⟨x, hx⟩ : ∃ x, x = clockHandOn (s.withTsu s.tsu.crossed) s.tsu .uLimit := ⟨_, rfl⟩
    obtain ⟨b, hq⟩ : ∃ b, b = qualityPending x := ⟨_, rfl⟩
    have handed := handed_boundary s b (hx ▸ hq)
    have shown : AroundClock x b := hq ▸ (handed_qualityPending x).around
    have noticed := noticed_clockHandOn (s.withTsu s.tsu.crossed) s.tsu .uLimit
    have offered := offered_clockHandOn (s.withTsu s.tsu.crossed) s.tsu .uLimit
    have lines := (carried_clockHandOn (s.withTsu s.tsu.crossed) s.tsu .uLimit).1.lines
    rw [← hx, hclock] at noticed offered
    rw [← hx] at lines
    rw [hgrade, hnow] at noticed
    rw [hr] at offered
    refine ⟨b.withTsu s.tsu.crossed.counted, ?_, ?_, fun hc => ?_, fun hc => ?_, fun i hi => ?_⟩
    · show whenLive s secondBoundary = _
      rw [whenLive_live s _ hl, secondBoundary_eq s hb, ← hx, ← hq, handed.tsu]
      rfl
    · have h := handed.withTsu s.tsu.crossed.counted
      rw [← hnew]
      exact h
    · exact ((noticed (.inl hc)).around shown).retimed _
    · exact ((offered (.inl hc)).around shown).retimed _
    · have h := serves_qualityPending x i ((lines i).state.trans hi)
      rw [← hq] at h
      exact h
  · refine ⟨clockSummary s, whenLive_live s clockSummary hl, ?_, ?_⟩
    · unfold clockSummary
      rw [if_pos hb]
      exact handed_offer _ _
    · unfold clockSummary
      rw [if_pos hb]
      exact (offered_offer _ _).sooner rfl

/-! ## The leap instants (R14, R15) -/

theorem leapNext_insert (t : Tsu) (h : t.pendingLeap = .insert) (hk : t.leapCount < 255) : t.leapNext = t.leapCount + 1 := by
  simp [Tsu.leapNext, h, freeSucc, hk]

theorem leapNext_delete (t : Tsu) (h : t.pendingLeap = .delete) (hk : 0 < t.leapCount) : t.leapNext = t.leapCount - 1 := by
  simp [Tsu.leapNext, h, hk]

/-- A group with a start's deadline is not DEFERRED. -/
theorem not_deferred_of_start {st : AuctionState} (h : st = .armed ∨ st = .call) : st ≠ .deferred := by
  rintro rfl
  simp at h

/-- The pending leap applied, the latch as given: recorded, noticed, every start at its VT (R15, R106). -/
theorem leap_applied (s : State) (latched : Bool) (k : Nat) (hk : s.tsu.leapNext = k) :
    let t := applyLeap (s.withTsu { s.tsu with latched := latched })
    Handed { s with tsu := { s.tsu with latched := latched, leapCount := k, pendingLeap := .noLeap, leapDone := true } } t
      ∧ (∀ g, (s.group g).state = .armed ∨ (s.group g).state = .call → t.group g = s.group g)
      ∧ Offered s t { kind := .leap, subject := 255, vt := s.now, body := be 1 2 ++ be 1 k ++ be 1 0 ++ beVt s.now }
      ∧ Noticed s t .leap s.now .nothing (be 1 2 ++ be 1 k ++ be 1 0) := by
  obtain ⟨handed, offered, noticed⟩ := applyLeap_spec (s.withTsu { s.tsu with latched := latched })
  have hk' : (s.withTsu { s.tsu with latched := latched }).tsu.leapNext = k := hk
  rw [Tsu.leapApplied, hk'] at handed
  rw [hk'] at offered noticed
  exact ⟨handed, fun g hg => handed.groups g (not_deferred_of_start hg), offered, noticed⟩

theorem latchDue_iff (t : Tsu) :
    t.latchDue = true ↔ t.latched = false ∧ t.loadedSec < t.dayEnd - 1 ∧ t.dayEnd - 1 ≤ t.sec := by
  simp [Tsu.latchDue]

/-- Settles O25: each instant's condition is that of its command, whose application of a pending leap is `leap_applied`. -/
theorem leapInstantsTakeEffect : Obligations.LeapInstantsTakeEffect := by
  intro s hl d applied
  have latch : exec .leapLatch s = .next (leapLatch s) := whenLive_live s _ hl
  have application : exec .leapApplication s = .next (leapApplication s) := whenLive_live s _ hl
  have midnight : exec .civilMidnight s = .next (civilMidnight s) := whenLive_live s _ hl
  refine ⟨fun h => ?_, fun ho hload hd => ⟨fun hp => ?_, fun hp hk => ?_⟩, fun hp hd hk => ?_, fun hp hd hk => ?_, fun hp hd => ?_⟩
  · have open_ : ¬ s.tsu.latchDue = true := by
      rw [latchDue_iff]
      rintro ⟨h1, h2, h3⟩
      rcases h with h | h | h
      · simp [h1] at h
      · exact absurd h3 (Int.not_le.2 h)
      · exact absurd h2 (Int.not_lt.2 h)
    rw [latch, leapLatch, if_neg open_]
  · have due : s.tsu.latchDue = true := (latchDue_iff _).2 ⟨ho, hload, hd⟩
    rw [latch, leapLatch, if_pos due]
    exact congrArg _ (if_neg hp)
  · have due : s.tsu.latchDue = true := (latchDue_iff _).2 ⟨ho, hload, hd⟩
    refine ⟨_, ?_, leap_applied s true _ (leapNext_delete s.tsu hp hk)⟩
    rw [latch, leapLatch, if_pos due]
    exact congrArg _ (if_pos hp)
  · have due : s.tsu.leapDue = true := by simpa [Tsu.leapDue, hp] using hd
    refine ⟨_, ?_, leap_applied s s.tsu.latched _ (leapNext_insert s.tsu hp hk)⟩
    rw [application, leapApplication, if_pos due]
    rfl
  · have due : s.tsu.leapDue = true := by simpa [Tsu.leapDue, hp] using hd
    refine ⟨_, ?_, leap_applied s s.tsu.latched _ (leapNext_delete s.tsu hp hk)⟩
    rw [application, leapApplication, if_pos due]
    rfl
  · have due : s.tsu.midnightDue = true := by simpa [Tsu.midnightDue, hp] using hd
    rw [midnight, civilMidnight, if_pos due]
    rfl

end Sys2Proof.Machine
end

