-- ==== Sys2Proof/Proofs/ClockRequests.lean ====
section
/-!
PROOFS. Proofs/ClockRequests.lean: the requests that change the clock: its limits (R18) and the host's leap announcement (R20).
-/
namespace Sys2Proof.Machine

/-! ## The clock limits (R18) -/

/-- U under new limits (R9). -/
def Tsu.limitedU (t : Tsu) (l : ClockLimits) : Nat :=
  if l.baseU ≠ t.limits.baseU ∧ (t.clock = .acquiring ∨ t.clock = .tracking)
  then min 16777215 (l.baseU + t.lastJ + if t.stepped then 0 else t.theta.natAbs) else t.u

/-- The clock state under new limits (R18). -/
def Tsu.limitedClock (t : Tsu) (l : ClockLimits) : ClockState :=
  if t.clock = .holdover ∧ l.traceability < t.limitedU l then .untraceable
  else if t.clock = .untraceable ∧ t.limitedU l ≤ l.traceability then .holdover else t.clock

theorem underLimits_eq (t : Tsu) (l : ClockLimits) :
    t.underLimits l = { t with limits := l, u := t.limitedU l, clock := t.limitedClock l } := by
  rw [Tsu.underLimits, rejudged_eq, rebased_eq]
  rfl

theorem underLimits_tracking (t : Tsu) (l : ClockLimits) (h : (t.underLimits l).clock = .tracking) : t.clock = .tracking := by
  rw [underLimits_eq] at h
  simp only [Tsu.limitedClock] at h
  split at h
  · cases h
  · split at h
    · cases h
    · exact h

/-- With a page open a record the intake takes joins at its tail, the page stays open and the journal state stands. -/
theorem offer_paged (s : State) (r : Record) (ht : s.ej.takes r.kind.critical = true) (hp : s.ej.openPage ≠ none) :
    (offer s r).ej.intake = s.ej.intake ++ [r] := by
  have next (u : State) (p : Fin 64) (slot : Nat) : (beginNext u p slot).ej.intake = u.ej.intake := by
    unfold beginNext
    simp only []
    split
    · rfl
    · rfl
    · rfl
    · split <;> rfl
  have taken : enqueue s r = { s with ej := { s.ej with intake := s.ej.intake ++ [r] } } := by simp [enqueue, ht]
  unfold offer
  rw [if_pos ht, taken]
  unfold writerDecide
  split
  · split
    · rename_i hn
      exact absurd hn hp
    · exact next _ _ _
  · rfl

theorem offered_limited (s : State) (l : ClockLimits) : Offered s (s.limited l) (limitsRecord s l) :=
  Offered.retimed (offered_offer (s.withTsu { s.tsu with limits := l }) (limitsRecord s l)) _

theorem intake_limited (s : State) (l : ClockLimits) (ht : s.ej.takes true = true) (hp : s.ej.openPage ≠ none) :
    (s.limited l).ej.intake = s.ej.intake ++ [limitsRecord s l] :=
  offer_paged (s.withTsu { s.tsu with limits := l }) (limitsRecord s l) ht hp

/-- With a page open and room for two, the record of the change stands right behind the limits' record. -/
theorem limits_then_change (s : State) (l : ClockLimits) (r : Record) (hr : r.kind.critical = true) (ht : s.ej.takes true = true)
    (hp : s.ej.openPage ≠ none) (hroom : s.ej.intake.length + 1 < 32) :
    (offer (s.limited l) r).ej.intake = s.ej.intake ++ [limitsRecord s l, r] := by
  have h := handsOn_limited s l
  have hi := intake_limited s l ht hp
  obtain ⟨hst, hex, -⟩ := (takes_critical_iff _).1 ht
  obtain ⟨kst, kex⟩ := h.critical hst hex
  have takes : (s.limited l).ej.takes r.kind.critical = true := by
    rw [hr, takes_critical_iff]
    exact ⟨kst, kex, by simpa [hi] using hroom⟩
  rw [offer_paged _ r takes (h.paged hp).1, hi, List.append_assoc]
  rfl

/-- Settles O22: the limits' record is offered first, the clock under them is `underLimits`, and its change is handed on behind. -/
theorem clockLimitsTakeEffect : Obligations.ClockLimitsTakeEffect := by
  intro s tag l ha valid
  have hvalid : ClockLimits.valid l = true ↔ valid := decide_eq_true_iff
  refine ⟨fun hv => ?_, fun hv => ?_⟩
  · intro u clock new limits changed
    obtain ⟨a, haa⟩ : ∃ a, a = acceptRequest s 0x10#8 tag := ⟨_, rfl⟩
    have htsu : a.tsu = s.tsu := by rw [haa]; rfl
    have hej : a.ej = s.ej := by rw [haa]; rfl
    have hnew : s.tsu.underLimits l = new := underLimits_eq s.tsu l
    obtain ⟨x, hx⟩ : ∃ x, x = a.limited l := ⟨_, rfl⟩
    obtain ⟨t, ht⟩ : ∃ t, t = clockHandOn x s.tsu .limits := ⟨_, rfl⟩
    have handed : Handed (a.withTsu new) x := by rw [← hnew, hx, ← htsu]; exact handed_limited a l
    have hxt : x.tsu = new := handed.tsu
    have hlimits : limitsRecord a l = limits := by rw [haa]; rfl
    have hchanged : clockRecord x s.tsu.clock .limits = changed := by
      unfold clockRecord State.now; rw [hxt]; rfl
    have carried : AroundClock x t := ht ▸ (carried_clockHandOn x s.tsu .limits).1
    have along : Along 1 1 a x := ⟨hx ▸ handsOn_limited a l, (around_tsu a new).trans handed.around⟩
    refine ⟨addReply t 0x10#8 tag .ok [], ?_, ?_, ?_, fun hc => ⟨?_, ?_, fun htk hp hroom => ?_⟩⟩
    · have h := hostRequest_accepted tag (.setClockLimits l) (setClockLimits l) s ha rfl
      rw [setClockLimits_eq l _ (hvalid.2 hv)] at h
      rw [ht, hx, haa]
      exact h
    · have tracking : x.tsu.clock = .tracking → s.tsu.clock = .tracking := by
        rw [hxt, ← hnew]; exact underLimits_tracking s.tsu l
      have h := ((handed.viewing s.tsu).trans (ht ▸ handed_clockHandOn x s.tsu .limits tracking)).addReply 0x10#8 tag .ok []
      rw [haa] at h
      exact h
    · have h : Offered a t limits := by rw [← hlimits]; exact (hx ▸ offered_limited a l).around carried
      exact (h.sooner hej).upto rfl
    · have h := noticed_clockHandOn x s.tsu .limits (by rw [hxt]; exact hc)
      rw [← ht, hxt, State.now, hxt] at h
      have notices : s.hli.notices.length ≤ x.hli.notices.length := by
        have := along.noticesLe
        rwa [haa] at this
      exact (h.sooner notices).upto rfl
    · have h : Behind 1 1 a t changed :=
        ⟨x, along, by rw [← hchanged, ht]; exact clockHandOn_after_record x s.tsu .limits (by rw [hxt]; exact hc)⟩
      have h' := h.offeredAfter rfl (Nat.le_refl 1) (by omega)
      unfold OfferedAfter at h'
      rw [hej] at h'
      exact h'
    · have h := limits_then_change a l changed rfl (by rw [hej]; exact htk) (by rw [hej]; exact hp) (by rw [hej]; exact hroom)
      have k := (clockHandOn_after_record x s.tsu .limits (by rw [hxt]; exact hc)).intake
      rw [hchanged, hx, h, hlimits, hej] at k
      obtain ⟨rest, k⟩ := k
      rw [← hx, ← ht] at k
      show _ <+: t.ej.intake.drop s.ej.intake.length
      rw [← k, List.append_assoc, List.drop_left]
      exact List.prefix_append _ _
  · refine hostRequest_refused tag (.setClockLimits l) (setClockLimits l) s .badArgument ha rfl ?_
    rw [setClockLimits, if_neg (fun h => hv (hvalid.1 h))]

/-! ## Announcements (R13, R20) -/

/-- The pending leap the announcements give, where the day still allows a change (R13, R14). -/
def Tsu.derived (t : Tsu) : Leap := if t.latched || t.leapDone then t.pendingLeap else t.announced

theorem setPending_self (s : State) : setPending s s.tsu.pendingLeap = s := if_pos rfl

theorem derivePending_eq (s : State) : derivePending s = setPending s s.tsu.derived := by
  unfold derivePending Tsu.derived
  split
  · exact (setPending_self s).symm
  · rfl

/-- An announcement is its conflicts' records, then the pending leap it gives. -/
theorem announce_eq (s : State) (t : Tsu) : announce s t = setPending (showConflict (s.withTsu t) s.tsu) t.derived := by
  have e : (showConflict (s.withTsu t) s.tsu).tsu = t := (handed_showConflict (s.withTsu t) s.tsu).tsu
  show derivePending (showConflict (s.withTsu t) s.tsu) = _
  rw [derivePending_eq, e]

theorem setPending_tsu (s : State) (new : Leap) : (setPending s new).tsu = { s.tsu with pendingLeap := new } := by
  by_cases h : s.tsu.pendingLeap = new
  · subst h; rw [setPending_self]
  · exact (setPending_spec s new h).2.1

/-- A changed pending leap converts the starts again; another one leaves them (R106). -/
theorem setPending_group (s : State) (new : Leap) (g : Fin 32) (hg : (s.group g).state ≠ .deferred) :
    (setPending s new).group g =
      if new = s.tsu.pendingLeap then s.group g else (s.group g).again { s.tsu with pendingLeap := new } := by
  by_cases h : s.tsu.pendingLeap = new
  · subst h; rw [setPending_self, if_pos rfl]
  · rw [if_neg (Ne.symm h)]
    obtain ⟨told, htsu, -⟩ := setPending_spec s new h
    rw [told.groups g hg, htsu]

/-- A LEAP record with no VT of application. -/
def leapNote (vt action count : Nat) (w : Leap) : Record :=
  { kind := .leap, subject := 255, vt := vt, body := be 1 action ++ be 1 count ++ be 1 w.code ++ List.replicate 9 255#8 }

/-- A changed pending leap, with the record of the one withdrawn. -/
def State.withdrawn (s : State) (new : Leap) : State :=
  if s.tsu.pendingLeap = .noLeap then s.withTsu { s.tsu with pendingLeap := new }
  else offer (s.withTsu { s.tsu with pendingLeap := new }) (leapNote s.now 1 s.tsu.leapCount .noLeap)

/-- A changed pending leap, with both its records. -/
def State.announced (s : State) (new : Leap) : State :=
  if new = .noLeap then s.withdrawn new else offer (s.withdrawn new) (leapNote s.now 0 s.tsu.leapCount new)

theorem handed_withdrawn (s : State) (new : Leap) : Handed (s.withTsu { s.tsu with pendingLeap := new }) (s.withdrawn new) := by
  unfold State.withdrawn
  split
  · exact Handed.refl _
  · exact handed_offer _ _

theorem along_withdrawn (s : State) (new : Leap) : Along 1 1 s (s.withdrawn new) :=
  ⟨(handsOn_offer_if (s.tsu.pendingLeap = .noLeap) (s.withTsu { s.tsu with pendingLeap := new })
      (leapNote s.now 1 s.tsu.leapCount .noLeap) rfl).after (handsOn_tsu s _),
    (around_tsu s _).trans (handed_withdrawn s new).around⟩

theorem handed_announced (s : State) (new : Leap) : Handed (s.withdrawn new) (s.announced new) := by
  unfold State.announced
  split
  · exact Handed.refl _
  · exact handed_offer _ _

/-- What follows the records of a changed pending leap (R13). -/
theorem setPending_after_records (s : State) (new : Leap) (h : s.tsu.pendingLeap ≠ new) :
    AroundClock (s.announced new) (setPending s new) := by
  have e : s.announced new = (if new = .noLeap then s.withdrawn new
      else offer (s.withdrawn new) (leapRecord (s.withdrawn new) .announced new none)) := by
    unfold leapRecord State.now
    rw [(handed_withdrawn s new).tsu]
    rfl
  have k : setPending s new = notifyLeap (qualityPending (leapReport (s.announced new)))
      (if new = .noLeap then .withdrawn else .announced) := by
    rw [e, setPending, if_neg h]
    rfl
  rw [k]
  exact ((around_leapReport _).trans (handed_qualityPending _).around).trans (handed_notify _ _ _ _).around

/-- The pending leap that falls is recorded first. -/
theorem withdrawn_setPending (s : State) (new : Leap) (h : s.tsu.pendingLeap ≠ new) (ho : s.tsu.pendingLeap ≠ .noLeap) :
    Behind 0 0 s (setPending s new) (leapNote s.now 1 s.tsu.leapCount .noLeap) := by
  have k := (handed_announced s new).around.trans (setPending_after_records s new h)
  rw [State.withdrawn, if_neg ho] at k
  exact ⟨_, ⟨handsOn_tsu s _, around_tsu s _⟩, k⟩

/-- The pending leap that rises is recorded behind it. -/
theorem announced_setPending (s : State) (new : Leap) (h : s.tsu.pendingLeap ≠ new) (hn : new ≠ .noLeap) :
    Behind 1 1 s (setPending s new) (leapNote s.now 0 s.tsu.leapCount new) := by
  have k := setPending_after_records s new h
  rw [State.announced, if_neg hn] at k
  exact ⟨_, along_withdrawn s new, k⟩

/-- A LEAP_CONFLICT record. -/
def conflictNote (vt reason x y : Nat) : Record :=
  { kind := .leapConflict, subject := 255, vt := vt, body := be 1 reason ++ be 1 x ++ be 1 y }

theorem sourcesDiffer_iff (t : Tsu) : t.sourcesDiffer = true ↔
    (t.labelLeap = .insert ∧ t.hostLeap = .delete) ∨ (t.labelLeap = .delete ∧ t.hostLeap = .insert) := by
  unfold Tsu.sourcesDiffer
  cases t.labelLeap <;> cases t.hostLeap <;> simp

/-- A conflict of range that begins is recorded first (R13). -/
theorem showConflict_range (s : State) (old : Tsu) (h : s.tsu.rangeConflict = true) (ho : old.rangeConflict = false) :
    AroundClock (offer s (conflictNote s.now 0 s.tsu.labelLeap.code s.tsu.hostLeap.code)) (showConflict s old) := by
  have first : s.tsu.rangeConflict = true ∧ (!old.rangeConflict) = true := ⟨h, by simp [ho]⟩
  simp only [showConflict, if_pos first]
  split
  · exact (handed_offer _ _).around
  · exact AroundClock.refl _

/-- Sources that begin to differ, with no conflict of range beginning, are recorded first (R13). -/
theorem showConflict_differ (s : State) (old : Tsu) (hr : s.tsu.rangeConflict = true → old.rangeConflict = true)
    (h : s.tsu.sourcesDiffer = true) (ho : ¬ old.sourcesDiffer = true) :
    AroundClock (offer s (conflictNote s.now 1 s.tsu.labelLeap.code s.tsu.hostLeap.code)) (showConflict s old) := by
  have first : ¬ (s.tsu.rangeConflict = true ∧ (!old.rangeConflict) = true) := fun k => by simp [hr k.1] at k
  have second : s.tsu.sourcesDiffer = true ∧ (!old.sourcesDiffer) = true := ⟨h, by simpa using ho⟩
  simp only [showConflict, if_neg first, if_pos second]
  exact AroundClock.refl _

/-- The state behind the conflicts of an announcement. -/
def State.conflictsShown (s : State) (t : Tsu) : State := showConflict (s.withTsu t) s.tsu

theorem handed_conflictsShown (s : State) (t : Tsu) : Handed (s.withTsu t) (s.conflictsShown t) := handed_showConflict _ _

theorem along_conflictsShown (s : State) (t : Tsu) : Along 0 2 s (s.conflictsShown t) :=
  ⟨(handsOn_showConflict (s.withTsu t) s.tsu).after (handsOn_tsu s t),
    (around_tsu s t).trans (handed_conflictsShown s t).around⟩

theorem around_announce (s : State) (t : Tsu) : AroundClock (s.conflictsShown t) (announce s t) := by
  rw [announce_eq]
  exact (leapStep_setPending _ _).around

theorem announce_tsu (s : State) (t : Tsu) : (announce s t).tsu = { t with pendingLeap := t.derived } := by
  rw [announce_eq, setPending_tsu, (handed_showConflict (s.withTsu t) s.tsu).tsu]
  rfl

/-- An announcement that changes the pending leap converts the starts again; another one leaves them (R106). -/
theorem announce_group (s : State) (t : Tsu) (g : Fin 32) (hg : (s.group g).state ≠ .deferred) :
    (announce s t).group g = if t.derived = t.pendingLeap then s.group g else (s.group g).again (announce s t).tsu := by
  have k := handed_conflictsShown s t
  have kept : (s.conflictsShown t).group g = s.group g := k.groups g hg
  rw [announce_tsu, announce_eq]
  have h := setPending_group (s.conflictsShown t) t.derived g (by rw [kept]; exact hg)
  rw [kept, k.tsu] at h
  exact h

theorem announce_withdrawn (s : State) (t : Tsu) (h : t.pendingLeap ≠ t.derived) (ho : t.pendingLeap ≠ .noLeap) :
    Behind 0 2 s (announce s t) (leapNote t.vt 1 t.leapCount .noLeap) := by
  have e := (handed_conflictsShown s t).tsu
  have k := withdrawn_setPending (s.conflictsShown t) t.derived (by rw [e]; exact h) (by rw [e]; exact ho)
  rw [State.now, e, State.conflictsShown, ← announce_eq] at k
  exact k.from (along_conflictsShown s t)

theorem announce_announced (s : State) (t : Tsu) (h : t.pendingLeap ≠ t.derived) (hn : t.derived ≠ .noLeap) :
    Behind 1 3 s (announce s t) (leapNote t.vt 0 t.leapCount t.derived) := by
  have e := (handed_conflictsShown s t).tsu
  have k := announced_setPending (s.conflictsShown t) t.derived (by rw [e]; exact h) hn
  rw [State.now, e, State.conflictsShown, ← announce_eq] at k
  exact k.from (along_conflictsShown s t)

theorem announce_noticed (s : State) (t : Tsu) (h : t.pendingLeap ≠ t.derived) :
    Noticed s (announce s t) .leap t.vt .nothing
      (be 1 (if t.derived = .noLeap then 1 else 0) ++ be 1 t.leapCount ++ be 1 t.derived.code) := by
  have e := (handed_conflictsShown s t).tsu
  have k := (setPending_spec (s.conflictsShown t) t.derived (by rw [e]; exact h)).2.2
  rw [State.now, e, State.conflictsShown, ← announce_eq] at k
  exact k.sooner (along_conflictsShown s t).noticesLe

/-- A reply made on both sides of a clock event. -/
theorem AroundClock.addReply {s t : State} (h : AroundClock s t) (kind tag : Byte) (st : Status) (body : List Byte) :
    AroundClock (addReply s kind tag st body) (Machine.addReply t kind tag st body) :=
  { h with
    lines := h.lines
    groups := h.groups
    host := by simp only [Machine.addReply]; rw [h.host]
    pages := h.pages }

theorem leapOf_code (w : Leap) : leapOf w.code = some w := by cases w <;> rfl

/-- The announcements a host may not make: no value of one, or one the leap count cannot take. -/
theorem announceLeap_badArgument (s : State) (value : Nat) (hl : s.tsu.latched = false)
    (h : 2 < value ∨ (value = 1 ∧ s.tsu.leapCount = 255) ∨ (value = 2 ∧ s.tsu.leapCount = 0)) :
    announceLeap value s = refuse s .badArgument := by
  unfold announceLeap
  rw [if_neg (by simp [hl])]
  rcases h with h | ⟨rfl, h⟩ | ⟨rfl, h⟩
  · obtain ⟨n, rfl⟩ : ∃ n, value = n + 3 := ⟨value - 3, by omega⟩
    rfl
  · simp [leapOf, Tsu.cannotApply, h]
  · simp [leapOf, Tsu.cannotApply, h]

theorem announceLeap_code (s : State) (w : Leap) (hl : s.tsu.latched = false) (hw : s.tsu.cannotApply w = false) :
    announceLeap w.code s = if w = s.tsu.hostLeap then done s else done (announce s { s.tsu with hostLeap := w }) := by
  unfold announceLeap
  rw [if_neg (by simp [hl]), leapOf_code]
  simp [hw]

/-- Settles O23: an announcement that changes anything is `announce`, whose parts are said by its lemmas. -/
theorem announceLeapTakesEffect : Obligations.AnnounceLeapTakesEffect := by
  intro s tag value ha differ leap
  obtain ⟨a, haa⟩ : ∃ a, a = acceptRequest s 0x12#8 tag := ⟨_, rfl⟩
  have htsu : a.tsu = s.tsu := by rw [haa]; rfl
  have hej : a.ej = s.ej := by rw [haa]; rfl
  have hnotices : s.hli.notices.length ≤ a.hli.notices.length := by rw [haa]; rfl
  have hgroup (g : Fin 32) : a.group g = s.group g := by rw [haa]; rfl
  have hanswered : s.answered 0x12#8 tag .ok [] = addReply a 0x12#8 tag .ok [] := by rw [haa]; rfl
  have refused (st : Status) := hostRequest_refused tag (.announceLeap value) (announceLeap value) s st ha rfl
  have accepted : exec (.announceLeap tag value) s = .next (addReply (announceLeap value a).state 0x12#8 tag
      (announceLeap value a).status (announceLeap value a).body) := by
    rw [haa]; exact hostRequest_accepted tag (.announceLeap value) (announceLeap value) s ha rfl
  refine ⟨fun hl => refused _ (if_pos hl), fun hl => ⟨fun hv => refused _ ?_, fun w hw hc => ?_⟩⟩
  · exact announceLeap_badArgument (acceptRequest s 0x12#8 tag) value hl hv
  subst hw
  rw [announceLeap_code a w (by rw [htsu]; exact hl) (by rw [htsu]; exact hc), htsu] at accepted
  refine ⟨fun he => ?_, fun hne => ?_⟩
  · rw [if_pos he] at accepted
    rw [accepted, hanswered]; rfl
  · intro pending
    rw [if_neg hne] at accepted
    obtain ⟨n, hn⟩ : ∃ n : Tsu, n = { s.tsu with hostLeap := w } := ⟨_, rfl⟩
    have hderived : n.derived = pending := by
      rw [hn]
      simp only [Tsu.derived, hl, Bool.false_or, Tsu.announced, pending]
      cases s.tsu.labelLeap <;> simp
    have hpending : n.pendingLeap = s.tsu.pendingLeap := by rw [hn]
    have hvt : n.vt = s.now := by rw [hn]; rfl
    have hcount : n.leapCount = s.tsu.leapCount := by rw [hn]
    have step : LeapStep a (announce a n) := leapStep_announce a n (by rw [hn, htsu]; rfl)
    obtain ⟨t, ht⟩ : ∃ t, t = announce a n := ⟨_, rfl⟩
    have tsu := announce_tsu a n
    have groups := announce_group a n
    have conflict := showConflict_differ (a.withTsu n) a.tsu
    have conflictEnd : AroundClock (showConflict (a.withTsu n) a.tsu) (announce a n) := around_announce a n
    have withdrawn := announce_withdrawn a n
    have announced := announce_announced a n
    have noticed := announce_noticed a n
    rw [← hn] at accepted
    rw [← ht] at accepted tsu groups conflictEnd withdrawn announced noticed step
    rw [hderived, hpending, hvt, hcount] at withdrawn announced noticed
    rw [hderived] at tsu
    simp only [hderived, hpending, hgroup] at groups
    have after {c m k : Nat} {r : Record} (h : Behind c m a t r) (hr : r.kind.critical = true) (hc : c ≤ k) (hk : k < 8) :
        OfferedAfter k s (addReply t 0x12#8 tag .ok []) r := by
      have := h.offeredAfter hr hc hk
      unfold OfferedAfter at this
      rw [hej] at this
      exact this
    refine ⟨addReply t 0x12#8 tag .ok [], accepted, tsu.trans (by rw [hn]), ?_, ?_, ?_, fun g hg => ?_, fun hd hnd => ?_,
      fun hp ho => ?_, fun hp ho => ?_, fun hp => ?_⟩
    · rw [hanswered]; exact step.around.addReply _ _ _ _
    · exact step.rfe.trans (by rw [haa]; rfl)
    · exact step.sis.trans (by rw [haa]; rfl)
    · exact groups g (not_deferred_of_start hg)
    · have h : Offered a t (conflictNote n.vt 1 n.labelLeap.code n.hostLeap.code) :=
        ((offered_offer (a.withTsu n) _).around ((conflict (by rw [hn, htsu]; exact id) ?_ ?_).trans conflictEnd)).sooner rfl
      · rw [hvt, hn] at h
        exact (h.sooner hej).upto rfl
      · exact (sourcesDiffer_iff n).2 (by rw [hn]; exact hd)
      · rw [htsu, sourcesDiffer_iff]; exact hnd
    · exact after (withdrawn (Ne.symm hp) ho) rfl (by omega) (by omega)
    · exact after (announced (Ne.symm hp) ho) rfl (by omega) (by omega)
    · exact ((noticed (Ne.symm hp)).sooner hnotices).upto rfl

end Sys2Proof.Machine
end

