-- ==== Sys2Proof/Proofs/Readouts.lean ====
section
/-!
PROOFS. Proofs/Readouts.lean: the restart values of the part, and the read-outs.
-/
namespace Sys2Proof.Machine

/-! ## The restart values -/

theorem reset_line (i : Fin 8) : State.reset.line i = {} := by
  simp [State.reset, State.line]

theorem reset_group (g : Fin 32) : State.reset.group g = {} := by
  simp [State.reset, State.group]

/-- At a restart a reference has only its configuration. -/
theorem reset_ref : ∀ i : Fin 3, State.reset.ref i = { config := (State.reset.ref i).config } := by
  decide

theorem reset_agent : ∀ a : Fin 8, State.reset.agent a = { config := { address := 8 + a.val } } := by
  decide

/-- Settles O4: the tables by one entry for all, the single registers by evaluation. -/
theorem resetHasRestartValues : Obligations.ResetHasRestartValues := by
  refine ⟨by decide, ⟨fun i => ?_, by decide⟩, fun i => ?_, by decide, ⟨reset_group, by decide⟩, by decide,
    ⟨fun a => ?_, by decide⟩, by decide⟩
  · rw [reset_ref i]
    simp
  · rw [reset_line i]
    exact ⟨rfl, rfl, rfl, by decide, by decide⟩
  · rw [reset_agent a]
    simp

/-! ## The read-outs -/

/-- The fields of a civil time of day, with its month and day, as the read-outs spell them. -/
def civilFields (c : Civil) : List Byte :=
  let secs := c.ns / 1000000000
  let leap : Bool := decide (86400 ≤ secs)
  be 1 (dateOf c.day).2.1 ++ be 1 (dateOf c.day).2.2 ++ be 1 (if leap then 23 else secs / 3600)
    ++ be 1 (if leap then 59 else secs / 60 % 60) ++ be 1 (if leap then 60 + (secs - 86400) else secs % 60)

theorem civilNsBytes_eq (c : Civil) :
    civilNsBytes c = beInt 2 (dateOf c.day).1 ++ civilFields c ++ be 4 (c.ns % 1000000000) := by
  unfold civilNsBytes civilFields
  by_cases h : 86400 ≤ c.ns / nsPerSecond
  · simp only [h, if_true, decide_true, List.append_assoc]
  · simp only [h, if_false, decide_false, Bool.false_eq_true, List.append_assoc]

theorem civilBytes_eq (c : Civil) :
    civilBytes c = be 2 (dateOf c.day).1.toNat ++ civilFields c ++ be 2 (c.ns % 1000000000 / 1000000) := by
  unfold civilBytes civilFields
  by_cases h : 86400 ≤ c.ns / nsPerSecond
  · simp only [h, if_true, decide_true, List.append_assoc]
  · simp only [h, if_false, decide_false, Bool.false_eq_true, List.append_assoc]

theorem allEight_eq : allEight = List.finRange 8 := by decide

theorem pages_toList (s : State) : s.ej.pages.toList = (List.finRange 64).map s.page :=
  List.ext_getElem (by simp) (by simp [State.page])

theorem onRef_val (i : Fin 3) (s : State) (k : Fin 3 → Answered) : onRef i.val s k = k i := by simp [onRef]

theorem onLine_val (i : Fin 8) (s : State) (k : Fin 8 → Answered) : onLine i.val s k = k i := by simp [onLine]

theorem onGroup_val (g : Fin 32) (s : State) (k : Fin 32 → Answered) : onGroup g.val s k = k g := by simp [onGroup]

theorem onAgent_val (a : Fin 8) (s : State) (k : Fin 8 → Answered) : onAgent a.val s k = k a := by simp [onAgent]

/-- A request that leaves the state and answers with a body is answered with it. -/
theorem hostRequest_read (tag : Byte) (r : Request) (owner : State → Answered) (s : State) {body shown : List Byte}
    (h : s.accepts = true) (hc : checkedRequest r = .request r)
    (ho : owner (acceptRequest s (kindOf r) tag) = { state := acceptRequest s (kindOf r) tag, status := .ok, body := body })
    (hb : body = shown) : hostRequest tag r owner s = .next (s.answered (kindOf r) tag .ok shown) := by
  rw [hostRequest_accepted tag r owner s h hc, ho, hb]
  rfl

/-- The page a serial names is the first that has it. -/
theorem pageOf_eq_some (s : State) (serial : Nat) (p : Fin 64) (hp : (s.page p).serial = some serial)
    (hq : ∀ q, q < p → (s.page q).serial ≠ some serial) : s.ej.pageOf serial = some p := by
  unfold Ej.pageOf allPages
  rw [List.find?_eq_some_iff_getElem]
  refine ⟨by simpa [State.page] using hp, p.val, by simp, by simp, fun j hj => ?_⟩
  have := hq ⟨j, by omega⟩ hj
  simpa [State.page] using this

theorem pageOf_eq_none (s : State) (serial : Nat) (h : ∀ p, (s.page p).serial ≠ some serial) : s.ej.pageOf serial = none := by
  unfold Ej.pageOf
  rw [List.find?_eq_none]
  intro p _
  have := h p
  simpa [State.page] using this

/-- Identify is performed whether or not recovery has ended. -/
theorem identify_answered (s : State) (tag : Byte) (hl : s.live = true) (hr : s.hli.restartOwed = false)
    (hn : s.hli.replies.length < 8) (ho : s.hli.outstanding = none) :
    exec (.identify tag) s = .next (s.answered 0x01#8 tag .ok (identifyBody (acceptRequest s 0x01#8 tag))) := by
  have room : s.hli.hasRoom = true := decide_eq_true hn
  have taken : receiveWith (fun _ => identify) 0x01#8 tag (.request .identify) s
      = performWith (fun _ => identify) 0x01#8 tag (.request .identify) (acceptRequest s 0x01#8 tag) := by
    simp [receiveWith, hr, room, ho]
  have performed (u : State) : performWith (fun _ => identify) 0x01#8 tag (.request .identify) u
      = addReply u 0x01#8 tag .ok (identifyBody u) := by
    simp [performWith, identify]
  show whenLive s _ = _
  rw [whenLive_live s _ hl]
  exact congrArg _ (taken.trans (performed _))

theorem readRecords_badArgument (s : State) (serial slot count : Nat) (h : count < 1 ∨ 12 < count ∨ 128 < slot + count) :
    readRecords serial slot count s = refuse s .badArgument := if_pos h

theorem readRecords_inRange (s : State) (serial slot count : Nat) (h1 : 1 ≤ count) (h2 : count ≤ 12) (h3 : slot + count ≤ 128) :
    (s.ej.pageOf serial = none → readRecords serial slot count s = refuse s .badArgument)
      ∧ ∀ p, s.ej.pageOf serial = some p → readRecords serial slot count s =
        if (s.page p).state = .erasing then refuse s .wrongState
        else { state := s, status := .ok, body := recordsBody s p serial slot count } := by
  have inRange : ¬ (count < 1 ∨ 12 < count ∨ 128 < slot + count) := by omega
  unfold readRecords
  refine ⟨fun h => ?_, fun p h => ?_⟩ <;> simp only [if_neg inRange, h]

theorem headSequence_eq (q : List Answer) :
    headSequence q = match q with | .stamp st :: _ => st.sequence | _ => 0 := by
  unfold headSequence
  split <;> rfl

theorem drainLeft_eq (s : State) (l : Line) : s.drainLeft l = l.drain.map fun n => (n + 1250000 - s.osc) / 125 := rfl

theorem startBytes_eq (o : Option Start) :
    startBytes o = match o with
      | some st => be 2 (dateOf st.civil.day).1.toNat ++ civilFields st.civil ++ be 2 (st.civil.ns % 1000000000 / 1000000)
          ++ beVt st.vt
      | none => List.replicate 18 255#8 := by
  cases o with
  | none => rfl
  | some st => exact congrArg (· ++ beVt st.vt) (civilBytes_eq st.civil)

theorem deadlineBytes_eq (s : State) (g : Fin 32) (k : DeadlineKind) :
    deadlineBytes s g k = match s.auc.deadlines.find? fun d => d.group == g && d.kind == k with
      | none => 0#8 :: List.replicate 9 255#8
      | some d => 1#8 :: (if k = .endAt ∨ k = .deferLimit then List.replicate 9 255#8 else beVt d.instant) := by
  unfold deadlineBytes
  cases s.auc.deadlines.find? fun d => d.group == g && d.kind == k with
  | none => rfl
  | some d => by_cases h : k = .endAt ∨ k = .deferLimit <;> simp only [h, if_true, if_false] <;> rfl

theorem pagesIn_eq (s : State) (st : PageState) :
    s.ej.pagesIn st = (List.finRange 64).countP fun p => (s.page p).state == st := by
  rw [Ej.pagesIn, pages_toList, List.countP_map]
  rfl

theorem slotShown_eq (s : State) (p : Fin 64) (i : Nat) :
    slotShown s p i = match (s.page p).slots.toList[i]? with
      | some (.data bytes) =>
        if i < (match s.ej.openPage with
          | some (q, n) => if p = q then n else (s.page p).count
          | none => (s.page p).count) then 0#8 :: bytes else [2#8]
      | some .blank => [1#8]
      | some .void => [2#8]
      | none => [] := rfl

/-- Settles O16: every read-out's owner leaves the state, and its body is the list of its rule. -/
theorem readOutsChangeNothing : Obligations.ReadOutsChangeNothing := by
  intro s tag civil
  refine ⟨fun hl hr hn ho => ?_, fun ha => ⟨?_, fun i => ?_, fun i => ?_, ?_, fun g => ?_, ?_, fun serial slot count => ?_, fun a => ?_⟩⟩
  · intro c
    rw [identify_answered s tag hl hr hn ho]
    unfold identifyBody partCodes
    simp only [LinkCounters.bytes, ← List.append_assoc]
    rfl
  · intro t
    refine hostRequest_read tag .readClock readClock s ha rfl rfl ?_
    unfold clockBody
    simp only [civilNsBytes_eq, ClockLimits.bytes, ← List.append_assoc]
    rfl
  · intro r g second
    refine hostRequest_read tag (.readReference i.val) (readReference i.val) s ha rfl (onRef_val i _ _) ?_
    unfold refBody
    simp only [RefConfig.bytes]
    rfl
  · intro l c head
    refine hostRequest_read tag (.readLine i.val) (readLine i.val) s ha rfl (onLine_val i _ _) ?_
    unfold lineBody
    simp only [headSequence_eq, Tally.bytes, Line.dropPending, groupBits, drainLeft_eq, ← List.append_assoc]
    rfl
  · intro x
    refine hostRequest_read tag .readIssuer readIssuer s ha rfl rfl ?_
    unfold issuerBody
    rw [allEight_eq]
    rfl
  · intro a revealed shown nonce start deadline
    refine hostRequest_read tag (.readAuction g.val) (readAuction g.val) s ha rfl (onGroup_val g _ _) ?_
    unfold auctionBody
    simp only [startBytes_eq, deadlineBytes_eq, List.flatMap_cons, List.flatMap_nil, List.append_nil, ← List.append_assoc]
    rfl
  · intro e pagesIn
    refine hostRequest_read tag .readJournal readJournal s ha rfl rfl ?_
    unfold journalBody
    simp only [pages_toList, List.flatMap_map, pagesIn_eq, List.flatMap_cons, List.flatMap_nil, List.append_nil,
      ← List.append_assoc]
    rfl
  · intro answer
    have refused (st : Status) := hostRequest_refused tag (.readRecords serial slot count) (readRecords serial slot count) s st ha rfl
    refine ⟨fun h => refused _ (readRecords_badArgument _ _ _ _ h), fun h1 h2 h3 => ?_⟩
    obtain ⟨unknown, read⟩ := readRecords_inRange (acceptRequest s 0x39#8 tag) serial slot count h1 h2 h3
    refine ⟨fun h => refused _ (unknown (pageOf_eq_none _ serial h)), fun p hp hq => ?_⟩
    have read := read p (pageOf_eq_some _ serial p hp hq)
    refine ⟨fun he => refused _ (read.trans (if_pos he)), fun he => ?_⟩
    intro written shown
    refine hostRequest_read tag (.readRecords serial slot count) (readRecords serial slot count) s ha rfl
      (read.trans (if_neg he)) ?_
    unfold recordsBody
    simp only [slotShown_eq]
    rfl
  · intro x c p
    refine hostRequest_read tag (.readAgent a.val) (readAgent a.val) s ha rfl (onAgent_val a _ _) ?_
    unfold agentBody
    simp only [AgentConfig.bytes]
    rfl

end Sys2Proof.Machine
end

