-- ==== Sys2Proof/Proofs/Labels.lean ====
section
/-!
PROOFS. Proofs/Labels.lean: what a sample's label does: its leap count taken (R16), its warning taken (R13), the starts converted again
(R106), with the records of each.
-/
namespace Sys2Proof.Machine

/-! ## Conversions again -/

/-- A conversion depends on the day, the leap count and the pending leap alone. -/
theorem fromCivilNext_congr {t u : Tsu} (hd : u.day = t.day) (hk : u.leapCount = t.leapCount) (hp : u.pendingLeap = t.pendingLeap)
    (c : Civil) : u.fromCivilNext c = t.fromCivilNext c := by
  simp only [Tsu.fromCivilNext, Tsu.fromCivil, Tsu.dayEnd, Tsu.pendingChange, hd, hk, hp]

theorem again_congr {t u : Tsu} (hd : u.day = t.day) (hk : u.leapCount = t.leapCount) (hp : u.pendingLeap = t.pendingLeap)
    (a : Auction) : a.again u = a.again t := by
  simp only [Auction.again, Start.again, fromCivilNext_congr hd hk hp]

/-- Of two conversions the last one counts: the civil time stands. -/
theorem again_again (a : Auction) (t u : Tsu) : (a.again t).again u = a.again u := by
  cases h : a.state <;> simp [Auction.again, h, Start.again, Function.comp_def]

/-! ## The leap count (R16) -/

/-- The clock's leap matters after a label's count (R16). -/
def Tsu.withCount (t : Tsu) (k : Nat) : Tsu :=
  if k = t.leapCount then t else if t.labelAhead k then t.leapApplied else ({ t with leapCount := k } : Tsu).dayBack

/-- A label's count that is neither the part's own nor the one the pending leap leads to. -/
def Tsu.adopts (t : Tsu) (k : Nat) : Bool := k != t.leapCount && !t.labelAhead k

theorem labelAhead_eq (t : Tsu) (k : Nat) :
    t.labelAhead k = ((t.pendingLeap == .insert && k == t.leapCount + 1) || (t.pendingLeap == .delete && k + 1 == t.leapCount)) := by
  cases h : t.pendingLeap <;> simp [Tsu.labelAhead, h]

theorem ne_of_labelAhead {t : Tsu} {k : Nat} (h : t.labelAhead k = true) : k ≠ t.leapCount := by
  rw [labelAhead_eq] at h
  simp only [Bool.or_eq_true, Bool.and_eq_true, beq_iff_eq] at h
  omega

/-- Inside the range of a leap count the pending leap leads to the label's count. -/
theorem leapNext_of_labelAhead {t : Tsu} {k : Nat} (h : t.labelAhead k = true) (hk : k ≤ 255) : t.leapNext = k := by
  rw [labelAhead_eq] at h
  simp only [Bool.or_eq_true, Bool.and_eq_true, beq_iff_eq] at h
  rcases h with ⟨hp, he⟩ | ⟨hp, he⟩
  · rw [leapNext_insert t hp (by omega)]; omega
  · rw [leapNext_delete t hp (by omega)]; omega

theorem withCount_leapCount (t : Tsu) (k : Nat) (hk : k ≤ 255) : (t.withCount k).leapCount = k := by
  unfold Tsu.withCount
  split
  · exact Eq.symm (by assumption)
  · split
    · exact leapNext_of_labelAhead (by assumption) hk
    · rfl

theorem withCount_pendingLeap (t : Tsu) (k : Nat) :
    (t.withCount k).pendingLeap = if t.labelAhead k then .noLeap else t.pendingLeap := by
  unfold Tsu.withCount
  by_cases ha : t.labelAhead k = true
  · rw [if_neg (ne_of_labelAhead ha), if_pos ha, if_pos ha]; rfl
  · rw [if_neg ha, if_neg ha]
    split <;> rfl

theorem withCount_leapDone (t : Tsu) (k : Nat) : (t.withCount k).leapDone = (t.leapDone || t.labelAhead k) := by
  unfold Tsu.withCount
  by_cases ha : t.labelAhead k = true
  · rw [if_neg (ne_of_labelAhead ha), if_pos ha, ha]
    simp [Tsu.leapApplied]
  · rw [if_neg ha, Bool.eq_false_of_not_eq_true ha, Bool.or_false]
    split <;> rfl

theorem withCount_day (t : Tsu) (k : Nat) :
    (t.withCount k).day = if t.adopts k then min t.day ((t.sec - k) / 86400) else t.day := by
  unfold Tsu.withCount Tsu.adopts
  by_cases ha : t.labelAhead k = true
  · rw [if_neg (ne_of_labelAhead ha), if_pos ha, ha]
    simp [Tsu.leapApplied]
  · rw [if_neg ha, Bool.eq_false_of_not_eq_true ha]
    by_cases he : k = t.leapCount
    · simp [he]
    · simp [he, Tsu.dayBack, Tsu.civilDay, Tsu.sec]

theorem withCount_kept (t : Tsu) (k : Nat) : (t.withCount k).latched = t.latched ∧ (t.withCount k).hostLeap = t.hostLeap
    ∧ (t.withCount k).labelLeap = t.labelLeap ∧ (t.withCount k).rangeConflict = t.rangeConflict ∧ (t.withCount k).vt = t.vt := by
  unfold Tsu.withCount
  split
  · simp
  · split
    · simp [Tsu.leapApplied]
    · simp [Tsu.dayBack]

/-- The clock as a label's count is judged: VT has been set. -/
def State.counting (s : State) : State := s.withTsu { s.tsu with vtSet := true }

theorem takeCount_eq (s : State) (k : Nat) :
    takeCount s k = if k = s.tsu.leapCount then s.counting else if s.tsu.labelAhead k then applyLeap s.counting
      else adoptCount s.counting k (!s.tsu.vtSet) := rfl

/-- An adoption up to its record (R16). -/
def State.adopting (s : State) (k : Nat) : State := s.withTsu ({ s.tsu with leapCount := k } : Tsu).dayBack

/-- An adoption up to its conflict (R16). -/
def State.adopted (s : State) (k : Nat) : State := leapReport (offer (s.adopting k) (leapNote s.now 3 k s.tsu.pendingLeap))

theorem adoptCount_eq (s : State) (k : Nat) (first : Bool) :
    adoptCount s k first = if first then s.adopted k
      else notifyLeap (leapConflict (s.adopted k) .labelCount s.tsu.leapCount k) .adopted := rfl

theorem along_adopted (s : State) (k : Nat) : Along 1 1 s (s.adopted k) :=
  ⟨((handsOn_offer (s.adopting k) (leapNote s.now 3 k s.tsu.pendingLeap)).after (handsOn_tsu s _)).then (handsOn_leapReport _),
    ((around_tsu s _).trans (handed_offer _ _).around).trans (around_leapReport _)⟩

theorem adopted_tsu (s : State) (k : Nat) : (s.adopted k).tsu = ({ s.tsu with leapCount := k } : Tsu).dayBack :=
  (leapReport_spec _).2.1.trans (handed_offer (s.adopting k) _).tsu

/-- An adopted count converts the starts again (R106). -/
theorem adopted_group (s : State) (k : Nat) (g : Fin 32) (hg : (s.group g).state ≠ .deferred) :
    (s.adopted k).group g = (s.group g).again (s.adopted k).tsu := by
  have h := handed_offer (s.adopting k) (leapNote s.now 3 k s.tsu.pendingLeap)
  have kept : (offer (s.adopting k) (leapNote s.now 3 k s.tsu.pendingLeap)).group g = s.group g := h.groups g hg
  obtain ⟨-, htsu, -, -, -, hgroup⟩ := leapReport_spec (offer (s.adopting k) (leapNote s.now 3 k s.tsu.pendingLeap))
  unfold State.adopted
  rw [hgroup g (by rw [kept]; exact hg), kept, htsu]

/-- The adoption is recorded first. -/
theorem offered_adopted (s : State) (k : Nat) : Offered s (s.adopted k) (leapNote s.now 3 k s.tsu.pendingLeap) :=
  ((offered_offer (s.adopting k) _).sooner rfl).around (around_leapReport _)

/-- What an adoption does beyond the first one of a run, and at the first: handing on alone. -/
theorem handed_adoptCount (s : State) (k : Nat) (first : Bool) : Handed (s.adopted k) (adoptCount s k first) := by
  rw [adoptCount_eq]
  split
  · exact Handed.refl _
  · exact (handed_offer _ _).trans (handed_notify _ _ _ _)

theorem conflict_adoptCount (s : State) (k : Nat) :
    AroundClock (offer (s.adopted k) (conflictNote s.now 2 s.tsu.leapCount k)) (adoptCount s k false) := by
  have now : s.now = (s.adopted k).now := by unfold State.now; rw [adopted_tsu]; rfl
  rw [now, adoptCount_eq]
  exact (handed_notify _ _ _ _).around

theorem noticed_adoptCount (s : State) (k : Nat) :
    Noticed s (adoptCount s k false) .leap s.now .nothing (be 1 3 ++ be 1 k ++ be 1 s.tsu.pendingLeap.code) := by
  obtain ⟨x, hx⟩ : ∃ x, x = leapConflict (s.adopted k) .labelCount s.tsu.leapCount k := ⟨_, rfl⟩
  have handed : Handed (s.adopted k) x := by rw [hx]; exact handed_offer _ _
  have htsu : x.tsu = ({ s.tsu with leapCount := k } : Tsu).dayBack := handed.tsu.trans (adopted_tsu s k)
  have h := noticed_notify x .leap .nothing (be 1 3 ++ be 1 x.tsu.leapCount ++ be 1 x.tsu.pendingLeap.code)
  have e : adoptCount s k false = notify x .leap .nothing (be 1 3 ++ be 1 x.tsu.leapCount ++ be 1 x.tsu.pendingLeap.code) := by
    rw [hx]; rfl
  rw [← e, State.now, htsu] at h
  exact h.sooner (Nat.le_trans (along_adopted s k).noticesLe handed.noticesLe)

/-! ### The count taken, as a whole -/

theorem takeCount_tsu (s : State) (k : Nat) : (takeCount s k).tsu = s.counting.tsu.withCount k := by
  rw [takeCount_eq]
  unfold Tsu.withCount
  by_cases he : k = s.tsu.leapCount
  · rw [if_pos he]; exact (if_pos he).symm
  · rw [if_neg he]
    refine Eq.trans ?_ (if_neg he).symm
    by_cases ha : s.tsu.labelAhead k = true
    · rw [if_pos ha]
      exact ((applyLeap_spec s.counting).1.tsu).trans (if_pos ha).symm
    · rw [if_neg ha]
      exact ((handed_adoptCount s.counting k _).tsu.trans (adopted_tsu s.counting k)).trans (if_neg ha).symm

theorem along_takeCount (s : State) (k : Nat) : Along 1 2 s (takeCount s k) :=
  ⟨handsOn_takeCount s k, (around_tsu s _).trans (leapStep_takeCount s k).around⟩

/-- An adoption converts the starts again, a count that stands or a leap applied leaves them (R106). -/
theorem takeCount_group (s : State) (k : Nat) (g : Fin 32) (hg : (s.group g).state ≠ .deferred) :
    (takeCount s k).group g = if s.tsu.adopts k then (s.group g).again (takeCount s k).tsu else s.group g := by
  rw [takeCount_eq, Tsu.adopts]
  by_cases he : k = s.tsu.leapCount
  · simp only [he, if_true, bne_self_eq_false, Bool.false_and, Bool.false_eq_true, if_false]
    rfl
  · rw [if_neg he]
    by_cases ha : s.tsu.labelAhead k = true
    · rw [if_pos ha, ha]
      simp only [Bool.not_true, Bool.and_false, Bool.false_eq_true, if_false]
      exact (applyLeap_spec s.counting).1.groups g hg
    · rw [if_neg ha, Bool.eq_false_of_not_eq_true ha]
      have adopts : (k != s.tsu.leapCount && !false) = true := by simpa using he
      rw [if_pos adopts]
      have h := adopted_group s.counting k g hg
      have hd := handed_adoptCount s.counting k (!s.tsu.vtSet)
      rw [hd.groups g (by rw [h, again_state]; exact hg), h, hd.tsu]
      rfl

theorem takeCount_early (s : State) (k : Nat) (ha : s.tsu.labelAhead k = true) : takeCount s k = applyLeap s.counting := by
  rw [takeCount_eq, if_neg (ne_of_labelAhead ha), if_pos ha]

theorem takeCount_adopts (s : State) (k : Nat) (ha : s.tsu.adopts k = true) :
    takeCount s k = adoptCount s.counting k (!s.tsu.vtSet) := by
  simp only [Tsu.adopts, Bool.and_eq_true, bne_iff_ne, Bool.not_eq_true'] at ha
  rw [takeCount_eq, if_neg ha.1, if_neg (by simp [ha.2])]

/-! ## The warning (R13) -/

/-- The label announcement a warning makes. -/
def Leap.announcedBy (w : Leap) (k : Nat) : Leap :=
  if (w = .insert ∧ k = 255) ∨ (w = .delete ∧ k = 0) then .noLeap else w

theorem cannotApply_iff (t : Tsu) (w : Leap) :
    t.cannotApply w = true ↔ (w = .insert ∧ t.leapCount = 255) ∨ (w = .delete ∧ t.leapCount = 0) := by
  cases w <;> simp [Tsu.cannotApply]

/-- The clock with a label's warning taken. -/
def Tsu.warned (t : Tsu) (w : Leap) : Tsu :=
  { t with labelLeap := w.announcedBy t.leapCount, rangeConflict := t.cannotApply w }

theorem takeWarning_eq (s : State) (w : Leap) : takeWarning s w = announce s (s.tsu.warned w) := by
  have e : (if s.tsu.cannotApply w then Leap.noLeap else w) = w.announcedBy s.tsu.leapCount :=
    if_congr (cannotApply_iff s.tsu w) rfl rfl
  unfold takeWarning Tsu.warned
  simp only [e]

theorem announced_eq (t : Tsu) : t.announced = if t.labelLeap = .noLeap then t.hostLeap else t.labelLeap := by
  unfold Tsu.announced
  cases t.labelLeap <;> rfl

/-! ## A label taken -/

/-- The pending leap after a label (R13, R14, R16). -/
def Tsu.pendingAfter (t : Tsu) (k : Nat) (w : Leap) : Leap :=
  if t.labelAhead k then .noLeap
  else if t.latched ∨ t.leapDone then t.pendingLeap
  else if w.announcedBy k = .noLeap then t.hostLeap else w.announcedBy k

/-- The civil day after a label (R16). -/
def Tsu.dayAfter (t : Tsu) (k : Nat) : Int := if t.adopts k then min t.day ((t.sec - k) / 86400) else t.day

theorem derived_warned (t : Tsu) (k : Nat) (w : Leap) (hk : k ≤ 255) :
    ((t.withCount k).warned w).derived = t.pendingAfter k w := by
  obtain ⟨hlatched, hhost, -⟩ := withCount_kept t k
  have hcond : (((t.withCount k).warned w).latched || ((t.withCount k).warned w).leapDone) = true
      ↔ t.labelAhead k = true ∨ t.latched = true ∨ t.leapDone = true := by
    simp only [Tsu.warned, hlatched, withCount_leapDone, Bool.or_eq_true]
    tauto
  have hpending : ((t.withCount k).warned w).pendingLeap = if t.labelAhead k then .noLeap else t.pendingLeap :=
    withCount_pendingLeap t k
  have hann : ((t.withCount k).warned w).announced
      = if w.announcedBy k = .noLeap then t.hostLeap else w.announcedBy k := by
    rw [announced_eq]
    simp only [Tsu.warned, withCount_leapCount t k hk, hhost]
  unfold Tsu.derived Tsu.pendingAfter
  rw [hpending, hann]
  by_cases ha : t.labelAhead k = true
  · rw [if_pos (hcond.2 (.inl ha)), if_pos ha, if_pos ha]
  · rw [if_neg ha, if_neg ha]
    by_cases hd : t.latched = true ∨ t.leapDone = true
    · rw [if_pos (hcond.2 (.inr hd)), if_pos hd]
    · rw [if_neg (fun h => (hcond.1 h).elim ha hd), if_neg hd]

/-- The state with a sample's frequency taken. -/
def State.withRate (s : State) (x : Sample) : State := s.withTsu { s.tsu with f := x.f }

/-- The state with a sample's frequency and count taken. -/
def State.countTaken (s : State) (x : Sample) : State := takeCount (s.withRate x) x.leapCount

/-- The clock from which a sample's label is taken. -/
def Tsu.sampling (t : Tsu) (x : Sample) : Tsu := { t with f := x.f, vtSet := true }

theorem countTaken_tsu (s : State) (x : Sample) : (s.countTaken x).tsu = (s.tsu.sampling x).withCount x.leapCount :=
  takeCount_tsu (s.withRate x) x.leapCount

/-- The clock with a sample's label taken, its pending leap to follow. -/
def Tsu.labelled (t : Tsu) (x : Sample) : Tsu := ((t.sampling x).withCount x.leapCount).warned x.warning

theorem sampled_eq (s : State) (x : Sample) : s.sampled x = announce (s.countTaken x) (s.tsu.labelled x) := by
  have h := takeWarning_eq (s.countTaken x) x.warning
  rw [countTaken_tsu] at h
  exact h

theorem along_countTaken (s : State) (x : Sample) : Along 1 2 s (s.countTaken x) := by
  have h : Along 0 0 s (s.withRate x) := ⟨handsOn_tsu s _, around_tsu s _⟩
  have k := h.trans (along_takeCount (s.withRate x) x.leapCount)
  rw [Nat.zero_add, Nat.zero_add] at k
  exact k

theorem around_countTaken (s : State) (x : Sample) : AroundClock (s.countTaken x) (s.sampled x) :=
  (leapStep_takeWarning (s.countTaken x) x.warning).around

theorem labelled_vt (t : Tsu) (x : Sample) : (t.labelled x).vt = t.vt := (withCount_kept (t.sampling x) x.leapCount).2.2.2.2

theorem labelled_leapCount (t : Tsu) (x : Sample) (hk : x.leapCount ≤ 255) : (t.labelled x).leapCount = x.leapCount :=
  withCount_leapCount (t.sampling x) x.leapCount hk

theorem labelled_pendingLeap (t : Tsu) (x : Sample) :
    (t.labelled x).pendingLeap = if t.labelAhead x.leapCount then .noLeap else t.pendingLeap :=
  withCount_pendingLeap (t.sampling x) x.leapCount

theorem labelled_derived (t : Tsu) (x : Sample) (hk : x.leapCount ≤ 255) :
    (t.labelled x).derived = t.pendingAfter x.leapCount x.warning :=
  derived_warned (t.sampling x) x.leapCount x.warning hk

theorem labelled_labelLeap (t : Tsu) (x : Sample) (hk : x.leapCount ≤ 255) :
    (t.labelled x).labelLeap = x.warning.announcedBy x.leapCount :=
  congrArg x.warning.announcedBy (labelled_leapCount t x hk)

theorem labelled_hostLeap (t : Tsu) (x : Sample) : (t.labelled x).hostLeap = t.hostLeap :=
  (withCount_kept (t.sampling x) x.leapCount).2.1

/-- The leap matters after a label (R13, R14, R16). -/
theorem sampled_leap (s : State) (x : Sample) (hk : x.leapCount ≤ 255) :
    (s.sampled x).tsu.leapCount = x.leapCount
      ∧ (s.sampled x).tsu.labelLeap = x.warning.announcedBy x.leapCount
      ∧ (s.sampled x).tsu.hostLeap = s.tsu.hostLeap
      ∧ (s.sampled x).tsu.pendingLeap = s.tsu.pendingAfter x.leapCount x.warning
      ∧ (s.sampled x).tsu.day = s.tsu.dayAfter x.leapCount
      ∧ (s.sampled x).tsu.latched = s.tsu.latched
      ∧ (s.sampled x).tsu.leapDone = (s.tsu.leapDone || s.tsu.labelAhead x.leapCount) := by
  rw [sampled_eq, announce_tsu]
  exact ⟨labelled_leapCount s.tsu x hk, labelled_labelLeap s.tsu x hk, labelled_hostLeap s.tsu x, labelled_derived s.tsu x hk,
    withCount_day (s.tsu.sampling x) x.leapCount, (withCount_kept (s.tsu.sampling x) x.leapCount).1,
    withCount_leapDone (s.tsu.sampling x) x.leapCount⟩

theorem adopts_of_labelAhead {t : Tsu} {k : Nat} (h : t.labelAhead k = true) : t.adopts k = false := by
  simp [Tsu.adopts, h]

/-- The starts after a label: converted again by an adopted count and by a changed pending leap, kept by a leap applied (R106). -/
theorem sampled_group (s : State) (x : Sample) (hk : x.leapCount ≤ 255) (g : Fin 32) (hg : (s.group g).state ≠ .deferred) :
    (s.sampled x).group g =
      if s.tsu.labelAhead x.leapCount = true
        ∨ (s.tsu.adopts x.leapCount = false ∧ s.tsu.pendingAfter x.leapCount x.warning = s.tsu.pendingLeap)
      then s.group g else (s.group g).again (s.sampled x).tsu := by
  have hcount : (s.countTaken x).group g =
      if s.tsu.adopts x.leapCount then (s.group g).again (s.countTaken x).tsu else s.group g :=
    takeCount_group (s.withRate x) x.leapCount g hg
  have hstate : ((s.countTaken x).group g).state ≠ .deferred := by
    rw [hcount]
    split
    · rw [again_state]; exact hg
    · exact hg
  have h := announce_group (s.countTaken x) (s.tsu.labelled x) g hstate
  rw [← sampled_eq, labelled_derived s.tsu x hk, labelled_pendingLeap, hcount] at h
  rw [h]
  by_cases ha : s.tsu.labelAhead x.leapCount = true
  · have hp : s.tsu.pendingAfter x.leapCount x.warning = .noLeap := if_pos ha
    simp only [ha, adopts_of_labelAhead ha, hp, if_true, true_or, Bool.false_eq_true, if_false]
  · rw [if_neg ha]
    cases had : s.tsu.adopts x.leapCount
    · simp only [ha, false_or, true_and, Bool.false_eq_true, if_false]
    · simp only [ha, Bool.true_eq_false, false_and, or_self, Bool.false_eq_true, if_true, if_false, again_again]
      split
      · rename_i he
        obtain ⟨hc, -, -, hp, hd, -, -⟩ := sampled_leap s x hk
        refine again_congr ?_ ?_ ?_ _
        · rw [hd, countTaken_tsu, withCount_day]; rfl
        · rw [hc, countTaken_tsu, withCount_leapCount _ _ hk]
        · rw [hp, he, countTaken_tsu, withCount_pendingLeap]
          exact if_neg ha
      · rfl

/-! ### The records of a label -/

/-- A leap applied early is recorded first, and noticed (R16). -/
theorem sampled_applied (s : State) (x : Sample) (hk : x.leapCount ≤ 255) (ha : s.tsu.labelAhead x.leapCount = true) :
    Offered s (s.sampled x)
        { kind := .leap, subject := 255, vt := s.now, body := be 1 2 ++ be 1 x.leapCount ++ be 1 0 ++ beVt s.now }
      ∧ Noticed s (s.sampled x) .leap s.now .nothing (be 1 2 ++ be 1 x.leapCount ++ be 1 0) := by
  have e : s.countTaken x = applyLeap (s.withRate x).counting := takeCount_early (s.withRate x) x.leapCount ha
  have hn : (s.withRate x).counting.tsu.leapNext = x.leapCount := leapNext_of_labelAhead (t := s.tsu) ha hk
  obtain ⟨-, offered, noticed⟩ := applyLeap_spec (s.withRate x).counting
  rw [hn, ← e] at offered noticed
  exact ⟨(offered.sooner rfl).around (around_countTaken s x), (noticed.sooner (Nat.le_refl _)).around (around_countTaken s x)⟩

/-- An adopted count is recorded first (R16). -/
theorem sampled_adopted (s : State) (x : Sample) (ha : s.tsu.adopts x.leapCount = true) :
    Offered s (s.sampled x) (leapNote s.now 3 x.leapCount s.tsu.pendingLeap) := by
  have e : s.countTaken x = adoptCount (s.withRate x).counting x.leapCount (!s.tsu.vtSet) :=
    takeCount_adopts (s.withRate x) x.leapCount ha
  have h := (offered_adopted (s.withRate x).counting x.leapCount).around
    (handed_adoptCount (s.withRate x).counting x.leapCount (!s.tsu.vtSet)).around
  rw [← e] at h
  exact (h.sooner rfl).around (around_countTaken s x)

/-- A later adoption is a conflict of the two counts, and noticed (R16). -/
theorem sampled_countConflict (s : State) (x : Sample) (ha : s.tsu.adopts x.leapCount = true) (hv : s.tsu.vtSet = true) :
    Behind 1 1 s (s.sampled x) (conflictNote s.now 2 s.tsu.leapCount x.leapCount)
      ∧ Noticed s (s.sampled x) .leap s.now .nothing (be 1 3 ++ be 1 x.leapCount ++ be 1 s.tsu.pendingLeap.code) := by
  have e : s.countTaken x = adoptCount (s.withRate x).counting x.leapCount false := by
    have h := takeCount_adopts (s.withRate x) x.leapCount ha
    rw [show (s.withRate x).tsu.vtSet = true from hv] at h
    exact h
  have conflict := conflict_adoptCount (s.withRate x).counting x.leapCount
  have noticed := noticed_adoptCount (s.withRate x).counting x.leapCount
  rw [← e] at conflict noticed
  have taken : Along 0 0 s (s.withRate x).counting := ⟨handsOn_tsu s _, around_tsu s _⟩
  have along := taken.trans (along_adopted (s.withRate x).counting x.leapCount)
  exact ⟨⟨_, along, conflict.trans (around_countTaken s x)⟩, (noticed.sooner (Nat.le_refl _)).around (around_countTaken s x)⟩

/-- The state in which a label's conflicts are judged. -/
theorem along_judging (s : State) (x : Sample) : Along 1 2 s ((s.countTaken x).withTsu (s.tsu.labelled x)) :=
  (along_countTaken s x).trans (d := 0) (m := 0) ⟨handsOn_tsu _ _, around_tsu _ _⟩

theorem around_judging (s : State) (x : Sample) :
    AroundClock (showConflict ((s.countTaken x).withTsu (s.tsu.labelled x)) (s.countTaken x).tsu) (s.sampled x) := by
  rw [sampled_eq]
  exact around_announce (s.countTaken x) (s.tsu.labelled x)

/-- A warning that cannot be applied, where none stood before, is recorded (R13). -/
theorem sampled_rangeConflict (s : State) (x : Sample) (hk : x.leapCount ≤ 255)
    (h : (x.warning = .insert ∧ x.leapCount = 255) ∨ (x.warning = .delete ∧ x.leapCount = 0))
    (ho : s.tsu.rangeConflict = false) :
    Behind 1 2 s (s.sampled x) (conflictNote s.now 0 0 s.tsu.hostLeap.code) := by
  have hcount := labelled_leapCount s.tsu x hk
  have hlabel : (s.tsu.labelled x).labelLeap = .noLeap := (labelled_labelLeap s.tsu x hk).trans (if_pos h)
  have begins : (s.tsu.labelled x).rangeConflict = true := by
    refine (cannotApply_iff _ _).2 ?_
    rw [show ((s.tsu.sampling x).withCount x.leapCount).leapCount = x.leapCount from hcount]
    exact h
  have stood : (s.countTaken x).tsu.rangeConflict = false := by
    rw [countTaken_tsu]
    exact (withCount_kept (s.tsu.sampling x) x.leapCount).2.2.2.1.trans ho
  have k := showConflict_range ((s.countTaken x).withTsu (s.tsu.labelled x)) (s.countTaken x).tsu begins stood
  have hvt : ((s.countTaken x).withTsu (s.tsu.labelled x)).now = s.now := labelled_vt s.tsu x
  have hl : ((s.countTaken x).withTsu (s.tsu.labelled x)).tsu.labelLeap = .noLeap := hlabel
  have hh : ((s.countTaken x).withTsu (s.tsu.labelled x)).tsu.hostLeap = s.tsu.hostLeap := labelled_hostLeap s.tsu x
  rw [hvt, hl, hh] at k
  exact ⟨_, along_judging s x, k.trans (around_judging s x)⟩

/-- Two announcements that begin to differ are recorded (R13). -/
theorem sampled_differ (s : State) (x : Sample) (hk : x.leapCount ≤ 255)
    (h : (x.warning.announcedBy x.leapCount = .insert ∧ s.tsu.hostLeap = .delete)
      ∨ (x.warning.announcedBy x.leapCount = .delete ∧ s.tsu.hostLeap = .insert))
    (ho : ¬ s.tsu.sourcesDiffer = true) :
    Behind 1 2 s (s.sampled x) (conflictNote s.now 1 (x.warning.announcedBy x.leapCount).code s.tsu.hostLeap.code) := by
  have hcount := labelled_leapCount s.tsu x hk
  have hlabel := labelled_labelLeap s.tsu x hk
  have hhost := labelled_hostLeap s.tsu x
  have inRange : ¬ ((x.warning = .insert ∧ x.leapCount = 255) ∨ (x.warning = .delete ∧ x.leapCount = 0)) := by
    intro hr
    rw [Leap.announcedBy, if_pos hr] at h
    simp at h
  have range : ¬ (s.tsu.labelled x).rangeConflict = true := by
    intro hr
    have := (cannotApply_iff _ _).1 hr
    rw [show ((s.tsu.sampling x).withCount x.leapCount).leapCount = x.leapCount from hcount] at this
    exact inRange this
  have differs : (s.tsu.labelled x).sourcesDiffer = true := by
    rw [sourcesDiffer_iff, hlabel, hhost]; exact h
  have stood : ¬ (s.countTaken x).tsu.sourcesDiffer = true := by
    obtain ⟨-, h1, h2, -⟩ := withCount_kept (s.tsu.sampling x) x.leapCount
    rw [sourcesDiffer_iff] at ho ⊢
    rw [countTaken_tsu, h1, h2]
    exact ho
  have k := showConflict_differ ((s.countTaken x).withTsu (s.tsu.labelled x)) (s.countTaken x).tsu (fun hr => absurd hr range)
    differs stood
  have hvt : ((s.countTaken x).withTsu (s.tsu.labelled x)).now = s.now := labelled_vt s.tsu x
  have hl : ((s.countTaken x).withTsu (s.tsu.labelled x)).tsu.labelLeap = x.warning.announcedBy x.leapCount := hlabel
  have hh : ((s.countTaken x).withTsu (s.tsu.labelled x)).tsu.hostLeap = s.tsu.hostLeap := hhost
  rw [hvt, hl, hh] at k
  exact ⟨_, along_judging s x, k.trans (around_judging s x)⟩

/-- A pending leap that a label changes, other than by applying it, is recorded WITHDRAWN, ANNOUNCED or both, and noticed (R13). -/
theorem sampled_pending (s : State) (x : Sample) (hk : x.leapCount ≤ 255) (ha : s.tsu.labelAhead x.leapCount = false)
    (h : s.tsu.pendingAfter x.leapCount x.warning ≠ s.tsu.pendingLeap) :
    (s.tsu.pendingLeap ≠ .noLeap → Behind 1 4 s (s.sampled x) (leapNote s.now 1 x.leapCount .noLeap))
      ∧ (s.tsu.pendingAfter x.leapCount x.warning ≠ .noLeap →
          Behind 2 5 s (s.sampled x) (leapNote s.now 0 x.leapCount (s.tsu.pendingAfter x.leapCount x.warning)))
      ∧ Noticed s (s.sampled x) .leap s.now .nothing
          (be 1 (if s.tsu.pendingAfter x.leapCount x.warning = .noLeap then 1 else 0) ++ be 1 x.leapCount
            ++ be 1 (s.tsu.pendingAfter x.leapCount x.warning).code) := by
  have hp : (s.tsu.labelled x).pendingLeap = s.tsu.pendingLeap :=
    (labelled_pendingLeap s.tsu x).trans (if_neg (by simp [ha]))
  have withdrawn := announce_withdrawn (s.countTaken x) (s.tsu.labelled x)
  have announced := announce_announced (s.countTaken x) (s.tsu.labelled x)
  have noticed := announce_noticed (s.countTaken x) (s.tsu.labelled x)
  rw [← sampled_eq, labelled_derived s.tsu x hk, hp, labelled_vt, labelled_leapCount s.tsu x hk] at withdrawn announced noticed
  exact ⟨fun ho => (withdrawn (Ne.symm h) ho).from (along_countTaken s x),
    fun hn => (announced (Ne.symm h) hn).from (along_countTaken s x),
    (noticed (Ne.symm h)).sooner (along_countTaken s x).noticesLe⟩

end Sys2Proof.Machine
end

