-- ==== Sys2Proof/Proofs/Updates.lean ====
section
/-!
PROOFS. Proofs/Updates.lean: an update (R2 to R9): the label taken, VT stepped or steered, the change handed on.
-/
namespace Sys2Proof.Machine

/-! ## The hand-on of a clock change, in its parts (R8) -/

/-- The state of a clock change recorded, and reported to the Auction Controller where the predicate changed. -/
def State.clockTold (s : State) (old : Tsu) (cause : ClockCause) : State :=
  if s.tsu.traceable = old.traceable then offer s (clockRecord s old.clock cause)
  else traceableReport (offer s (clockRecord s old.clock cause)) s.tsu.traceable

/-- The same after the report of an entry to TRACKING. -/
def State.trackingTold (s : State) (old : Tsu) (cause : ClockCause) : State :=
  if s.tsu.clock = .tracking ∧ old.clock ≠ .tracking then trackingReport (s.clockTold old cause) else s.clockTold old cause

theorem handed_clockTold (s : State) (old : Tsu) (cause : ClockCause) : Handed (s.viewing old) (s.clockTold old cause) := by
  have h := handed_offer s (clockRecord s old.clock cause)
  unfold State.clockTold State.viewing
  by_cases e : s.tsu.traceable = old.traceable
  · simp only [if_pos e]
    exact h
  · simp only [if_neg e]
    exact Handed.back (handed_traceableReport _ _) (h.withView _)

theorem along_clockTold (s : State) (old : Tsu) (cause : ClockCause) : Along 1 1 s (s.clockTold old cause) := by
  have h : Along 1 1 s (offer s (clockRecord s old.clock cause)) := ⟨handsOn_offer s (clockRecord s old.clock cause), (handed_offer _ _).around⟩
  unfold State.clockTold
  split
  · exact h
  · exact h.trans (d := 0) (m := 0) ⟨handsOn_traceableReport _ _, (carried_traceableReport _ _).1⟩

/-- A clock change's hand-on ends with the quality frames and the notice. -/
theorem clockHandOn_end (s : State) (old : Tsu) (cause : ClockCause)
    (h : s.tsu.clock ≠ old.clock ∨ s.tsu.traceable ≠ old.traceable) :
    Handed (s.trackingTold old cause) (clockHandOn s old cause) := by
  have e : clockHandOn s old cause = notify (qualityPending (s.trackingTold old cause)) .clockState .nothing
      (be 1 s.tsu.clock.code ++ be 1 s.tsu.grade.code) := if_pos h
  rw [e]
  exact (handed_qualityPending _).trans (handed_notify _ _ _ _)

/-- With no change a hand-on makes quality frames pending at most. -/
theorem clockHandOn_same (s : State) (old : Tsu) (cause : ClockCause)
    (h : ¬ (s.tsu.clock ≠ old.clock ∨ s.tsu.traceable ≠ old.traceable)) : Handed s (clockHandOn s old cause) := by
  unfold clockHandOn
  rw [if_neg h]
  split
  · exact handed_qualityPending s
  · exact Handed.refl s

/-- An entry to TRACKING opens a CLOSED issuer whose epoch has begun (R68). -/
def State.opens (s : State) (old : Tsu) : Prop :=
  (s.tsu.clock = .tracking ∧ old.clock ≠ .tracking) ∧ s.sis.state = .closed ∧ 0 < s.sis.epoch

/-- The issuer opened by an entry to TRACKING. -/
def State.openedSis (s : State) : Sis := { s.sis with state := .opened, next := some 1, opening := some (.tracking, s.now) }

theorem trackingTold_of_opens (s : State) (old : Tsu) (cause : ClockCause) (h : s.opens old) :
    s.trackingTold old cause = openIssuer (s.clockTold old cause) .tracking := by
  obtain ⟨entry, closed⟩ := h
  have hsis : (s.clockTold old cause).sis = s.sis := (handed_clockTold s old cause).sis
  rw [State.trackingTold, if_pos entry, trackingReport, hsis, if_pos closed]

theorem trackingTold_of_not_opens (s : State) (old : Tsu) (cause : ClockCause) (h : ¬ s.opens old) :
    s.trackingTold old cause = s.clockTold old cause := by
  have hsis : (s.clockTold old cause).sis = s.sis := (handed_clockTold s old cause).sis
  unfold State.trackingTold
  split
  · rename_i entry
    rw [trackingReport, hsis, if_neg (fun closed => h ⟨entry, closed⟩)]
  · rfl

theorem changed_of_opens {s : State} {old : Tsu} (h : s.opens old) :
    s.tsu.clock ≠ old.clock ∨ s.tsu.traceable ≠ old.traceable := by
  obtain ⟨⟨hc, ho⟩, -⟩ := h
  exact .inl fun e => ho (e ▸ hc)

/-- The record of an opening (R68). -/
def State.openingRecord (s : State) : Record :=
  { kind := .stampingOpen, subject := 255, vt := s.now,
    body := be 1 0 ++ beVt s.now ++ be 1 s.tsu.clock.code ++ be 1 s.tsu.grade.code ++ be 3 s.tsu.u ++ beBool s.tsu.vtSet }

/-- An opening at an entry to TRACKING: the issuer's new state, its record, its notice. -/
theorem openIssuer_spec (s : State) :
    (openIssuer s .tracking).sis = s.openedSis
      ∧ AroundClock (offer { s with sis := s.openedSis } s.openingRecord) (openIssuer s .tracking)
      ∧ Noticed s (openIssuer s .tracking) .stampingOpen s.now .nothing (be 1 0 ++ be 1 s.tsu.grade.code) := by
  obtain ⟨x, hx⟩ : ∃ x, x = offer { s with sis := s.openedSis } s.openingRecord := ⟨_, rfl⟩
  have handed : Handed { s with sis := s.openedSis } x := hx ▸ handed_offer _ _
  have htsu : x.tsu = s.tsu := handed.tsu
  have e : openIssuer s .tracking = notify x .stampingOpen .nothing (be 1 0 ++ be 1 x.tsu.grade.code) := by rw [hx]; rfl
  have noticed := noticed_notify x .stampingOpen .nothing (be 1 0 ++ be 1 x.tsu.grade.code)
  rw [← e, State.now, htsu] at noticed
  refine ⟨(handed_openIssuer s .tracking).sis, ?_, noticed.sooner handed.noticesLe⟩
  rw [e, ← hx]
  exact (handed_notify _ _ _ _).around

theorem clockHandOn_sis_of_opens (s : State) (old : Tsu) (cause : ClockCause) (h : s.opens old) :
    (clockHandOn s old cause).sis = s.openedSis := by
  have told := handed_clockTold s old cause
  rw [(clockHandOn_end s old cause (changed_of_opens h)).sis, trackingTold_of_opens s old cause h, (openIssuer_spec _).1,
    State.openedSis, State.now, told.sis, told.tsu]
  rfl

theorem clockHandOn_sis_of_not_opens (s : State) (old : Tsu) (cause : ClockCause) (h : ¬ s.opens old) :
    (clockHandOn s old cause).sis = s.sis := by
  by_cases hc : s.tsu.clock ≠ old.clock ∨ s.tsu.traceable ≠ old.traceable
  · rw [(clockHandOn_end s old cause hc).sis, trackingTold_of_not_opens s old cause h]
    exact (handed_clockTold s old cause).sis
  · exact (clockHandOn_same s old cause hc).sis

/-- A clock change leaves every group that is not DEFERRED. -/
theorem clockHandOn_group (s : State) (old : Tsu) (cause : ClockCause) (g : Fin 32) (hg : (s.group g).state ≠ .deferred) :
    (clockHandOn s old cause).group g = s.group g := by
  by_cases hc : s.tsu.clock ≠ old.clock ∨ s.tsu.traceable ≠ old.traceable
  · have told : (s.clockTold old cause).group g = s.group g := (handed_clockTold s old cause).groups g hg
    have tracking : (s.trackingTold old cause).group g = s.group g := by
      by_cases ho : s.opens old
      · rw [trackingTold_of_opens s old cause ho]
        have h := (handed_openIssuer (s.clockTold old cause) .tracking).groups g (by rw [← told] at hg; exact hg)
        exact h.trans told
      · rw [trackingTold_of_not_opens s old cause ho, told]
    rw [(clockHandOn_end s old cause hc).groups g (by rw [tracking]; exact hg), tracking]
  · exact (clockHandOn_same s old cause hc).groups g hg

/-- The record of an opening at an entry to TRACKING stands behind the clock's, and it is noticed (R68). -/
theorem clockHandOn_opening (s : State) (old : Tsu) (cause : ClockCause) (h : s.opens old) :
    Behind 1 1 s (clockHandOn s old cause) s.openingRecord
      ∧ Noticed s (clockHandOn s old cause) .stampingOpen s.now .nothing (be 1 0 ++ be 1 s.tsu.grade.code) := by
  obtain ⟨y, hy⟩ : ∃ y, y = s.clockTold old cause := ⟨_, rfl⟩
  have along : Along 1 1 s y := hy ▸ along_clockTold s old cause
  have htsu : y.tsu = s.tsu := hy ▸ (handed_clockTold s old cause).tsu
  have shown : AroundClock (openIssuer y .tracking) (clockHandOn s old cause) := by
    have k := (clockHandOn_end s old cause (changed_of_opens h)).around
    rw [trackingTold_of_opens s old cause h, ← hy] at k
    exact k
  obtain ⟨-, recorded, noticed⟩ := openIssuer_spec y
  have hrecord : y.openingRecord = s.openingRecord := by rw [State.openingRecord, State.now, htsu]; rfl
  rw [State.now, htsu] at noticed
  rw [hrecord] at recorded
  have along' : Along 1 1 s { y with sis := y.openedSis } :=
    along.trans (d := 0) (m := 0) ⟨handsOn_sis y _, around_sis y _⟩
  exact ⟨⟨_, along', recorded.trans shown⟩, (noticed.around shown).sooner along.noticesLe⟩

end Sys2Proof.Machine
end

