-- ==== Sys2Proof/Proofs/Steering.lean ====
section
/-!
PROOFS. Proofs/Steering.lean: what an update makes of the clock, by a step (R3, R183) or by steering (R4, R6, R9), and the statement of an
update as a whole.
-/
namespace Sys2Proof.Machine

/-! ## Steps (R3, R183) -/

/-- A table with the entries of a list of places replaced in turn. -/
theorem foldl_set_get {α : Type} (f : α → α) (l : List (Fin 8)) (hl : l.Nodup) (v : Vector α 8) (i : Fin 8) :
    (l.foldl (fun (cs : Vector α 8) (i : Fin 8) => cs.set i (f cs[i])) v)[i] = if i ∈ l then f v[i] else v[i] := by
  induction l generalizing v with
  | nil => simp
  | cons j l ih =>
    obtain ⟨hj, hl⟩ := List.nodup_cons.1 hl
    rw [List.foldl_cons, ih hl]
    by_cases e : i = j
    · subst e
      simp [hj]
    · have ne : (j : Nat) ≠ i := fun h => e (Fin.ext h.symm)
      simp [e, Vector.getElem_set_ne _ _ ne]

/-- The clock stepped, with every capture moved along. -/
def State.stepping (s : State) (theta : Int) : State := shiftCaptures (s.withTsu (s.tsu.step theta)) theta

/-- A capture moved with a step, its mark judged again. -/
def Tsu.movedCapture (t : Tsu) (theta : Int) (c : Capture) : Capture :=
  { time := vtOfInt ((c.time : Int) - theta), leapMark := t.leapMark (vtOfInt ((c.time : Int) - theta)) }

theorem stepping_cells (s : State) (theta : Int) (i : Fin 8) :
    (s.stepping theta).sis.cells[i] = (s.sis.cells[i]).map (s.tsu.movedCapture theta) :=
  (foldl_set_get _ allEight (by decide) s.sis.cells i).trans (if_pos (mem_allEight i))

theorem stepping_offers (s : State) (theta : Int) :
    (s.stepping theta).sis = { s.sis with
      cells := (s.stepping theta).sis.cells
      offers := s.sis.offers.map fun o => { o with
        capture := vtOfInt ((o.capture : Int) - theta), leapMark := s.tsu.leapMark (vtOfInt ((o.capture : Int) - theta)) } } := rfl

/-- The record of a step, with VT as it was (R3). -/
def State.stepRecord (s : State) (theta : Int) : Record :=
  { kind := .step, subject := 255, vt := s.now,
    body := beVt s.now ++ beInt 8 theta ++ beOpt (s.tsu.selected.map (·.val)) }

/-- A step: VT and the captures moved, recorded, noticed with the VT after it, and the leap matters passed over. -/
theorem stepVt_told (s : State) (theta : Int) :
    (stepVt s theta).sis = (s.stepping theta).sis ∧ (stepVt s theta).rfe = s.rfe
      ∧ LeapOnly (s.tsu.step theta) (stepVt s theta).tsu ∧ AroundClock s (stepVt s theta)
      ∧ Behind 0 0 s (stepVt s theta) (s.stepRecord theta)
      ∧ Noticed s (stepVt s theta) .step (s.tsu.step theta).vt .nothing (beInt 8 theta) := by
  obtain ⟨m, hm⟩ : ∃ m, m = offer (s.stepping theta) (s.stepRecord theta) := ⟨_, rfl⟩
  have handed : Handed (s.stepping theta) m := hm ▸ handed_offer _ _
  have shifted : AroundClock s (s.stepping theta) := (around_tsu s _).trans (around_sis (s.withTsu (s.tsu.step theta)) _)
  have e : stepVt s theta = catchUp (notify m .step .nothing (beInt 8 theta)) := by rw [hm]; rfl
  have noticed := noticed_notify m .step .nothing (beInt 8 theta)
  have told := (handed_notify m .step .nothing (beInt 8 theta)).leapStep.trans (leapStep_catchUp _)
  rw [← e] at told
  rw [State.now, handed.tsu] at noticed
  have htsu : m.tsu = s.tsu.step theta := handed.tsu
  refine ⟨told.sis.trans handed.sis, told.rfe.trans handed.rfe, htsu ▸ told.tsu, (shifted.trans handed.around).trans told.around,
    ⟨s.stepping theta, ⟨(handsOn_shiftCaptures _ _).after (handsOn_tsu s _), shifted⟩, hm ▸ told.around⟩, ?_⟩
  rw [e]
  exact (noticed.around (leapStep_catchUp _).around).sooner (shifted.trans handed.around).noticesLe

/-! ## Steering (R4, R6, R9) -/

/-- What steering leaves: everything but C, theta, the step mark and what the judgement of R6 moves. -/
theorem steer_frame (t : Tsu) (theta : Int) :
    t.steer theta = { t with
      c := t.steered theta, theta := theta, stepped := false, clock := (t.steer theta).clock, lock := (t.steer theta).lock,
      unlock := (t.steer theta).unlock, tracked := (t.steer theta).tracked } := judge_frame _

/-- The lock counter an update in ACQUIRING gives. -/
def Tsu.lockAfter (t : Tsu) (theta : Int) : Nat := if theta.natAbs ≤ t.limits.tracking then satSucc 255 t.lock else 0

/-- The unlock counter an update in TRACKING gives. -/
def Tsu.unlockAfter (t : Tsu) (theta : Int) : Nat := if theta.natAbs ≤ t.limits.tracking then 0 else satSucc 255 t.unlock

theorem steer_acquiring (t : Tsu) (theta : Int) (h : t.clock = .acquiring) :
    (t.limits.lockCount ≤ t.lockAfter theta → (t.steer theta).clock = .tracking ∧ (t.steer theta).lock = 0
        ∧ (t.steer theta).unlock = 0 ∧ (t.steer theta).tracked = true)
      ∧ (t.lockAfter theta < t.limits.lockCount → (t.steer theta).clock = .acquiring
        ∧ (t.steer theta).lock = t.lockAfter theta ∧ (t.steer theta).unlock = t.unlock) := by
  have e : t.steer theta = if t.limits.lockCount ≤ t.lockAfter theta
      then { t with c := t.steered theta, theta := theta, stepped := false, clock := .tracking, lock := 0, unlock := 0, tracked := true }
      else { t with c := t.steered theta, theta := theta, stepped := false, lock := t.lockAfter theta } := by
    simp only [Tsu.steer, Tsu.judge, h, decide_eq_true_eq]
    rfl
  rw [e]
  refine ⟨fun hn => ?_, fun hn => ?_⟩
  · simp [hn]
  · simp [Nat.not_le.2 hn, h]

theorem steer_tracking (t : Tsu) (theta : Int) (h : t.clock = .tracking) :
    (t.limits.unlockCount ≤ t.unlockAfter theta → (t.steer theta).clock = .acquiring ∧ (t.steer theta).lock = 0
        ∧ (t.steer theta).unlock = 0)
      ∧ (t.unlockAfter theta < t.limits.unlockCount → (t.steer theta).clock = .tracking
        ∧ (t.steer theta).unlock = t.unlockAfter theta ∧ (t.steer theta).lock = t.lock) := by
  have e : t.steer theta = if t.limits.unlockCount ≤ t.unlockAfter theta
      then { t with c := t.steered theta, theta := theta, stepped := false, clock := .acquiring, lock := 0, unlock := 0 }
      else { t with c := t.steered theta, theta := theta, stepped := false, unlock := t.unlockAfter theta } := by
    simp only [Tsu.steer, Tsu.judge, h, decide_eq_true_eq]
    rfl
  rw [e]
  refine ⟨fun hn => ?_, fun hn => ?_⟩
  · simp [hn]
  · simp [Nat.not_le.2 hn, h]

/-- J and U after an update (R2, R9). -/
def Tsu.rated (t : Tsu) (j : Nat) : Tsu :=
  { t with lastJ := min j Config.maxU, u := ({ t with lastJ := min j Config.maxU } : Tsu).updateU }

/-- The state in which an update's change of the clock is handed on. -/
def State.updated (s : State) (x : Sample) : State :=
  ((s.sampled x).corrected x.theta).withTsu (((s.sampled x).corrected x.theta).tsu.rated x.j)

theorem takeSample_updated (s : State) (x : Sample) (h : s.tsu.clock = .acquiring ∨ s.tsu.clock = .tracking) :
    takeSample s x = clockHandOn (s.updated x) s.tsu (updateCause s.tsu (s.updated x).tsu) := by
  rw [takeSample_eq s x h]
  unfold State.updated
  generalize (s.sampled x).corrected x.theta = u
  rfl

/-- What LEAP matters leave of the clock. -/
theorem LeapOnly.fields {a b : Tsu} (h : LeapOnly a b) :
    b.frac = a.frac ∧ b.c = a.c ∧ b.f = a.f ∧ b.clock = a.clock ∧ b.theta = a.theta ∧ b.stepped = a.stepped
      ∧ b.vtSet = a.vtSet ∧ b.lock = a.lock ∧ b.unlock = a.unlock ∧ b.selected = a.selected ∧ b.aided = a.aided
      ∧ b.limits = a.limits := by
  rw [h]
  exact ⟨rfl, rfl, rfl, rfl, rfl, rfl, rfl, rfl, rfl, rfl, rfl, rfl⟩

/-- What steering and the update of U leave of the clock. -/
theorem steered_fields (t : Tsu) (theta : Int) (j : Nat) :
    ((t.steer theta).rated j).vt = t.vt ∧ ((t.steer theta).rated j).frac = t.frac
      ∧ ((t.steer theta).rated j).c = t.steered theta ∧ ((t.steer theta).rated j).stepped = false
      ∧ ((t.steer theta).rated j).u = min 16777215 (t.limits.baseU + min j 16777215 + theta.natAbs) := by
  rw [Tsu.rated, steer_frame]
  exact ⟨rfl, rfl, rfl, rfl, rfl⟩

theorem steered_leap (t : Tsu) (theta : Int) (j : Nat) :
    ((t.steer theta).rated j).leapCount = t.leapCount ∧ ((t.steer theta).rated j).labelLeap = t.labelLeap
      ∧ ((t.steer theta).rated j).hostLeap = t.hostLeap ∧ ((t.steer theta).rated j).pendingLeap = t.pendingLeap
      ∧ ((t.steer theta).rated j).day = t.day ∧ ((t.steer theta).rated j).latched = t.latched
      ∧ ((t.steer theta).rated j).leapDone = t.leapDone := by
  rw [Tsu.rated, steer_frame]
  exact ⟨rfl, rfl, rfl, rfl, rfl, rfl, rfl⟩

theorem steer_kept (t : Tsu) (theta : Int) :
    (t.steer theta).vtSet = t.vtSet ∧ (t.steer theta).f = t.f ∧ (t.steer theta).theta = theta
      ∧ (t.steer theta).limits = t.limits ∧ (t.steer theta).selected = t.selected ∧ (t.steer theta).aided = t.aided := by
  rw [steer_frame]
  exact ⟨rfl, rfl, rfl, rfl, rfl, rfl⟩

/-- What a correction leaves of the clock and around it, by a step or by steering. -/
theorem corrected_frame (s : State) (theta : Int) :
    (s.corrected theta).tsu.vtSet = s.tsu.vtSet ∧ (s.corrected theta).tsu.f = s.tsu.f
      ∧ (s.corrected theta).tsu.theta = theta ∧ (s.corrected theta).tsu.limits = s.tsu.limits
      ∧ (s.corrected theta).tsu.selected = s.tsu.selected ∧ (s.corrected theta).tsu.aided = s.tsu.aided
      ∧ (s.corrected theta).rfe = s.rfe ∧ AroundClock s (s.corrected theta) := by
  unfold State.corrected
  split
  · obtain ⟨-, hrfe, leap, around, -⟩ := stepVt_told s theta
    obtain ⟨-, -, hf, -, htheta, -, hset, -, -, hsel, haided, hlimits⟩ := leap.fields
    exact ⟨hset, hf, htheta, hlimits, hsel, haided, hrfe, around⟩
  · obtain ⟨hset, hf, htheta, hlimits, hsel, haided⟩ := steer_kept s.tsu theta
    exact ⟨hset, hf, htheta, hlimits, hsel, haided, rfl, around_tsu s _⟩

/-! ## An update as a whole -/

theorem leapOnly_sampled (s : State) (x : Sample) : LeapOnly (s.tsu.sampling x) (s.sampled x).tsu := (leapStep_sampled s x).tsu

theorem around_sampled (s : State) (x : Sample) : AroundClock s (s.sampled x) :=
  (around_tsu s (s.tsu.sampling x)).trans (leapStep_sampled s x).around

theorem along_sampled (s : State) (x : Sample) : Along 3 6 s (s.sampled x) := ⟨handsOn_sampled s x, around_sampled s x⟩

theorem stepDue_sampled (s : State) (x : Sample) : (s.sampled x).stepDue x.theta = s.stepDue x.theta := by
  obtain ⟨-, -, -, -, -, -, -, -, -, -, -, hlimits⟩ := (leapOnly_sampled s x).fields
  unfold State.stepDue
  rw [(leapStep_sampled s x).sis, hlimits]
  rfl

theorem updated_steered (s : State) (x : Sample) (h : s.stepDue x.theta = false) :
    s.updated x = (s.sampled x).withTsu (((s.sampled x).tsu.steer x.theta).rated x.j) := by
  have e : (s.sampled x).corrected x.theta = (s.sampled x).withTsu ((s.sampled x).tsu.steer x.theta) :=
    if_neg (by rw [stepDue_sampled, h]; simp)
  rw [State.updated, e]
  rfl

theorem updated_stepped (s : State) (x : Sample) (h : s.stepDue x.theta = true) :
    s.updated x = (stepVt (s.sampled x) x.theta).withTsu ((stepVt (s.sampled x) x.theta).tsu.rated x.j) := by
  have e : (s.sampled x).corrected x.theta = stepVt (s.sampled x) x.theta := if_pos (by rw [stepDue_sampled, h])
  rw [State.updated, e]

/-- What every update leaves of the clock and around it. -/
theorem updated_frame (s : State) (x : Sample) :
    (s.updated x).tsu.vtSet = true ∧ (s.updated x).tsu.f = x.f ∧ (s.updated x).tsu.theta = x.theta
      ∧ (s.updated x).tsu.lastJ = min x.j 16777215 ∧ (s.updated x).tsu.limits = s.tsu.limits
      ∧ (s.updated x).tsu.selected = s.tsu.selected ∧ (s.updated x).tsu.aided = s.tsu.aided
      ∧ (s.updated x).rfe = s.rfe ∧ AroundClock s (s.updated x) := by
  obtain ⟨hset, hf, htheta, hlimits, hsel, haided, hrfe, around⟩ := corrected_frame (s.sampled x) x.theta
  obtain ⟨-, -, kf, -, -, -, kset, -, -, ksel, kaided, klimits⟩ := (leapOnly_sampled s x).fields
  exact ⟨hset.trans kset, hf.trans kf, htheta, rfl, hlimits.trans klimits, hsel.trans ksel, haided.trans kaided,
    hrfe.trans (leapStep_sampled s x).rfe, ((around_sampled s x).trans around).trans (around_tsu _ _)⟩

theorem updateCause_code (old new : Tsu) :
    (updateCause old new).code =
      if old.clock = new.clock then 4 else if new.stepped then 3 else if new.clock = .tracking then 1 else 2 := by
  unfold updateCause
  split
  · rfl
  · split
    · rfl
    · split <;> rfl

section
variable {s : State} {x : Sample} (h : s.tsu.clock = .acquiring ∨ s.tsu.clock = .tracking)

include h in
theorem carried_update : Carried (s.updated x) (takeSample s x) := by
  rw [takeSample_updated s x h]
  exact carried_clockHandOn _ _ _

include h in
theorem update_tsu : (takeSample s x).tsu = (s.updated x).tsu := (carried_update h).2.1

include h in
theorem around_update : AroundClock (s.sampled x) (takeSample s x) := by
  obtain ⟨-, -, -, -, -, -, -, around⟩ := corrected_frame (s.sampled x) x.theta
  exact (around.trans (around_tsu _ _)).trans (carried_update h).1

include h in
/-- A group that an update's label leaves other than DEFERRED the rest of the update leaves. -/
theorem update_group (hs : s.stepDue x.theta = false) (g : Fin 32) (hg : ((s.sampled x).group g).state ≠ .deferred) :
    (takeSample s x).group g = (s.sampled x).group g := by
  have e : (s.updated x).group g = (s.sampled x).group g := by rw [updated_steered s x hs]; rfl
  rw [takeSample_updated s x h, clockHandOn_group _ _ _ g (by rw [e]; exact hg), e]

include h in
/-- The change an update makes is recorded behind what it has offered before, and noticed (R8). -/
theorem update_recorded {c n : Nat} (along : Along c n s (s.updated x)) (hc : c < 8)
    (hch : (takeSample s x).tsu.clock ≠ s.tsu.clock ∨ (takeSample s x).tsu.traceable ≠ s.tsu.traceable) :
    OfferedAfter c s (takeSample s x)
        { kind := .clockState, subject := 255, vt := (takeSample s x).tsu.vt,
          body := be 1 s.tsu.clock.code ++ be 1 (takeSample s x).tsu.clock.code
            ++ beBool (((takeSample s x).tsu.clock == .tracking || (takeSample s x).tsu.clock == .holdover)
              && decide ((takeSample s x).tsu.u ≤ s.tsu.limits.traceability))
            ++ be 1 (takeSample s x).tsu.grade.code ++ be 3 (takeSample s x).tsu.u ++ beInt 8 x.theta
            ++ beOpt (s.tsu.selected.map (·.val)) ++ be 1 (updateCause s.tsu (takeSample s x).tsu).code }
      ∧ Noticed s (takeSample s x) .clockState (takeSample s x).tsu.vt .nothing
          (be 1 (takeSample s x).tsu.clock.code ++ be 1 (takeSample s x).tsu.grade.code) := by
  obtain ⟨-, -, htheta, -, hlimits, hsel, -⟩ := updated_frame s x
  rw [update_tsu h] at hch ⊢
  have after := clockHandOn_after_record (s.updated x) s.tsu (updateCause s.tsu (s.updated x).tsu) hch
  have noticed := noticed_clockHandOn (s.updated x) s.tsu (updateCause s.tsu (s.updated x).tsu) hch
  rw [← takeSample_updated s x h] at after noticed
  refine ⟨?_, noticed.sooner along.noticesLe⟩
  have behind : Behind c n s (takeSample s x) (clockRecord (s.updated x) s.tsu.clock (updateCause s.tsu (s.updated x).tsu)) :=
    ⟨_, along, after⟩
  have offered := behind.offeredAfter rfl (Nat.le_refl c) hc
  rw [← hlimits, ← htheta, ← hsel]
  exact offered

end

end Sys2Proof.Machine
end

