-- ==== Sys2Proof/Proofs/UpdateRules.lean ====
section
/-!
PROOFS. Proofs/UpdateRules.lean: the rules of an update that steers and of one that steps, and the statement of an update as a whole.
-/
namespace Sys2Proof.Machine

section
variable {s : State} {x : Sample}

/-! ## An update that steers (R4, R6, R9, R68) -/

theorem along_steered (hs : s.stepDue x.theta = false) : Along 3 6 s (s.updated x) := by
  rw [updated_steered s x hs]
  exact (along_sampled s x).trans (d := 0) (m := 0) ⟨handsOn_tsu _ _, around_tsu _ _⟩

theorem updated_sis (hs : s.stepDue x.theta = false) : (s.updated x).sis = s.sis := by
  rw [updated_steered s x hs]
  exact (leapStep_sampled s x).sis

/-- The registers an update that steers sets. -/
theorem update_steered_tsu (h : s.tsu.clock = .acquiring ∨ s.tsu.clock = .tracking) (hs : s.stepDue x.theta = false) :
    (takeSample s x).tsu = ((s.sampled x).tsu.steer x.theta).rated x.j := by
  rw [update_tsu h, updated_steered s x hs]
  rfl

theorem sampled_steered (s : State) (x : Sample) :
    (s.sampled x).tsu.steered x.theta = clampRate (clampInt (x.f - s.tsu.limits.slewLimit) (x.f + s.tsu.limits.slewLimit)
      (divRound (x.f * s.tsu.limits.tau - 1000 * x.theta) s.tsu.limits.tau)) := by
  obtain ⟨-, -, hf, -, -, -, -, -, -, -, -, hlimits⟩ := (leapOnly_sampled s x).fields
  unfold Tsu.steered
  rw [hf, hlimits]
  rfl

/-- The starts after an update that steers (R106). -/
theorem update_start (h : s.tsu.clock = .acquiring ∨ s.tsu.clock = .tracking) (hs : s.stepDue x.theta = false)
    (hk : x.leapCount ≤ 255) (g : Fin 32) (hg : (s.group g).state = .armed ∨ (s.group g).state = .call) :
    (takeSample s x).group g =
      if s.tsu.labelAhead x.leapCount = true
        ∨ (s.tsu.adopts x.leapCount = false ∧ s.tsu.pendingAfter x.leapCount x.warning = s.tsu.pendingLeap)
      then s.group g else (s.group g).again (takeSample s x).tsu := by
  have hd := not_deferred_of_start hg
  have hgroup := sampled_group s x hk g hd
  have hstate : ((s.sampled x).group g).state ≠ .deferred := by
    rw [hgroup]
    split
    · exact hd
    · rw [again_state]; exact hd
  obtain ⟨hcount, -, -, hpending, hday, -, -⟩ := steered_leap (s.sampled x).tsu x.theta x.j
  rw [update_group h hs g hstate, hgroup, update_steered_tsu h hs, again_congr hday hcount hpending]

theorem lockAfter_sampled (s : State) (x : Sample) : (s.sampled x).tsu.lockAfter x.theta = s.tsu.lockAfter x.theta := by
  obtain ⟨-, -, -, -, -, -, -, hlock, -, -, -, hlimits⟩ := (leapOnly_sampled s x).fields
  unfold Tsu.lockAfter
  rw [hlock, hlimits]
  rfl

theorem unlockAfter_sampled (s : State) (x : Sample) : (s.sampled x).tsu.unlockAfter x.theta = s.tsu.unlockAfter x.theta := by
  obtain ⟨-, -, -, -, -, -, -, -, hunlock, -, -, hlimits⟩ := (leapOnly_sampled s x).fields
  unfold Tsu.unlockAfter
  rw [hunlock, hlimits]
  rfl

/-- Without an opening an update that steers leaves the issuer. -/
theorem update_sis_kept (h : s.tsu.clock = .acquiring ∨ s.tsu.clock = .tracking) (hs : s.stepDue x.theta = false)
    (ho : ¬ ((s.updated x).tsu.clock = .tracking ∧ s.tsu.clock ≠ .tracking ∧ s.sis.state = .closed ∧ 0 < s.sis.epoch)) :
    (takeSample s x).sis = s.sis := by
  rw [takeSample_updated s x h, clockHandOn_sis_of_not_opens, updated_sis hs]
  rintro ⟨⟨hc, hn⟩, closed, epoch⟩
  rw [updated_sis hs] at closed epoch
  exact ho ⟨hc, hn, closed, epoch⟩

/-- An entry to TRACKING with a CLOSED issuer whose epoch has begun opens it (R68). -/
theorem update_opens (h : s.tsu.clock = .acquiring) (hs : s.stepDue x.theta = false)
    (hc : (takeSample s x).tsu.clock = .tracking) (closed : s.sis.state = .closed) (epoch : 0 < s.sis.epoch) :
    (takeSample s x).sis = { s.sis with state := .opened, next := some 1, opening := some (.tracking, s.now) }
      ∧ OfferedAfter 4 s (takeSample s x)
          { kind := .stampingOpen, subject := 255, vt := s.now,
            body := be 1 0 ++ beVt s.now ++ be 1 ClockState.tracking.code ++ be 1 (takeSample s x).tsu.grade.code
              ++ be 3 (takeSample s x).tsu.u ++ beBool true }
      ∧ Noticed s (takeSample s x) .stampingOpen s.now .nothing (be 1 0 ++ be 1 (takeSample s x).tsu.grade.code) := by
  have hclock : s.tsu.clock = .acquiring ∨ s.tsu.clock = .tracking := .inl h
  rw [update_tsu hclock] at hc ⊢
  have along := along_steered hs
  have hsis := updated_sis hs
  have hnow : (s.updated x).now = s.now := by
    rw [State.now, updated_steered s x hs]
    exact ((steered_fields (s.sampled x).tsu x.theta x.j).1).trans (leapOnly_sampled s x).vt
  have hset : (s.updated x).tsu.vtSet = true := (updated_frame s x).1
  have opens : (s.updated x).opens s.tsu := ⟨⟨hc, by simp [h]⟩, by rw [hsis]; exact closed, by rw [hsis]; exact epoch⟩
  have sis := clockHandOn_sis_of_opens (s.updated x) s.tsu (updateCause s.tsu (s.updated x).tsu) opens
  obtain ⟨recorded, noticed⟩ := clockHandOn_opening (s.updated x) s.tsu (updateCause s.tsu (s.updated x).tsu) opens
  rw [← takeSample_updated s x hclock] at sis recorded noticed
  rw [State.openedSis, hsis, hnow] at sis
  rw [State.openingRecord, hnow, hc, hset] at recorded
  rw [hnow] at noticed
  exact ⟨sis, (recorded.from along).offeredAfter rfl (Nat.le_refl 4) (by omega), noticed.sooner along.noticesLe⟩

/-! ## An update that steps (R3, R183) -/

theorem along_stepped (hs : s.stepDue x.theta = true) : Along 5 8 s (s.updated x) := by
  rw [updated_stepped s x hs]
  have stepped : Along 2 2 (s.sampled x) (stepVt (s.sampled x) x.theta) := ⟨handsOn_stepVt _ _, (stepVt_told _ _).2.2.2.1⟩
  exact ((along_sampled s x).trans stepped).trans (d := 0) (m := 0) ⟨handsOn_tsu _ _, around_tsu _ _⟩

/-- What a step, the leaps passed over and the update of U leave of the clock. -/
theorem stepped_fields {a b : Tsu} {theta : Int} (h : LeapOnly (a.step theta) b) (j : Nat) :
    (b.rated j).vt = vtOfInt ((a.vt : Int) - theta) ∧ (b.rated j).frac = 0 ∧ (b.rated j).c = clampRate a.f
      ∧ (b.rated j).u = min 16777215 (a.limits.baseU + min j 16777215)
      ∧ (b.rated j).clock = (if a.clock = .tracking then .acquiring else a.clock)
      ∧ (b.rated j).lock = 0 ∧ (b.rated j).unlock = 0 ∧ (b.rated j).stepped = true := by
  obtain ⟨hfrac, hc, -, hclock, -, hstepped, -, hlock, hunlock, -, -, hlimits⟩ := h.fields
  have hu : (b.rated j).u = min 16777215 (b.limits.baseU + min j 16777215 + if b.stepped then 0 else b.theta.natAbs) := rfl
  refine ⟨h.vt, hfrac, hc, ?_, hclock, hlock, hunlock, hstepped⟩
  rw [hu, hstepped, hlimits]
  rfl

theorem updated_stepped_tsu (hs : s.stepDue x.theta = true) :
    ∃ b, LeapOnly ((s.sampled x).tsu.step x.theta) b ∧ (s.updated x).tsu = b.rated x.j := by
  refine ⟨_, (stepVt_told (s.sampled x) x.theta).2.2.1, ?_⟩
  rw [updated_stepped s x hs]
  generalize stepVt (s.sampled x) x.theta = u
  rfl

/-- The registers a step sets. -/
theorem update_stepped_tsu (h : s.tsu.clock = .acquiring ∨ s.tsu.clock = .tracking) (hs : s.stepDue x.theta = true) :
    (takeSample s x).tsu.vt = vtOfInt ((s.tsu.vt : Int) - x.theta) ∧ (takeSample s x).tsu.frac = 0
      ∧ (takeSample s x).tsu.c = clampRate x.f ∧ (takeSample s x).tsu.u = min 16777215 (s.tsu.limits.baseU + min x.j 16777215)
      ∧ (takeSample s x).tsu.clock = .acquiring ∧ (takeSample s x).tsu.lock = 0 ∧ (takeSample s x).tsu.unlock = 0
      ∧ (takeSample s x).tsu.stepped = true := by
  obtain ⟨-, -, kf, kclock, -, -, -, -, -, -, -, klimits⟩ := (leapOnly_sampled s x).fields
  obtain ⟨b, leap, e⟩ := updated_stepped_tsu hs
  obtain ⟨hvt, hfrac, hc, hu, hclock, rest⟩ := stepped_fields leap x.j
  have kvt : (s.sampled x).tsu.vt = s.tsu.vt := (leapOnly_sampled s x).vt
  have samplingClock : (s.tsu.sampling x).clock = s.tsu.clock := rfl
  have samplingRate : (s.tsu.sampling x).f = x.f := rfl
  have samplingLimits : (s.tsu.sampling x).limits = s.tsu.limits := rfl
  rw [kvt] at hvt
  rw [kf, samplingRate] at hc
  rw [klimits, samplingLimits] at hu
  rw [kclock, samplingClock] at hclock
  rw [update_tsu h, e]
  refine ⟨hvt, hfrac, hc, hu, hclock.trans ?_, rest⟩
  rcases h with h | h <;> simp [h]

/-- A step is recorded with VT as it was, and noticed with VT after it (R3). -/
theorem update_step_recorded (h : s.tsu.clock = .acquiring ∨ s.tsu.clock = .tracking) (hs : s.stepDue x.theta = true) :
    OfferedAfter 3 s (takeSample s x)
        { kind := .step, subject := 255, vt := s.now,
          body := beVt s.now ++ beInt 8 x.theta ++ beOpt (s.tsu.selected.map (·.val)) }
      ∧ Noticed s (takeSample s x) .step (takeSample s x).tsu.vt .nothing (beInt 8 x.theta) := by
  obtain ⟨-, -, -, -, -, -, -, -, -, ksel, -, -⟩ := (leapOnly_sampled s x).fields
  obtain ⟨-, -, leap, -, recorded, noticed⟩ := stepVt_told (s.sampled x) x.theta
  have shown : AroundClock (stepVt (s.sampled x) x.theta) (takeSample s x) := by
    have k := (carried_update h (x := x)).1
    rw [updated_stepped s x hs] at k
    exact (around_tsu _ _).trans k
  have hrecord : (s.sampled x).stepRecord x.theta =
      { kind := .step, subject := 255, vt := s.now,
        body := beVt s.now ++ beInt 8 x.theta ++ beOpt (s.tsu.selected.map (·.val)) } := by
    rw [State.stepRecord, State.now, (leapOnly_sampled s x).vt, ksel]
    rfl
  have hvt : (takeSample s x).tsu.vt = ((s.sampled x).tsu.step x.theta).vt := by
    rw [update_tsu h, updated_stepped s x hs]
    exact leap.vt
  rw [hrecord] at recorded
  rw [hvt]
  exact ⟨((recorded.around shown).from (along_sampled s x)).offeredAfter rfl (Nat.le_refl 3) (by omega),
    (noticed.around shown).sooner (around_sampled s x).noticesLe⟩

/-- A step moves every capture along, its mark judged again, and leaves the rest of the issuer (R183). -/
theorem update_step_sis (h : s.tsu.clock = .acquiring ∨ s.tsu.clock = .tracking) (hs : s.stepDue x.theta = true) :
    (takeSample s x).sis = { s.sis with
        cells := (takeSample s x).sis.cells
        offers := s.sis.offers.map fun o => { o with
          capture := vtOfInt ((o.capture : Int) - x.theta),
          leapMark := (s.sampled x).tsu.leapMark (vtOfInt ((o.capture : Int) - x.theta)) } }
      ∧ ∀ i : Fin 8, (takeSample s x).sis.cells[i] = (s.sis.cells[i]).map ((s.sampled x).tsu.movedCapture x.theta) := by
  have closed : ¬ (s.updated x).opens s.tsu := by
    rintro ⟨⟨hc, -⟩, -⟩
    rw [← update_tsu h, (update_stepped_tsu h hs).2.2.2.2.1] at hc
    cases hc
  have e : (takeSample s x).sis = ((s.sampled x).stepping x.theta).sis := by
    rw [takeSample_updated s x h, clockHandOn_sis_of_not_opens _ _ _ closed, updated_stepped s x hs]
    exact (stepVt_told (s.sampled x) x.theta).1
  have cells := stepping_cells (s.sampled x) x.theta
  have offers := stepping_offers (s.sampled x) x.theta
  rw [(leapStep_sampled s x).sis] at offers
  rw [e]
  exact ⟨offers, fun i => (cells i).trans (by rw [(leapStep_sampled s x).sis])⟩

end

end Sys2Proof.Machine
end

