-- ==== Sys2Proof/Proofs/SteersOrSteps.lean ====
section
/-!
PROOFS. Proofs/SteersOrSteps.lean: the statement of an update as a whole (R3, R4, R6, R9, R13, R16).
-/
namespace Sys2Proof.Machine

section
variable {s : State} {x : Sample}

/-! ## The cause of the change -/

theorem update_steered_code (h : s.tsu.clock = .acquiring ∨ s.tsu.clock = .tracking) (hs : s.stepDue x.theta = false) :
    (updateCause s.tsu (takeSample s x).tsu).code =
      if (takeSample s x).tsu.clock = s.tsu.clock then 4 else if (takeSample s x).tsu.clock = .tracking then 1 else 2 := by
  obtain ⟨-, -, -, hstepped, -⟩ := steered_fields (s.sampled x).tsu x.theta x.j
  rw [← update_steered_tsu h hs] at hstepped
  rw [updateCause_code, hstepped]
  simp only [Bool.false_eq_true, if_false, eq_comm]

theorem not_traceable_of_acquiring {t : Tsu} (h : t.clock = .acquiring) : t.traceable = false := by
  rw [Tsu.traceable, h]
  rfl

/-- An ACQUIRING or TRACKING clock that a step has changed is no longer the clock it was. -/
theorem update_stepped_code (h : s.tsu.clock = .acquiring ∨ s.tsu.clock = .tracking) (hs : s.stepDue x.theta = true)
    (hch : (takeSample s x).tsu.clock ≠ s.tsu.clock ∨ (takeSample s x).tsu.traceable ≠ s.tsu.traceable) :
    (updateCause s.tsu (takeSample s x).tsu).code = 3 := by
  obtain ⟨-, -, -, -, hclock, -, -, hstepped⟩ := update_stepped_tsu h hs
  have moved : s.tsu.clock ≠ (takeSample s x).tsu.clock := by
    rcases hch with hch | hch
    · exact hch.symm
    · intro e
      rw [hclock] at e
      exact hch ((not_traceable_of_acquiring hclock).trans (not_traceable_of_acquiring e).symm)
  rw [updateCause_code, if_neg moved, if_pos hstepped]

/-! ## The judgement of an update that steers (R6, R9, R68) -/

theorem sampled_judged (s : State) (x : Sample) :
    (s.sampled x).tsu.clock = s.tsu.clock ∧ (s.sampled x).tsu.lock = s.tsu.lock ∧ (s.sampled x).tsu.unlock = s.tsu.unlock
      ∧ (s.sampled x).tsu.limits = s.tsu.limits := by
  obtain ⟨-, -, -, kclock, -, -, -, klock, kunlock, -, -, klimits⟩ := (leapOnly_sampled s x).fields
  exact ⟨kclock, klock, kunlock, klimits⟩

theorem rated_judged (t : Tsu) (j : Nat) : (t.rated j).clock = t.clock ∧ (t.rated j).lock = t.lock
    ∧ (t.rated j).unlock = t.unlock ∧ (t.rated j).tracked = t.tracked := ⟨rfl, rfl, rfl, rfl⟩

/-- The judgement shows in the clock after an update that steers. -/
theorem update_judged (h : s.tsu.clock = .acquiring ∨ s.tsu.clock = .tracking) (hs : s.stepDue x.theta = false) :
    (takeSample s x).tsu.clock = ((s.sampled x).tsu.steer x.theta).clock
      ∧ (takeSample s x).tsu.lock = ((s.sampled x).tsu.steer x.theta).lock
      ∧ (takeSample s x).tsu.unlock = ((s.sampled x).tsu.steer x.theta).unlock
      ∧ (takeSample s x).tsu.tracked = ((s.sampled x).tsu.steer x.theta).tracked := by
  rw [update_steered_tsu h hs]
  exact rated_judged _ _

/-- An update in ACQUIRING: the lock counter reaches its limit or grows. -/
theorem update_acquiring (h : s.tsu.clock = .acquiring) (hs : s.stepDue x.theta = false) :
    (s.tsu.limits.lockCount ≤ s.tsu.lockAfter x.theta → (takeSample s x).tsu.clock = .tracking
        ∧ (takeSample s x).tsu.lock = 0 ∧ (takeSample s x).tsu.unlock = 0 ∧ (takeSample s x).tsu.tracked = true)
      ∧ (s.tsu.lockAfter x.theta < s.tsu.limits.lockCount → (takeSample s x).tsu.clock = .acquiring
        ∧ (takeSample s x).tsu.lock = s.tsu.lockAfter x.theta ∧ (takeSample s x).tsu.unlock = s.tsu.unlock) := by
  obtain ⟨kclock, -, kunlock, klimits⟩ := sampled_judged s x
  obtain ⟨hclock, hlock, hunlock, htracked⟩ := update_judged (.inl h) hs
  have judged := steer_acquiring (s.sampled x).tsu x.theta (kclock.trans h)
  rw [lockAfter_sampled, kunlock, klimits] at judged
  rw [hclock, hlock, hunlock, htracked]
  exact judged

/-- An update in TRACKING: the unlock counter reaches its limit or grows. -/
theorem update_tracking (h : s.tsu.clock = .tracking) (hs : s.stepDue x.theta = false) :
    (s.tsu.limits.unlockCount ≤ s.tsu.unlockAfter x.theta → (takeSample s x).tsu.clock = .acquiring
        ∧ (takeSample s x).tsu.lock = 0 ∧ (takeSample s x).tsu.unlock = 0)
      ∧ (s.tsu.unlockAfter x.theta < s.tsu.limits.unlockCount → (takeSample s x).tsu.clock = .tracking
        ∧ (takeSample s x).tsu.unlock = s.tsu.unlockAfter x.theta ∧ (takeSample s x).tsu.lock = s.tsu.lock) := by
  obtain ⟨kclock, klock, -, klimits⟩ := sampled_judged s x
  obtain ⟨hclock, hlock, hunlock, -⟩ := update_judged (.inr h) hs
  have judged := steer_tracking (s.sampled x).tsu x.theta (kclock.trans h)
  rw [unlockAfter_sampled, klock, klimits] at judged
  rw [hclock, hlock, hunlock]
  exact judged

/-- An update in ACQUIRING, with what it does to the issuer: an entry to TRACKING opens a CLOSED issuer whose epoch has begun, and
nothing else touches it (R6, R68). -/
theorem update_acquiring_told (h : s.tsu.clock = .acquiring) (hs : s.stepDue x.theta = false) :
    (s.tsu.limits.lockCount ≤ s.tsu.lockAfter x.theta → (takeSample s x).tsu.clock = .tracking
        ∧ (takeSample s x).tsu.lock = 0 ∧ (takeSample s x).tsu.unlock = 0 ∧ (takeSample s x).tsu.tracked = true
        ∧ (s.sis.state = .closed → 0 < s.sis.epoch →
            (takeSample s x).sis = { s.sis with state := .opened, next := some 1, opening := some (.tracking, s.now) }
            ∧ OfferedAfter 4 s (takeSample s x)
                { kind := .stampingOpen, subject := 255, vt := s.now,
                  body := be 1 0 ++ beVt s.now ++ be 1 ClockState.tracking.code ++ be 1 (takeSample s x).tsu.grade.code
                    ++ be 3 (takeSample s x).tsu.u ++ beBool true }
            ∧ Noticed s (takeSample s x) .stampingOpen s.now .nothing (be 1 0 ++ be 1 (takeSample s x).tsu.grade.code))
        ∧ (s.sis.state ≠ .closed ∨ s.sis.epoch = 0 → (takeSample s x).sis = s.sis))
      ∧ (s.tsu.lockAfter x.theta < s.tsu.limits.lockCount → (takeSample s x).tsu.clock = .acquiring
        ∧ (takeSample s x).tsu.lock = s.tsu.lockAfter x.theta ∧ (takeSample s x).tsu.unlock = s.tsu.unlock
        ∧ (takeSample s x).sis = s.sis) := by
  obtain ⟨locks, waits⟩ := update_acquiring h hs
  refine ⟨fun hn => ?_, fun hn => ?_⟩
  · obtain ⟨hclock, hlock, hunlock, htracked⟩ := locks hn
    refine ⟨hclock, hlock, hunlock, htracked, update_opens h hs hclock, fun kept => update_sis_kept (.inl h) hs ?_⟩
    rintro ⟨-, -, closed, epoch⟩
    rcases kept with kept | kept
    · exact kept closed
    · omega
  · obtain ⟨hclock, hlock, hunlock⟩ := waits hn
    refine ⟨hclock, hlock, hunlock, update_sis_kept (.inl h) hs ?_⟩
    rintro ⟨tracking, -⟩
    rw [← update_tsu (.inl h), hclock] at tracking
    cases tracking

/-- An update in TRACKING, which leaves the issuer. -/
theorem update_tracking_told (h : s.tsu.clock = .tracking) (hs : s.stepDue x.theta = false) :
    (takeSample s x).sis = s.sis
      ∧ (s.tsu.limits.unlockCount ≤ s.tsu.unlockAfter x.theta → (takeSample s x).tsu.clock = .acquiring
        ∧ (takeSample s x).tsu.lock = 0 ∧ (takeSample s x).tsu.unlock = 0)
      ∧ (s.tsu.unlockAfter x.theta < s.tsu.limits.unlockCount → (takeSample s x).tsu.clock = .tracking
        ∧ (takeSample s x).tsu.unlock = s.tsu.unlockAfter x.theta ∧ (takeSample s x).tsu.lock = s.tsu.lock) :=
  ⟨update_sis_kept (.inr h) hs fun ⟨_, entered, _⟩ => entered h, update_tracking h hs⟩

/-! ## The captures a step moves (R70, R183) -/

/-- The mark of a capture after a label (R70). -/
def Tsu.markAfter (t : Tsu) (x : Sample) (v : Nat) : Bool :=
  t.pendingAfter x.leapCount x.warning == .insert
    && decide (((v / 1000000000 : Nat) : Int) = (t.dayAfter x.leapCount + 1) * 86400 + x.leapCount)

theorem sampled_leapMark (s : State) (x : Sample) (hk : x.leapCount ≤ 255) (v : Nat) :
    (s.sampled x).tsu.leapMark v = s.tsu.markAfter x v := by
  obtain ⟨hcount, -, -, hpending, hday, -⟩ := sampled_leap s x hk
  unfold Tsu.leapMark Tsu.markAfter
  rw [hpending, Tsu.dayEnd, hday, hcount]

theorem sampled_movedCapture (s : State) (x : Sample) (hk : x.leapCount ≤ 255) (c : Capture) :
    (s.sampled x).tsu.movedCapture x.theta c =
      { time := vtOfInt ((c.time : Int) - x.theta), leapMark := s.tsu.markAfter x (vtOfInt ((c.time : Int) - x.theta)) } := by
  rw [Tsu.movedCapture, sampled_leapMark s x hk]

/-- A step moves the captures of the cells and of the pending offers, each marked by the leap matters after the label. -/
theorem update_moved (h : s.tsu.clock = .acquiring ∨ s.tsu.clock = .tracking) (hs : s.stepDue x.theta = true)
    (hk : x.leapCount ≤ 255) :
    (takeSample s x).sis = { s.sis with
        cells := (takeSample s x).sis.cells
        offers := s.sis.offers.map fun o => { o with
          capture := vtOfInt ((o.capture : Int) - x.theta),
          leapMark := s.tsu.markAfter x (vtOfInt ((o.capture : Int) - x.theta)) } }
      ∧ ∀ i : Fin 8, (takeSample s x).sis.cells[i] = (s.sis.cells[i]).map fun c =>
          { time := vtOfInt ((c.time : Int) - x.theta), leapMark := s.tsu.markAfter x (vtOfInt ((c.time : Int) - x.theta)) } := by
  obtain ⟨offers, cells⟩ := update_step_sis h hs
  simp only [sampled_leapMark s x hk] at offers
  refine ⟨offers, fun i => (cells i).trans ?_⟩
  exact congrArg (s.sis.cells[i]).map (funext (sampled_movedCapture s x hk))

/-- The leap matters after an update that steers (R13, R14, R16). -/
theorem update_leap (h : s.tsu.clock = .acquiring ∨ s.tsu.clock = .tracking) (hs : s.stepDue x.theta = false)
    (hk : x.leapCount ≤ 255) :
    (takeSample s x).tsu.leapCount = x.leapCount
      ∧ (takeSample s x).tsu.labelLeap = x.warning.announcedBy x.leapCount
      ∧ (takeSample s x).tsu.hostLeap = s.tsu.hostLeap
      ∧ (takeSample s x).tsu.pendingLeap = s.tsu.pendingAfter x.leapCount x.warning
      ∧ (takeSample s x).tsu.day = s.tsu.dayAfter x.leapCount
      ∧ (takeSample s x).tsu.latched = s.tsu.latched
      ∧ (takeSample s x).tsu.leapDone = (s.tsu.leapDone || s.tsu.labelAhead x.leapCount) := by
  obtain ⟨hcount, hlabel, hhost, hpending, hday, hlatched, hdone⟩ := steered_leap (s.sampled x).tsu x.theta x.j
  obtain ⟨kcount, klabel, khost, kpending, kday, klatched, kdone⟩ := sampled_leap s x hk
  rw [update_steered_tsu h hs]
  exact ⟨hcount.trans kcount, hlabel.trans klabel, hhost.trans khost, hpending.trans kpending, hday.trans kday,
    hlatched.trans klatched, hdone.trans kdone⟩

/-- VT, C and U after an update that steers (R4, R9). -/
theorem update_rates (h : s.tsu.clock = .acquiring ∨ s.tsu.clock = .tracking) (hs : s.stepDue x.theta = false) :
    (takeSample s x).tsu.vt = s.tsu.vt ∧ (takeSample s x).tsu.frac = s.tsu.frac
      ∧ (takeSample s x).tsu.u = min 16777215 (s.tsu.limits.baseU + min x.j 16777215 + x.theta.natAbs)
      ∧ (takeSample s x).tsu.c = clampRate (clampInt (x.f - s.tsu.limits.slewLimit) (x.f + s.tsu.limits.slewLimit)
          (divRound (x.f * s.tsu.limits.tau - 1000 * x.theta) s.tsu.limits.tau)) := by
  obtain ⟨hvt, hfrac, hc, -, hu⟩ := steered_fields (s.sampled x).tsu x.theta x.j
  obtain ⟨kfrac, -, -, -, -, -, -, -, -, -, -, klimits⟩ := (leapOnly_sampled s x).fields
  have kvt : (s.sampled x).tsu.vt = s.tsu.vt := (leapOnly_sampled s x).vt
  have samplingLimits : (s.tsu.sampling x).limits = s.tsu.limits := rfl
  rw [klimits, samplingLimits] at hu
  rw [update_steered_tsu h hs]
  exact ⟨hvt.trans kvt, hfrac.trans kfrac, hu, hc.trans (sampled_steered s x)⟩

/-- What every update leaves of the clock and around it. -/
theorem update_frame (h : s.tsu.clock = .acquiring ∨ s.tsu.clock = .tracking) :
    (takeSample s x).tsu.vtSet = true ∧ (takeSample s x).tsu.f = x.f ∧ (takeSample s x).tsu.theta = x.theta
      ∧ (takeSample s x).tsu.lastJ = min x.j 16777215 ∧ (takeSample s x).tsu.limits = s.tsu.limits
      ∧ (takeSample s x).tsu.selected = s.tsu.selected ∧ (takeSample s x).tsu.aided = s.tsu.aided
      ∧ (takeSample s x).rfe = s.rfe ∧ AroundClock s (takeSample s x) := by
  obtain ⟨hset, hf, htheta, hj, hlimits, hsel, haided, hrfe, around⟩ := updated_frame s x
  obtain ⟨kept, -, rfe⟩ := carried_update h (x := x)
  rw [update_tsu h]
  exact ⟨hset, hf, htheta, hj, hlimits, hsel, haided, rfe.trans hrfe, around.trans kept⟩

theorem not_stepDue_iff (s : State) (theta : Int) :
    s.stepDue theta = false ↔ s.sis.state ≠ .closed ∨ theta.natAbs ≤ s.tsu.limits.stepThreshold := by
  simp [State.stepDue, or_iff_not_imp_left]

theorem stepDue_iff (s : State) (theta : Int) :
    s.stepDue theta = true ↔ s.sis.state = .closed ∧ s.tsu.limits.stepThreshold < theta.natAbs := by
  simp [State.stepDue]

end

/-! ## The statement -/

/-- Settles O26, by the label (`sampled_…`), the correction by steering or by a step (`update_…`) and the change handed on. -/
theorem updateSteersOrSteps : Obligations.UpdateSteersOrSteps := by
  unfold Obligations.UpdateSteersOrSteps
  intro s x h theta t l j k own early adopted label pending day traceable clockState differ outOfRange leap conflict
  have early_eq : early = s.tsu.labelAhead k := (labelAhead_eq s.tsu k).symm
  have adopted_eq : adopted = s.tsu.adopts k := congrArg (fun b => k != own && !b) early_eq
  have label_eq : label = x.warning.announcedBy k := rfl
  have pending_eq : pending = s.tsu.pendingAfter k x.warning := by
    unfold Tsu.pendingAfter
    rw [← early_eq]
    rfl
  have day_eq : day = s.tsu.dayAfter k := by
    unfold Tsu.dayAfter
    rw [← adopted_eq]
  have theta_eq : theta = x.theta := rfl
  clear_value pending day adopted early label theta
  subst early_eq adopted_eq label_eq pending_eq day_eq theta_eq
  have shown : AroundClock (s.sampled x) t := around_update h
  refine ⟨update_frame h, fun steers => ?_, fun hk he => ?_, fun ha => ⟨?_, fun hv => ?_⟩,
    fun hk => ⟨fun hr ho => ?_, fun hd ho => ?_, fun he hp => ?_⟩, fun closed beyond => ?_⟩
  · have hs : s.stepDue x.theta = false := (not_stepDue_iff s x.theta).2 steers
    obtain ⟨hvt, hfrac, hu, hc⟩ := update_rates h hs
    refine ⟨hvt, hfrac, fun hk => ?_, fun changed => ?_, hu, hc, fun acquiring => ?_, fun tracking => ?_⟩
    · obtain ⟨hcount, hlabel, hhost, hpending, hday, hlatched, hdone⟩ := update_leap h hs hk
      exact ⟨hcount, hlabel, hhost, hpending, hday, hlatched, hdone, update_start h hs hk⟩
    · obtain ⟨recorded, noticed⟩ := update_recorded h (along_steered hs) (by omega) changed
      rw [update_steered_code h hs] at recorded
      exact ⟨recorded, noticed⟩
    · exact update_acquiring_told acquiring hs
    · exact update_tracking_told tracking hs
  · obtain ⟨recorded, noticed⟩ := sampled_applied s x hk he
    exact ⟨recorded.around shown, noticed.around shown⟩
  · exact (sampled_adopted s x ha).around shown
  · obtain ⟨recorded, noticed⟩ := sampled_countConflict s x ha hv
    exact ⟨(recorded.around shown).offeredAfter_open rfl (Nat.le_refl 9), noticed.around shown⟩
  · exact ((sampled_rangeConflict s x hk hr ho).around shown).offeredAfter_open rfl (Nat.le_refl 10)
  · exact ((sampled_differ s x hk hd ((sourcesDiffer_iff s.tsu).not.2 ho)).around shown).offeredAfter_open rfl (Nat.le_refl 10)
  · obtain ⟨withdrawn, announced, noticed⟩ := sampled_pending s x hk he hp
    exact ⟨fun hn => ((withdrawn hn).around shown).offeredAfter rfl (Nat.le_refl 1) (by omega),
      fun hn => ((announced hn).around shown).offeredAfter rfl (Nat.le_refl 2) (by omega), noticed.around shown⟩
  · have hs : s.stepDue x.theta = true := (stepDue_iff s x.theta).2 ⟨closed, beyond⟩
    obtain ⟨hvt, hfrac, hc, hu, hclock, hlock, hunlock, -⟩ := update_stepped_tsu h hs
    obtain ⟨recorded, noticed⟩ := update_step_recorded h hs
    refine ⟨hvt, hfrac, hc, hu, hclock, hlock, hunlock, fun changed => ?_, recorded, noticed, fun hk => ?_⟩
    · obtain ⟨recorded, noticed⟩ := update_recorded h (along_stepped hs) (by omega) changed
      rw [update_stepped_code h hs changed] at recorded
      exact ⟨recorded, noticed⟩
    · exact update_moved h hs hk

end Sys2Proof.Machine
end

