-- ==== Sys2Proof/Proofs/Intervals.lean ====
section
/-!
PROOFS. Proofs/Intervals.lean: what the judgement of an interval is made of: the label stream moved on, a bad interval, a good interval and
the profile identified; and the statement of the judgement (R26 to R32).
-/
namespace Sys2Proof.Machine

/-! ## The label stream (R26) -/

/-- The label matters of a reference are as they were. -/
structure SameLabels (r x : Ref) : Prop where
  config : x.config = r.config
  held : x.heldLabel = r.heldLabel
  bad : x.labelBad = r.labelBad
  second : x.lastSecond = r.lastSecond
  last : x.lastLabel = r.lastLabel

theorem LabelsMovedOn.congr {i : Fin 3} {r r' x x' : Ref} (h : LabelsMovedOn i r x) (hr : SameLabels r r') (hx : SameLabels x x') :
    LabelsMovedOn i r' x' where
  unlabelled := by rw [hr.config, hr.held, hr.bad, hr.second, hr.last, hx.held, hx.bad, hx.second, hx.last]; exact h.unlabelled
  closed := by rw [hr.config, hx.held, hx.bad]; exact h.closed
  taken := by rw [hr.config, hr.held, hx.second, hx.last]; exact h.taken
  missed := by rw [hr.config, hr.held, hr.second, hr.last, hx.second, hx.last]; exact h.missed

theorem labelled_iff (r : Ref) (i : Fin 3) : r.labelled i = true ↔ i.val < 2 ∧ r.config.labelUse = true := by
  simp [Ref.labelled]

theorem closeLabels_unlabelled (r : Ref) (i : Fin 3) (h : ¬ r.labelled i = true) : r.closeLabels i = r := if_neg h

theorem closeLabels_held (r : Ref) (i : Fin 3) (l : Label) (h : r.labelled i = true) (hl : r.heldLabel = some l) :
    r.closeLabels i = { r with lastSecond := some l.second, lastLabel := some l, heldLabel := none, labelBad := false } := by
  rw [Ref.closeLabels, if_pos h, hl]

theorem closeLabels_missed (r : Ref) (i : Fin 3) (h : r.labelled i = true) (hl : r.heldLabel = none) :
    r.closeLabels i = { r with lastSecond := r.lastSecond.map (freeSucc 6 1099511627775), labelBad := false } := by
  rw [Ref.closeLabels, if_pos h, hl]

/-- The close of the label stream moves label matters alone. -/
theorem closeLabels_frame (r : Ref) (i : Fin 3) : r.closeLabels i =
    { r with lastSecond := (r.closeLabels i).lastSecond, lastLabel := (r.closeLabels i).lastLabel,
             heldLabel := (r.closeLabels i).heldLabel, labelBad := (r.closeLabels i).labelBad } := by
  by_cases h : r.labelled i = true
  · cases hl : r.heldLabel with
    | none => rw [closeLabels_missed r i h hl]
    | some l => rw [closeLabels_held r i l h hl]
  · rw [closeLabels_unlabelled r i h]

theorem labelsMovedOn_closeLabels (r : Ref) (i : Fin 3) : LabelsMovedOn i r (r.closeLabels i) := by
  by_cases h : r.labelled i = true
  · have use := (labelled_iff r i).1 h
    cases hl : r.heldLabel with
    | none =>
      rw [closeLabels_missed r i h hl]
      refine ⟨fun k => absurd use k, fun _ _ => ⟨hl, rfl⟩, fun l _ _ k => ?_, fun _ _ _ => ⟨rfl, fun k => ?_, fun n k hn => ?_⟩⟩
      · rw [hl] at k; cases k
      · simp only [k, Option.map_none]
      · simp only [k, Option.map_some, freeSucc, if_pos hn]
    | some l =>
      rw [closeLabels_held r i l h hl]
      refine ⟨fun k => absurd use k, fun _ _ => ⟨rfl, rfl⟩, fun m _ _ k => ?_, fun _ _ k => ?_⟩
      · cases hl.symm.trans k; exact ⟨rfl, rfl⟩
      · rw [hl] at k; cases k
  · have unused := (not_congr (labelled_iff r i)).1 h
    rw [closeLabels_unlabelled r i h]
    exact ⟨fun _ => ⟨rfl, rfl, rfl, rfl⟩, fun k₁ k₂ => absurd ⟨k₁, k₂⟩ unused, fun _ k₁ k₂ => absurd ⟨k₁, k₂⟩ unused,
      fun k₁ k₂ => absurd ⟨k₁, k₂⟩ unused⟩

/-- The conditions of R26 on a closing interval. -/
theorem labelsPass_iff (r : Ref) (i : Fin 3) : r.labelsPass i = true ↔
    ¬ (i.val < 2 ∧ r.config.labelUse = true) ∨ ∃ l m, r.heldLabel = some l ∧ r.lastSecond = some m ∧ r.labelBad = false
      ∧ l.second = m + 1 ∧ l.traceable = true := by
  rw [← labelled_iff]
  have conditions : r.labelConditions = true ↔ ∃ l m, r.heldLabel = some l ∧ r.lastSecond = some m ∧ r.labelBad = false
      ∧ l.second = m + 1 ∧ l.traceable = true := by
    unfold Ref.labelConditions
    cases r.heldLabel <;> cases r.lastSecond <;> simp [and_assoc]
  rw [← conditions]
  simp [Ref.labelsPass]

/-! ## A bad interval (R27, R29, R30) -/

theorem degrade_searching (r : Ref) (h : r.state = .searching) : r.degrade = r := by rw [Ref.degrade, h]

theorem degrade_candidate (r : Ref) (h : r.state = .candidate) :
    r.degrade = { r with state := .searching, lock := 0, candidate := none } := by rw [Ref.degrade, h]

theorem degrade_missed (r : Ref) (h : r.state = .qualified) (hm : r.miss + 1 < r.config.unlockValue) :
    r.degrade = { r with miss := r.miss + 1 } := by
  simp only [Ref.degrade, h, if_neg (Nat.not_le.2 hm)]

theorem degrade_unlocked (r : Ref) (h : r.state = .qualified) (hm : r.config.unlockValue ≤ r.miss + 1) :
    r.degrade = { r with state := .searching, miss := 0, lock := 0, candidate := none } := by
  rw [Ref.degrade, h]
  exact if_pos hm

/-- A bad interval moves the qualification machine alone. -/
theorem degrade_frame (r : Ref) : r.degrade =
    { r with state := r.degrade.state, lock := r.degrade.lock, miss := r.degrade.miss, candidate := r.degrade.candidate } := by
  cases h : r.state with
  | disabled => rw [Ref.degrade, h]
  | searching => rw [degrade_searching r h]
  | candidate => rw [degrade_candidate r h]
  | qualified =>
    by_cases hm : r.miss + 1 < r.config.unlockValue
    · rw [degrade_missed r h hm]
    · rw [degrade_unlocked r h (by omega)]

/-- A bad interval counted by its cause touches the counters of R27 alone. -/
theorem countBad_frame (r : Ref) (c : RefCause) : r.countBad c =
    { r with badTiming := (r.countBad c).badTiming, badMissing := (r.countBad c).badMissing,
             badOverrun := (r.countBad c).badOverrun, badLabel := (r.countBad c).badLabel } := by
  cases c <;> rfl

theorem sameLabels_bad (r : Ref) (c : RefCause) : SameLabels r (r.bad c).ref := by
  rw [Ref.bad, degrade_frame, countBad_frame]
  exact ⟨rfl, rfl, rfl, rfl, rfl⟩

theorem labelsMovedOn_bad (r : Ref) (i : Fin 3) (c : RefCause) : LabelsMovedOn i r ((r.bad c).ref.closeLabels i) := by
  obtain ⟨config, held, bad, second, last⟩ := sameLabels_bad r c
  exact (labelsMovedOn_closeLabels (r.bad c).ref i).congr ⟨config.symm, held.symm, bad.symm, second.symm, last.symm⟩
    ⟨rfl, rfl, rfl, rfl, rfl⟩

/-- What every bad interval leaves: no sample, and the offset, the estimators' spread and the good count as they were. -/
def RefStep.IsBad (r : Ref) (j : RefStep) : Prop :=
  j.good = false ∧ j.sample = none ∧ j.ref.offset = r.offset ∧ j.ref.j16 = r.j16 ∧ j.ref.good = r.good

/-- What a bad interval does to the qualification of a reference that follows a candidate profile. -/
structure Degraded (r : Ref) (x : Ref) : Prop where
  candidate : r.state = .candidate → x.state = .searching ∧ x.lock = 0 ∧ x.candidate = none
  missed : r.state = .qualified → r.miss + 1 < r.config.unlockValue → x.state = .qualified ∧ x.miss = r.miss + 1
  unlocked : r.state = .qualified → r.config.unlockValue ≤ r.miss + 1 →
    x.state = .searching ∧ x.miss = 0 ∧ x.lock = 0 ∧ x.candidate = none

theorem degraded_degrade (r : Ref) : Degraded r r.degrade where
  candidate h := by rw [degrade_candidate r h]; exact ⟨rfl, rfl, rfl⟩
  missed h hm := by rw [degrade_missed r h hm]; exact ⟨h, rfl⟩
  unlocked h hm := by rw [degrade_unlocked r h hm]; exact ⟨rfl, rfl, rfl, rfl⟩

theorem degraded_bad (r : Ref) (c : RefCause) : Degraded r (r.bad c).ref := by
  have h := degraded_degrade (r.countBad c)
  rw [countBad_frame r c] at h
  rw [Ref.bad, countBad_frame r c]
  exact ⟨h.candidate, h.missed, h.unlocked⟩

theorem bad_isBad (r : Ref) (c : RefCause) : (r.bad c).IsBad r := by
  have kept : (r.bad c).ref.offset = r.offset ∧ (r.bad c).ref.j16 = r.j16 ∧ (r.bad c).ref.good = r.good := by
    rw [Ref.bad, degrade_frame, countBad_frame]
    exact ⟨rfl, rfl, rfl⟩
  exact ⟨rfl, rfl, kept⟩

/-- What the reference of a bad interval has kept beside its label matters, and which counter was moved. -/
theorem bad_kept (r : Ref) (c : RefCause) :
    (r.bad c).ref.anchor = r.anchor ∧ (r.bad c).ref.cell = r.cell ∧ (r.bad c).ref.f = r.f ∧ (r.bad c).ref.fValid = r.fValid
      ∧ (r.bad c).ref.overrunsDue = r.overrunsDue ∧ (r.bad c).ref.badTiming = (r.countBad c).badTiming
      ∧ (r.bad c).ref.badMissing = (r.countBad c).badMissing ∧ (r.bad c).ref.badOverrun = (r.countBad c).badOverrun
      ∧ (r.bad c).ref.badLabel = (r.countBad c).badLabel := by
  rw [Ref.bad, degrade_frame]
  refine ⟨?_, ?_, ?_, ?_, ?_, rfl, rfl, rfl, rfl⟩ <;> rw [countBad_frame]

/-! ## An interval closed as bad -/

/-- Everything but its anchor and the label stream is the bad interval's. -/
theorem closeBad_frame (r : Ref) (i : Fin 3) (edge : Edge) (c : RefCause) : (r.closeBad i edge c).ref =
    { (r.bad c).ref with
      anchor := some edge.phase, lastSecond := ((r.bad c).ref.closeLabels i).lastSecond,
      lastLabel := ((r.bad c).ref.closeLabels i).lastLabel, heldLabel := ((r.bad c).ref.closeLabels i).heldLabel,
      labelBad := ((r.bad c).ref.closeLabels i).labelBad } := by
  rw [Ref.closeBad, closeLabels_frame]

theorem closeBad_labels (r : Ref) (i : Fin 3) (edge : Edge) (c : RefCause) : LabelsMovedOn i r (r.closeBad i edge c).ref :=
  (labelsMovedOn_bad r i c).congr ⟨rfl, rfl, rfl, rfl, rfl⟩ ⟨rfl, rfl, rfl, rfl, rfl⟩

theorem closeBad_isBad (r : Ref) (i : Fin 3) (edge : Edge) (c : RefCause) : (r.closeBad i edge c).IsBad r := by
  obtain ⟨-, -, kept⟩ := bad_isBad r c
  rw [RefStep.IsBad, closeBad_frame]
  exact ⟨rfl, rfl, kept⟩

theorem degraded_closeBad (r : Ref) (i : Fin 3) (edge : Edge) (c : RefCause) : Degraded r (r.closeBad i edge c).ref := by
  obtain ⟨candidate, missed, unlocked⟩ := degraded_bad r c
  rw [closeBad_frame]
  exact ⟨candidate, missed, unlocked⟩

/-- The rest of what an interval closed as bad leaves. -/
theorem closeBad_kept (r : Ref) (i : Fin 3) (edge : Edge) (c : RefCause) :
    (r.closeBad i edge c).cause = c ∧ (r.closeBad i edge c).ref.anchor = some edge.phase
      ∧ (r.closeBad i edge c).ref.f = r.f ∧ (r.closeBad i edge c).ref.fValid = r.fValid
      ∧ (r.closeBad i edge c).ref.badTiming = (r.countBad c).badTiming
      ∧ (r.closeBad i edge c).ref.badLabel = (r.countBad c).badLabel := by
  obtain ⟨-, -, hf, hv, -, htiming, -, -, hlabel⟩ := bad_kept r c
  rw [closeBad_frame]
  exact ⟨rfl, rfl, hf, hv, htiming, hlabel⟩

theorem closeBad_searching (r : Ref) (i : Fin 3) (edge : Edge) (c : RefCause) (h : r.state = .searching) :
    (r.closeBad i edge c).ref.state = .searching := by
  have hs : (r.countBad c).state = .searching := by rw [countBad_frame]; exact h
  rw [closeBad_frame]
  show (r.countBad c).degrade.state = _
  rw [degrade_searching _ hs, hs]

/-! ## A good interval (R27 to R32) -/

theorem advance_qualified (r : Ref) (p : Profile) (h : r.state = .qualified) : (r.advance p).1 = { r with miss := 0 } := by
  rw [Ref.advance, h]

theorem advance_locks (r : Ref) (p : Profile) (h : r.state = .candidate) (hl : r.config.lockValue ≤ r.lock + 1) :
    (r.advance p).1 = { r with state := .qualified, lock := r.config.lockValue, miss := 0 } := by
  rw [Ref.advance, h]
  exact congrArg Prod.fst (if_pos hl)

theorem advance_counts (r : Ref) (p : Profile) (h : r.state = .candidate) (hl : r.lock + 1 < r.config.lockValue) :
    (r.advance p).1 = { r with lock := r.lock + 1 } := by
  simp only [Ref.advance, h, if_neg (Nat.not_le.2 hl)]

theorem advance_matched (r : Ref) (p : Profile) (h : r.state = .searching) :
    (r.advance p).1.candidate = some p ∧ (r.advance p).1.lock = 1
      ∧ (r.advance p).1.state = if r.config.lockValue ≤ 1 then .qualified else .candidate := by
  rw [Ref.advance, h]
  by_cases hl : r.config.lockValue ≤ 1 <;> simp only [hl, if_true, if_false, and_self]

/-- A good interval moves the qualification machine alone, beside its estimators. -/
theorem advance_frame (r : Ref) (p : Profile) : (r.advance p).1 =
    { r with state := (r.advance p).1.state, candidate := (r.advance p).1.candidate, lock := (r.advance p).1.lock,
             miss := (r.advance p).1.miss } := by
  cases h : r.state with
  | disabled => rw [Ref.advance, h]
  | searching => by_cases hl : r.config.lockValue ≤ 1 <;> simp only [Ref.advance, h, hl, if_true, if_false]
  | candidate =>
    by_cases hl : r.config.lockValue ≤ r.lock + 1
    · rw [advance_locks r p h hl]
    · rw [advance_counts r p h (by omega)]
  | qualified => rw [advance_qualified r p h]

/-- The reference of a good interval, its estimators moved, before its qualification is judged. -/
def Ref.estimated (r : Ref) (p : Profile) (n : Nat) : Ref :=
  { r with good := sat32 r.good }.estimate (r.intervalError p n) (frequencySample p n)

/-- A good interval of `n` eighths against its profile. -/
abbrev Ref.goodAgainst (r : Ref) (i : Fin 3) (edge : Edge) (p : Profile) (n : Nat) : RefStep :=
  r.goodInterval i edge p (r.intervalError p n) (frequencySample p n)

/-- Everything but its anchor, its offset and the label stream is as the advance left it. -/
theorem goodAgainst_frame (r : Ref) (i : Fin 3) (edge : Edge) (p : Profile) (n : Nat) :
    (r.goodAgainst i edge p n).ref =
      { ((r.estimated p n).advance p).1 with
        anchor := some edge.phase, offset := (r.goodAgainst i edge p n).ref.offset,
        lastSecond := (((r.estimated p n).advance p).1.closeLabels i).lastSecond,
        lastLabel := (((r.estimated p n).advance p).1.closeLabels i).lastLabel,
        heldLabel := (((r.estimated p n).advance p).1.closeLabels i).heldLabel,
        labelBad := (((r.estimated p n).advance p).1.closeLabels i).labelBad } :=
  congrArg (fun x : Ref => { x with anchor := some edge.phase, offset := (r.goodAgainst i edge p n).ref.offset })
    (closeLabels_frame ((r.estimated p n).advance p).1 i)

/-- What a good interval leaves (R31, R32): the estimators moved, the interval counted, the anchor and the label stream moved on, and of
a labelled reference the sample and the offset of its label. -/
def RefStep.IsGood (r : Ref) (i : Fin 3) (edge : Edge) (n : Nat) (p : Profile) (j : RefStep) : Prop :=
  j.ref.j16 = (divRound (15 * r.j16 + 16 * (r.intervalError p n).natAbs) 16).toNat
    ∧ j.ref.f = clampRate (divRound (7 * r.f + frequencySample p n) 8)
    ∧ j.ref.good = sat32 r.good ∧ j.good = true ∧ j.ref.anchor = some edge.phase ∧ LabelsMovedOn i r j.ref
    ∧ (∀ l, i.val < 2 ∧ r.config.labelUse = true → r.heldLabel = some l →
        j.sample = some ⟨edge.vt, l.second, l.leapCount, l.warning, j.ref.f, (j.ref.j16 + 15) / 16⟩
          ∧ j.ref.offset = some ⟨(edge.vt : Int) - l.second * 1000000000, l.second, edge.phase⟩)
    ∧ (¬ (i.val < 2 ∧ r.config.labelUse = true) → j.sample = none ∧ j.ref.offset = r.offset)

theorem goodAgainst_labels (r : Ref) (i : Fin 3) (edge : Edge) (p : Profile) (n : Nat) :
    LabelsMovedOn i r (r.goodAgainst i edge p n).ref := by
  have back : SameLabels ((r.estimated p n).advance p).1 r := by
    rw [advance_frame]
    exact ⟨rfl, rfl, rfl, rfl, rfl⟩
  exact (labelsMovedOn_closeLabels _ i).congr back ⟨rfl, rfl, rfl, rfl, rfl⟩

/-- The sample and the offset of a labelled good interval are those of the held label. -/
theorem goodAgainst_labelled (r : Ref) (i : Fin 3) (edge : Edge) (p : Profile) (n : Nat) (l : Label) (h : r.labelled i = true)
    (hl : r.heldLabel = some l) :
    (r.goodAgainst i edge p n).sample = some ⟨edge.vt, l.second, l.leapCount, l.warning, (r.goodAgainst i edge p n).ref.f,
        ((r.goodAgainst i edge p n).ref.j16 + 15) / 16⟩
      ∧ (r.goodAgainst i edge p n).ref.offset = some ⟨(edge.vt : Int) - l.second * 1000000000, l.second, edge.phase⟩ := by
  have held : (if r.labelled i then r.heldLabel else none) = some l := by rw [if_pos h, hl]
  simp only [Ref.goodAgainst, Ref.goodInterval, held]
  exact ⟨rfl, rfl⟩

/-- An unlabelled good interval gives no sample and leaves the offset. -/
theorem goodAgainst_unlabelled (r : Ref) (i : Fin 3) (edge : Edge) (p : Profile) (n : Nat) (h : ¬ r.labelled i = true) :
    (r.goodAgainst i edge p n).sample = none ∧ (r.goodAgainst i edge p n).ref.offset = r.offset := by
  have held : (if r.labelled i then r.heldLabel else none) = none := if_neg h
  have kept : (((r.estimated p n).advance p).1.closeLabels i).offset = r.offset := by
    rw [closeLabels_frame, advance_frame]
    rfl
  simp only [Ref.goodAgainst, Ref.goodInterval, held]
  exact ⟨rfl, kept⟩

theorem goodAgainst_isGood (r : Ref) (i : Fin 3) (edge : Edge) (p : Profile) (n : Nat) :
    (r.goodAgainst i edge p n).IsGood r i edge n p := by
  have advanced : ((r.estimated p n).advance p).1.j16 = (r.estimated p n).j16
      ∧ ((r.estimated p n).advance p).1.f = (r.estimated p n).f ∧ ((r.estimated p n).advance p).1.good = sat32 r.good := by
    rw [advance_frame]
    exact ⟨rfl, rfl, rfl⟩
  have same : (r.goodAgainst i edge p n).ref.j16 = (r.estimated p n).j16
      ∧ (r.goodAgainst i edge p n).ref.f = (r.estimated p n).f ∧ (r.goodAgainst i edge p n).ref.good = sat32 r.good := by
    rw [goodAgainst_frame]
    exact advanced
  obtain ⟨hj, hf, hgood⟩ := same
  refine ⟨hj, hf, hgood, rfl, rfl, goodAgainst_labels r i edge p n, fun l h hl => ?_, fun h => ?_⟩
  · exact goodAgainst_labelled r i edge p n l ((labelled_iff r i).2 h) hl
  · exact goodAgainst_unlabelled r i edge p n (fun k => h ((labelled_iff r i).1 k))

/-- The qualification machine after a good interval is the advance's. -/
theorem goodAgainst_machine (r : Ref) (i : Fin 3) (edge : Edge) (p : Profile) (n : Nat) :
    (r.goodAgainst i edge p n).ref.state = ((r.estimated p n).advance p).1.state
      ∧ (r.goodAgainst i edge p n).ref.candidate = ((r.estimated p n).advance p).1.candidate
      ∧ (r.goodAgainst i edge p n).ref.lock = ((r.estimated p n).advance p).1.lock
      ∧ (r.goodAgainst i edge p n).ref.miss = ((r.estimated p n).advance p).1.miss := by
  rw [goodAgainst_frame]
  exact ⟨rfl, rfl, rfl, rfl⟩

/-- What a good interval does to the qualification of a reference that follows a candidate profile (R29, R30). -/
structure Advanced (r x : Ref) : Prop where
  qualified : r.state = .qualified → x.state = .qualified ∧ x.miss = 0
  locks : r.state = .candidate → r.config.lockValue ≤ r.lock + 1 →
    x.state = .qualified ∧ x.lock = r.config.lockValue ∧ x.miss = 0
  counts : r.state = .candidate → r.lock + 1 < r.config.lockValue → x.state = .candidate ∧ x.lock = r.lock + 1

theorem advanced_goodAgainst (r : Ref) (i : Fin 3) (edge : Edge) (p : Profile) (n : Nat) :
    Advanced r (r.goodAgainst i edge p n).ref := by
  obtain ⟨hstate, -, hlock, hmiss⟩ := goodAgainst_machine r i edge p n
  refine ⟨fun h => ?_, fun h hl => ?_, fun h hl => ?_⟩
  · rw [hstate, hmiss, advance_qualified (r.estimated p n) p h]; exact ⟨h, rfl⟩
  · rw [hstate, hlock, hmiss, advance_locks (r.estimated p n) p h hl]; exact ⟨rfl, rfl, rfl⟩
  · rw [hstate, hlock, advance_counts (r.estimated p n) p h hl]; exact ⟨h, rfl⟩

/-- A good interval in SEARCHING makes its profile the candidate (R28). -/
theorem goodAgainst_matched (r : Ref) (i : Fin 3) (edge : Edge) (p : Profile) (n : Nat) (h : r.state = .searching) :
    (r.goodAgainst i edge p n).ref.candidate = some p ∧ (r.goodAgainst i edge p n).ref.lock = 1
      ∧ (r.goodAgainst i edge p n).ref.state = if r.config.lockValue ≤ 1 then .qualified else .candidate := by
  obtain ⟨hstate, hcandidate, hlock, -⟩ := goodAgainst_machine r i edge p n
  rw [hstate, hcandidate, hlock]
  exact advance_matched (r.estimated p n) p h

/-! ## The profile identified (R28) -/

/-- An interval within 100 ppm of a profile is within a thousandth of it. -/
theorem nominal_near (p : Profile) (n : Nat) (h : (frequencySample p n).natAbs ≤ 100000000) :
    999 * p.nominal ≤ 1000 * n ∧ 1000 * n ≤ 1001 * p.nominal := by
  unfold frequencySample divRound at h
  cases p <;> simp only [Profile.nominal, Nat.cast_ofNat] at h ⊢ <;> omega

/-- No interval is within 100 ppm of two profiles. -/
theorem matching_unique (p q : Profile) (n : Nat) (hp : (frequencySample p n).natAbs ≤ 100000000)
    (hq : (frequencySample q n).natAbs ≤ 100000000) : p = q := by
  have near_p := nominal_near p n hp
  have near_q := nominal_near q n hq
  cases p <;> cases q <;> simp only [Profile.nominal, reduceCtorEq] at near_p near_q ⊢ <;> omega

/-- A profile that is enabled and within 100 ppm of the interval (R28). -/
def Ref.Matches (r : Ref) (n : Nat) (p : Profile) : Prop :=
  (frequencySample p n).natAbs ≤ 100000000 ∧ (p = .hz1 → r.config.hz1 = true) ∧ (p = .hz10 → r.config.hz10 = true)
    ∧ (p = .hz100 → r.config.hz100 = true)

theorem matches_iff (r : Ref) (n : Nat) (p : Profile) : r.Matches n p ↔
    (r.config.enables p && decide ((frequencySample p n).natAbs ≤ Config.maxRate)) = true := by
  rw [Bool.and_eq_true, decide_eq_true_eq, and_comm]
  exact and_congr_right fun _ => by cases p <;> simp [RefConfig.enables]

theorem identified_of_matches (r : Ref) (n : Nat) (p : Profile) (h : r.Matches n p) : r.identified n = some p := by
  have found : (r.identified n).isSome = true :=
    List.find?_isSome.2 ⟨p, by cases p <;> simp, (matches_iff r n p).1 h⟩
  obtain ⟨q, hq⟩ := Option.isSome_iff_exists.1 found
  have hm : r.Matches n q := (matches_iff r n q).2
    (List.find?_some (p := fun p => r.config.enables p && decide ((frequencySample p n).natAbs ≤ Config.maxRate)) hq)
  rw [hq, matching_unique q p n hm.1 h.1]

theorem identified_none (r : Ref) (n : Nat) (h : ∀ p, ¬ r.Matches n p) : r.identified n = none :=
  List.find?_eq_none.2 fun p _ => fun k => h p ((matches_iff r n p).2 k)

/-! ## The judgement -/

theorem judgeEdge_tracked (r : Ref) (i : Fin 3) (edge : Edge) (n : Nat) (p : Profile) (h : r.candidate = some p) :
    r.judgeEdge i edge n = r.judgeTracked i edge n p := by rw [Ref.judgeEdge, h]

theorem judgeEdge_searching (r : Ref) (i : Fin 3) (edge : Edge) (n : Nat) (h : r.candidate = none) :
    r.judgeEdge i edge n = r.judgeSearching i edge n := by rw [Ref.judgeEdge, h]

section
variable (r : Ref) (i : Fin 3) (edge : Edge) (n : Nat) (p : Profile)

theorem judgeTracked_early (h : r.intervalError p n < -(bandOf r.config.bandClass : Int)) :
    r.judgeTracked i edge n p = r.bad .timing := if_pos h

theorem judgeTracked_late (h : (bandOf r.config.bandClass : Int) < r.intervalError p n) :
    r.judgeTracked i edge n p = r.closeBad i edge .timing := (if_neg (by omega)).trans (if_pos h)

theorem judgeTracked_within (lo : -(bandOf r.config.bandClass : Int) ≤ r.intervalError p n)
    (hi : r.intervalError p n ≤ bandOf r.config.bandClass) : r.judgeTracked i edge n p =
      if r.labelsPass i then r.goodAgainst i edge p n else r.closeBad i edge .label :=
  (if_neg (by omega)).trans (if_neg (by omega))

/-- Against a candidate profile an interval is good, or bad and the qualification degraded. -/
theorem judgeTracked_cases : r.judgeTracked i edge n p = r.goodAgainst i edge p n
    ∨ (r.judgeTracked i edge n p).IsBad r ∧ Degraded r (r.judgeTracked i edge n p).ref := by
  rcases Int.lt_or_le (r.intervalError p n) (-(bandOf r.config.bandClass : Int)) with lo | lo
  · rw [judgeTracked_early r i edge n p lo]
    exact .inr ⟨bad_isBad r _, degraded_bad r _⟩
  · rcases Int.lt_or_le (bandOf r.config.bandClass : Int) (r.intervalError p n) with hi | hi
    · rw [judgeTracked_late r i edge n p hi]
      exact .inr ⟨closeBad_isBad r i edge _, degraded_closeBad r i edge _⟩
    · rw [judgeTracked_within r i edge n p lo hi]
      split
      · exact .inl rfl
      · exact .inr ⟨closeBad_isBad r i edge _, degraded_closeBad r i edge _⟩

/-- A reference given a frequency estimate by an interval that matched its profile without meeting the band (R28). -/
def Ref.seeded (r : Ref) (p : Profile) (n : Nat) : Ref := { r with f := frequencySample p n, fValid := true }

theorem judgeSearching_unmatched (h : ∀ p, ¬ r.Matches n p) : r.judgeSearching i edge n = r.closeBad i edge .timing := by
  rw [Ref.judgeSearching, identified_none r n h]

theorem judgeSearching_within (h : r.Matches n p) (hv : r.fValid = true)
    (he : (r.intervalError p n).natAbs ≤ bandOf r.config.bandClass) : r.judgeSearching i edge n =
      if r.labelsPass i then r.goodAgainst i edge p n else r.closeBad i edge .label := by
  rw [Ref.judgeSearching, identified_of_matches r n p h]
  exact if_pos ⟨hv, he⟩

theorem judgeSearching_seeds (h : r.Matches n p)
    (hv : r.fValid = false ∨ bandOf r.config.bandClass < (r.intervalError p n).natAbs) :
    r.judgeSearching i edge n = (r.seeded p n).closeBad i edge .timing := by
  have out : ¬ (r.fValid = true ∧ (r.intervalError p n).natAbs ≤ bandOf r.config.bandClass) := by
    rintro ⟨valid, within⟩
    rcases hv with hv | hv
    · rw [valid] at hv; cases hv
    · omega
  rw [Ref.judgeSearching, identified_of_matches r n p h]
  exact if_neg out

/-- In SEARCHING too an interval is good, or bad. -/
theorem judgeSearching_cases : (∃ p, r.judgeSearching i edge n = r.goodAgainst i edge p n)
    ∨ (r.judgeSearching i edge n).IsBad r := by
  unfold Ref.judgeSearching
  split
  · exact .inr (closeBad_isBad r i edge _)
  · rename_i p _
    simp only []
    split
    · split
      · exact .inl ⟨p, rfl⟩
      · exact .inr (closeBad_isBad r i edge _)
    · exact .inr (closeBad_isBad (r.seeded p n) i edge _)

/-- An interval judged is good, or bad. -/
theorem judgeEdge_cases : (∃ p, r.judgeEdge i edge n = r.goodAgainst i edge p n) ∨ (r.judgeEdge i edge n).IsBad r := by
  cases h : r.candidate with
  | none =>
    rw [judgeEdge_searching r i edge n h]
    exact judgeSearching_cases r i edge n
  | some p =>
    rw [judgeEdge_tracked r i edge n p h]
    exact (judgeTracked_cases r i edge n p).imp (fun e => ⟨p, e⟩) And.left

/-- Without a good interval there is no sample. -/
theorem judgeEdge_sample (h : (r.judgeEdge i edge n).good = false) : (r.judgeEdge i edge n).sample = none := by
  rcases judgeEdge_cases r i edge n with ⟨p, e⟩ | ⟨-, sample, -⟩
  · rw [e] at h; cases h
  · exact sample

/-- A good interval does not end QUALIFIED. -/
theorem judgeEdge_stays (h : (r.judgeEdge i edge n).good = true) (hq : r.state = .qualified) :
    (r.judgeEdge i edge n).ref.state = .qualified := by
  rcases judgeEdge_cases r i edge n with ⟨p, e⟩ | ⟨bad, -⟩
  · obtain ⟨qualified, -⟩ := advanced_goodAgainst r i edge p n
    rw [e]
    exact (qualified hq).1
  · rw [bad] at h; cases h

/-- In SEARCHING the interval closes with its edge as the anchor and the label stream moved on. -/
theorem judgeSearching_closes : (r.judgeSearching i edge n).ref.anchor = some edge.phase
    ∧ LabelsMovedOn i r (r.judgeSearching i edge n).ref := by
  unfold Ref.judgeSearching
  split
  · exact ⟨rfl, closeBad_labels r i edge _⟩
  · rename_i q _
    simp only []
    split
    · split
      · exact ⟨rfl, goodAgainst_labels r i edge q n⟩
      · exact ⟨rfl, closeBad_labels r i edge _⟩
    · exact ⟨rfl, (closeBad_labels (r.seeded q n) i edge _).congr ⟨rfl, rfl, rfl, rfl, rfl⟩ ⟨rfl, rfl, rfl, rfl, rfl⟩⟩

/-- An interval judged against its candidate profile is good only as `goodAgainst`. -/
theorem judgeTracked_degraded (h : (r.judgeTracked i edge n p).good = false) : Degraded r (r.judgeTracked i edge n p).ref := by
  rcases judgeTracked_cases r i edge n p with e | ⟨-, degraded⟩
  · rw [e] at h; cases h
  · exact degraded

end

/-- Settles O37: against a candidate profile by the interval's place in the band and its label conditions, in SEARCHING by the profile
it matches; a good interval is `goodAgainst`, a bad one `bad` or `closeBad`. -/
theorem intervalsAreClassified : Obligations.IntervalsAreClassified := by
  intro r i edge n f band e sample applies pass good bad
  have passes : r.labelsPass i = true ↔ pass := labelsPass_iff r i
  have goodInterval (p : Profile) : good p (r.goodAgainst i edge p n) := goodAgainst_isGood r i edge p n
  refine ⟨fun p hp hs => ?_, fun hc hs => ?_⟩
  · rw [judgeEdge_tracked r i edge n p hp]
    refine ⟨fun early => ?_, fun lo hi fails => ?_, fun lo hi holds => ?_,
      fun h hs => (judgeTracked_degraded r i edge n p h).candidate hs,
      fun h hs hm => (judgeTracked_degraded r i edge n p h).missed hs hm,
      fun h hs hm => (judgeTracked_degraded r i edge n p h).unlocked hs hm⟩
    · obtain ⟨hanchor, -, hf, -, -, htiming, -⟩ := bad_kept r .timing
      obtain ⟨-, held, labelBad, second, last⟩ := sameLabels_bad r .timing
      rw [judgeTracked_early r i edge n p early]
      exact ⟨bad_isBad r .timing, rfl, hanchor, htiming, hf, held, labelBad, second, last⟩
    · obtain ⟨hcause, hanchor, hf, -, -, hlabel⟩ := closeBad_kept r i edge .label
      rw [judgeTracked_within r i edge n p lo hi, if_neg (mt passes.1 fails)]
      exact ⟨closeBad_isBad r i edge .label, hcause, hanchor, hlabel, hf, closeBad_labels r i edge .label⟩
    · obtain ⟨qualified, locks, counts⟩ := advanced_goodAgainst r i edge p n
      rw [judgeTracked_within r i edge n p lo hi, if_pos (passes.2 holds)]
      exact ⟨goodInterval p, qualified, locks, counts⟩
  · intro j matching
    have judged : j = r.judgeSearching i edge n := judgeEdge_searching r i edge n hc
    clear_value j
    subst judged
    obtain ⟨anchored, moved⟩ := judgeSearching_closes r i edge n
    refine ⟨anchored, moved, fun p hm => ⟨fun hv he holds => ?_, fun hv he fails => ?_, fun seeds => ?_⟩, fun none => ?_⟩
    · rw [judgeSearching_within r i edge n p hm hv he, if_pos (passes.2 holds)]
      exact ⟨goodInterval p, goodAgainst_matched r i edge p n hs⟩
    · obtain ⟨hcause, -, hf, -, -, hlabel⟩ := closeBad_kept r i edge .label
      rw [judgeSearching_within r i edge n p hm hv he, if_neg (mt passes.1 fails)]
      exact ⟨closeBad_isBad r i edge .label, hcause, closeBad_searching r i edge .label hs, hf, hlabel⟩
    · obtain ⟨hcause, -, hf, hv, htiming, -⟩ := closeBad_kept (r.seeded p n) i edge .timing
      rw [judgeSearching_seeds r i edge n p hm seeds]
      exact ⟨closeBad_isBad (r.seeded p n) i edge .timing, hcause, closeBad_searching (r.seeded p n) i edge .timing hs, hv, hf, htiming⟩
    · obtain ⟨hcause, -, hf, -, htiming, -⟩ := closeBad_kept r i edge .timing
      rw [judgeSearching_unmatched r i edge n none]
      exact ⟨closeBad_isBad r i edge .timing, hcause, closeBad_searching r i edge .timing hs, hf, htiming⟩

end Sys2Proof.Machine
end

