-- ==== Sys2Proof/Proofs/HandOff.lean ====
section
/-!
PROOFS. Proofs/HandOff.lean: the hand-off of a judged occurrence (R32 to R36), stage by stage: the change of state shown, the sample
handed to the clock, the disagreement judged, the notice.
-/
namespace Sys2Proof.Machine

/-! ## The selection and its reports (R5, R7, R33) -/

/-- The TSU's state behind a report of the selected reference. -/
def Tsu.selecting (t : Tsu) (new : Option (Fin 2)) : Tsu := if t.selected = new then t else t.select new

theorem carried_selectionReport (s : State) (new : Option (Fin 2)) :
    Carried (s.withTsu (s.tsu.selecting new)) (selectionReport s new) := by
  unfold selectionReport Tsu.selecting
  simp only []
  split
  · exact Carried.refl s
  · exact carried_clockHandOn _ _ _

/-- A change of selection leaves the aided flag and the limits. -/
theorem select_frame (t : Tsu) (new : Option (Fin 2)) : (t.select new).selected = new ∧ (t.select new).aided = t.aided
    ∧ (t.select new).limits = t.limits := by
  unfold Tsu.select
  cases t.clock <;> cases new <;> simp only [Tsu.holdover, and_self]
  split <;> simp only [and_self]

/-- A change of selection to a reference has the clock steered, whatever it was. -/
theorem select_steers (t : Tsu) (x : Fin 2) : (t.select (some x)).clock = .acquiring ∨ (t.select (some x)).clock = .tracking := by
  unfold Tsu.select
  cases t.clock <;> simp

theorem selecting_frame (t : Tsu) (new : Option (Fin 2)) : (t.selecting new).selected = new ∧ (t.selecting new).aided = t.aided
    ∧ (t.selecting new).limits = t.limits := by
  unfold Tsu.selecting
  split
  · rename_i h
    exact ⟨h, rfl, rfl⟩
  · exact select_frame t new

theorem selecting_steers (t : Tsu) (x : Fin 2)
    (h : t.clock = .acquiring ∨ t.clock = .tracking ∨ t.selected ≠ some x) :
    (t.selecting (some x)).clock = .acquiring ∨ (t.selecting (some x)).clock = .tracking := by
  unfold Tsu.selecting
  split
  · rename_i same
    rcases h with h | h | h
    · exact .inl h
    · exact .inr h
    · exact absurd same h
  · exact select_steers t x

/-! ## A change of state shown (R33 to R36) -/

/-- The RFE once a reference's change of state from `old` has been shown: the disagreement flag and the selection. -/
def Rfe.shown (x : Rfe) (i : Fin 3) (old : RefState) : Rfe :=
  { x with
    disagree := if i.val < 2 ∧ old = .qualified ∧ (x.refs[i]).state ≠ .qualified then false else x.disagree
    selected := if Machine.crossed old (x.refs[i]).state = true ∧ i.val < 2 then x.selection else x.selected }

/-- The TSU once a reference's change of state from `old` has been shown. -/
def Tsu.shown (t : Tsu) (x : Rfe) (i : Fin 3) (old : RefState) : Tsu :=
  if Machine.crossed old (x.refs[i]).state then
    if i.val < 2 then t.selecting x.selection else { t with aided := (x.refs[i]).state == .qualified }
  else t

theorem crossed_iff (old new : RefState) : crossed old new = true ↔
    (old = .qualified ∧ new ≠ .qualified) ∨ (old ≠ .qualified ∧ new = .qualified) := by
  cases old <;> cases new <;> simp [crossed]

theorem crossed_self (st : RefState) : crossed st st = false := by cases st <;> rfl

theorem clearDisagree_eq (s : State) (i : Fin 3) (old : RefState) : clearDisagree s i old =
    { s with rfe := { s.rfe with
      disagree := if i.val < 2 ∧ old = .qualified ∧ (s.ref i).state ≠ .qualified then false else s.rfe.disagree } } := by
  unfold clearDisagree
  split <;> rfl

theorem reselect_labelled (s : State) (i : Fin 3) (old : RefState) (hc : crossed old (s.ref i).state = true) (hi : i.val < 2) :
    reselect s i old = selectionReport { s with rfe := { s.rfe with selected := s.rfe.selection } } s.rfe.selection :=
  (if_pos hc).trans (if_pos hi)

theorem reselect_unlabelled (s : State) (i : Fin 3) (old : RefState) (hc : crossed old (s.ref i).state = true) (hi : ¬ i.val < 2) :
    reselect s i old = aidedReport s ((s.ref i).state == .qualified) := (if_pos hc).trans (if_neg hi)

theorem reselect_uncrossed (s : State) (i : Fin 3) (old : RefState) (hc : ¬ crossed old (s.ref i).state = true) :
    reselect s i old = s := if_neg hc

/-- The selection and the aided flag follow the change; around the clock nothing but what handing on can touch. -/
theorem reselect_spec (s : State) (i : Fin 3) (old : RefState) :
    AroundClock s (reselect s i old) ∧ (reselect s i old).tsu = s.tsu.shown s.rfe i old
      ∧ (reselect s i old).rfe = { s.rfe with
          selected := if crossed old (s.ref i).state = true ∧ i.val < 2 then s.rfe.selection else s.rfe.selected } := by
  by_cases hc : crossed old (s.ref i).state = true
  · by_cases hi : i.val < 2
    · have told : s.tsu.shown s.rfe i old = s.tsu.selecting s.rfe.selection := (if_pos hc).trans (if_pos hi)
      obtain ⟨around, tsu, rfe⟩ := carried_selectionReport { s with rfe := { s.rfe with selected := s.rfe.selection } } s.rfe.selection
      rw [reselect_labelled s i old hc hi, told, if_pos ⟨hc, hi⟩]
      exact ⟨((around_rfe s _).trans (around_tsu _ _)).trans around, tsu, rfe⟩
    · have told : s.tsu.shown s.rfe i old = { s.tsu with aided := (s.ref i).state == .qualified } := (if_pos hc).trans (if_neg hi)
      rw [reselect_unlabelled s i old hc hi, told, if_neg (fun k => hi k.2)]
      exact ⟨around_tsu s _, rfl, rfl⟩
  · have told : s.tsu.shown s.rfe i old = s.tsu := if_neg hc
    rw [reselect_uncrossed s i old hc, told, if_neg (fun k => hc k.1)]
    exact ⟨AroundClock.refl s, rfl, rfl⟩

theorem showRefChange_same (s : State) (i : Fin 3) (old : RefState) (cause : RefCause) (extra : List Byte)
    (h : (s.ref i).state = old) : showRefChange s i old cause extra = s := if_pos h

theorem shown_same (s : State) (i : Fin 3) (old : RefState) (h : (s.ref i).state = old) :
    s.tsu.shown s.rfe i old = s.tsu ∧ s.rfe.shown i old = s.rfe := by
  subst h
  have stays : ¬ crossed (s.ref i).state (s.rfe.refs[i]).state = true := by
    rw [show s.rfe.refs[i] = s.ref i from rfl, crossed_self]; simp
  have holds : ¬ (i.val < 2 ∧ (s.ref i).state = .qualified ∧ (s.rfe.refs[i]).state ≠ .qualified) := fun k => k.2.2 k.2.1
  unfold Tsu.shown Rfe.shown
  rw [if_neg stays, if_neg holds, if_neg (fun k => stays k.1)]
  exact ⟨rfl, rfl⟩

/-- The change of state shown: the clock and the RFE it leaves, and around them what handing on can touch. -/
theorem showRefChange_spec (s : State) (i : Fin 3) (old : RefState) (cause : RefCause) (extra : List Byte) :
    AroundClock s (showRefChange s i old cause extra)
      ∧ (showRefChange s i old cause extra).tsu = s.tsu.shown s.rfe i old
      ∧ (showRefChange s i old cause extra).rfe = s.rfe.shown i old := by
  by_cases h : (s.ref i).state = old
  · obtain ⟨tsu, rfe⟩ := shown_same s i old h
    rw [showRefChange_same s i old cause extra h]
    exact ⟨AroundClock.refl s, tsu.symm, rfe.symm⟩
  · have cleared : AroundClock s (clearDisagree s i old) := by
      rw [clearDisagree_eq]; exact around_rfe s _
    obtain ⟨u, hu⟩ : ∃ u, u = offer (clearDisagree s i old) (refRecord (clearDisagree s i old) i old cause extra) := ⟨_, rfl⟩
    have offered : Handed (clearDisagree s i old) u := hu ▸ handed_offer _ _
    have hrfe := offered.rfe
    have htsu := offered.tsu
    rw [clearDisagree_eq] at hrfe htsu
    obtain ⟨around, tsu, rfe⟩ := reselect_spec u i old
    have shown : showRefChange s i old cause extra = reselect u i old := by rw [hu]; exact if_neg h
    have href : u.ref i = s.ref i := by unfold State.ref; rw [hrfe]
    rw [shown]
    refine ⟨(cleared.trans offered.around).trans around, tsu.trans ?_, rfe.trans ?_⟩
    · rw [hrfe, htsu]; rfl
    · rw [href, hrfe]; rfl

/-- A change of state is recorded (R35, step 2), the record's selection that of the references as they stand. -/
theorem offered_showRefChange (s : State) (i : Fin 3) (old : RefState) (cause : RefCause) (extra : List Byte)
    (h : (s.ref i).state ≠ old) : Offered s (showRefChange s i old cause extra) (refRecord s i old cause extra) := by
  have record : refRecord (clearDisagree s i old) i old cause extra = refRecord s i old cause extra := by
    rw [clearDisagree_eq]; rfl
  have first := offered_offer (clearDisagree s i old) (refRecord s i old cause extra)
  have shown : showRefChange s i old cause extra
      = reselect (offer (clearDisagree s i old) (refRecord s i old cause extra)) i old := by
    rw [← record]; exact if_neg h
  have ej : (clearDisagree s i old).ej = s.ej := by rw [clearDisagree_eq]
  obtain ⟨around, -⟩ := reselect_spec (offer (clearDisagree s i old) (refRecord s i old cause extra)) i old
  rw [shown]
  exact (first.around around).sooner ej

/-- A change of state in which QUALIFIED is neither entered nor left is a record and no more. -/
theorem showRefChange_uncrossed (s : State) (i : Fin 3) (old : RefState) (cause : RefCause) (extra : List Byte)
    (h : (s.ref i).state ≠ old) (hc : crossed old (s.ref i).state = false) :
    showRefChange s i old cause extra = offer s (refRecord s i old cause extra) := by
  have stands : clearDisagree s i old = s :=
    if_neg fun k => by rw [(crossed_iff _ _).2 (.inl k.2)] at hc; cases hc
  have href : (offer s (refRecord s i old cause extra)).ref i = s.ref i := by
    unfold State.ref; rw [(handed_offer s _).rfe]
  unfold showRefChange
  rw [if_neg h]
  simp only [stands]
  exact if_neg (by rw [href, hc]; simp)

/-! ## The sample handed on (R32, R35) -/

theorem takeSample_idle (s : State) (x : Sample) (h : ¬ (s.tsu.clock = .acquiring ∨ s.tsu.clock = .tracking)) :
    takeSample s x = s := if_neg h

/-- An update, or a sample no clock takes, leaves the references, the selection, the aided flag and the limits. -/
theorem takeSample_frame (s : State) (x : Sample) : AroundClock s (takeSample s x) ∧ (takeSample s x).rfe = s.rfe
    ∧ (takeSample s x).tsu.selected = s.tsu.selected ∧ (takeSample s x).tsu.aided = s.tsu.aided
    ∧ (takeSample s x).tsu.limits = s.tsu.limits := by
  by_cases h : s.tsu.clock = .acquiring ∨ s.tsu.clock = .tracking
  · obtain ⟨-, -, -, -, limits, selected, aided, rfe, around⟩ := update_frame h (x := x)
    exact ⟨around, rfe, selected, aided, limits⟩
  · rw [takeSample_idle s x h]
    exact ⟨AroundClock.refl s, rfl, rfl, rfl, rfl⟩

theorem handSample_none (s : State) (i : Fin 3) : handSample s i none = s := rfl

theorem handSample_selected (s : State) (i : Fin 3) (x : Sample) (h : s.rfe.selected.map (·.val) = some i.val) :
    handSample s i (some x) = takeSample s x := if_pos h

theorem handSample_unselected (s : State) (i : Fin 3) (o : Option Sample) (h : s.rfe.selected.map (·.val) ≠ some i.val) :
    handSample s i o = s := by
  cases o with
  | none => rfl
  | some x => exact if_neg h

theorem handSample_frame (s : State) (i : Fin 3) (o : Option Sample) : AroundClock s (handSample s i o)
    ∧ (handSample s i o).rfe = s.rfe ∧ (handSample s i o).tsu.selected = s.tsu.selected
    ∧ (handSample s i o).tsu.aided = s.tsu.aided ∧ (handSample s i o).tsu.limits = s.tsu.limits := by
  unfold handSample
  split
  · split
    · exact takeSample_frame s _
    · exact ⟨AroundClock.refl s, rfl, rfl, rfl, rfl⟩
  · exact ⟨AroundClock.refl s, rfl, rfl, rfl, rfl⟩

/-! ## The disagreement (R36) -/

/-- Two references compared: both QUALIFIED with label use on, with offsets of one label second. -/
theorem compared_iff (x : Rfe) (a b : Offset) : x.compared = some (a, b) ↔
    (x.refs[0]).eligible = true ∧ (x.refs[1]).eligible = true ∧ (x.refs[0]).offset = some a ∧ (x.refs[1]).offset = some b
      ∧ a.second = b.second := by
  unfold Rfe.compared
  simp only []
  generalize x.refs[0] = r0
  generalize x.refs[1] = r1
  cases r0.eligible with
  | false => simp
  | true =>
    cases r1.eligible with
    | false => simp
    | true =>
      cases r0.offset with
      | none => simp
      | some c =>
        cases r1.offset with
        | none => simp
        | some d =>
          by_cases h : c.second = d.second
          · simp only [h, Bool.and_self, if_true, Option.some.injEq, Prod.mk.injEq, true_and]
            exact ⟨fun ⟨e, k⟩ => ⟨e, k, e ▸ k ▸ h⟩, fun ⟨e, k, _⟩ => ⟨e, k⟩⟩
          · simp only [h, Bool.and_self, if_true, if_false, reduceCtorEq, Option.some.injEq, true_and, false_iff]
            exact fun ⟨e, k, same⟩ => h (e ▸ k ▸ same)

/-- The signed difference of two phases is the one number of its range that is theirs modulo the wrap. -/
theorem phaseDiff_eq (a b : Nat) (d : Int) (h : ((a : Int) - b - d) % 281474976710656 = 0) (lo : -140737488355328 ≤ d)
    (hi : d < 140737488355328) : phaseDiff a b = d := by
  unfold phaseDiff phaseSince
  simp only [Config.phaseWrap]
  omega

/-- The difference that the disagreement check judges. -/
def Ref.difference (r : Ref) (a b : Offset) : Int := correctedNs (phaseDiff a.phase b.phase) r.fUsed

section
variable {s : State} {i : Fin 3} {a b : Offset}

theorem checkDisagree_none (h : s.rfe.compared = none) : checkDisagree s i = s := by
  rw [checkDisagree, h]

theorem checkDisagree_within (h : s.rfe.compared = some (a, b))
    (hd : ((s.ref i).difference a b).natAbs ≤ s.tsu.limits.tracking) :
    checkDisagree s i = { s with rfe := { s.rfe with disagree := false } } := by
  rw [checkDisagree, h]
  exact if_neg (Nat.not_lt.2 hd)

theorem checkDisagree_beyond (h : s.rfe.compared = some (a, b))
    (hd : s.tsu.limits.tracking < ((s.ref i).difference a b).natAbs) :
    checkDisagree s i = if s.rfe.disagree then s else showDisagree s i a b ((s.ref i).difference a b) := by
  rw [checkDisagree, h]
  exact if_pos hd

end

theorem handed_showDisagree (s : State) (i : Fin 3) (a b : Offset) (diff : Int) :
    Handed { s with rfe := { s.rfe with disagree := true } } (showDisagree s i a b diff) := by
  unfold showDisagree
  exact Handed.back (handed_notify _ _ _ _) (handed_offer _ _)

/-- The onset's record (R36). -/
def disagreeRecord (s : State) (i : Fin 3) (a b : Offset) (diff : Int) : Record :=
  { kind := .referenceDisagree, subject := i.val, vt := s.now,
    body := beInt 8 a.ns ++ beInt 8 b.ns ++ beInt 8 diff ++ be 5 a.second }

theorem offered_showDisagree (s : State) (i : Fin 3) (a b : Offset) (diff : Int) :
    Offered s (showDisagree s i a b diff) (disagreeRecord s i a b diff) := by
  unfold showDisagree
  have first := offered_offer { s with rfe := { s.rfe with disagree := true } } (disagreeRecord s i a b diff)
  exact (first.later (handed_notify _ _ _ _)).sooner rfl

theorem noticed_showDisagree (s : State) (i : Fin 3) (a b : Offset) (diff : Int) :
    Noticed s (showDisagree s i a b diff) .referenceDisagree s.now (.reference i.val)
      (beInt 4 (max (-2147483647) (min 2147483647 diff)) ++ be 4 a.second) := by
  obtain ⟨u, hu⟩ : ∃ u, u = offer { s with rfe := { s.rfe with disagree := true } } (disagreeRecord s i a b diff) := ⟨_, rfl⟩
  have offered : Handed { s with rfe := { s.rfe with disagree := true } } u := hu ▸ handed_offer _ _
  have noticed := noticed_notify u .referenceDisagree (.reference i.val)
    (beInt 4 (clampInt (-2147483647) 2147483647 diff) ++ be 4 a.second)
  have hnow : u.now = s.now := offered.now
  rw [hnow] at noticed
  have shown : showDisagree s i a b diff = notify u .referenceDisagree (.reference i.val)
      (beInt 4 (clampInt (-2147483647) 2147483647 diff) ++ be 4 a.second) := by rw [hu]; rfl
  rw [shown]
  exact noticed.sooner offered.noticesLe

/-- The check moves the flag alone, beside what handing on can touch. -/
theorem checkDisagree_frame (s : State) (i : Fin 3) : AroundClock s (checkDisagree s i) ∧ (checkDisagree s i).tsu = s.tsu
    ∧ (checkDisagree s i).rfe = { s.rfe with disagree := (checkDisagree s i).rfe.disagree } := by
  cases h : s.rfe.compared with
  | none => rw [checkDisagree_none h]; exact ⟨AroundClock.refl s, rfl, rfl⟩
  | some ab =>
    rcases Nat.lt_or_ge s.tsu.limits.tracking ((s.ref i).difference ab.1 ab.2).natAbs with hd | hd
    · rw [checkDisagree_beyond h hd]
      split
      · exact ⟨AroundClock.refl s, rfl, rfl⟩
      · have handed := handed_showDisagree s i ab.1 ab.2 ((s.ref i).difference ab.1 ab.2)
        refine ⟨(around_rfe s _).trans handed.around, handed.tsu, ?_⟩
        rw [handed.rfe]
    · rw [checkDisagree_within h hd]
      exact ⟨around_rfe s _, rfl, rfl⟩

/-! ## The hand-off as a whole (R35) -/

/-- A judged occurrence with its change of state shown (R35, steps 1 to 4). -/
def State.refShown (s : State) (i : Fin 3) (j : RefStep) : State :=
  showRefChange (s.setRef i j.ref) i (s.ref i).state j.cause []

/-- Then its sample handed to the clock. -/
def State.refSampled (s : State) (i : Fin 3) (j : RefStep) : State := handSample (s.refShown i j) i j.sample

/-- Then the disagreement judged, behind a good interval of a reference that carries labels. -/
def State.refChecked (s : State) (i : Fin 3) (j : RefStep) : State :=
  if j.good = true ∧ i.val < 2 then checkDisagree (s.refSampled i j) i else s.refSampled i j

theorem handOffRef_eq (s : State) (i : Fin 3) (j : RefStep) : handOffRef s i j =
    if j.ref.state = (s.ref i).state then s.refChecked i j else notifyRef (s.refChecked i j) i := rfl

/-- The notice last, or none: the clock and the RFE stand. -/
theorem handed_handOffRef (s : State) (i : Fin 3) (j : RefStep) : Handed (s.refChecked i j) (handOffRef s i j) := by
  rw [handOffRef_eq]
  split
  · exact Handed.refl _
  · exact handed_notify _ _ _ _

section
variable (s : State) (i : Fin 3) (j : RefStep)

theorem refShown_spec : AroundClock s (s.refShown i j) ∧ (s.refShown i j).tsu = s.tsu.shown (s.setRef i j.ref).rfe i (s.ref i).state
    ∧ (s.refShown i j).rfe = (s.setRef i j.ref).rfe.shown i (s.ref i).state := by
  obtain ⟨around, tsu, rfe⟩ := showRefChange_spec (s.setRef i j.ref) i (s.ref i).state j.cause []
  exact ⟨(around_rfe s _).trans around, tsu, rfe⟩

theorem refChecked_frame : AroundClock (s.refSampled i j) (s.refChecked i j)
    ∧ (s.refChecked i j).tsu = (s.refSampled i j).tsu
    ∧ (s.refChecked i j).rfe = { (s.refSampled i j).rfe with disagree := (s.refChecked i j).rfe.disagree } := by
  unfold State.refChecked
  split
  · exact checkDisagree_frame _ _
  · exact ⟨AroundClock.refl _, rfl, rfl⟩

/-- The RFE behind a hand-off is that of the change of state, the disagreement flag apart. -/
theorem handOffRef_rfe : (handOffRef s i j).rfe =
    { (s.setRef i j.ref).rfe.shown i (s.ref i).state with disagree := (handOffRef s i j).rfe.disagree } := by
  obtain ⟨-, -, shown⟩ := refShown_spec s i j
  obtain ⟨-, sampled, -⟩ := handSample_frame (s.refShown i j) i j.sample
  obtain ⟨-, -, checked⟩ := refChecked_frame s i j
  rw [(handed_handOffRef s i j).rfe, checked, State.refSampled, sampled, shown]

theorem handOffRef_ref (k : Fin 3) : (handOffRef s i j).ref k = (s.setRef i j.ref).ref k := by
  unfold State.ref
  rw [handOffRef_rfe]
  rfl

theorem setRef_refs_self (r : Ref) : (s.setRef i r).rfe.refs[i] = r := setRef_ref_self s i r

theorem handOffRef_selected : (handOffRef s i j).rfe.selected =
    if crossed (s.ref i).state j.ref.state = true ∧ i.val < 2
    then Rfe.choose ((handOffRef s i j).ref 0) ((handOffRef s i j).ref 1) else s.rfe.selected := by
  rw [handOffRef_rfe, handOffRef_ref, handOffRef_ref]
  simp only [Rfe.shown, setRef_refs_self]
  rfl

/-- The clock is told the selection, or of REF2, where a reference crossed QUALIFIED. -/
theorem handOffRef_tsu : (handOffRef s i j).tsu.selected = (s.tsu.shown (s.setRef i j.ref).rfe i (s.ref i).state).selected
    ∧ (handOffRef s i j).tsu.aided = (s.tsu.shown (s.setRef i j.ref).rfe i (s.ref i).state).aided := by
  obtain ⟨-, shown, -⟩ := refShown_spec s i j
  obtain ⟨-, -, selected, aided, -⟩ := handSample_frame (s.refShown i j) i j.sample
  obtain ⟨-, checked, -⟩ := refChecked_frame s i j
  rw [(handed_handOffRef s i j).tsu, checked, State.refSampled, selected, aided, shown]
  exact ⟨rfl, rfl⟩

theorem around_refSampled : AroundClock (s.refShown i j) (s.refSampled i j) := by
  obtain ⟨around, -⟩ := handSample_frame (s.refShown i j) i j.sample
  exact around

/-- Behind the change of state shown nothing but the sample, the check and the notice. -/
theorem around_behind_shown : AroundClock (s.refShown i j) (handOffRef s i j) := by
  obtain ⟨checked, -⟩ := refChecked_frame s i j
  exact ((around_refSampled s i j).trans checked).trans (handed_handOffRef s i j).around

theorem handOffRef_around : AroundClock s (handOffRef s i j) := by
  obtain ⟨shown, -⟩ := refShown_spec s i j
  exact shown.trans (around_behind_shown s i j)

theorem handOffRef_told (h : s.tsu.selected = s.rfe.selected) :
    (handOffRef s i j).tsu.selected = (handOffRef s i j).rfe.selected := by
  obtain ⟨told, -⟩ := handOffRef_tsu s i j
  rw [told, handOffRef_rfe]
  unfold Tsu.shown Rfe.shown
  by_cases hc : crossed (s.ref i).state ((s.setRef i j.ref).rfe.refs[i]).state = true
  · by_cases hi : i.val < 2
    · obtain ⟨selected, -⟩ := selecting_frame s.tsu (s.setRef i j.ref).rfe.selection
      rw [if_pos hc, if_pos hi, if_pos ⟨hc, hi⟩]
      exact selected
    · rw [if_pos hc, if_neg hi, if_neg (fun k => hi k.2)]
      exact h
  · rw [if_neg hc, if_neg (fun k => hc k.1)]
    exact h

theorem handOffRef_aided : (handOffRef s i j).tsu.aided =
    if crossed (s.ref i).state j.ref.state = true ∧ i.val = 2 then j.ref.state == .qualified else s.tsu.aided := by
  obtain ⟨-, aided⟩ := handOffRef_tsu s i j
  rw [aided]
  unfold Tsu.shown
  rw [setRef_refs_self]
  by_cases hc : crossed (s.ref i).state j.ref.state = true
  · by_cases hi : i.val < 2
    · obtain ⟨-, kept, -⟩ := selecting_frame s.tsu (s.setRef i j.ref).rfe.selection
      rw [if_pos hc, if_pos hi, if_neg (by omega)]
      exact kept
    · rw [if_pos hc, if_neg hi, if_pos ⟨hc, by omega⟩]
  · rw [if_neg hc, if_neg (fun k => hc k.1)]

theorem handOffRef_recorded (h : j.ref.state ≠ (s.ref i).state) :
    Offered s (handOffRef s i j) (refRecord (s.setRef i j.ref) i (s.ref i).state j.cause []) := by
  have first := offered_showRefChange (s.setRef i j.ref) i (s.ref i).state j.cause [] (by rw [setRef_ref_self]; exact h)
  exact (first.around (around_behind_shown s i j)).sooner rfl

theorem handOffRef_noticed (h : j.ref.state ≠ (s.ref i).state) :
    Noticed s (handOffRef s i j) .referenceState (handOffRef s i j).now (.reference i.val)
      (be 1 j.ref.state.code ++ beOpt ((handOffRef s i j).rfe.selected.map (·.val))) := by
  have last := handed_handOffRef s i j
  have notices : AroundClock s (s.refChecked i j) := by
    obtain ⟨shown, -⟩ := refShown_spec s i j
    obtain ⟨checked, -⟩ := refChecked_frame s i j
    exact (shown.trans (around_refSampled s i j)).trans checked
  have ref : (s.refChecked i j).ref i = j.ref := by
    have kept : (handOffRef s i j).ref i = (s.refChecked i j).ref i := by unfold State.ref; rw [last.rfe]
    rw [← kept, handOffRef_ref, setRef_ref_self]
  have noticed := noticed_notify (s.refChecked i j) .referenceState (.reference i.val)
    (be 1 ((s.refChecked i j).ref i).state.code ++ beOpt ((s.refChecked i j).rfe.selected.map (·.val)))
  rw [last.now, last.rfe, ← ref, handOffRef_eq, if_neg h]
  exact noticed.sooner notices.noticesLe

/-- A judged occurrence is handed off as R33 to R35 have it. -/
theorem refHandedOff_handOffRef : RefHandedOff s (handOffRef s i j) i j where
  around := handOffRef_around s i j
  ref := (handOffRef_ref s i j i).trans (setRef_ref_self s i j.ref)
  others k hk := (handOffRef_ref s i j k).trans (setRef_ref_ne s i j.ref k hk)
  selected := handOffRef_selected s i j
  told := handOffRef_told s i j
  aided := handOffRef_aided s i j
  recorded := handOffRef_recorded s i j
  noticed := handOffRef_noticed s i j

/-- A bad interval without a change of state is the reference replaced. -/
theorem handOffRef_quiet (hg : j.good = false) (hx : j.sample = none) (h : j.ref.state = (s.ref i).state) :
    handOffRef s i j = s.setRef i j.ref := by
  have shown : s.refShown i j = s.setRef i j.ref := showRefChange_same _ _ _ _ _ (by rw [setRef_ref_self]; exact h)
  have sampled : s.refSampled i j = s.setRef i j.ref := by rw [State.refSampled, hx, handSample_none, shown]
  have unchecked : ¬ (j.good = true ∧ i.val < 2) := by rw [hg]; simp
  rw [handOffRef_eq, if_pos h, State.refChecked, if_neg unchecked, sampled]

end

end Sys2Proof.Machine
end

