-- ==== Sys2Proof/Proofs/ReferenceEvents.lean ====
section
/-!
PROOFS. Proofs/ReferenceEvents.lean: the events of the reference inputs: edges captured (R22), overruns and missing pulses (R22, R24, R27),
edges judged (R23, R35, R36), and their statements.
-/
namespace Sys2Proof.Machine

/-! ## Capture (R22) -/

/-- Settles O35: an edge is ignored, or the cell is empty, or it is full. -/
theorem pulseEdgeIsCaptured : Obligations.PulseEdgeIsCaptured := by
  intro s i rising eighth hl r
  have effect : exec (.pulseEdge i rising eighth) s = .next (pulseEdge s i rising eighth) :=
    whenLive_live s (pulseEdge · i rising eighth) hl
  refine ⟨fun ignored => ?_, fun hs hp => ⟨fun empty => ?_, fun full => ?_⟩⟩
  · rw [effect]
    exact congrArg _ (if_pos ignored)
  all_goals
    have taken : ¬ ((s.ref i).state = .disabled ∨ rising ≠ (s.ref i).config.rising) := fun k => k.elim hs fun h => h hp
    rw [effect, pulseEdge]
    simp only [if_neg taken]
  · have phase : (s.phase + eighth.val) % Config.phaseWrap = (8 * s.osc + eighth.val) % 281474976710656 := Nat.mod_add_mod _ _ _
    have empty' : (s.ref i).cell = none := empty
    rw [phase, empty']
    rfl
  · obtain ⟨edge, he⟩ := Option.ne_none_iff_exists'.1 full
    have full' : (s.ref i).cell = some edge := he
    rw [full']

/-! ## Overruns and missing pulses (R22, R24, R27) -/

/-- The reference follows a candidate profile. -/
def Ref.follows (r : Ref) (p : Profile) : Prop := r.candidate = some p ∧ (r.state = .candidate ∨ r.state = .qualified)

theorem afterMissing_iff (r : Ref) (n : Nat) : r.afterMissing n = true ↔ ∃ p, r.follows p ∧ r.lastInTime p < n := by
  unfold Ref.afterMissing Ref.follows
  cases r.state <;> cases r.candidate <;> simp

theorem phasePassed_gt (a now m : Nat) : m < phasePassed a now ↔
    m < phaseSince a now ∧ phaseSince a now ≤ 281474976710648 := by
  unfold phasePassed
  simp only [Config.phaseWrap]
  split <;> omega

/-- A pulse is missing once the expected instant plus the band has passed, the cell without an edge from before it. -/
theorem missingDue_iff (s : State) (i : Fin 3) (a : Nat) (p : Profile) (ha : (s.ref i).anchor = some a) (hp : (s.ref i).follows p) :
    s.missingDue i = true ↔ (s.ref i).lastInTime p < phaseSince a s.phase ∧ phaseSince a s.phase ≤ 281474976710648
      ∧ ∀ e, (s.ref i).cell = some e → (s.ref i).lastInTime p < phaseSince a e.phase := by
  obtain ⟨hc, -⟩ := id hp
  have passed : (s.ref i).afterMissing (phasePassed a s.phase) = true ↔
      (s.ref i).lastInTime p < phaseSince a s.phase ∧ phaseSince a s.phase ≤ 281474976710648 := by
    rw [afterMissing_iff, ← phasePassed_gt]
    constructor
    · rintro ⟨q, ⟨hq, -⟩, h⟩
      rw [hc] at hq
      cases hq
      exact h
    · exact fun h => ⟨p, hp, h⟩
  unfold State.missingDue
  simp only [ha, hc, Bool.and_eq_true, passed, and_assoc]
  cases (s.ref i).cell <;> simp

theorem not_missingDue (s : State) (i : Fin 3)
    (h : (s.ref i).anchor = none ∨ (s.ref i).candidate = none
      ∨ ((s.ref i).state ≠ .candidate ∧ (s.ref i).state ≠ .qualified)) : ¬ s.missingDue i = true := by
  unfold State.missingDue
  simp only []
  split
  · rename_i a p ha hp
    rcases h with h | h | ⟨h₁, h₂⟩
    · rw [ha] at h; cases h
    · rw [hp] at h; cases h
    · rw [Bool.and_eq_true, afterMissing_iff]
      rintro ⟨⟨q, ⟨-, k⟩, -⟩, -⟩
      exact k.elim h₁ h₂
  · exact Bool.false_ne_true

theorem missed_eq (r : Ref) (i : Fin 3) (a : Nat) (p : Profile) (ha : r.anchor = some a) (hp : r.candidate = some p) :
    r.missed i = { r.bad .missing with ref :=
      { (r.bad .missing).ref.closeLabels i with anchor := some ((a + r.expectedLength p) % Config.phaseWrap) } } := by
  rw [Ref.missed, ha, hp]

/-- A missing pulse is a bad interval closed at the expected instant, the cell kept. -/
theorem missed_spec (r : Ref) (i : Fin 3) (a : Nat) (p : Profile) (ha : r.anchor = some a) (hp : r.candidate = some p) :
    (r.missed i).good = false ∧ (r.missed i).sample = none
      ∧ (r.missed i).ref.anchor = some ((a + r.expectedLength p) % 281474976710656) ∧ (r.missed i).ref.cell = r.cell
      ∧ (r.missed i).ref.badMissing = sat32 r.badMissing ∧ LabelsMovedOn i r (r.missed i).ref := by
  obtain ⟨-, hcell, -, -, -, -, hmissing, -⟩ := bad_kept r .missing
  have kept : ((r.bad .missing).ref.closeLabels i).cell = r.cell
      ∧ ((r.bad .missing).ref.closeLabels i).badMissing = sat32 r.badMissing := by
    rw [closeLabels_frame]
    exact ⟨hcell, hmissing⟩
  rw [missed_eq r i a p ha hp]
  exact ⟨rfl, rfl, rfl, kept.1, kept.2,
    (labelsMovedOn_bad r i .missing).congr ⟨rfl, rfl, rfl, rfl, rfl⟩ ⟨rfl, rfl, rfl, rfl, rfl⟩⟩

/-- Settles O38: both are bad intervals handed off; the pulse is missing as `missingDue_iff` says, and closed as `missed_spec`. -/
theorem overrunsAndMissingPulsesAreJudged : Obligations.OverrunsAndMissingPulsesAreJudged := by
  intro s i hl r
  have overruns : exec (.overrun i) s = .next (overrun s i) := whenLive_live s (overrun · i) hl
  have misses : exec (.missingPulse i) s = .next (missingPulse s i) := whenLive_live s (missingPulse · i) hl
  refine ⟨fun due hs => ?_, fun none => ?_, fun unfollowed => ?_, fun a p ha hp hs => ?_⟩
  · intro j
    obtain ⟨hanchor, -, -, -, hdue, -, -, hoverrun, -⟩ := bad_kept { r with overrunsDue := r.overrunsDue - 1 } .overrun
    obtain ⟨-, held, -⟩ := sameLabels_bad { r with overrunsDue := r.overrunsDue - 1 } .overrun
    have handed := refHandedOff_handOffRef s i j
    refine ⟨handOffRef s i j, ?_, handed, handOffRef_quiet s i j rfl rfl, ?_⟩
    · rw [overruns]
      exact congrArg _ (if_pos ⟨due, hs⟩)
    · rw [handed.ref]
      exact ⟨hanchor, hoverrun, hdue, held⟩
  · have idle : ¬ (0 < (s.ref i).overrunsDue ∧ (s.ref i).state ≠ .disabled) := fun ⟨due, hs⟩ =>
      none.elim (fun k => Nat.ne_of_gt due k) hs
    rw [overruns]
    exact congrArg _ (if_neg idle)
  · rw [misses]
    exact congrArg _ (if_neg (not_missingDue s i unfollowed))
  · intro since expected last passed due j
    have due_iff : s.missingDue i = true ↔ due := missingDue_iff s i a p ha ⟨hp, hs⟩
    obtain ⟨good, sample, hanchor, hcell, hmissing, moved⟩ := missed_spec r i a p ha hp
    refine ⟨fun h => ?_, fun h => ?_⟩
    · rw [misses]
      exact congrArg _ (if_neg (mt due_iff.1 h))
    · have handed := refHandedOff_handOffRef s i j
      refine ⟨handOffRef s i j, ?_, handed, handOffRef_quiet s i j good sample, ?_⟩
      · rw [misses]
        exact congrArg _ (if_pos (due_iff.2 h))
      · rw [handed.ref]
        exact ⟨hanchor, hcell, hmissing, moved⟩

/-! ## The edge in the cell (R23, R24) -/

section
variable {s : State} {i : Fin 3} {edge : Edge} {a : Nat}

theorem edgeJudged_anchors (hc : (s.ref i).cell = some edge) (ha : (s.ref i).anchor = none) :
    edgeJudged s i = s.setRef i { (s.ref i).consume with anchor := some edge.phase } := by
  simp only [edgeJudged, hc, ha]

theorem edgeJudged_against (hc : (s.ref i).cell = some edge) (ha : (s.ref i).anchor = some a) :
    edgeJudged s i = if (s.ref i).afterMissing (phaseSince a edge.phase) then s
      else handOffRef s i ((s.ref i).consume.judgeEdge i edge (phaseSince a edge.phase)) := by
  simp only [edgeJudged, hc, ha]

end

/-! ## The sample of the selected reference (R32) -/

/-- Told of a selected reference, the clock is steered, where it was or where the selection is news to it. -/
theorem shown_steers (t : Tsu) (x : Rfe) (i : Fin 3) (old : RefState) (k : Fin 2) (hi : i.val < 2)
    (hk : (x.shown i old).selected = some k)
    (h : t.clock = .acquiring ∨ t.clock = .tracking
      ∨ (crossed old (x.refs[i]).state = true ∧ t.selected ≠ (x.shown i old).selected)) :
    (t.shown x i old).clock = .acquiring ∨ (t.shown x i old).clock = .tracking := by
  by_cases hc : crossed old (x.refs[i]).state = true
  · have selection : x.selection = some k := (if_pos ⟨hc, hi⟩).symm.trans hk
    have told : t.shown x i old = t.selecting (some k) := selection ▸ (if_pos hc).trans (if_pos hi)
    rw [told]
    exact selecting_steers t k (h.imp id (Or.imp id fun news => hk ▸ news.2))
  · have told : t.shown x i old = t := if_neg hc
    rw [told]
    rcases h with h | h | h
    · exact .inl h
    · exact .inr h
    · exact absurd h.1 hc

section
variable (s : State) (i : Fin 3) (j : RefStep)

theorem refShown_selected : (s.refShown i j).rfe.selected = (handOffRef s i j).rfe.selected := by
  obtain ⟨-, -, shown⟩ := refShown_spec s i j
  rw [shown, handOffRef_rfe]

/-- The sample of the selected reference is the clock's update. -/
theorem handOffRef_sampled (x : Sample) (hx : j.sample = some x) (hsel : (handOffRef s i j).rfe.selected.map (·.val) = some i.val)
    (h : s.tsu.clock = .acquiring ∨ s.tsu.clock = .tracking
      ∨ ((s.ref i).state ≠ .qualified ∧ j.ref.state = .qualified ∧ s.tsu.selected ≠ (handOffRef s i j).rfe.selected)) :
    (handOffRef s i j).tsu.f = x.f ∧ (handOffRef s i j).tsu.theta = x.theta := by
  obtain ⟨-, shown, rfe⟩ := refShown_spec s i j
  obtain ⟨-, checked, -⟩ := refChecked_frame s i j
  obtain ⟨k, hk, hki⟩ := Option.map_eq_some_iff.1 hsel
  rw [← refShown_selected] at hsel hk h
  have steered : (s.refShown i j).tsu.clock = .acquiring ∨ (s.refShown i j).tsu.clock = .tracking := by
    rw [shown]
    refine shown_steers s.tsu (s.setRef i j.ref).rfe i (s.ref i).state k (hki ▸ k.isLt) (rfe ▸ hk) (h.imp id (Or.imp id ?_))
    rintro ⟨before, after, news⟩
    rw [setRef_refs_self]
    exact ⟨(crossed_iff _ _).2 (.inr ⟨before, after⟩), rfe ▸ news⟩
  obtain ⟨-, hf, htheta, -⟩ := update_frame steered (x := x)
  rw [(handed_handOffRef s i j).tsu, checked, State.refSampled, hx, handSample_selected _ i x hsel]
  exact ⟨hf, htheta⟩

/-! ## The disagreement behind a judged edge (R36) -/

theorem refSampled_rfe : (s.refSampled i j).rfe = (s.setRef i j.ref).rfe.shown i (s.ref i).state := by
  obtain ⟨-, -, shown⟩ := refShown_spec s i j
  obtain ⟨-, sampled, -⟩ := handSample_frame (s.refShown i j) i j.sample
  rw [State.refSampled, sampled, shown]

theorem refSampled_ref (k : Fin 3) : (s.refSampled i j).ref k = (handOffRef s i j).ref k := by
  rw [handOffRef_ref]
  unfold State.ref
  rw [refSampled_rfe]
  rfl

theorem shown_limits (t : Tsu) (x : Rfe) (old : RefState) : (t.shown x i old).limits = t.limits := by
  obtain ⟨-, -, selecting⟩ := selecting_frame t x.selection
  unfold Tsu.shown
  split
  · split
    · exact selecting
    · rfl
  · rfl

theorem refSampled_limits : (s.refSampled i j).tsu.limits = s.tsu.limits := by
  obtain ⟨-, shown, -⟩ := refShown_spec s i j
  obtain ⟨-, -, -, -, sampled⟩ := handSample_frame (s.refShown i j) i j.sample
  rw [State.refSampled, sampled, shown, shown_limits]

/-- Before the check the flag has fallen with a reference that left QUALIFIED, and stands otherwise. -/
theorem refSampled_disagree : (s.refSampled i j).rfe.disagree =
    if i.val < 2 ∧ (s.ref i).state = .qualified ∧ j.ref.state ≠ .qualified then false else s.rfe.disagree := by
  rw [refSampled_rfe]
  simp only [Rfe.shown, setRef_refs_self]
  rfl

theorem handOffRef_disagree : (handOffRef s i j).rfe.disagree = (s.refChecked i j).rfe.disagree := by
  rw [(handed_handOffRef s i j).rfe]

/-- Without a good interval, and for REF2, the flag is not judged. -/
theorem disagree_unchecked (h : ¬ (j.good = true ∧ i.val < 2)) : (handOffRef s i j).rfe.disagree =
    if i.val < 2 ∧ (s.ref i).state = .qualified ∧ j.ref.state ≠ .qualified then false else s.rfe.disagree := by
  rw [handOffRef_disagree, State.refChecked, if_neg h, refSampled_disagree]

/-- The two references stand compared behind the event. -/
def ComparedAfter (t : State) (x y : Offset) : Prop :=
  ((t.ref 0).state = .qualified ∧ (t.ref 0).config.labelUse = true)
    ∧ ((t.ref 1).state = .qualified ∧ (t.ref 1).config.labelUse = true)
    ∧ (t.ref 0).offset = some x ∧ (t.ref 1).offset = some y ∧ x.second = y.second

theorem refSampled_compared (x y : Offset) :
    (s.refSampled i j).rfe.compared = some (x, y) ↔ ComparedAfter (handOffRef s i j) x y := by
  rw [compared_iff, eligible_iff, eligible_iff]
  unfold ComparedAfter
  rw [← refSampled_ref, ← refSampled_ref]
  rfl

theorem refSampled_uncompared (h : ∀ x y, ¬ ComparedAfter (handOffRef s i j) x y) : (s.refSampled i j).rfe.compared = none := by
  cases hc : (s.refSampled i j).rfe.compared with
  | none => rfl
  | some ab => exact absurd ((refSampled_compared s i j ab.1 ab.2).1 hc) (h ab.1 ab.2)

section
variable {s i j} (hg : j.good = true ∧ i.val < 2)

include hg in
theorem refChecked_good : s.refChecked i j = checkDisagree (s.refSampled i j) i := if_pos hg

include hg in
theorem disagree_uncompared (hq : (s.ref i).state = .qualified → j.ref.state = .qualified)
    (h : ∀ x y, ¬ ComparedAfter (handOffRef s i j) x y) : (handOffRef s i j).rfe.disagree = s.rfe.disagree := by
  rw [handOffRef_disagree, refChecked_good hg, checkDisagree_none (refSampled_uncompared s i j h), refSampled_disagree,
    if_neg (fun k => k.2.2 (hq k.2.1))]

variable {x y : Offset} (hc : ComparedAfter (handOffRef s i j) x y)

include hg hc in
theorem disagree_within (hd : (((handOffRef s i j).ref i).difference x y).natAbs ≤ s.tsu.limits.tracking) :
    (handOffRef s i j).rfe.disagree = false := by
  rw [← refSampled_ref, ← refSampled_limits s i j] at hd
  rw [handOffRef_disagree, refChecked_good hg, checkDisagree_within ((refSampled_compared s i j x y).2 hc) hd]

include hg hc in
/-- Above the tracking limit the check leaves a flag that stands, and shows the onset of one that does not. -/
theorem refChecked_beyond (hd : s.tsu.limits.tracking < (((handOffRef s i j).ref i).difference x y).natAbs) :
    s.refChecked i j = if (s.refSampled i j).rfe.disagree then s.refSampled i j
      else showDisagree (s.refSampled i j) i x y (((handOffRef s i j).ref i).difference x y) := by
  rw [← refSampled_ref, ← refSampled_limits s i j] at hd
  rw [refChecked_good hg, ← refSampled_ref, checkDisagree_beyond ((refSampled_compared s i j x y).2 hc) hd]

include hg hc in
theorem disagree_beyond (hd : s.tsu.limits.tracking < (((handOffRef s i j).ref i).difference x y).natAbs) :
    (handOffRef s i j).rfe.disagree = true := by
  rw [handOffRef_disagree, refChecked_beyond hg hc hd]
  split
  · assumption
  · rw [(handed_showDisagree _ _ _ _ _).rfe]

include hg hc in
/-- At the onset the check shows the disagreement. -/
theorem refChecked_onset (hd : s.tsu.limits.tracking < (((handOffRef s i j).ref i).difference x y).natAbs)
    (h : s.rfe.disagree = false) :
    s.refChecked i j = showDisagree (s.refSampled i j) i x y (((handOffRef s i j).ref i).difference x y) := by
  have fallen : ¬ (s.refSampled i j).rfe.disagree = true := by
    rw [refSampled_disagree, h]; simp
  rw [refChecked_beyond hg hc hd, if_neg fallen]

include hg hc in
theorem onset_noticed (hd : s.tsu.limits.tracking < (((handOffRef s i j).ref i).difference x y).natAbs)
    (h : s.rfe.disagree = false) :
    Noticed s (handOffRef s i j) .referenceDisagree (handOffRef s i j).now (.reference i.val)
      (beInt 4 (max (-2147483647) (min 2147483647 (((handOffRef s i j).ref i).difference x y))) ++ be 4 x.second) := by
  obtain ⟨shown, -⟩ := refShown_spec s i j
  obtain ⟨-, checked, -⟩ := refChecked_frame s i j
  have last := handed_handOffRef s i j
  have now : (s.refSampled i j).now = (handOffRef s i j).now := by rw [last.now, State.now, State.now, checked]
  have noticed := noticed_showDisagree (s.refSampled i j) i x y (((handOffRef s i j).ref i).difference x y)
  rw [← refChecked_onset hg hc hd h, now] at noticed
  exact (noticed.sooner (shown.trans (around_refSampled s i j)).noticesLe).later last

include hg hc in
/-- Where the reference did not change its state and is not selected, the onset's record is the event's first. -/
theorem onset_recorded (hd : s.tsu.limits.tracking < (((handOffRef s i j).ref i).difference x y).natAbs)
    (h : s.rfe.disagree = false) (hs : j.ref.state = (s.ref i).state)
    (hsel : (handOffRef s i j).rfe.selected.map (·.val) ≠ some i.val) :
    Offered s (handOffRef s i j) (disagreeRecord s i x y (((handOffRef s i j).ref i).difference x y)) := by
  have shown : s.refShown i j = s.setRef i j.ref := showRefChange_same _ _ _ _ _ (by rw [setRef_ref_self]; exact hs)
  rw [← refShown_selected] at hsel
  have alone : s.refSampled i j = s.setRef i j.ref := (handSample_unselected _ i j.sample hsel).trans shown
  have onset := refChecked_onset hg hc hd h
  rw [alone] at onset
  have first := offered_showDisagree (s.setRef i j.ref) i x y (((handOffRef s i j).ref i).difference x y)
  rw [← onset] at first
  exact (first.later (handed_handOffRef s i j)).sooner rfl

end

end

/-- Settles O36: the edge becomes the anchor, waits for a missing pulse, or is judged and handed off; the hand-off's sample and its
disagreement check are said by the lemmas above. -/
theorem edgeJudgedIsHandedOff : Obligations.EdgeJudgedIsHandedOff := by
  intro s i edge hl hc r emptied
  have effect : exec (.edgeJudged i) s = .next (edgeJudged s i) := whenLive_live s (edgeJudged · i) hl
  refine ⟨fun ha => ?_, fun a ha => ?_⟩
  · rw [effect, edgeJudged_anchors hc ha]
    rfl
  · intro n j expected late
    have late_iff : r.afterMissing n = true ↔ late := by
      rw [afterMissing_iff]
      exact ⟨fun ⟨p, ⟨hp, hs⟩, h⟩ => ⟨hs, p, hp, h⟩, fun ⟨hs, p, hp, h⟩ => ⟨p, ⟨hp, hs⟩, h⟩⟩
    refine ⟨fun h => ?_, fun h => ?_⟩
    · rw [effect, edgeJudged_against hc ha]
      exact congrArg _ (if_pos (late_iff.2 h))
    · refine ⟨handOffRef s i j, ?_, refHandedOff_handOffRef s i j, fun hg hs => ?_, fun x hx hsel hclock => ?_, ?_⟩
      · rw [effect, edgeJudged_against hc ha]
        exact congrArg _ (if_neg (mt late_iff.1 h))
      · exact handOffRef_quiet s i j hg (judgeEdge_sample emptied i edge n hg) hs
      · exact handOffRef_sampled s i j x hx hsel hclock
      · intro ok compared
        refine ⟨fun hg hi => ⟨fun none => ?_, fun x y d both hmod lo hi' => ?_⟩, fun unjudged => ?_⟩
        · exact disagree_uncompared ⟨hg, hi⟩ (judgeEdge_stays emptied i edge n hg) none
        · intro diff
          have diff_eq : ((handOffRef s i j).ref i).difference x y = diff := by
            rw [Ref.difference, phaseDiff_eq x.phase y.phase d hmod lo hi']
            rfl
          rw [← diff_eq]
          refine ⟨disagree_within ⟨hg, hi⟩ both, fun hd => ⟨disagree_beyond ⟨hg, hi⟩ both hd, fun fallen => ?_⟩⟩
          exact ⟨onset_noticed ⟨hg, hi⟩ both hd fallen, onset_recorded ⟨hg, hi⟩ both hd fallen⟩
        · refine disagree_unchecked s i j fun ⟨hg, hi⟩ => ?_
          rcases unjudged with k | k
          · rw [hg] at k; cases k
          · omega

end Sys2Proof.Machine
end

