-- ==== Sys2Proof/Proofs/LabelsTaken.lean ====
section
/-!
PROOFS. Proofs/LabelsTaken.lean: label frames and their timeouts (R25), the layout of a label read back (R178), and their statement.
-/
namespace Sys2Proof.Machine

/-! ## The arrival of a label frame (R25) -/

theorem startsLabel_iff (bytes : List Byte) (low : Bool) :
    startsLabel bytes low = true ↔ bytes.head? = some 0xB5#8 ∧ ¬ (low = true ∧ bytes.length = 1) := by
  cases low <;> simp [startsLabel]

theorem labelAnchor_none (r : Ref) (h : r.state = .disabled ∨ r.config.labelUse = false ∨ r.anchor = none) :
    r.labelAnchor = none := by
  unfold Ref.labelAnchor
  split
  · rename_i takes
    rcases h with h | h | h
    · exact absurd h takes.1
    · rw [h] at takes; cases takes.2
    · exact h
  · rfl

theorem labelAnchor_some (r : Ref) (a : Nat) (hs : r.state ≠ .disabled) (hu : r.config.labelUse = true) (ha : r.anchor = some a) :
    r.labelAnchor = some a := (if_pos ⟨hs, hu⟩).trans ha

theorem labelArrives_ignored (s : State) (i : Fin 2) (l : Option Label) (h : (s.ref (labelled i)).labelAnchor = none) :
    labelArrives s i l = s := by
  simp only [labelArrives, h]

theorem labelArrives_taken (s : State) (i : Fin 2) (l : Option Label) (a : Nat) (h : (s.ref (labelled i)).labelAnchor = some a) :
    labelArrives s i l = s.setRef (labelled i) ((s.ref (labelled i)).takeLabel
      (correctedNs (phasePassed a s.phase) (s.ref (labelled i)).fUsed) l) := by
  simp only [labelArrives, h]

theorem takeLabel_outside (r : Ref) (t : Int) (l : Label) (h : t < 100000000 ∨ 900000000 < t) :
    r.takeLabel t (some l) = r.discardLabel := if_pos h

theorem takeLabel_first (r : Ref) (t : Int) (l : Label) (lo : 100000000 ≤ t) (hi : t ≤ 900000000) (h : r.heldLabel = none) :
    r.takeLabel t (some l) = { r with heldLabel := some l } :=
  (if_neg (by omega)).trans (if_neg (by simp [h]))

theorem takeLabel_second (r : Ref) (t : Int) (l : Label) (lo : 100000000 ≤ t) (hi : t ≤ 900000000) (h : r.heldLabel ≠ none) :
    r.takeLabel t (some l) = { r with heldLabel := some l, labelBad := true } :=
  (if_neg (by omega)).trans (if_pos (Option.isSome_iff_ne_none.2 h))

/-! ## The layout of a label (R178) -/

/-- The eight bytes of a label between its sync and its check. -/
def labelFields (l : Label) : List Byte :=
  be 5 l.second ++ be 1 l.leapCount ++ be 1 l.warning.code ++ beBool l.traceable

theorem labelFields_length (l : Label) : (labelFields l).length = 8 := by
  simp [labelFields, beBool]

/-- A label's frame with a check byte. -/
def labelSealed (l : Label) (check : Byte) : List Byte := 0xB5#8 :: labelFields l ++ [check]

theorem beBool_eq (b : Bool) : beBool b = be 1 (if b then 1 else 0) := by cases b <;> rfl

theorem byte_eq (c : Byte) : [c] = be 1 c.toNat := by simp [be]

/-- The fields of a label's frame, each read at its place. -/
theorem labelSealed_fields (l : Label) (check : Byte) (hs : l.second < 1099511627776) (hk : l.leapCount < 256) :
    field (labelSealed l check) 1 5 = l.second ∧ field (labelSealed l check) 6 1 = l.leapCount
      ∧ field (labelSealed l check) 7 1 = l.warning.code ∧ field (labelSealed l check) 8 1 = (if l.traceable then 1 else 0)
      ∧ field (labelSealed l check) 9 1 = check.toNat := by
  have layout : labelSealed l check = be 1 0xB5 ++ (be 5 l.second ++ (be 1 l.leapCount ++ (be 1 l.warning.code
      ++ (be 1 (if l.traceable then 1 else 0) ++ be 1 check.toNat)))) := by
    rw [labelSealed, labelFields, beBool_eq, byte_eq check]
    simp only [List.append_assoc, List.cons_append]
    rfl
  have warning : l.warning.code < 256 ^ 1 := by cases l.warning <;> decide
  have traceable : (if l.traceable then 1 else 0) < 256 ^ 1 := by cases l.traceable <;> decide
  rw [layout]
  refine ⟨?_, ?_, ?_, ?_, ?_⟩
  · rw [field_later 1 _ _ _ (by omega), field_first 5 _ hs]
  · rw [field_later 1 _ _ _ (by omega), field_later 5 _ _ _ (by omega), field_first 1 _ hk]
  · rw [field_later 1 _ _ _ (by omega), field_later 5 _ _ _ (by omega), field_later 1 _ _ _ (by omega), field_first 1 _ warning]
  · rw [field_later 1 _ _ _ (by omega), field_later 5 _ _ _ (by omega), field_later 1 _ _ _ (by omega),
      field_later 1 _ _ _ (by omega), field_first 1 _ traceable]
  · rw [field_later 1 _ _ _ (by omega), field_later 5 _ _ _ (by omega), field_later 1 _ _ _ (by omega),
      field_later 1 _ _ _ (by omega), field_later 1 _ _ _ (by omega), field_only 1 _ check.isLt]

theorem labelSealed_length (l : Label) (check : Byte) : (labelSealed l check).length = 10 := by
  simp [labelSealed, labelFields_length]

/-- The bytes the check is taken over are the label's fields. -/
theorem labelSealed_covered (l : Label) (check : Byte) : ((labelSealed l check).drop 1).take 8 = labelFields l := by
  have h : (labelSealed l check).drop 1 = labelFields l ++ [check] := rfl
  rw [h, ← labelFields_length l, List.take_left]

theorem parseLabel_low (bytes : List Byte) : parseLabel bytes true = none := rfl

/-- A label's frame under another check is ill-formed. -/
theorem parseLabel_otherCheck (l : Label) (check : Byte) (hs : l.second < 1099511627776) (hk : l.leapCount < 256)
    (h : check ≠ crc8 (labelFields l)) : parseLabel (labelSealed l check) false = none := by
  obtain ⟨-, -, -, -, hcheck⟩ := labelSealed_fields l check hs hk
  have differs : (crc8 (((labelSealed l check).drop 1).take 8)).toNat ≠ field (labelSealed l check) 9 1 := by
    rw [hcheck, labelSealed_covered]
    exact fun e => h (BitVec.eq_of_toNat_eq e).symm
  unfold parseLabel
  rw [if_neg (by simp), if_neg (by rw [labelSealed_length]; simp), if_pos differs]

/-- A label's frame under its own check is read as that label. -/
theorem parseLabel_sealed (l : Label) (hs : l.second < 1099511627776) (hk : l.leapCount < 256) :
    parseLabel (labelSealed l (crc8 (labelFields l))) false = some l := by
  obtain ⟨hsecond, hcount, hwarning, htraceable, hcheck⟩ := labelSealed_fields l (crc8 (labelFields l)) hs hk
  have agrees : ¬ (crc8 (((labelSealed l (crc8 (labelFields l))).drop 1).take 8)).toNat
      ≠ field (labelSealed l (crc8 (labelFields l))) 9 1 := by
    rw [hcheck, labelSealed_covered]
    simp
  unfold parseLabel
  rw [if_neg (by simp), if_neg (by rw [labelSealed_length]; simp), if_neg agrees]
  simp only [hsecond, hcount, hwarning, htraceable]
  obtain ⟨second, count, warning, traceable⟩ := l
  cases warning <;> cases traceable <;> rfl

/-- Settles O39: a frame that begins arrives with what `parseLabel` reads, and is taken by `takeLabel` where the reference has a label
anchor; the layout is read back field by field. -/
theorem labelsAreTaken : Obligations.LabelsAreTaken := by
  refine ⟨fun s i bytes low hl => ?_, fun l hs hk => ?_⟩
  · intro k r discarded begins
    have frame : exec (.labelFrame i bytes low) s = .next (labelFrame s i bytes low) :=
      whenLive_live s (labelFrame · i bytes low) hl
    have timeout : exec (.labelTimeout ⟨i, bytes⟩) s = .next (labelTimeout s ⟨i, bytes⟩) :=
      whenLive_live s (labelTimeout · ⟨i, bytes⟩) hl
    have begins_iff (low : Bool) : startsLabel bytes low = true ↔ begins low := startsLabel_iff bytes low
    refine ⟨fun h => ⟨?_, ?_⟩, fun h => ?_, fun h => ?_, fun a hs hu ha => ?_⟩
    · rw [frame, labelFrame, labelArrives_ignored s i _ (labelAnchor_none r h), ite_self]
    · rw [timeout, labelTimeout, labelArrives_ignored s i _ (labelAnchor_none r h), ite_self]
    · rw [frame]
      exact congrArg _ (if_neg (mt (begins_iff low).1 h))
    · rw [timeout]
      refine congrArg _ (if_neg fun ⟨starts, short⟩ => ?_)
      exact h.elim (fun k => k ((begins_iff false).1 starts)) (Nat.not_le.2 short)
    · intro ns
      have arrives (l : Option Label) : labelArrives s i l = s.setRef k (r.takeLabel ns l) :=
        labelArrives_taken s i l a (labelAnchor_some r a hs hu ha)
      refine ⟨fun starts short => ?_, fun starts => ?_⟩
      · rw [timeout]
        exact congrArg _ ((if_pos ⟨(begins_iff false).2 starts, short⟩).trans (arrives none))
      · have taken : exec (.labelFrame i bytes low) s = .next (s.setRef k (r.takeLabel ns (parseLabel bytes low))) := by
          rw [frame, ← arrives]
          exact congrArg _ (if_pos ((begins_iff low).2 starts))
        refine ⟨fun ill => ?_, fun l sound => ⟨fun outside => ?_, fun lo hi => ⟨fun first => ?_, fun second => ?_⟩⟩⟩
        · rw [taken, ill]
          rfl
        · rw [taken, sound, takeLabel_outside r ns l outside]
          rfl
        · rw [taken, sound, takeLabel_first r ns l lo hi first]
        · rw [taken, sound, takeLabel_second r ns l lo hi second]
  · intro fields
    exact ⟨parseLabel_sealed l hs hk, parseLabel_low _, fun c hc => parseLabel_otherCheck l c hs hk hc⟩

end Sys2Proof.Machine
end

