-- ==== Sys2Proof/Proofs/ReferenceRequests.lean ====
section
/-!
PROOFS. Proofs/ReferenceRequests.lean: the requests that configure, enable and disable a reference (R37 to R40).
-/
namespace Sys2Proof.Machine

/-- A request its owner answers OK with an empty body. -/
theorem hostRequest_done (tag : Byte) (r : Request) (owner : State → Answered) (s t : State) (h : s.accepts = true)
    (hc : checkedRequest r = .request r) (ho : owner (acceptRequest s (kindOf r) tag) = done t) :
    hostRequest tag r owner s = .next (addReply t (kindOf r) tag .ok []) := by
  rw [hostRequest_accepted tag r owner s h hc, ho]
  rfl

theorem onRef_unknown (n : Nat) (s : State) (k : Fin 3 → Answered) (h : 2 < n) : onRef n s k = refuse s .badArgument := by
  rw [onRef, named_none 3 n h]

/-- Settles O19: each of the four requests looks its reference up first. -/
theorem unknownReferenceIsRefused : Obligations.UnknownReferenceIsRefused := by
  intro s tag n ha hn
  refine ⟨fun a hr => ?_, ?_, ?_, ?_⟩
  · exact hostRequest_refused tag (.configureReference a) (configureReference a) s _ ha rfl (onRef_unknown _ _ _ (hr ▸ hn))
  · exact hostRequest_refused tag (.enableReference n) (enableReference n) s _ ha rfl (onRef_unknown n _ _ hn)
  · exact hostRequest_refused tag (.disableReference n) (disableReference n) s _ ha rfl (onRef_unknown n _ _ hn)
  · exact hostRequest_refused tag (.readReference n) (readReference n) s _ ha rfl (onRef_unknown n _ _ hn)

/-! ## Configure Reference (R38) -/

section
variable (a : RefArgs) (s : State) (i : Fin 3) (h : a.ref = i.val)

include h in
theorem configureReference_named : configureReference a s =
    if !RefArgs.valid a i then refuse s .badArgument
    else if (s.ref i).state = .disabled then done (s.setRef i { s.ref i with config := RefArgs.config a })
    else refuse s .wrongState := by
  rw [configureReference, h, onRef_val]

include h in
theorem configureReference_invalid (hv : ¬ RefArgs.valid a i = true) : configureReference a s = refuse s .badArgument := by
  rw [configureReference_named a s i h, if_pos (by simpa using hv)]

include h in
theorem configureReference_valid (hv : RefArgs.valid a i = true) : configureReference a s =
    if (s.ref i).state = .disabled then done (s.setRef i { s.ref i with config := RefArgs.config a })
    else refuse s .wrongState := by
  rw [configureReference_named a s i h, if_neg (by simp [hv])]

end

/-! ## Enable Reference (R39) -/

/-- A reference made SEARCHING, recorded and noticed. -/
def State.enabling (s : State) (i : Fin 3) : State :=
  let u := s.setRef i (s.ref i).enabled
  notifyRef (offer u (refRecord u i .disabled .enable (s.ref i).config.bytes)) i

theorem enableReference_disabled (s : State) (i : Fin 3) (h : (s.ref i).state = .disabled) :
    enableReference i.val s = done (s.enabling i) := by
  have moved : ((s.setRef i (s.ref i).enabled).ref i).state = .searching := by rw [setRef_ref_self]; rfl
  have shown := showRefChange_uncrossed (s.setRef i (s.ref i).enabled) i .disabled .enable (s.ref i).config.bytes
    (by rw [moved]; simp) (by rw [moved]; rfl)
  rw [enableReference, onRef_val]
  simp only [if_pos h, shown]
  rfl

theorem enableReference_enabled (s : State) (i : Fin 3) (h : (s.ref i).state ≠ .disabled) :
    enableReference i.val s = refuse s .wrongState := by
  rw [enableReference, onRef_val]
  exact if_neg h

theorem enabling_spec (s : State) (i : Fin 3) :
    Handed (s.setRef i (s.ref i).enabled) (s.enabling i)
      ∧ Offered s (s.enabling i) (refRecord (s.setRef i (s.ref i).enabled) i .disabled .enable (s.ref i).config.bytes)
      ∧ Noticed s (s.enabling i) .referenceState s.now (.reference i.val)
          (be 1 RefState.searching.code ++ beOpt (s.rfe.selected.map (·.val))) := by
  obtain ⟨u, hu⟩ : ∃ u, u = s.setRef i (s.ref i).enabled := ⟨_, rfl⟩
  obtain ⟨r, hr⟩ : ∃ r, r = refRecord u i .disabled .enable (s.ref i).config.bytes := ⟨_, rfl⟩
  have enabling : s.enabling i = notifyRef (offer u r) i := by rw [hr, hu]; rfl
  have offered : Handed u (offer u r) := handed_offer u r
  have last : Handed (offer u r) (notifyRef (offer u r) i) := handed_notify _ _ _ _
  have ref : (offer u r).ref i = (s.ref i).enabled := by
    unfold State.ref; rw [offered.rfe, hu]; exact setRef_ref_self s i _
  have selected : (offer u r).rfe.selected = s.rfe.selected := by rw [offered.rfe, hu]; rfl
  have now : (offer u r).now = s.now := by rw [offered.now, hu]; rfl
  have data : be 1 ((offer u r).ref i).state.code ++ beOpt ((offer u r).rfe.selected.map (·.val))
      = be 1 RefState.searching.code ++ beOpt (s.rfe.selected.map (·.val)) := by rw [selected, ref]; rfl
  have noticed : Noticed (offer u r) (notifyRef (offer u r) i) .referenceState (offer u r).now (.reference i.val) _ :=
    noticed_notify (offer u r) _ _ _
  have same : s.ej = u.ej ∧ s.hli = u.hli := by rw [hu]; exact ⟨rfl, rfl⟩
  rw [← hu, ← hr, enabling]
  refine ⟨offered.trans last, ((offered_offer u r).later last).sooner same.1.symm, ?_⟩
  rw [← data, ← now]
  exact noticed.sooner (by rw [same.2]; exact offered.noticesLe)

/-! ## Disable Reference (R40) -/

theorem disableReference_disabled (s : State) (i : Fin 3) (h : (s.ref i).state = .disabled) :
    disableReference i.val s = done s := by
  rw [disableReference, onRef_val]
  exact if_pos h

/-- The disagreement flag false. -/
def State.agreeing (s : State) : State := { s with rfe := { s.rfe with disagree := false } }

/-- A disable is handed off as an occurrence that leaves the reference DISABLED, the flag false. -/
theorem disableReference_enabled (s : State) (i : Fin 3) (h : (s.ref i).state ≠ .disabled) :
    disableReference i.val s = done (handOffRef s.agreeing i { ref := (s.ref i).disabled, cause := .disable }) := by
  have moved : ¬ (s.ref i).disabled.state = (s.agreeing.ref i).state := fun e => h e.symm
  rw [disableReference, onRef_val, handOffRef_eq, if_neg moved]
  exact if_neg h

/-- The flag as the hand-off begins is no part of what it does. -/
theorem RefHandedOff.agreed {s t : State} {i : Fin 3} {j : RefStep} (h : RefHandedOff s.agreeing t i j) : RefHandedOff s t i j :=
  { h with around := (around_rfe s _).trans h.around }

/-- A reply made on both sides. -/
theorem RefHandedOff.addReply {s t : State} {i : Fin 3} {j : RefStep} (h : RefHandedOff s t i j) (kind tag : Byte) (st : Status)
    (body : List Byte) : RefHandedOff (addReply s kind tag st body) (Machine.addReply t kind tag st body) i j :=
  { h with around := h.around.addReply kind tag st body }

/-! ## The statement -/

/-- Settles O34: each request's owner by its cases, and what an enable and a disable hand on. -/
theorem referenceRequestsTakeEffect : Obligations.ReferenceRequestsTakeEffect := by
  intro s tag i ha r
  refine ⟨fun a hr => ?_, fun hs => ?_, fun hs => ?_, fun hs => ?_, fun hs => ?_⟩
  · intro valid
    have hvalid : RefArgs.valid a i = true ↔ valid := decide_eq_true_iff
    have refused (st : Status) := hostRequest_refused tag (.configureReference a) (configureReference a) s st ha rfl
    refine ⟨fun hv => refused _ ?_, fun hv hs => ?_, fun hv hs => refused _ ?_⟩
    · exact configureReference_invalid a _ i hr (mt hvalid.1 hv)
    · exact hostRequest_done tag (.configureReference a) (configureReference a) s _ ha rfl
        ((configureReference_valid a _ i hr (hvalid.2 hv)).trans (if_pos hs))
    · exact (configureReference_valid a _ i hr (hvalid.2 hv)).trans (if_neg hs)
  · exact hostRequest_refused tag (.enableReference i.val) (enableReference i.val) s _ ha rfl (enableReference_enabled _ i hs)
  · intro new
    obtain ⟨handed, offered, noticed⟩ := enabling_spec (acceptRequest s 0x19#8 tag) i
    exact ⟨_, hostRequest_done tag (.enableReference i.val) (enableReference i.val) s _ ha rfl (enableReference_disabled _ i hs),
      handed.addReply _ _ _ _, offered, noticed⟩
  · exact hostRequest_done tag (.disableReference i.val) (disableReference i.val) s _ ha rfl (disableReference_disabled _ i hs)
  · intro new
    have handed := refHandedOff_handOffRef (acceptRequest s 0x1A#8 tag).agreeing i { ref := new, cause := .disable }
    have flag := disagree_unchecked (acceptRequest s 0x1A#8 tag).agreeing i { ref := new, cause := .disable } (by simp)
    exact ⟨_, hostRequest_done tag (.disableReference i.val) (disableReference i.val) s _ ha rfl (disableReference_enabled _ i hs),
      handed.agreed.addReply _ _ _ _, flag.trans (ite_self _)⟩

end Sys2Proof.Machine
end

