-- ==== Sys2Proof/Proofs/LanesWaiting.lean ====
section
/-!
PROOFS. Proofs/LanesWaiting.lean: a line that may begin no frame keeps everything but its pending phase frames, which only grow, through
everything an offered record and a notice set off (R57, R61, R63).
-/
namespace Sys2Proof.Machine

/-! ## One line replaced after another -/

@[simp] theorem setLine_setLine (s : State) (i : Fin 8) (l m : Line) : (s.setLine i l).setLine i m = s.setLine i m := by
  simp [State.setLine]

theorem setLine_self (s : State) (i : Fin 8) : s.setLine i (s.line i) = s := by
  simp [State.setLine, State.line]

/-! ## Lines that may begin no frame -/

/-- What a line that may begin no frame undergoes while a change is handed on: phase frames become pending. -/
structure Line.WaitsAs (l m : Line) : Prop where
  same : m = { l with phases := m.phases }
  phases : l.phases ⊆ m.phases

theorem Line.WaitsAs.refl (l : Line) : l.WaitsAs l := ⟨rfl, fun _ => id⟩

theorem Line.WaitsAs.trans {a b c : Line} (h : a.WaitsAs b) (k : b.WaitsAs c) : a.WaitsAs c where
  same := by rw [k.same, h.same]
  phases := fun _ hg => k.phases (h.phases hg)

/-- The pending phase frames do not bear on whether a frame may begin. -/
theorem Line.WaitsAs.maySend {l m : Line} (h : l.WaitsAs m) : m.maySend = l.maySend := by rw [h.same]; rfl

/-- Every line that may begin no frame before waits. -/
def LanesWait (s t : State) : Prop := ∀ i, (s.line i).maySend = false → (s.line i).WaitsAs (t.line i)

theorem LanesWait.refl (s : State) : LanesWait s s := fun _ _ => Line.WaitsAs.refl _

theorem LanesWait.back {s t u : State} (k : LanesWait t u) (h : LanesWait s t) : LanesWait s u := fun i hi =>
  (h i hi).trans (k i ((h i hi).maySend.trans hi))

theorem lanesWait_of_lines {s t : State} (h : t.lines = s.lines) : LanesWait s t := fun i _ => by
  rw [State.line, State.line, h]
  exact Line.WaitsAs.refl _

theorem lanesWait_setLine (s : State) (i : Fin 8) (l : Line) (h : (s.line i).maySend = false → (s.line i).WaitsAs l) :
    LanesWait s (s.setLine i l) := fun j hj => by
  by_cases e : j = i
  · subst e
    rw [setLine_line_self]
    exact h hj
  · rw [setLine_line_ne s i l j e]
    exact Line.WaitsAs.refl _

/-- A line that may begin a frame replaced. -/
theorem lanesWait_sent (s : State) (i : Fin 8) (l : Line) (h : (s.line i).maySend = true) : LanesWait s (s.setLine i l) :=
  lanesWait_setLine s i l fun e => absurd h (by rw [e]; simp)

theorem lanesWait_foldl {α : Type} (f : State → α → State) (h : ∀ s a, LanesWait s (f s a)) (l : List α) (s : State) :
    LanesWait s (l.foldl f s) := by
  induction l generalizing s with
  | nil => exact LanesWait.refl s
  | cons a l ih => exact (ih _).back (h s a)

theorem mem_addGroup (g x : Fin 32) (l : List (Fin 32)) : x ∈ addGroup g l ↔ x = g ∨ x ∈ l := by
  induction l with
  | nil => simp [addGroup]
  | cons h hs ih =>
    unfold addGroup
    split
    · exact List.mem_cons
    · split
      · rename_i e
        rw [e, List.mem_cons, ← or_assoc, or_self]
      · rw [List.mem_cons, ih, List.mem_cons, or_left_comm]

section
variable {offer : Offerer} (ho : ∀ s r, LanesWait s (offer s r))

include ho in
theorem lanesWait_scheduleWith (s : State) (i : Fin 8) : LanesWait s (scheduleWith offer s i) := by
  unfold scheduleWith
  simp only []
  split
  · rename_i h
    split
    · exact (ho _ _).back (lanesWait_sent s i _ h)
    · split
      · exact lanesWait_sent s i _ h
      · exact lanesWait_sent s i _ h
      · split
        · exact lanesWait_sent s i _ h
        · exact LanesWait.refl s
  · exact LanesWait.refl s

include ho in
theorem lanesWait_phaseOnWith (g : Fin 32) (s : State) (i : Fin 8) : LanesWait s (phaseOnWith offer g s i) := by
  have added : LanesWait s (s.setLine i { s.line i with phases := addGroup g (s.line i).phases }) :=
    lanesWait_setLine s i _ fun _ => ⟨rfl, fun x hx => (mem_addGroup g x _).2 (.inr hx)⟩
  unfold phaseOnWith
  simp only []
  split
  · exact (lanesWait_scheduleWith ho _ _).back added
  · exact LanesWait.refl s

include ho in
theorem lanesWait_showGroupWith (s : State) (g : Fin 32) (vt : Nat) : LanesWait s (showGroupWith offer s g vt) := by
  unfold showGroupWith phasePendingWith
  exact (lanesWait_of_lines (lines_notifyAt _ _ _ _ _)).back (lanesWait_foldl _ (lanesWait_phaseOnWith ho g) _ s)

include ho in
theorem lanesWait_cutDeferredWith (s : State) (g : Fin 32) : LanesWait s (cutDeferredWith offer s g) := by
  unfold cutDeferredWith
  split
  · unfold cutGroupWith
    exact (lanesWait_showGroupWith ho _ _ _).back (lanesWait_of_lines rfl)
  · exact LanesWait.refl s

include ho in
theorem lanesWait_cutAllWith (s : State) : LanesWait s (cutAllWith offer s) := by
  unfold cutAllWith
  split
  · exact lanesWait_foldl _ (lanesWait_cutDeferredWith ho) _ s
  · exact LanesWait.refl s

include ho in
theorem lanesWait_judgeJournalWith (s : State) : LanesWait s (judgeJournalWith offer s) := by
  unfold judgeJournalWith
  split
  · exact LanesWait.refl s
  · exact LanesWait.refl s
  all_goals
    simp only []
    split
    · exact LanesWait.refl s
    · unfold journalReportWith
      exact (lanesWait_of_lines (lines_notify _ _ _ _)).back ((lanesWait_cutAllWith ho _).back (lanesWait_of_lines rfl))

end

theorem lines_beginNext (s : State) (p : Fin 64) (slot : Nat) : (beginNext s p slot).lines = s.lines := by
  unfold beginNext
  simp only []
  split
  · rfl
  · rfl
  · rfl
  · split <;> rfl

theorem lanesWait_writerDecide (s : State) : LanesWait s (writerDecide s) := by
  have judged := lanesWait_judgeJournalWith fun s r => lanesWait_of_lines (lines_enqueue s r)
  unfold writerDecide
  split
  · split
    · split
      · unfold openPage
        exact (judged _).back (lanesWait_of_lines rfl)
      · exact LanesWait.refl s
    · exact lanesWait_of_lines (lines_beginNext _ _ _)
  · exact LanesWait.refl s

theorem lanesWait_offer (s : State) (r : Record) : LanesWait s (offer s r) := by
  unfold offer
  simp only []
  split
  · exact (lanesWait_writerDecide _).back (lanesWait_of_lines (lines_enqueue s r))
  · exact lanesWait_of_lines (lines_enqueue s r)

theorem lanesWait_notify (s : State) (k : NoticeKind) (x : Subject) (d : List Byte) : LanesWait s (notify s k x d) :=
  lanesWait_of_lines (lines_notify s k x d)

theorem lanesWait_schedule (s : State) (i : Fin 8) : LanesWait s (schedule s i) := lanesWait_scheduleWith lanesWait_offer s i

theorem maySend_iff (l : Line) :
    l.maySend = true ↔ (l.state = .running ∨ l.state = .holding) ∧ l.lane = none ∧ l.pause = false := by
  simp [Line.maySend, and_assoc]

/-- The scheduler has no choice to make on a line that may begin no frame. -/
theorem schedule_waits (s : State) (i : Fin 8) (h : (s.line i).maySend = false) : schedule s i = s :=
  if_neg (by rw [h]; simp)

end Sys2Proof.Machine
end

