-- ==== Sys2Proof/Proofs/LinesShown.lean ====
section
/-!
PROOFS. Proofs/LinesShown.lean: a line replaced with its record and its notice in one event (R45, R46, R49), said once for every operation of
the Tag Link Controllers that shows one, and two of them one after the other.
-/
namespace Sys2Proof.Machine

/-- A line has been replaced, a record of the change offered and a notice of it produced, and all has been handed on. -/
structure LineShown (s t : State) (i : Fin 8) (l : Line) (r : Record) (k : NoticeKind) (d : List Byte) : Prop where
  handed : Handed (s.setLine i l) t
  line : l.state ≠ .running → t.line i = l
  recorded : Offered s t r
  noticed : Noticed s t k s.now (.line i.val) d
  paged : s.ej.takes r.kind.critical = true → s.ej.openPage ≠ none →
    t.ej.state = s.ej.state ∧ t.ej.intake = s.ej.intake ++ [r]

theorem ej_notify (s : State) (k : NoticeKind) (x : Subject) (d : List Byte) : (notify s k x d).ej = s.ej := by
  unfold notify notifyAt
  simp only []
  split <;> rfl

theorem lineShown (s : State) (i : Fin 8) (l : Line) (r : Record) (k : NoticeKind) (d : List Byte) :
    LineShown s (notify (offer (s.setLine i l) r) k (.line i.val) d) i l r k d := by
  obtain ⟨u, hu⟩ : ∃ u, u = offer (s.setLine i l) r := ⟨_, rfl⟩
  have offered : Handed (s.setLine i l) u := hu ▸ handed_offer _ r
  have last : Handed u (notify u k (.line i.val) d) := handed_notify u _ _ _
  rw [← hu]
  refine ⟨offered.trans last, fun h => ?_, ?_, ?_, fun takes opened => ?_⟩
  · have still : u.line i = (s.setLine i l).line i := hu ▸ still_offer _ r i (by rwa [setLine_line_self])
    rw [State.line, lines_notify, ← State.line, still, setLine_line_self]
  · have recorded : Offered s u r := hu ▸ offered_offer (s.setLine i l) r
    exact recorded.later last
  · have now : u.now = s.now := offered.now
    have noticed := noticed_notify u k (.line i.val) d
    rw [now] at noticed
    exact noticed.sooner offered.noticesLe
  · rw [ej_notify, hu]
    exact ⟨((handsOn_offer (s.setLine i l) r).paged opened).2.1, offer_paged (s.setLine i l) r takes opened⟩

/-- What the line was replaced by before is no part of its change. -/
theorem LineShown.replaced {s t : State} {i : Fin 8} {l m : Line} {r : Record} {k : NoticeKind} {d : List Byte}
    (h : LineShown (s.setLine i l) t i m r k d) : LineShown s t i m r k d :=
  { h with handed := setLine_setLine s i l m ▸ h.handed }

/-- The first of two changes of a line in one event, then what it leads to. -/
theorem LineShown.handed_then {s t u : State} {i : Fin 8} {l m : Line} {r : Record} {k : NoticeKind} {d : List Byte}
    (h : LineShown s t i l r k d) (j : Handed (t.setLine i m) u) :
    Handed (s.setLine i m) u ∧ Offered s u r ∧ Noticed s u k s.now (.line i.val) d := by
  have both := (h.handed.setLine i m).trans j
  rw [setLine_setLine] at both
  have recorded : Offered s (t.setLine i m) r := h.recorded
  have noticed : Noticed s (t.setLine i m) k s.now (.line i.val) d := h.noticed
  exact ⟨both, recorded.later j, noticed.later j⟩

/-- The second of two changes: its record joins behind the first one's. -/
theorem LineShown.after {s t u : State} {i : Fin 8} {l m : Line} {r r' : Record} {k k' : NoticeKind} {d d' : List Byte}
    (j : LineShown t u i m r' k' d') (h : LineShown s t i l r k d) (hr : r.kind.critical = false) (hr' : r'.kind.critical = false) :
    OfferedAfter 1 s u r' ∧ Noticed s u k' s.now (.line i.val) d' := by
  refine ⟨fun takes room => ?_, ?_⟩
  · rw [hr'] at takes
    rw [if_neg (by simp [hr'])] at room
    obtain ⟨opened, length⟩ := room
    obtain ⟨state, intake⟩ := h.paged (by rwa [hr]) opened
    have taken : t.ej.takes r'.kind.critical = true := by
      rw [hr', takes_open_iff, state, intake]
      exact ⟨((takes_open_iff _).1 takes).1, by simpa using length⟩
    exact mem_drop_le (by simp [intake]) (j.recorded taken)
  · have noticed := j.noticed
    rw [h.handed.now] at noticed
    exact noticed.sooner h.handed.noticesLe

/-- What an accepted request has shown stands when its reply has been made. -/
theorem Offered.answered {s t : State} {r : Record} {kind tag : Byte} (h : Offered (acceptRequest s kind tag) t r) :
    Offered s (addReply t kind tag .ok []) r := h

theorem OfferedAfter.answered {n : Nat} {s t : State} {r : Record} {kind tag : Byte}
    (h : OfferedAfter n (acceptRequest s kind tag) t r) : OfferedAfter n s (addReply t kind tag .ok []) r := h

theorem Noticed.answered {s t : State} {k : NoticeKind} {vt : Nat} {x : Subject} {d : List Byte} {kind tag : Byte}
    (h : Noticed (acceptRequest s kind tag) t k vt x d) : Noticed s (addReply t kind tag .ok []) k vt x d := h

theorem Handed.answered {s t : State} {i : Fin 8} {l : Line} {kind tag : Byte}
    (h : Handed ((acceptRequest s kind tag).setLine i l) t) :
    Handed ((s.answered kind tag .ok []).setLine i l) (Machine.addReply t kind tag .ok []) := h.addReply kind tag .ok []

theorem line_answered {t : State} {i : Fin 8} {l : Line} (kind tag : Byte) (h : t.line i = l) :
    (addReply t kind tag .ok []).line i = l := h

/-! ## The operations that show a change -/

/-- A line's state, health level and REC as its notice gives them (R49). -/
def Line.shownBytes (l : Line) : List Byte := be 1 l.state.code ++ beOpt (l.health.map (·.code)) ++ be 1 l.rec_

theorem LineKept.shownBytes {l m : Line} (h : LineKept l m) : m.shownBytes = l.shownBytes := by
  unfold Line.shownBytes Line.health
  rw [h.state, h.rec_]

theorem notifyLine_eq (s : State) (i : Fin 8) :
    notifyLine s i = notify s .lineState (.line i.val) (s.line i).shownBytes := rfl

/-- A LINE_STATE notice of a line replaced gives the line it was replaced by. -/
theorem notifyLine_offer (s : State) (i : Fin 8) (l : Line) (r : Record) :
    notifyLine (offer (s.setLine i l) r) i = notify (offer (s.setLine i l) r) .lineState (.line i.val) l.shownBytes := by
  have kept := (handed_offer (s.setLine i l) r).lines i
  rw [setLine_line_self] at kept
  rw [notifyLine_eq, kept.shownBytes]

theorem lineShown_state (s : State) (i : Fin 8) (l : Line) (r : Record) :
    LineShown s (notifyLine (offer (s.setLine i l) r) i) i l r .lineState l.shownBytes := by
  rw [notifyLine_offer]
  exact lineShown s i l r _ _

theorem lineShown_enterHeld (s : State) (i : Fin 8) (l : Line) (cause : LineCause) (extra : List Byte) :
    LineShown s (enterHeld s i l cause extra) i { l with state := .held }
      (lineStateRecord s i (lineChangeFields l.state { l with state := .held }) cause extra) .lineHeld (be 1 cause.code) :=
  lineShown s i { l with state := .held } _ _ _

/-- The record of a change of line state with nothing behind its cause (R49). -/
def lineRecord (s : State) (i : Fin 8) (old : LineState) (l : Line) (cause : LineCause) : Record :=
  { kind := .lineState, subject := i.val, vt := s.now,
    body := be 1 old.code ++ be 1 l.state.code ++ beOpt (l.health.map (·.code)) ++ be 1 l.rec_ ++ be 1 cause.code }

theorem lineStateRecord_nil (s : State) (i : Fin 8) (old : LineState) (l : Line) (cause : LineCause) :
    lineStateRecord s i (lineChangeFields old l) cause [] = lineRecord s i old l cause := by
  rw [lineStateRecord, List.append_nil]
  rfl

/-- A line HELD with nothing behind the cause of its record. -/
theorem lineShown_held (s : State) (i : Fin 8) (l : Line) (cause : LineCause) :
    LineShown s (enterHeld s i l cause []) i { l with state := .held }
      (lineRecord s i l.state { l with state := .held } cause) .lineHeld (be 1 cause.code) := by
  rw [← lineStateRecord_nil]
  exact lineShown_enterHeld s i l cause []

/-- The line a drained HOLDING line becomes (R51). -/
def Line.drainedHeld (l : Line) : Line := { l with state := .held, drain := none }

/-- A HOLDING line that has drained is HELD (R51). -/
theorem lineShown_drainTest (s : State) (i : Fin 8) (l : Line) (hl : s.line i = l) (hs : l.state = .holding)
    (hd : l.drained = true) : LineShown s (drainTest s i) i l.drainedHeld (lineRecord s i .holding l.drainedHeld .drained)
      .lineHeld (be 1 1) := by
  subst hl
  have test : drainTest s i = enterHeld s i { s.line i with drain := none } .drained [] := if_pos ⟨hs, hd⟩
  rw [test, ← hs]
  exact lineShown_held s i { s.line i with drain := none } .drained

theorem drainTest_waits (s : State) (i : Fin 8) (h : ¬ ((s.line i).state = .holding ∧ (s.line i).drained = true)) :
    drainTest s i = s := if_neg h

end Sys2Proof.Machine
end

