-- ==== Sys2Proof/Proofs/LineRequests.lean ====
section
/-!
PROOFS. Proofs/LineRequests.lean: the requests that hold, configure, release and reconnect a line (R49 to R51, R57 to R60).
-/
namespace Sys2Proof.Machine

theorem onLine_unknown (n : Nat) (s : State) (k : Fin 8 → Answered) (h : 7 < n) : onLine n s k = refuse s .badArgument := by
  rw [onLine, named_none 8 n h]

/-! ## Hold Line (R50, R51) -/

theorem holdLine_off (s : State) (i : Fin 8) (h : (s.line i).state = .off) :
    holdLine i.val s = done (enterHeld s i (s.line i) .hold []) := by
  simp only [holdLine, onLine_val, h]

theorem holdLine_running (s : State) (i : Fin 8) (h : (s.line i).state = .running) :
    holdLine i.val s = done (beginHold s i) := by
  simp only [holdLine, onLine_val, h]

theorem holdLine_holds (s : State) (i : Fin 8) (h : (s.line i).state = .holding ∨ (s.line i).state = .held) :
    holdLine i.val s = done s := by
  rcases h with h | h <;> simp only [holdLine, onLine_val, h]

theorem holdLine_isolated (s : State) (i : Fin 8) (h : (s.line i).state = .isolated) :
    holdLine i.val s = refuse s .wrongState := by
  simp only [holdLine, onLine_val, h]

/-- The line a RUNNING line becomes when its hold begins (R50). -/
def Line.holdingFrom (l : Line) (osc : Nat) : Line :=
  { l with state := .holding, quality := false, phases := [], interleave := 0, drain := some osc }

/-- A line made HOLDING, recorded and noticed, before its drain test. -/
def State.holdBegun (s : State) (i : Fin 8) : State :=
  let l := (s.line i).holdingFrom s.osc
  notifyLine (offer (s.setLine i l) (lineStateRecord s i (lineChangeFields .running l) .hold [])) i

theorem beginHold_eq (s : State) (i : Fin 8) : beginHold s i = drainTest (s.holdBegun i) i := rfl

theorem lineShown_holdBegun (s : State) (i : Fin 8) :
    LineShown s (s.holdBegun i) i ((s.line i).holdingFrom s.osc)
      (lineRecord s i .running ((s.line i).holdingFrom s.osc) .hold) .lineState ((s.line i).holdingFrom s.osc).shownBytes := by
  rw [← lineStateRecord_nil]
  exact lineShown_state s i _ _

/-- Settles O40: the owner by the line's state, and what a hold shows, with the drain's change behind it where the line has drained. -/
theorem holdLineTakesEffect : Obligations.HoldLineTakesEffect := by
  intro s tag i ha l ok holding r
  obtain ⟨a, haa⟩ : ∃ a, a = acceptRequest s 0x20#8 tag := ⟨_, rfl⟩
  have line : a.line i = l := by rw [haa]; rfl
  have osc : a.osc = s.osc := by rw [haa]; rfl
  have performed {t : State} (h : holdLine i.val a = done t) :
      exec (.holdLine tag i.val) s = .next (addReply t 0x20#8 tag .ok []) :=
    hostRequest_done tag (.holdLine i.val) (holdLine i.val) s t ha rfl (haa ▸ h)
  have refused (n : Nat) (st : Status) := hostRequest_refused tag (.holdLine n) (holdLine n) s st ha rfl
  have begun : LineShown a (a.holdBegun i) i holding _ _ _ := line ▸ osc ▸ lineShown_holdBegun a i
  have here : (a.holdBegun i).line i = holding := begun.line (by simp [holding])
  refine ⟨fun hs => ?_, fun hs hd => ?_, fun hs hd => ?_, fun hs => ?_, fun hs => ?_, fun n hn => ?_⟩
  · have shown := lineShown_held a i (a.line i) .hold
    rw [line, hs] at shown
    refine ⟨_, performed (holdLine_off a i (line ▸ hs)), ?_⟩
    rw [line]
    subst haa
    exact ⟨shown.handed.answered, line_answered _ _ (shown.line (by simp)), shown.recorded.answered, shown.noticed.answered⟩
  · have waits : drainTest (a.holdBegun i) i = a.holdBegun i := drainTest_waits _ i (by
      rw [here]
      exact fun h => absurd h.2 (by rw [show holding.drained = l.drained from rfl, hd]; simp))
    refine ⟨_, performed (holdLine_running a i (line ▸ hs)), ?_⟩
    rw [beginHold_eq, waits]
    subst haa
    exact ⟨begun.handed.answered, line_answered _ _ here, begun.recorded.answered, begun.noticed.answered⟩
  · have drained := lineShown_drainTest (a.holdBegun i) i holding here rfl hd
    obtain ⟨handed, recorded, noticed⟩ := begun.handed_then drained.handed
    obtain ⟨behind, told⟩ := drained.after begun rfl rfl
    have now : (a.holdBegun i).now = s.now := by rw [begun.handed.now, haa]; rfl
    rw [lineRecord, now] at behind
    refine ⟨_, performed (holdLine_running a i (line ▸ hs)), ?_⟩
    rw [beginHold_eq]
    subst haa
    exact ⟨handed.answered, line_answered _ _ (drained.line (by simp [Line.drainedHeld])), recorded.answered, noticed.answered,
      behind.answered, told.answered⟩
  · rw [performed (holdLine_holds a i (line ▸ hs)), haa]
    rfl
  · exact refused i.val _ (holdLine_isolated _ i hs)
  · exact refused n _ (onLine_unknown n _ _ hn)

/-! ## Configure Line and Set Filter (R58) -/

theorem reconfigure_spec (s : State) (i : Fin 8) (l : Line) (h : l.state = .held) :
    Handed (s.setLine i l) (reconfigure s i l) ∧ (reconfigure s i l).line i = l
      ∧ Offered s (reconfigure s i l)
          { kind := .lineConfig, subject := i.val, vt := s.now,
            body := be 1 l.mode.code ++ be 2 l.pathDelay
              ++ l.filters.toList.flatMap fun f => beBool f.enabled ++ be 2 f.code.toNat ++ be 2 f.mask.toNat } := by
  have still : (reconfigure s i l).line i = l := by
    have := still_offer (s.setLine i l) (lineConfigRecord (s.setLine i l) i) i (by simp [h])
    rwa [setLine_line_self] at this
  have recorded : Offered (s.setLine i l) (reconfigure s i l) (lineConfigRecord (s.setLine i l) i) := offered_offer _ _
  rw [lineConfigRecord, setLine_line_self] at recorded
  exact ⟨handed_offer _ _, still, recorded⟩

section
variable (s : State) (i : Fin 8)

theorem configureLine_outOfRange (mode delay : Nat) (h : 1 < mode ∨ 65535 < delay) :
    configureLine i.val mode delay s = refuse s .badArgument := by
  rw [configureLine, onLine_val]
  exact if_pos h

theorem configureLine_inRange (mode delay : Nat) (hm : mode ≤ 1) (hd : delay ≤ 65535) :
    configureLine i.val mode delay s = if (s.line i).state = .held then
      done (reconfigure s i { s.line i with mode := if mode = 0 then .all else .listed, pathDelay := delay })
      else refuse s .wrongState := by
  rw [configureLine, onLine_val]
  exact if_neg (by omega)

theorem setFilter_unknown (k enabled code mask : Nat) (h : 3 < k) :
    setFilter i.val k enabled code mask s = refuse s .badArgument := by
  simp only [setFilter, onLine_val, named_none 4 k h]

theorem setFilter_inRange (k : Fin 4) (enabled code mask : Nat) (he : enabled ≤ 1) (hc : code ≤ 65535) (hm : mask ≤ 65535) :
    setFilter i.val k.val enabled code mask s = if (s.line i).state = .held then
      done (reconfigure s i { s.line i with
        filters := (s.line i).filters.set k ⟨enabled == 1, BitVec.ofNat 16 code, BitVec.ofNat 16 mask⟩ })
      else refuse s .wrongState := by
  simp only [setFilter, onLine_val, named_val]
  exact if_neg (by omega)

/-- The fields of a filter in a request, read back. -/
theorem filterFields (on : Bool) (code mask : Word16) :
    (⟨(if on then 1 else 0) == 1, BitVec.ofNat 16 code.toNat, BitVec.ofNat 16 mask.toNat⟩ : Filter) = ⟨on, code, mask⟩ := by
  rw [BitVec.ofNat_toNat, BitVec.ofNat_toNat]
  cases on <;> simp

end

/-- Settles O41: each request's owner by its checks, and the whole configuration of the HELD line recorded. -/
theorem lineIsConfiguredWhileHeld : Obligations.LineIsConfiguredWhileHeld := by
  intro s tag i ha l r configured
  have taken (c : Request) (owner : State → Answered) (x : Line) (hc : checkedRequest c = .request c) (hx : x.state = .held)
      (ho : owner (acceptRequest s (kindOf c) tag) = done (reconfigure (acceptRequest s (kindOf c) tag) i x)) :
      ∃ t, hostRequest tag c owner s = .next t ∧ Handed ((s.answered (kindOf c) tag .ok []).setLine i x) t ∧ t.line i = x
        ∧ Offered s t (r x) := by
    obtain ⟨handed, still, recorded⟩ := reconfigure_spec (acceptRequest s (kindOf c) tag) i x hx
    exact ⟨_, hostRequest_done tag c owner s _ ha hc ho, handed.answered, line_answered _ _ still, recorded.answered⟩
  have configure (mode delay : Nat) (st : Status) :=
    hostRequest_refused tag (.configureLine i.val mode delay) (configureLine i.val mode delay) s st ha rfl
  have filter (k e code mask : Nat) (st : Status) :=
    hostRequest_refused tag (.setFilter i.val k e code mask) (setFilter i.val k e code mask) s st ha rfl
  refine ⟨fun delay hd hs => ⟨?_, ?_⟩, fun mode delay hm => ?_, fun mode delay hm hd hs => ?_, fun k on code mask hs => ?_,
    fun k e code mask hk => ?_, fun k e code mask hk he hc hm hs => ?_, fun n hn => ⟨fun mode delay => ?_, fun k e code mask => ?_⟩⟩
  · exact taken (.configureLine i.val 0 delay) _ { l with mode := .all, pathDelay := delay } rfl hs
      ((configureLine_inRange _ i 0 delay (by omega) hd).trans (if_pos hs))
  · exact taken (.configureLine i.val 1 delay) _ { l with mode := .listed, pathDelay := delay } rfl hs
      ((configureLine_inRange _ i 1 delay (by omega) hd).trans (if_pos hs))
  · exact configure mode delay _ (configureLine_outOfRange _ i mode delay (.inl hm))
  · exact configure mode delay _ ((configureLine_inRange _ i mode delay hm hd).trans (if_neg hs))
  · refine taken (.setFilter i.val k.val (if on then 1 else 0) code.toNat mask.toNat) _
      { l with filters := l.filters.set k ⟨on, code, mask⟩ } rfl hs ?_
    have enabled : (if on then 1 else 0) ≤ 1 := by split <;> omega
    have owner := setFilter_inRange (acceptRequest s 0x22#8 tag) i k (if on then 1 else 0) code.toNat mask.toNat enabled
      (by have := code.isLt; omega) (by have := mask.isLt; omega)
    rw [filterFields] at owner
    exact owner.trans (if_pos hs)
  · exact filter k e code mask _ (setFilter_unknown _ i k e code mask hk)
  · exact filter k e code mask _ ((setFilter_inRange _ i ⟨k, by omega⟩ e code mask he hc hm).trans (if_neg hs))
  · exact hostRequest_refused tag (.configureLine n mode delay) (configureLine n mode delay) s _ ha rfl (onLine_unknown n _ _ hn)
  · exact hostRequest_refused tag (.setFilter n k e code mask) (setFilter n k e code mask) s _ ha rfl (onLine_unknown n _ _ hn)

/-! ## Release Line (R57, R59) -/

theorem releaseLine_held (s : State) (i : Fin 8) (h : (s.line i).state = .held) : releaseLine i.val s = done (runLine s i) := by
  rw [releaseLine, onLine_val]
  exact if_pos h

theorem releaseLine_notHeld (s : State) (i : Fin 8) (h : (s.line i).state ≠ .held) :
    releaseLine i.val s = refuse s .wrongState := by
  rw [releaseLine, onLine_val]
  exact if_neg h

theorem mem_foldl_addGroup (x : Fin 32) (gs l : List (Fin 32)) :
    x ∈ gs.foldl (fun ps g => addGroup g ps) l ↔ x ∈ gs ∨ x ∈ l := by
  induction gs generalizing l with
  | nil => simp
  | cons g gs ih => rw [List.foldl_cons, ih, mem_addGroup, List.mem_cons, or_left_comm, or_assoc]

theorem mem_groupsInProgress (s : State) (g : Fin 32) : g ∈ s.groupsInProgress ↔ (s.group g).state ≠ .idle := by
  simp [State.groupsInProgress, mem_allGroups]

/-- The line a HELD line becomes when it is released, but for its pending phase frames (R59). -/
def Line.released (l : Line) : Line := { l with rec_ := 0, state := .running, quality := true, interleave := 0 }

/-- The line a HELD line becomes when it is released, with phase frames pending for the groups in progress (R57). -/
def State.releasedLine (s : State) (i : Fin 8) : Line :=
  { (s.line i).released with phases := s.groupsInProgress.foldl (fun ps g => addGroup g ps) (s.line i).phases }

/-- A line made RUNNING, recorded and noticed, before the scheduler chooses. -/
def State.runBegun (s : State) (i : Fin 8) : State :=
  notifyLine (offer (s.setLine i (s.releasedLine i))
    (lineStateRecord s i (lineChangeFields .held (s.releasedLine i)) .release [])) i

theorem runLine_eq (s : State) (i : Fin 8) : runLine s i = schedule (s.runBegun i) i := rfl

theorem lineShown_runBegun (s : State) (i : Fin 8) :
    LineShown s (s.runBegun i) i (s.releasedLine i) (lineRecord s i .held (s.releasedLine i) .release) .lineState
      (s.releasedLine i).shownBytes := by
  rw [← lineStateRecord_nil]
  exact lineShown_state s i _ _

theorem handed_releasedLine (s : State) (i : Fin 8) :
    Handed (s.setLine i (s.line i).released) (s.setLine i (s.releasedLine i)) := by
  have kept := handed_setLine (s.setLine i (s.line i).released) i (s.releasedLine i) (by
    rw [setLine_line_self]
    exact ⟨rfl, rfl, rfl, rfl, rfl, rfl, rfl, rfl, rfl, List.suffix_refl _, id⟩)
  rwa [setLine_setLine] at kept

/-- A released line has its quality frame pending or a frame on its lane. -/
theorem runLine_serves (s : State) (i : Fin 8) : (runLine s i).serves i := by
  have pending : (s.setLine i (s.releasedLine i)).serves i := .inl (by rw [setLine_line_self]; rfl)
  rw [runLine_eq]
  exact (handsOn_schedule _ i).serves i ((handsOn_notify _ _ _ _).serves i ((handsOn_offer _ _).serves i pending))

/-- A released line that may begin no frame has the phase frames of the groups in progress pending. -/
theorem runLine_phases (s : State) (i : Fin 8) (h : (s.line i).lane ≠ none ∨ (s.line i).pause = true) :
    (s.releasedLine i).phases ⊆ ((runLine s i).line i).phases := by
  have waits : LanesWait (s.setLine i (s.releasedLine i)) (runLine s i) :=
    (lanesWait_schedule _ i).back ((lanesWait_notify _ _ _ _).back (lanesWait_offer _ _))
  have idle : (s.releasedLine i).maySend = false := by
    refine Bool.eq_false_iff.2 fun may => ?_
    obtain ⟨-, lane, pause⟩ := (maySend_iff _).1 may
    exact h.elim (fun e => e lane) fun e => absurd (e.symm.trans pause) (by simp)
  have waited := waits i
  rw [setLine_line_self] at waited
  exact (waited idle).phases

/-! ## Reconnect Line (R60) -/

theorem reconnectLine_isolated (s : State) (i : Fin 8) (h : (s.line i).state = .isolated) :
    reconnectLine i.val s = done (enterHeld s i { s.line i with rec_ := 0 } .reconnect []) := by
  rw [reconnectLine, onLine_val]
  exact if_pos h

theorem reconnectLine_notIsolated (s : State) (i : Fin 8) (h : (s.line i).state ≠ .isolated) :
    reconnectLine i.val s = refuse s .wrongState := by
  rw [reconnectLine, onLine_val]
  exact if_neg h

/-- Settles O42: the owners by the line's state; a released line is shown before the scheduler chooses. -/
theorem lineIsReleasedAndReconnected : Obligations.LineIsReleasedAndReconnected := by
  intro s tag i ha l r running held
  refine ⟨fun hs => ?_, fun hs => ?_, fun hs => ?_, fun hs => ?_, fun n hn => ⟨?_, ?_, ?_⟩⟩
  · obtain ⟨a, haa⟩ : ∃ a, a = acceptRequest s 0x23#8 tag := ⟨_, rfl⟩
    have line : a.line i = l := by rw [haa]; rfl
    have shown := lineShown_runBegun a i
    have last : Handed (a.runBegun i) (runLine a i) := handed_schedule _ i
    have handed : Handed (a.setLine i running) (runLine a i) :=
      (line ▸ handed_releasedLine a i).trans (shown.handed.trans last)
    have recorded := shown.recorded.later last
    have noticed := shown.noticed.later last
    have serves := runLine_serves a i
    have phases := runLine_phases a i
    have body : lineRecord a i .held (a.releasedLine i) .release = r running .release := by
      simp only [lineRecord, r, hs, haa]
      rfl
    have performed := hostRequest_done tag (.releaseLine i.val) (releaseLine i.val) s (runLine a i) ha rfl
      (haa ▸ releaseLine_held a i (line ▸ hs))
    have progress (g : Fin 32) (hg : (s.group g).state ≠ .idle) : g ∈ (a.releasedLine i).phases :=
      (mem_foldl_addGroup g _ _).2 (.inl ((mem_groupsInProgress a g).2 (by rwa [haa])))
    rw [body] at recorded
    generalize runLine a i = t at *
    refine ⟨_, performed, ?_⟩
    subst haa
    exact ⟨handed.answered, recorded.answered, noticed.answered, serves, fun waits g hg => phases waits (progress g hg)⟩
  · exact hostRequest_refused tag (.releaseLine i.val) (releaseLine i.val) s _ ha rfl (releaseLine_notHeld _ i hs)
  · have shown := lineShown_held (acceptRequest s 0x24#8 tag) i { l with rec_ := 0 } .reconnect
    exact ⟨_, hostRequest_done tag (.reconnectLine i.val) (reconnectLine i.val) s _ ha rfl (reconnectLine_isolated _ i hs),
      shown.handed.answered, line_answered _ _ (shown.line (by simp)), shown.recorded.answered, shown.noticed.answered⟩
  · exact hostRequest_refused tag (.reconnectLine i.val) (reconnectLine i.val) s _ ha rfl (reconnectLine_notIsolated _ i hs)
  · exact hostRequest_refused tag (.releaseLine n) (releaseLine n) s _ ha rfl (onLine_unknown n _ _ hn)
  · exact hostRequest_refused tag (.reconnectLine n) (reconnectLine n) s _ ha rfl (onLine_unknown n _ _ hn)
  · exact hostRequest_refused tag (.readLine n) (readLine n) s _ ha rfl (onLine_unknown n _ _ hn)

end Sys2Proof.Machine
end

