-- ==== Sys2Proof/Proofs/ReturnLanes.lean ====
section
/-!
PROOFS. Proofs/ReturnLanes.lean: the return-lane scheduler's one choice (R61 to R63, R55), the end of a return frame (R51) and the drain
timeout (R52).
-/
namespace Sys2Proof.Machine

/-! ## The scheduler's choice (R61) -/

/-- The turn of the quality and phase frames: the queue is empty or eight answers have been sent (R61). -/
def Line.pendingTurn (l : Line) : Prop := l.queue = [] ∨ l.interleave = 8

section
variable (s : State) (i : Fin 8) (may : (s.line i).maySend = true)

include may in
theorem schedule_drop (h : 0 < (s.line i).tally.count) : schedule s i = sendDrop offer s i := by
  unfold schedule scheduleWith
  simp only [if_pos may, Line.dropPending, decide_eq_true h, if_true]

variable (untallied : (s.line i).tally.count = 0)

include may untallied in
theorem schedule_quality (turn : (s.line i).pendingTurn) (hq : (s.line i).quality = true) : schedule s i = sendQuality s i := by
  have now : ((s.line i).queue.isEmpty || (s.line i).interleave == 8) = true := by simpa [Line.pendingTurn] using turn
  unfold schedule scheduleWith
  simp only [if_pos may, Line.dropPending, untallied, now, hq]
  rfl

include may untallied in
theorem schedule_phase (g : Fin 32) (rest : List (Fin 32)) (turn : (s.line i).pendingTurn) (hq : (s.line i).quality = false)
    (hp : (s.line i).phases = g :: rest) : schedule s i = sendPhase s i g rest := by
  have now : ((s.line i).queue.isEmpty || (s.line i).interleave == 8) = true := by simpa [Line.pendingTurn] using turn
  unfold schedule scheduleWith
  simp only [if_pos may, Line.dropPending, untallied, now, hq, hp]
  rfl

include may untallied in
theorem schedule_answer (a : Answer) (rest : List Answer) (ha : (s.line i).queue = a :: rest)
    (h : (s.line i).interleave ≠ 8 ∨ ((s.line i).quality = false ∧ (s.line i).phases = [])) :
    schedule s i = sendAnswer s i a rest := by
  have later : ((s.line i).queue.isEmpty || (s.line i).interleave == 8) = true → (s.line i).interleave = 8 := by simp [ha]
  unfold schedule scheduleWith
  simp only [if_pos may, Line.dropPending, untallied]
  split
  · contradiction
  · split
    · rename_i quality turn
      exact absurd h (by simp [later turn, quality])
    · rename_i phases turn
      exact absurd h (by simp [later turn, phases])
    · rw [ha]

include may untallied in
theorem schedule_nothing (ha : (s.line i).queue = []) (hq : (s.line i).quality = false) (hp : (s.line i).phases = []) :
    schedule s i = s := by
  unfold schedule scheduleWith
  simp only [if_pos may, Line.dropPending, untallied, ha, hq, hp]
  rfl

end

/-! ## The drop notice (R55) -/

/-- A line whose drop notice has been put on its lane. -/
def Line.dropSent (l : Line) (frame : List Byte) : Line :=
  { l with
    lane := some frame, tally := {}, interleave := 0, counters := { l.counters with dropsSent := sat32 l.counters.dropsSent } }

theorem sendDrop_spec (s : State) (i : Fin 8) (l : Line) (frame : List Byte) (hl : s.line i = l)
    (hf : dropFrame i s.sis.epoch l.tally s.now = frame) :
    Handed (s.setLine i (l.dropSent frame)) (sendDrop offer s i)
      ∧ ((sendDrop offer s i).line i).lane = some frame ∧ ((sendDrop offer s i).line i).tally = {}
      ∧ Offered s (sendDrop offer s i) ⟨.drop, i.val, s.now, be 6 l.tally.count ++ be 6 (l.tally.lowest.getD 0)
          ++ be 6 (l.tally.highest.getD 0) ++ beVt s.now⟩ := by
  subst hl hf
  obtain ⟨sent, hs⟩ : ∃ sent, sent = (s.line i).dropSent (dropFrame i s.sis.epoch (s.line i).tally s.now) := ⟨_, rfl⟩
  obtain ⟨r, hr⟩ : ∃ r : Record, r = ⟨.drop, i.val, s.now, be 6 (s.line i).tally.count
    ++ be 6 ((s.line i).tally.lowest.getD 0) ++ be 6 ((s.line i).tally.highest.getD 0) ++ beVt s.now⟩ := ⟨_, rfl⟩
  have sends : sendDrop offer s i = offer (s.setLine i sent) r := by rw [hs, hr]; rfl
  have busy : sent.maySend = false := by simp [hs, Line.dropSent, Line.maySend]
  have waited := lanesWait_offer (s.setLine i sent) r i
  rw [setLine_line_self] at waited
  have recorded : Offered s (offer (s.setLine i sent) r) r := offered_offer (s.setLine i sent) r
  rw [sends, ← hs, ← hr, (waited busy).same]
  exact ⟨handed_offer _ r, by rw [hs]; rfl, by rw [hs]; rfl, recorded⟩

/-! ## The end of a return frame (R51, R61) -/

/-- A line whose return frame has ended. -/
def Line.laneIdle (l : Line) : Line := { l with lane := none }

/-- A line whose PAUSE is deasserted. -/
def Line.unpaused (l : Line) : Line := { l with pause := false }

theorem unpaused_eq (l : Line) (h : l.pause = false) : l.unpaused = l := by rw [Line.unpaused, ← h]

theorem laneEnd_busy (s : State) (i : Fin 8) (b : List Byte) (h : (s.line i).lane = some b) :
    laneEnd s i = schedule (drainTest (s.setLine i (s.line i).laneIdle) i) i :=
  if_pos (by rw [h]; rfl)

/-- A frame that ends on a line that does not hold, or has something left to drain, leaves the choice to the scheduler. -/
theorem laneEnd_undrained (s : State) (i : Fin 8) (b : List Byte) (h : (s.line i).lane = some b)
    (hd : ¬ ((s.line i).laneIdle.state = .holding ∧ (s.line i).laneIdle.drained = true)) :
    laneEnd s i = schedule (s.setLine i (s.line i).laneIdle) i := by
  rw [laneEnd_busy s i b h, drainTest_waits _ i (by rwa [setLine_line_self])]

theorem deassertPause_eq (s : State) (i : Fin 8) : deassertPause s i = schedule (s.setLine i (s.line i).unpaused) i := rfl

/-- Settles O44: the scheduler's choices one by one, on the line with PAUSE deasserted; the end of a frame leads to the same choice. -/
theorem schedulerFollowsItsOrder : Obligations.SchedulerFollowsItsOrder := by
  intro s i live l c turn
  have frameEnd : exec (.returnFrameEnd i) s = .next (laneEnd s i) := whenLive_live s (laneEnd · i) live
  have deassert (u : State) (hu : u.live = true) : exec (.pauseDeassert i) u = .next (deassertPause u i) :=
    congrArg _ (if_pos hu)
  have chosen : exec (.pauseDeassert i) s = .next (schedule (s.setLine i l) i) := deassert s live
  have here : (s.setLine i l).line i = l := setLine_line_self s i l
  refine ⟨fun b hb hp hd => ?_, fun b hb hp hd => ?_, fun b hb hs hd => ?_, fun h => ?_, fun hs hl => ?_, fun hp => ?_⟩
  · have paused : (s.line i).laneIdle.maySend = false := by simp [Line.maySend, Line.laneIdle, hp]
    rw [frameEnd, laneEnd_undrained s i b hb hd, schedule_waits _ i (by rwa [setLine_line_self])]
    rfl
  · have next := deassert (s.setLine i (s.line i).laneIdle) live
    rw [deassertPause_eq, setLine_line_self, unpaused_eq (s.line i).laneIdle hp, setLine_setLine] at next
    rw [frameEnd, laneEnd_undrained s i b hb hd]
    exact next.symm
  · have shown := (lineShown_drainTest (s.setLine i (s.line i).laneIdle) i (s.line i).laneIdle (setLine_line_self s i _)
      hs hd).replaced
    have held := shown.line (by simp [Line.drainedHeld])
    have stops := schedule_waits (drainTest (s.setLine i (s.line i).laneIdle) i) i (by rw [held]; rfl)
    rw [frameEnd, laneEnd_busy s i b hb, stops]
    exact ⟨_, rfl, shown.handed, held, shown.recorded, shown.noticed⟩
  · have stops : ¬ ((s.setLine i l).line i).maySend = true := by
      rw [here, maySend_iff]
      exact fun ⟨state, lane, _⟩ => h.elim (fun ⟨a, b⟩ => state.elim a b) fun e => e lane
    rw [chosen, schedule_waits _ i (by simpa using stops)]
  · have may : ((s.setLine i l).line i).maySend = true := by rw [here]; exact (maySend_iff l).2 ⟨hs, hl, rfl⟩
    refine ⟨fun hd => ?_, fun hd ht hq => ?_, fun g rest hd ht hq hph => ?_, fun a rest hd ha h => ?_, fun hd ha hq hph => ?_⟩
    · obtain ⟨handed, lane, tally, recorded⟩ := sendDrop_spec (s.setLine i l) i l _ here rfl
      rw [setLine_setLine] at handed
      rw [chosen, schedule_drop _ i may (by rwa [here])]
      exact ⟨_, rfl, handed, lane, tally, recorded.sooner rfl⟩
    · rw [chosen, schedule_quality _ i may (by rwa [here]) (by rwa [here]) (by rwa [here]), sendQuality]
      simp only [here, setLine_setLine]
      rfl
    · rw [chosen, schedule_phase _ i may (by rwa [here]) g rest (by rwa [here]) (by rwa [here]) (by rwa [here]), sendPhase]
      simp only [here, setLine_setLine]
      rfl
    · rw [chosen, schedule_answer _ i may (by rwa [here]) a rest (by rwa [here]) (by rwa [here])]
      unfold sendAnswer
      simp only [here, setLine_setLine]
      cases a <;> rfl
    · rw [chosen, schedule_nothing _ i may (by rwa [here]) (by rwa [here]) (by rwa [here]) (by rwa [here])]
  · have asserted : assertPause s i = _ := if_neg (by simp [hp])
    exact congrArg _ ((if_pos live).trans asserted)

/-! ## The drain timeout (R52) -/

theorem dropped_keeps (l : Line) (a : Answer) :
    l.dropped a = { l with tally := (l.dropped a).tally, counters := (l.dropped a).counters } := by cases a <;> rfl

/-- Dropped answers touch the tally and the counters alone. -/
theorem foldl_dropped_keeps (q : List Answer) (l : Line) : ∃ tally counters,
    q.foldl Line.dropped l = { l with tally := tally, counters := counters } := by
  induction q generalizing l with
  | nil => exact ⟨_, _, rfl⟩
  | cons a q ih =>
    obtain ⟨tally, counters, e⟩ := ih (l.dropped a)
    exact ⟨tally, counters, by rw [List.foldl_cons, e, dropped_keeps]⟩

theorem discardQueue_keeps (l : Line) : l.discardQueue.state = l.state ∧ l.discardQueue.frame = l.frame := by
  obtain ⟨tally, counters, e⟩ := foldl_dropped_keeps l.queue l
  rw [Line.discardQueue, e]
  exact ⟨rfl, rfl⟩

/-- A queue that is dropped enters the tally by its stamps. -/
theorem foldl_dropped_count (q : List Answer) (l : Line) :
    (q.foldl Line.dropped l).tally.count = l.tally.count + stampCount q := by
  induction q generalizing l with
  | nil => rfl
  | cons a q ih =>
    rw [List.foldl_cons, ih, stampCount, stampCount, List.countP_cons]
    cases a with
    | stamp st => simp only [Line.dropped, Line.tallied, if_true]; omega
    | notOpen n => simp [Line.dropped]

theorem discardQueue_count (l : Line) : l.discardQueue.tally.count = l.tally.count + stampCount l.queue :=
  foldl_dropped_count l.queue l

theorem drainTimeout_due (s : State) (i : Fin 8) (start : Nat) (hs : (s.line i).state = .holding)
    (hd : (s.line i).drain = some start) (h : start + 1250000 ≤ s.osc) :
    drainTimeout s i = enterHeld s i { (s.line i).discardQueue with drain := none } .drainTimeout
      (s.line i).discardQueue.tally.bytes := by
  have due : s.drainDue i = true := by simp [State.drainDue, hd, hs, h]
  exact if_pos due

/-- Settles O45: at its limit the drain timer's line is HELD with its queue in the tally. -/
theorem drainTimeoutHoldsTheLine : Obligations.DrainTimeoutHoldsTheLine := by
  intro s i start live hs hd due gone held
  have shown := lineShown_enterHeld s i { gone with drain := none } .drainTimeout gone.tally.bytes
  have state : gone.state = .holding := (discardQueue_keeps _).1.trans hs
  have fields : lineChangeFields gone.state held
      = be 1 1 ++ be 1 2 ++ beOpt (held.health.map (·.code)) ++ be 1 held.rec_ := by rw [state]; rfl
  refine ⟨rfl, discardQueue_count _, drainTimeout s i, whenLive_live s (drainTimeout · i) live, ?_⟩
  rw [drainTimeout_due s i start hs hd due, ← fields]
  exact ⟨shown.handed, shown.line (by simp), shown.recorded, shown.noticed⟩

end Sys2Proof.Machine
end

