-- ==== Sys2Proof/Proofs/TagFrames.lean ====
section
/-!
PROOFS. Proofs/TagFrames.lean: tag frames captured and judged (R43 to R48, R70, R71), and what a judgement shows of its line: its health
level (R45), its isolation (R46), its drain (R51).
-/
namespace Sys2Proof.Machine

/-! ## The health level shown (R45) -/

/-- The record of a change of health level (R45, log 29). -/
def levelRecord (s : State) (i : Fin 8) (old : Option Health) (l : Line) : Record :=
  { kind := .lineState, subject := i.val, vt := s.now,
    body := be 1 l.state.code ++ beOpt (old.map (·.code)) ++ beOpt (l.health.map (·.code)) ++ be 1 l.rec_ ++ be 1 6 }

/-- A line replaced, its health level shown where it is another. -/
structure HealthShown (s t : State) (i : Fin 8) (old : Option Health) (l : Line) : Prop where
  same : l.health = old → t = s.setLine i l
  shown : l.health ≠ old → LineShown s t i l (levelRecord s i old l) .lineState l.shownBytes

theorem healthShown (s : State) (i : Fin 8) (old : Option Health) (l : Line) :
    HealthShown s (showHealth (s.setLine i l) i old) i old l := by
  have record : lineStateRecord (s.setLine i l) i
      (be 1 l.state.code ++ beOpt (old.map (·.code)) ++ beOpt (l.health.map (·.code)) ++ be 1 l.rec_) .recLevel []
        = levelRecord s i old l := by
    rw [lineStateRecord, List.append_nil]
    rfl
  unfold showHealth
  simp only [setLine_line_self, record]
  refine ⟨fun h => if_pos h, fun h => ?_⟩
  rw [if_neg h]
  exact lineShown_state s i l _

theorem HealthShown.handed {s t : State} {i : Fin 8} {old : Option Health} {l : Line} (h : HealthShown s t i old l) :
    Handed (s.setLine i l) t := by
  by_cases e : l.health = old
  · rw [h.same e]
    exact Handed.refl _
  · exact (h.shown e).handed

theorem HealthShown.line {s t : State} {i : Fin 8} {old : Option Health} {l : Line} (h : HealthShown s t i old l)
    (hl : l.state ≠ .running) : t.line i = l := by
  by_cases e : l.health = old
  · rw [h.same e, setLine_line_self]
  · exact (h.shown e).line hl

/-- The drain test behind a health level, where it holds the line: the drain's record joins behind the level's. -/
theorem HealthShown.drained {s t : State} {i : Fin 8} {old : Option Health} {l : Line} (h : HealthShown s t i old l)
    (hs : l.state = .holding) (hd : l.drained = true) :
    Handed (s.setLine i l.drainedHeld) (drainTest t i) ∧ (drainTest t i).line i = l.drainedHeld
      ∧ (l.health = old → Offered s (drainTest t i) (lineRecord s i .holding l.drainedHeld .drained))
      ∧ OfferedAfter 1 s (drainTest t i) (lineRecord s i .holding l.drainedHeld .drained)
      ∧ Noticed s (drainTest t i) .lineHeld s.now (.line i.val) (be 1 1)
      ∧ (l.health ≠ old → Offered s (drainTest t i) (levelRecord s i old l)
          ∧ Noticed s (drainTest t i) .lineState s.now (.line i.val) l.shownBytes) := by
  have test := lineShown_drainTest t i l (h.line (by simp [hs])) hs hd
  have held := test.line (by simp [Line.drainedHeld])
  by_cases e : l.health = old
  · rw [h.same e] at test held ⊢
    have shown := test.replaced
    exact ⟨shown.handed, held, fun _ => shown.recorded, fun takes _ => shown.recorded takes, shown.noticed,
      fun other => absurd e other⟩
  · have level := h.shown e
    obtain ⟨handed, recorded, noticed⟩ := level.handed_then test.handed
    obtain ⟨behind, told⟩ := test.after level rfl rfl
    have now : t.now = s.now := h.handed.now
    rw [lineRecord, now] at behind
    exact ⟨handed, held, fun same => absurd same e, behind, told, fun _ => ⟨recorded, noticed⟩⟩

/-- The drain test behind a health level changes nothing on a line that does not hold, or has something left to drain. -/
theorem HealthShown.undrained {s t : State} {i : Fin 8} {old : Option Health} {l : Line} (h : HealthShown s t i old l)
    (hd : ¬ (l.state = .holding ∧ l.drained = true)) : drainTest t i = t := by
  refine drainTest_waits t i fun ⟨state, drained⟩ => hd ?_
  have kept := (h.handed.lines i).state
  rw [setLine_line_self] at kept
  have holding : l.state = .holding := kept.symm.trans state
  rw [h.line (by simp [holding])] at drained
  exact ⟨holding, drained⟩

/-! ## Isolation (R46) -/

/-- The line an isolated line becomes. -/
def Line.isolated (l : Line) : Line :=
  { l.discardQueue with quality := false, phases := [], interleave := 0, drain := none, state := .isolated }

theorem lineShown_isolate (s : State) (i : Fin 8) (l : Line) :
    LineShown s (isolate (s.setLine i l) i) i l.isolated
      (lineStateRecord s i (be 1 l.state.code ++ be 1 4 ++ beOpt (l.isolated.health.map (·.code)) ++ be 1 l.isolated.rec_)
        .isolation l.isolated.tally.bytes) .lineState l.isolated.shownBytes := by
  unfold isolate
  simp only [setLine_line_self, setLine_setLine]
  exact lineShown_state s i l.isolated _

/-! ## Frames judged (R44 to R48) -/

/-- The line after a bad frame (R44, R45). -/
def Line.afterBad (l : Line) (cause : BadCause) : Line :=
  { l with frame := .noFrame, rec_ := min 255 (l.rec_ + 8), owed := l.owed - 1, counters := l.counters.bad cause }

/-- A bad frame isolates its line (R46). -/
def Line.isolates (l : Line) : Prop := 255 ≤ l.rec_ + 8 ∧ (l.state = .running ∨ l.state = .holding)

theorem frameBad_isolates (s : State) (i : Fin 8) (cause : BadCause) (h : (s.line i).isolates) :
    frameBad s i cause = isolate ((releaseCell s i).setLine i ((s.line i).afterBad cause)) i := if_pos h

theorem frameBad_stays (s : State) (i : Fin 8) (cause : BadCause) (h : ¬ (s.line i).isolates) :
    frameBad s i cause
      = drainTest (showHealth ((releaseCell s i).setLine i ((s.line i).afterBad cause)) i (s.line i).health) i := if_neg h

/-- The line after a valid frame (R44, R45). -/
def Line.afterValid (l : Line) : Line :=
  { l with frame := .noFrame, rec_ := l.rec_ - 1, counters := { l.counters with good := sat32 l.counters.good } }

/-- The offer of a valid frame with its capture and its filter result (R47, R48). -/
def State.offerOf (s : State) (i : Fin 8) (fields : TagFields) (c : Capture) : Offer :=
  ⟨i, c.time, c.leapMark, fields, (s.line i).accepts fields.session, (s.line i).hitIndex fields.session⟩

/-- The pending offers with a valid frame's offer among them (R48, R71). -/
def State.offersWith (s : State) (i : Fin 8) (fields : TagFields) : List Offer :=
  match s.sis.cells[i] with
  | some c => insertOffer (s.offerOf i fields c) s.sis.offers
  | none => s.sis.offers

/-- The Stamp Issuer with a line's cell released and a valid frame offered (R48, R70). -/
def State.offering (s : State) (i : Fin 8) (fields : TagFields) : Sis :=
  { s.sis with cells := s.sis.cells.set i none, offers := s.offersWith i fields }

/-- A valid frame's line with its health level shown. -/
def State.validShown (s : State) (i : Fin 8) : State :=
  showHealth ((releaseCell s i).setLine i (s.line i).afterValid) i (s.line i).health

theorem healthShown_valid (s : State) (i : Fin 8) :
    HealthShown (releaseCell s i) (s.validShown i) i (s.line i).health (s.line i).afterValid := healthShown _ i _ _

/-- A valid frame's line shows its health level, and the frame is offered. -/
theorem frameValid_eq (s : State) (i : Fin 8) (fields : TagFields) :
    frameValid s i fields = { s.validShown i with sis := s.offering i fields } := by
  have kept : (s.validShown i).sis = (releaseCell s i).sis := (healthShown_valid s i).handed.sis
  cases cell : s.sis.cells[i] with
  | none =>
    have offering : s.offering i fields = (releaseCell s i).sis := by
      simp only [State.offering, State.offersWith, cell]
      rfl
    have shown : frameValid s i fields = s.validShown i := by
      simp only [frameValid, cell]
      rfl
    rw [shown, offering, ← kept]
  | some c =>
    have offered (x : Sis) (hx : x = (releaseCell s i).sis) :
        s.offering i fields = { x with offers := insertOffer (s.offerOf i fields c) x.offers } := by
      subst hx
      simp only [State.offering, State.offersWith, cell]
      rfl
    rw [offered _ kept]
    simp only [frameValid, cell]
    rfl

/-! ## The end of a frame, and its beginning -/

theorem frameEnd_judged (s : State) (i : Fin 8) (bytes : List Byte) (ending : FrameEnding) (h : (s.line i).frame = .judged) :
    frameEnd s i bytes ending = frameJudged s i (judgeFrame bytes ending) := by
  simp only [frameEnd, h]

theorem frameEnd_ignored (s : State) (i : Fin 8) (bytes : List Byte) (ending : FrameEnding) (h : (s.line i).frame = .ignored) :
    frameEnd s i bytes ending = s.setLine i { s.line i with frame := .noFrame } := by
  simp only [frameEnd, h]

/-- No frame is open on the line, and the part runs as it did. -/
def FrameEnded (s t : State) (i : Fin 8) : Prop := (t.line i).frame = .noFrame ∧ t.live = s.live

theorem frameEnded_of_handed {s t u : State} {i : Fin 8} {l : Line} (h : Handed (u.setLine i l) t) (hl : l.frame = .noFrame)
    (hu : u.live = s.live) : FrameEnded s t i := by
  have kept := (h.lines i).frame
  rw [setLine_line_self] at kept
  exact ⟨kept.trans hl, h.live.trans hu⟩

theorem frameEnded_frameBad (s : State) (i : Fin 8) (cause : BadCause) : FrameEnded s (frameBad s i cause) i := by
  have level := healthShown (releaseCell s i) i (s.line i).health ((s.line i).afterBad cause)
  by_cases h : (s.line i).isolates
  · rw [frameBad_isolates s i cause h]
    exact frameEnded_of_handed (lineShown_isolate (releaseCell s i) i _).handed (discardQueue_keeps _).2 rfl
  · rw [frameBad_stays s i cause h]
    by_cases hd : ((s.line i).afterBad cause).state = .holding ∧ ((s.line i).afterBad cause).drained = true
    · exact frameEnded_of_handed (level.drained hd.1 hd.2).1 rfl rfl
    · rw [level.undrained hd]
      exact frameEnded_of_handed level.handed rfl rfl

theorem frameEnded_frameJudged (s : State) (i : Fin 8) (j : Judged) : FrameEnded s (frameJudged s i j) i := by
  cases j with
  | bad cause => exact frameEnded_frameBad s i cause
  | valid fields =>
    have ended : FrameEnded s (s.validShown i) i := frameEnded_of_handed (healthShown_valid s i).handed rfl rfl
    rw [frameJudged, frameValid_eq]
    exact ended

theorem endOpenFrame_judged (s : State) (i : Fin 8) (bytes : List Byte) (h : (s.line i).frame = .judged) :
    endOpenFrame s i bytes = frameJudged s i (judgeFrame bytes .endDelimiter) := if_pos h

theorem startDelimiter_free (s : State) (i : Fin 8) (bytes : List Byte) (h : (s.line i).frame ≠ .judged) :
    startDelimiter s i bytes = beginFrame s i := by
  rw [startDelimiter, endOpenFrame, if_neg h]

/-- Settles O43: a start delimiter ends the judged frame it finds and begins the next; a judged frame is bad or valid, and shows what it
makes of its line. -/
theorem tagFramesAreCapturedAndJudged : Obligations.TagFramesAreCapturedAndJudged := by
  intro s i bytes ending live l freed levels
  have starts (u : State) (b : List Byte) (hu : u.live = true) :
      exec (.tagStartDelimiter i b) u = .next (startDelimiter u i b) := whenLive_live u (startDelimiter · i b) hu
  have ends (e : FrameEnding) : exec (.tagFrameEnd i bytes e) s = .next (frameEnd s i bytes e) :=
    whenLive_live s (frameEnd · i bytes e) live
  refine ⟨fun free hs => ?_, fun free hs => ?_, fun opened => ?_, fun opened => ?_, fun cause opened judged => ?_,
    fun fields opened judged => ?_⟩
  · rw [starts s bytes live, startDelimiter_free s i bytes free]
    exact congrArg _ (if_pos hs)
  · rw [starts s bytes live, startDelimiter_free s i bytes free]
    exact congrArg _ (if_neg hs)
  · obtain ⟨closed, running⟩ := frameEnded_frameJudged s i (judgeFrame bytes .endDelimiter)
    refine ⟨_, (ends _).trans (congrArg _ (frameEnd_judged s i bytes _ opened)), closed, ?_⟩
    rw [starts s bytes live, starts _ [] (running.trans live), startDelimiter_free _ i [] (by rw [closed]; simp), startDelimiter,
      endOpenFrame_judged s i bytes opened]
  · rw [ends, frameEnd_ignored s i bytes ending opened]
  · intro bad isolates drained
    have decided : isolates = true ↔ l.isolates := by simp [isolates, Line.isolates]
    have ended : exec (.tagFrameEnd i bytes ending) s = .next (frameBad s i cause) := by
      rw [ends, frameEnd_judged s i bytes ending opened, judged, frameJudged]
    have level := healthShown freed i l.health bad
    have stays (h : isolates = false) : frameBad s i cause = drainTest (showHealth (freed.setLine i bad) i l.health) i :=
      frameBad_stays s i cause fun k => by rw [decided.2 k] at h; cases h
    refine ⟨_, ended, fun h => ?_, fun h hs hd => ?_, fun h hd => ?_, fun h other => ?_⟩
    · have shown := lineShown_isolate freed i bad
      rw [frameBad_isolates s i cause (decided.1 h)]
      exact ⟨shown.handed, shown.line (by simp [Line.isolated]), shown.recorded, shown.noticed⟩
    · obtain ⟨handed, held, recorded, behind, told, -⟩ := level.drained hs hd
      rw [stays h]
      exact ⟨handed, held, recorded, behind, told⟩
    · rw [stays h, level.undrained hd]
      exact ⟨level.handed, level.same⟩
    · rw [stays h]
      by_cases hd : bad.state = .holding ∧ bad.drained = true
      · obtain ⟨-, -, -, -, -, shown⟩ := level.drained hd.1 hd.2
        exact shown other
      · rw [level.undrained hd]
        exact ⟨(level.shown other).recorded, (level.shown other).noticed⟩
  · intro good offers
    have ended : exec (.tagFrameEnd i bytes ending) s = .next (frameValid s i fields) := by
      rw [ends, frameEnd_judged s i bytes ending opened, judged, frameJudged]
    have level : HealthShown freed (s.validShown i) i l.health good := healthShown_valid s i
    refine ⟨_, ended, ?_, fun other => ?_⟩
    · rw [frameValid_eq]
      exact level.handed.withSis (s.offering i fields)
    · rw [frameValid_eq]
      exact ⟨(level.shown other).recorded, (level.shown other).noticed⟩

end Sys2Proof.Machine
end

