-- ==== Sys2Proof/Proofs/LineAccounts.lean ====
section
/-!
PROOFS. Proofs/LineAccounts.lean: the stamps a line accounts for (R54), and that whatever is handed on leaves them as they are: a
stamp that is sent or dropped only moves from one count of its line to another.
-/
namespace Sys2Proof.Machine

/-! ## The account of one line -/

/-- The stamps a line accounts for: those it has sent, those waiting, and those dropped (R54). -/
def Line.stamps (l : Line) : Nat := l.counters.stampsSent + stampCount l.queue + l.counters.stampsDropped

/-- A line's account with the Stamp Issuer stands: its open frame, the answers owed to it and the stamps it accounts for; the counters
stop at the last sequence, so the last of these rests on there being no more stamps than that. -/
structure Line.SameAccount (l m : Line) : Prop where
  frame : m.frame = l.frame
  owed : m.owed = l.owed
  stamps : l.stamps ≤ Config.lastSequence → m.stamps = l.stamps

theorem Line.SameAccount.refl (l : Line) : l.SameAccount l := ⟨rfl, rfl, fun _ => rfl⟩

theorem Line.SameAccount.trans {a b c : Line} (h : a.SameAccount b) (k : b.SameAccount c) : a.SameAccount c where
  frame := k.frame.trans h.frame
  owed := k.owed.trans h.owed
  stamps := fun x => (k.stamps (by rw [h.stamps x]; exact x)).trans (h.stamps x)

/-- An answer counts one stamp or none. -/
def Answer.stamps : Answer → Nat
  | .stamp _ => 1
  | .notOpen _ => 0

theorem stampCount_cons (a : Answer) (q : List Answer) : stampCount (a :: q) = a.stamps + stampCount q := by
  cases a <;> simp [stampCount, Answer.stamps, Nat.add_comm]

theorem stampCount_concat (a : Answer) (q : List Answer) : stampCount (q ++ [a]) = stampCount q + a.stamps := by
  cases a <;> simp [stampCount, Answer.stamps]

theorem satSucc_of_lt {limit n : Nat} (h : n < limit) : satSucc limit n = n + 1 := if_pos h

/-- A dropped answer is a stamp more that the line accounts for, or none. -/
theorem stamps_dropped (l : Line) (a : Answer) (h : l.stamps + a.stamps ≤ Config.lastSequence) :
    (l.dropped a).stamps = l.stamps + a.stamps := by
  cases a with
  | notOpen n => rfl
  | stamp st =>
    simp only [Line.stamps, Answer.stamps] at h
    simp only [Line.dropped, Line.tallied, Line.stamps, Answer.stamps]
    rw [satSucc_of_lt (by omega)]
    omega

theorem stamps_foldl_dropped (q : List Answer) (l : Line) (h : l.stamps + stampCount q ≤ Config.lastSequence) :
    (q.foldl Line.dropped l).stamps = l.stamps + stampCount q := by
  induction q generalizing l with
  | nil => rfl
  | cons a q ih =>
    rw [stampCount_cons] at h ⊢
    have dropped := stamps_dropped l a (by omega)
    rw [List.foldl_cons, ih (l.dropped a) (by omega), dropped, Nat.add_assoc]

theorem withoutQueue_dropped (l : Line) (a : Answer) :
    ({ l with queue := [] } : Line).dropped a = { l.dropped a with queue := [] } := by cases a <;> rfl

theorem withoutQueue_foldl_dropped (q : List Answer) (l : Line) :
    q.foldl Line.dropped { l with queue := [] } = { q.foldl Line.dropped l with queue := [] } := by
  induction q generalizing l with
  | nil => rfl
  | cons a q ih => rw [List.foldl_cons, List.foldl_cons, withoutQueue_dropped, ih]

/-- A queue removed leaves its stamps among the dropped ones (R46, R52). -/
theorem sameAccount_discardQueue (l : Line) : l.SameAccount l.discardQueue := by
  obtain ⟨tally, counters, e⟩ := foldl_dropped_keeps l.queue l
  refine ⟨(discardQueue_keeps l).2, by rw [Line.discardQueue, e], fun h => ?_⟩
  have moved : ({ l with queue := [] } : Line).stamps + stampCount l.queue = l.stamps := by
    simp only [Line.stamps, stampCount, List.countP_nil]
    omega
  rw [Line.discardQueue, ← withoutQueue_foldl_dropped, stamps_foldl_dropped _ _ (by rw [moved]; exact h), moved]

/-! ## The accounts of all lines -/

/-- The Stamp Issuer stands, and every line's account with it. -/
structure AccountsKept (s t : State) : Prop where
  sis : t.sis = s.sis
  lines : ∀ i, (s.line i).SameAccount (t.line i)

theorem AccountsKept.refl (s : State) : AccountsKept s s := ⟨rfl, fun _ => Line.SameAccount.refl _⟩

theorem AccountsKept.trans {s t u : State} (h : AccountsKept s t) (k : AccountsKept t u) : AccountsKept s u :=
  ⟨k.sis.trans h.sis, fun i => (h.lines i).trans (k.lines i)⟩

/-- Composition from the last operation back. -/
theorem AccountsKept.after {s t u : State} (k : AccountsKept t u) (h : AccountsKept s t) : AccountsKept s u := h.trans k

/-- One operation or none, by a condition. -/
theorem AccountsKept.ite {s t u : State} (p : Prop) [Decidable p] (h : AccountsKept s t) (k : AccountsKept s u) :
    AccountsKept s (if p then t else u) := by
  split
  · exact h
  · exact k

theorem accounts_foldl {α : Type} (f : State → α → State) (h : ∀ s a, AccountsKept s (f s a)) (l : List α) (s : State) :
    AccountsKept s (l.foldl f s) := by
  induction l generalizing s with
  | nil => exact AccountsKept.refl s
  | cons a l ih => exact (ih _).after (h s a)

/-- A change outside the lines and the Stamp Issuer. -/
theorem accounts_outside {s t : State} (hl : t.lines = s.lines) (hs : t.sis = s.sis) : AccountsKept s t :=
  ⟨hs, fun i => by rw [State.line, State.line, hl]; exact Line.SameAccount.refl _⟩

theorem accounts_setLine (s : State) (i : Fin 8) (l : Line) (h : (s.line i).SameAccount l) : AccountsKept s (s.setLine i l) := by
  refine ⟨rfl, fun j => ?_⟩
  rw [setLine_line]
  split
  · rename_i e; subst e; exact h
  · exact Line.SameAccount.refl _

/-- A line replaced outside its frame, the answers owed to it, its queue and its counters. -/
theorem accounts_setLine_of_eq (s : State) (i : Fin 8) (l : Line) (hf : l.frame = (s.line i).frame) (ho : l.owed = (s.line i).owed)
    (hs : l.stamps = (s.line i).stamps) : AccountsKept s (s.setLine i l) := accounts_setLine s i l ⟨hf, ho, fun _ => hs⟩

theorem accounts_notifyAt (s : State) (k : NoticeKind) (vt : Nat) (x : Subject) (d : List Byte) :
    AccountsKept s (notifyAt s k vt x d) := accounts_outside (lines_notifyAt s k vt x d) (handed_notifyAt s k vt x d).sis

theorem accounts_notify (s : State) (k : NoticeKind) (x : Subject) (d : List Byte) : AccountsKept s (notify s k x d) :=
  accounts_notifyAt _ _ _ _ _

theorem accounts_enqueue (s : State) (r : Record) : AccountsKept s (enqueue s r) :=
  accounts_outside (lines_enqueue s r) (handed_enqueue s r).sis

/-! ## The lanes, over any way of offering that keeps the accounts -/

/-- An answer sent moves from the queue to the sent ones (R62). -/
theorem accounts_sendAnswer (s : State) (i : Fin 8) (a : Answer) (rest : List Answer) (hq : (s.line i).queue = a :: rest) :
    AccountsKept s (sendAnswer s i a rest) := by
  refine accounts_setLine s i _ ⟨rfl, rfl, fun h => ?_⟩
  simp only [Line.stamps, hq, stampCount_cons] at h ⊢
  cases a with
  | notOpen n => simp [Answer.stamps]
  | stamp st =>
    simp only [Answer.stamps] at h ⊢
    rw [satSucc_of_lt (by omega)]
    omega

section
variable {offer : Offerer} (ho : ∀ s r, AccountsKept s (offer s r))

include ho in
theorem accounts_scheduleWith (s : State) (i : Fin 8) : AccountsKept s (scheduleWith offer s i) := by
  unfold scheduleWith
  simp only []
  split
  · split
    · exact (ho _ _).after (accounts_setLine_of_eq s i _ rfl rfl rfl)
    · split
      · exact accounts_setLine_of_eq s i _ rfl rfl rfl
      · exact accounts_setLine_of_eq s i _ rfl rfl rfl
      · split
        · exact accounts_sendAnswer s i _ _ (by assumption)
        · exact AccountsKept.refl s
  · exact AccountsKept.refl s

include ho in
theorem accounts_qualityPendingWith (s : State) : AccountsKept s (qualityPendingWith offer s) := by
  refine accounts_foldl _ (fun s i => ?_) _ s
  unfold qualityOnWith
  exact AccountsKept.ite _ ((accounts_scheduleWith ho _ i).after (accounts_setLine_of_eq s i _ rfl rfl rfl)) (AccountsKept.refl s)

include ho in
theorem accounts_phasePendingWith (s : State) (g : Fin 32) : AccountsKept s (phasePendingWith offer s g) := by
  refine accounts_foldl _ (fun s i => ?_) _ s
  unfold phaseOnWith
  exact AccountsKept.ite _ ((accounts_scheduleWith ho _ i).after (accounts_setLine_of_eq s i _ rfl rfl rfl)) (AccountsKept.refl s)

include ho in
theorem accounts_showGroupWith (s : State) (g : Fin 32) (vt : Nat) : AccountsKept s (showGroupWith offer s g vt) := by
  unfold showGroupWith
  exact (accounts_notifyAt _ _ _ _ _).after (accounts_phasePendingWith ho s g)

include ho in
theorem accounts_cutGroupWith (s : State) (g : Fin 32) (cutTime : Nat) (forced : Bool) :
    AccountsKept s (cutGroupWith offer s g cutTime forced) := by
  unfold cutGroupWith
  exact (accounts_showGroupWith ho _ _ _).after (accounts_outside rfl rfl)

include ho in
theorem accounts_cutAllWith (s : State) : AccountsKept s (cutAllWith offer s) := by
  unfold cutAllWith
  refine AccountsKept.ite _ (accounts_foldl _ (fun s g => ?_) _ s) (AccountsKept.refl s)
  unfold cutDeferredWith
  exact AccountsKept.ite _ (accounts_cutGroupWith ho s g _ _) (AccountsKept.refl s)

include ho in
theorem accounts_journalReportWith (s : State) (v : JournalState) : AccountsKept s (journalReportWith offer s v) := by
  unfold journalReportWith
  exact (accounts_cutAllWith ho _).after (accounts_outside rfl rfl)

include ho in
theorem accounts_judgeJournalWith (s : State) : AccountsKept s (judgeJournalWith offer s) := by
  unfold judgeJournalWith
  split
  · exact AccountsKept.refl s
  · exact AccountsKept.refl s
  all_goals
    refine AccountsKept.ite _ (AccountsKept.refl s) ?_
    exact (accounts_notify _ _ _ _).after ((accounts_journalReportWith ho _ _).after (accounts_outside rfl rfl))

end

/-! ## The writer, the offer of a record, and what is handed on with it -/

theorem sis_beginNext (s : State) (p : Fin 64) (slot : Nat) : (beginNext s p slot).sis = s.sis := (handed_beginNext s p slot).sis

theorem accounts_writerDecide (s : State) : AccountsKept s (writerDecide s) := by
  unfold writerDecide
  split
  · split
    · split
      · unfold openPage
        exact (accounts_judgeJournalWith accounts_enqueue _).after (accounts_outside rfl rfl)
      · exact AccountsKept.refl s
    · exact accounts_outside (lines_beginNext _ _ _) (sis_beginNext _ _ _)
  · exact AccountsKept.refl s

theorem accounts_offer (s : State) (r : Record) : AccountsKept s (offer s r) := by
  unfold offer
  exact AccountsKept.ite _ ((accounts_writerDecide _).after (accounts_enqueue s r)) (accounts_enqueue s r)

theorem accounts_schedule (s : State) (i : Fin 8) : AccountsKept s (schedule s i) := accounts_scheduleWith accounts_offer s i

theorem accounts_qualityPending (s : State) : AccountsKept s (qualityPending s) := accounts_qualityPendingWith accounts_offer s

theorem accounts_phasePending (s : State) (g : Fin 32) : AccountsKept s (phasePending s g) :=
  accounts_phasePendingWith accounts_offer s g

theorem accounts_showGroup (s : State) (g : Fin 32) (vt : Nat) : AccountsKept s (showGroup s g vt) :=
  accounts_showGroupWith accounts_offer s g vt

theorem accounts_traceableReport (s : State) (v : Bool) : AccountsKept s (traceableReport s v) := by
  unfold traceableReport traceableReportWith
  exact (accounts_cutAllWith accounts_offer _).after (accounts_outside rfl rfl)

theorem accounts_journalReport (s : State) (v : JournalState) : AccountsKept s (journalReport s v) :=
  accounts_journalReportWith accounts_offer s v

theorem accounts_judgeJournal (s : State) : AccountsKept s (judgeJournal s) := accounts_judgeJournalWith accounts_offer s

end Sys2Proof.Machine
end

