-- ==== Sys2Proof/Proofs/BlockAccounts.lean ====
section
/-!
PROOFS. Proofs/BlockAccounts.lean: the operations of every block that leave the Stamp Issuer alone keep the lines' accounts: leap matters,
auctions, the journal, the survey, and the line machine.
-/
namespace Sys2Proof.Machine

/-! ## Leap matters -/

theorem accounts_enter (s : State) (g : Fin 32) (a : Auction) : AccountsKept s (enter s g a) := accounts_outside rfl rfl

theorem accounts_tsu (s : State) (x : Tsu) : AccountsKept s { s with tsu := x } := accounts_outside rfl rfl

theorem accounts_leapReport (s : State) : AccountsKept s (leapReport s) := by
  have reconverted : ∀ (u : State) (g : Fin 32), AccountsKept u (reconvertGroup u g) := fun u g =>
    AccountsKept.ite _ (AccountsKept.refl u) (accounts_enter u g _)
  unfold leapReport
  exact (accounts_foldl _ accounts_phasePending _ _).after (accounts_foldl _ reconverted _ s)

theorem accounts_applyLeap (s : State) : AccountsKept s (applyLeap s) := by
  unfold applyLeap
  exact (accounts_notify _ _ _ _).after ((accounts_qualityPending _).after ((accounts_offer _ _).after (accounts_tsu s _)))

theorem accounts_offerIf (p : Prop) [Decidable p] (s : State) (r : Record) : AccountsKept s (if p then s else offer s r) :=
  AccountsKept.ite p (AccountsKept.refl s) (accounts_offer s r)

theorem accounts_setPending (s : State) (new : Leap) : AccountsKept s (setPending s new) := by
  unfold setPending
  refine AccountsKept.ite _ (AccountsKept.refl s) ?_
  exact (accounts_notify _ _ _ _).after ((accounts_qualityPending _).after ((accounts_leapReport _).after
    ((accounts_offerIf _ _ _).after ((accounts_offerIf _ _ _).after (accounts_tsu s _)))))

theorem accounts_announce (s : State) (t : Tsu) : AccountsKept s (announce s t) := by
  have conflict (p : Prop) [Decidable p] (u : State) (reason : ConflictReason) (x y : Nat) :
      AccountsKept u (if p then leapConflict u reason x y else u) :=
    AccountsKept.ite p (accounts_offer u _) (AccountsKept.refl u)
  have shown (u : State) : AccountsKept u (showConflict u s.tsu) := by
    unfold showConflict
    exact (conflict _ _ _ _ _).after (conflict _ u _ _ _)
  have derived (u : State) : AccountsKept u (derivePending u) := AccountsKept.ite _ (AccountsKept.refl u) (accounts_setPending u _)
  exact (derived _).after ((shown _).after (accounts_tsu s t))

theorem accounts_adoptCount (s : State) (k : Nat) (first : Bool) : AccountsKept s (adoptCount s k first) := by
  have adopted (u : State) (r : Record) := (accounts_leapReport _).after (accounts_offer u r)
  unfold adoptCount
  simp only []
  split
  · exact (adopted _ _).after (accounts_tsu s _)
  · exact (accounts_notify _ _ _ _).after ((accounts_offer _ _).after ((adopted _ _).after (accounts_tsu s _)))

theorem accounts_takeCount (s : State) (k : Nat) : AccountsKept s (takeCount s k) := by
  unfold takeCount
  exact AccountsKept.ite _ (accounts_tsu s _) (AccountsKept.ite _ ((accounts_applyLeap _).after (accounts_tsu s _))
    ((accounts_adoptCount _ _ _).after (accounts_tsu s _)))

theorem accounts_leapLatch (s : State) : AccountsKept s (leapLatch s) := by
  unfold leapLatch
  exact AccountsKept.ite _ (AccountsKept.ite _ ((accounts_applyLeap _).after (accounts_tsu s _)) (accounts_tsu s _))
    (AccountsKept.refl s)

theorem accounts_leapApplication (s : State) : AccountsKept s (leapApplication s) :=
  AccountsKept.ite _ (accounts_applyLeap s) (AccountsKept.refl s)

theorem accounts_civilMidnight (s : State) : AccountsKept s (civilMidnight s) :=
  AccountsKept.ite _ (accounts_tsu s _) (AccountsKept.refl s)

theorem accounts_catchUp (s : State) : AccountsKept s (catchUp s) := by
  unfold catchUp
  exact (accounts_leapLatch _).after ((accounts_tsu _ _).after ((accounts_civilMidnight _).after
    ((accounts_leapApplication _).after ((accounts_leapLatch _).after (accounts_tsu s _)))))

theorem accounts_clockSummary (s : State) : AccountsKept s (clockSummary s) := by
  unfold clockSummary
  exact AccountsKept.ite _ ((accounts_offer _ _).after (accounts_tsu s _)) (AccountsKept.refl s)

theorem accounts_announceLeap (v : Nat) (s : State) : AccountsKept s (announceLeap v s).state := by
  unfold announceLeap
  split
  · exact AccountsKept.refl s
  · split
    · exact AccountsKept.refl s
    · split
      · exact AccountsKept.refl s
      · split
        · exact AccountsKept.refl s
        · exact accounts_announce s _

/-! ## The line machine -/

theorem accounts_enterHeld (s : State) (i : Fin 8) (l : Line) (cause : LineCause) (extra : List Byte)
    (h : (s.line i).SameAccount l) : AccountsKept s (enterHeld s i l cause extra) := by
  unfold enterHeld notifyHeld
  exact (accounts_notify _ _ _ _).after ((accounts_offer _ _).after (accounts_setLine s i _ ⟨h.frame, h.owed, h.stamps⟩))

theorem accounts_drainTest (s : State) (i : Fin 8) : AccountsKept s (drainTest s i) := by
  unfold drainTest
  exact AccountsKept.ite _ (accounts_enterHeld s i _ _ _ ⟨rfl, rfl, fun _ => rfl⟩) (AccountsKept.refl s)

theorem accounts_notifyLine (s : State) (i : Fin 8) : AccountsKept s (notifyLine s i) := accounts_notify _ _ _ _

theorem accounts_isolate (s : State) (i : Fin 8) : AccountsKept s (isolate s i) := by
  obtain ⟨hf, ho, hs⟩ := sameAccount_discardQueue (s.line i)
  unfold isolate
  exact (accounts_notifyLine _ _).after ((accounts_offer _ _).after (accounts_setLine s i _ ⟨hf, ho, hs⟩))

theorem accounts_showHealth (s : State) (i : Fin 8) (old : Option Health) : AccountsKept s (showHealth s i old) := by
  unfold showHealth
  exact AccountsKept.ite _ (AccountsKept.refl s) ((accounts_notifyLine _ _).after (accounts_offer s _))

theorem accounts_laneEnd (s : State) (i : Fin 8) : AccountsKept s (laneEnd s i) := by
  unfold laneEnd
  exact AccountsKept.ite _ ((accounts_schedule _ _).after ((accounts_drainTest _ _).after
    (accounts_setLine_of_eq s i _ rfl rfl rfl))) (AccountsKept.refl s)

theorem accounts_assertPause (s : State) (i : Fin 8) : AccountsKept s (assertPause s i) := by
  unfold assertPause
  exact AccountsKept.ite _ (AccountsKept.refl s) (accounts_setLine_of_eq s i _ rfl rfl rfl)

/-- The level of a PAUSE input taken over. -/
theorem accounts_pauseLevel (s : State) (i : Fin 8) (b : Bool) : AccountsKept s (s.setLine i { s.line i with pause := b }) :=
  accounts_setLine_of_eq s i _ rfl rfl rfl

theorem accounts_deassertPause (s : State) (i : Fin 8) : AccountsKept s (deassertPause s i) :=
  (accounts_schedule _ i).after (accounts_pauseLevel s i false)

theorem accounts_drainTimeout (s : State) (i : Fin 8) : AccountsKept s (drainTimeout s i) := by
  obtain ⟨hf, ho, hs⟩ := sameAccount_discardQueue (s.line i)
  unfold drainTimeout
  exact AccountsKept.ite _ (accounts_enterHeld s i _ _ _ ⟨hf, ho, hs⟩) (AccountsKept.refl s)

theorem accounts_beginHold (s : State) (i : Fin 8) : AccountsKept s (beginHold s i) := by
  unfold beginHold
  exact (accounts_drainTest _ _).after ((accounts_notifyLine _ _).after ((accounts_offer _ _).after
    (accounts_setLine_of_eq s i _ rfl rfl rfl)))

/-- A line's configuration changed. -/
theorem accounts_reconfigure (s : State) (i : Fin 8) (l : Line) (h : (s.line i).SameAccount l) :
    AccountsKept s (reconfigure s i l) := (accounts_offer _ _).after (accounts_setLine s i l h)

theorem accounts_runLine (s : State) (i : Fin 8) : AccountsKept s (runLine s i) := by
  unfold runLine
  exact (accounts_schedule _ _).after ((accounts_notifyLine _ _).after ((accounts_offer _ _).after
    (accounts_setLine_of_eq s i _ rfl rfl rfl)))

/-! ## Auctions -/

theorem accounts_produce (s : State) (g : Fin 32) (r : HeldRecord) : AccountsKept s (produce s g r) := by
  unfold produce
  split
  · exact accounts_outside rfl rfl
  · exact accounts_offer s _

theorem accounts_cutGroup (s : State) (g : Fin 32) (cutTime : Nat) (forced : Bool) :
    AccountsKept s (cutGroup s g cutTime forced) := accounts_cutGroupWith accounts_offer s g cutTime forced

/-- An entry entered, a record produced, the group shown. -/
theorem accounts_entered (s : State) (g : Fin 32) (a : Auction) (r : HeldRecord) (vt : Nat) :
    AccountsKept s (showGroup (produce (enter s g a) g r) g vt) :=
  (accounts_showGroup _ _ _).after ((accounts_produce _ _ _).after (accounts_enter s g a))

/-- A record produced, an entry entered, the group shown. -/
theorem accounts_produced (s : State) (g : Fin 32) (r : HeldRecord) (a : Auction) (vt : Nat) :
    AccountsKept s (showGroup (enter (produce s g r) g a) g vt) :=
  (accounts_showGroup _ _ _).after ((accounts_enter _ _ _).after (accounts_produce s g r))

theorem accounts_callStarted (g : Fin 32) (s : State) : AccountsKept s (callStarted g s) := by
  unfold callStarted
  exact (accounts_showGroup _ _ _).after (accounts_enter s g _)

theorem accounts_windowStarted (g : Fin 32) (s : State) : AccountsKept s (windowStarted g s) := by
  unfold windowStarted
  exact (accounts_entered _ g _ _ _).after (accounts_outside rfl rfl)

theorem accounts_ended (g : Fin 32) (s : State) : AccountsKept s (ended g s) := by
  unfold ended
  split
  · exact accounts_cutGroup s g _ _
  · exact accounts_entered s g _ _ _

theorem accounts_clearGroup (g : Fin 32) (s : State) : AccountsKept s (clearGroup g s) := accounts_produced s g _ _ _

theorem accounts_showExtension (g : Fin 32) (s : State) : AccountsKept s (showExtension g s) := by
  unfold showExtension
  exact (accounts_showGroup _ _ _).after (accounts_produce s g _)

theorem accounts_extendEarly (g : Fin 32) (s : State) : AccountsKept s (extendEarly g s) :=
  (accounts_showExtension g _).after (accounts_enter s g _)

theorem accounts_extendLate (g : Fin 32) (s : State) : AccountsKept s (extendLate g s) := by
  unfold extendLate
  simp only []
  split
  · exact ((accounts_showExtension g _).after (accounts_enter _ g _)).after (accounts_produce s g _)
  · exact (accounts_showExtension g _).after (accounts_enter s g _)

theorem accounts_armGroup (g : Fin 32) (a : ArmArgs) (call window : Start) (s : State) :
    AccountsKept s (armGroup g a call window s).state := by
  have cleared := AccountsKept.ite ((s.group g).state = .idle) (AccountsKept.refl s) (accounts_clearGroup g s)
  unfold armGroup
  generalize (if (s.group g).state = .idle then s else clearGroup g s) = u at cleared ⊢
  simp only []
  split
  · simp only [done]
    exact cleared.trans ((accounts_showGroup _ g _).after ((accounts_enter _ g _).after (accounts_offer u _)))
  · exact cleared.trans (accounts_offer u _)

/-! ## The journal -/

theorem accounts_closePage (s : State) (cause : CloseCause) : AccountsKept s (closePage s cause) := by
  unfold closePage closePageWith
  split
  · exact AccountsKept.refl s
  · exact (accounts_notify _ _ _ _).after ((accounts_judgeJournal _).after (accounts_outside rfl rfl))

theorem accounts_writerNext (s : State) : AccountsKept s (writerNext s) :=
  (accounts_writerDecide _).after (accounts_outside rfl rfl)

theorem accounts_loseRecord (s : State) (k : RecKind) : AccountsKept s (loseRecord s k) := by
  unfold loseRecord
  exact AccountsKept.ite _ ((accounts_notify _ _ _ _).after (accounts_outside rfl rfl)) (accounts_outside rfl rfl)

theorem accounts_reportArm (s : State) (r : Record) (index : Nat) : AccountsKept s (reportArm s r index) := by
  unfold reportArm
  split
  · exact (accounts_foldl _ (fun s _ => accounts_offer s _) _ _).after (accounts_outside rfl rfl)
  · exact AccountsKept.refl s

theorem accounts_releaseSource (s : State) (src : WriteSource) : AccountsKept s (releaseSource s src) := by
  cases src <;> exact accounts_outside rfl rfl

theorem accounts_closeAfter (s : State) (slot : Fin 128) : AccountsKept s (closeAfter s slot) :=
  AccountsKept.ite _ (accounts_closePage s _) (AccountsKept.ite _ (accounts_closePage s _) (AccountsKept.refl s))

theorem accounts_writeVerified (s : State) : AccountsKept s (writeVerified s) := by
  unfold writeVerified
  split
  · exact AccountsKept.refl s
  · exact (accounts_writerNext _).after ((accounts_closeAfter _ _).after ((accounts_reportArm _ _ _).after
      ((accounts_releaseSource _ _).after (accounts_outside rfl rfl))))

theorem accounts_oweAgain (s : State) (src : WriteSource) : AccountsKept s (oweAgain s src) := by
  cases src <;> exact accounts_outside rfl rfl

theorem accounts_loseFailed (s : State) (r : Record) (src : WriteSource) : AccountsKept s (loseFailed s r src) := by
  cases src with
  | pageOpen => exact AccountsKept.refl s
  | intake => exact (accounts_reportArm _ _ _).after ((accounts_loseRecord _ _).after (accounts_outside rfl rfl))
  | gap g => exact accounts_outside rfl rfl

theorem accounts_writeFailed (s : State) : AccountsKept s (writeFailed s) := by
  unfold writeFailed
  split
  · exact AccountsKept.refl s
  · have closed := fun p i => (accounts_closePage _ .short).after (accounts_outside (s := s) (t := setSlot s p i .void) rfl rfl)
    exact AccountsKept.ite _ (AccountsKept.refl s) ((accounts_writerNext _).after
      (AccountsKept.ite _ ((accounts_oweAgain _ _).after (closed _ _)) ((accounts_loseFailed _ _ _).after (closed _ _))))

theorem accounts_showDefect (s : State) (p : Fin 64) (serial : Nat) (cause : DefectCause) :
    AccountsKept s (showDefect s p serial cause) := by
  unfold showDefect
  exact (accounts_judgeJournal _).after ((accounts_notify _ _ _ _).after (accounts_offer s _))

theorem accounts_pageOpenFailed (s : State) : AccountsKept s (pageOpenFailed s) := by
  unfold pageOpenFailed
  split
  · exact AccountsKept.refl s
  · exact AccountsKept.ite _ ((accounts_writerNext _).after ((accounts_showDefect _ _ _ _).after (accounts_outside rfl rfl)))
      (AccountsKept.refl s)

theorem accounts_eraseEnd (s : State) (notBlank : List (Fin 128)) : AccountsKept s (eraseEnd s notBlank) := by
  unfold eraseEnd
  split
  · exact AccountsKept.refl s
  · unfold pageFreed pageSpoiled
    exact AccountsKept.ite _ ((accounts_writerDecide _).after ((accounts_judgeJournal _).after ((accounts_notify _ _ _ _).after
      (accounts_outside rfl rfl)))) ((accounts_showDefect _ _ _ _).after (accounts_outside rfl rfl))

/-! ## The survey -/

theorem accounts_psm (s : State) (p : Psm) : AccountsKept s { s with psm := p } := accounts_outside rfl rfl

theorem accounts_pollSchedule (s : State) : AccountsKept s (pollSchedule s) := by
  unfold pollSchedule
  split
  · split
    · exact accounts_outside rfl rfl
    · exact AccountsKept.refl s
  · exact AccountsKept.refl s

theorem accounts_busIdled (s : State) : AccountsKept s (busIdled s) := by
  unfold busIdled
  split
  · exact accounts_pollSchedule s
  · exact AccountsKept.ite _ (accounts_psm s _) (AccountsKept.ite _ (accounts_psm s _) (AccountsKept.refl s))

theorem accounts_agentChanged (s : State) (a : Fin 8) (old : AgentState) (cause : AgentCause) (extra : List Byte) :
    AccountsKept s (agentChanged s a old cause extra) := by
  unfold agentChanged
  exact (accounts_notify _ _ _ _).after (accounts_offer s _)

theorem accounts_moveAgent (s : State) (a : Fin 8) (new : AgentState) (cause : AgentCause) :
    AccountsKept s (moveAgent s a new cause) := by
  unfold moveAgent
  exact AccountsKept.ite _ (AccountsKept.refl s) ((accounts_agentChanged _ _ _ _ _).after (accounts_outside rfl rfl))

theorem accounts_failPoll (s : State) (a : Fin 8) (e : PollError) : AccountsKept s (failPoll s a e) := by
  unfold failPoll
  exact AccountsKept.ite _ ((accounts_moveAgent _ _ _ _).after (accounts_outside rfl rfl)) (accounts_outside rfl rfl)

theorem accounts_endTxn (s : State) (t : Txn) (outcome : State → State) (h : ∀ u, AccountsKept u (outcome u)) :
    AccountsKept s (endTxn s t outcome) := by
  unfold endTxn
  exact AccountsKept.ite _ (accounts_outside rfl rfl) ((h _).after (accounts_outside rfl rfl))

theorem accounts_endFailed (s : State) (t : Txn) (e : PollError) : AccountsKept s (endFailed s t e) :=
  (accounts_pollSchedule _).after (accounts_endTxn s t _ fun u => accounts_failPoll u _ _)

theorem accounts_checkBytes (s : State) (t : Txn) : AccountsKept s (checkBytes s t) := by
  unfold checkBytes
  split
  · exact accounts_failPoll s _ _
  · exact (accounts_moveAgent _ _ _ _).after (accounts_outside rfl rfl)

theorem accounts_markPhaseEnd (s : State) (outcome : MarkOutcome) : AccountsKept s (markPhaseEnd s outcome) := by
  unfold markPhaseEnd
  split
  · exact AccountsKept.refl s
  · cases outcome with
    | addressNack => exact (accounts_endFailed _ _ _).after (accounts_psm s _)
    | dataNack => exact (accounts_endFailed _ _ _).after (accounts_psm s _)
    | acknowledged => exact accounts_psm s _

theorem accounts_gapEnd (s : State) : AccountsKept s (gapEnd s) := by
  unfold gapEnd
  split
  · exact AccountsKept.ite _ (accounts_psm s _) (AccountsKept.refl s)
  · exact AccountsKept.refl s

theorem accounts_readPhaseEnd (s : State) (outcome : ReadOutcome) : AccountsKept s (readPhaseEnd s outcome) := by
  unfold readPhaseEnd
  split
  · exact AccountsKept.refl s
  · cases outcome with
    | addressNack => exact (accounts_endFailed _ _ _).after (accounts_psm s _)
    | reading bytes =>
      exact ((accounts_pollSchedule _).after (accounts_endTxn _ _ _ fun u => accounts_checkBytes u _)).after (accounts_psm s _)

theorem accounts_arbitrationLost (s : State) : AccountsKept s (arbitrationLost s) := by
  unfold arbitrationLost
  split
  · exact AccountsKept.refl s
  · refine AccountsKept.ite _ ((accounts_pollSchedule _).after ((accounts_endTxn _ _ _ fun u => AccountsKept.refl u).after
      (accounts_psm s _))) (AccountsKept.ite _ (accounts_outside rfl rfl) ((accounts_endFailed _ _ _).after
        (accounts_outside rfl rfl)))

theorem accounts_busError (s : State) (isStart : Bool) : AccountsKept s (busError s isStart) := by
  have halted (u : State) (t : Txn) : AccountsKept u (haltSurvey u t) := by
    have counted := AccountsKept.ite (t.discard = true) (accounts_outside (s := u) (t := countDiscard u t.agent) rfl rfl)
      (AccountsKept.refl u)
    unfold haltSurvey
    exact counted.trans (accounts_outside rfl rfl)
  unfold busError
  split
  · exact AccountsKept.refl s
  · exact (accounts_notify _ _ _ _).after ((accounts_offer _ _).after ((halted _ _).after (accounts_psm s _)))

theorem accounts_clockLowTimeout (s : State) (dataHigh : Bool) : AccountsKept s (clockLowTimeout s dataHigh) := by
  unfold clockLowTimeout
  split
  · exact AccountsKept.refl s
  · exact AccountsKept.ite _ ((accounts_endFailed _ _ _).after (accounts_psm s _)) (AccountsKept.refl s)

theorem accounts_lineChange (s : State) (clockHigh dataHigh : Bool) : AccountsKept s (lineChange s clockHigh dataHigh) := by
  unfold lineChange
  split
  · exact AccountsKept.ite _ (AccountsKept.refl s) (accounts_psm s _)
  · exact accounts_psm s _
  · exact accounts_psm s _
  · exact accounts_psm s _

theorem accounts_startConditionSeen (s : State) (clockHigh dataHigh : Bool) :
    AccountsKept s (startConditionSeen s clockHigh dataHigh) := by
  unfold startConditionSeen
  split
  · exact accounts_psm s _
  · exact AccountsKept.refl s
  · exact accounts_lineChange s _ _
  · exact accounts_lineChange s _ _

/-- The bus made IDLE by a condition. -/
theorem accounts_freed (p : Prop) [Decidable p] (s : State) :
    AccountsKept s (if p then busIdled { s with psm := s.psm.released } else s) :=
  AccountsKept.ite p ((accounts_busIdled _).after (accounts_psm s _)) (AccountsKept.refl s)

theorem accounts_busTimerExpiry (s : State) : AccountsKept s (busTimerExpiry s) :=
  AccountsKept.ite _ (AccountsKept.ite _ ((accounts_busIdled _).after (accounts_psm s _)) (accounts_psm s _)) (AccountsKept.refl s)

theorem accounts_ninthPulse (s : State) : AccountsKept s (ninthPulse s) :=
  AccountsKept.ite _ (accounts_psm s _) (AccountsKept.refl s)

theorem accounts_agentDue (s : State) (a : Fin 8) : AccountsKept s (agentDue s a) :=
  AccountsKept.ite _ (accounts_pollSchedule s) (AccountsKept.refl s)

theorem accounts_stale (s : State) (a : Fin 8) : AccountsKept s (stale s a) :=
  AccountsKept.ite _ (accounts_moveAgent s a _ _) (AccountsKept.refl s)

theorem accounts_enable (s : State) (a : Fin 8) : AccountsKept s (enable s a) := by
  unfold enable
  exact (accounts_pollSchedule _).after ((accounts_agentChanged _ _ _ _ _).after (accounts_outside rfl rfl))

theorem accounts_disable (s : State) (a : Fin 8) : AccountsKept s (disable s a) := by
  have discarded (u : State) : AccountsKept u (discardTxn u a) := by
    unfold discardTxn
    split
    · exact AccountsKept.refl u
    · exact AccountsKept.ite _ (AccountsKept.refl u) (AccountsKept.ite _ (accounts_endTxn u _ _ fun v => AccountsKept.refl v)
        (accounts_psm u _))
  unfold disable
  exact (accounts_pollSchedule _).after ((accounts_agentChanged _ _ _ _ _).after ((discarded _).after (accounts_outside rfl rfl)))

end Sys2Proof.Machine
end

