-- ==== Sys2Proof/Proofs/IssuerAccounts.lean ====
section
/-!
PROOFS. Proofs/IssuerAccounts.lean: the accounting of stamps (R54, R74, R81) split into the Stamp Issuer's own counts and its agreement with
each line; what the clock, the references and the requests do to it: they open the issuer, and a step of VT moves captures.
-/
namespace Sys2Proof.Machine

/-! ## The accounting, split -/

/-- The issuer's own counts: sequences run from 1 without a gap, and the line counts and the disposition counts each add up to the last
one (R74, R81). -/
structure Sis.Counted (x : Sis) : Prop where
  closed : x.state = .closed → x.next = some 1
  opened : x.state = .opened → ∃ q, x.next = some q ∧ 1 ≤ q ∧ q ≤ Config.lastSequence
  exhausted : x.state = .exhausted → x.next = none
  issued : (allEight.map fun i => x.issued[i]).sum = x.total
  dispositions : x.accepted + x.late + x.refusedSession + x.refusedGroup = x.total

/-- The issuer and one of its lines agree: on the stamps issued, on the frame that holds the capture cell, and on the answers owed (R48,
R53, R54, R70). -/
structure Sis.AgreesWith (x : Sis) (i : Fin 8) (l : Line) : Prop where
  issued : x.issued[i] = l.stamps
  cell : x.cells[i].isSome = true ↔ l.frame = .judged
  owed : l.owed = x.offersOf i + if l.frame = .judged then 1 else 0

theorem accounted_iff (s : State) : Accounted s ↔ s.sis.Counted ∧ ∀ i, s.sis.AgreesWith i (s.line i) :=
  ⟨fun h => ⟨⟨h.closed, h.opened, h.exhausted, h.issued, h.dispositions⟩, fun i => ⟨h.lines i, h.cell i, h.owed i⟩⟩,
    fun ⟨h, k⟩ => ⟨h.closed, h.opened, h.exhausted, h.issued, h.dispositions, fun i => (k i).issued, fun i => (k i).cell,
      fun i => (k i).owed⟩⟩

theorem Sis.Counted.total_le {x : Sis} (h : x.Counted) : x.total ≤ Config.lastSequence := by
  unfold Sis.total
  cases hs : x.state with
  | closed => rw [h.closed hs]; simp
  | opened =>
    obtain ⟨q, next, -, le⟩ := h.opened hs
    rw [next]
    simp only []
    omega
  | exhausted => rw [h.exhausted hs]

theorem Sis.Counted.issued_le {x : Sis} (h : x.Counted) (i : Fin 8) : x.issued[i] ≤ x.total := by
  rw [← h.issued]
  exact List.le_sum_of_mem (List.mem_map_of_mem (f := fun i : Fin 8 => x.issued[i]) (mem_allEight i))

/-- No line accounts for more stamps than there are sequences. -/
theorem Accounted.stamps_le {s : State} (h : Accounted s) (i : Fin 8) : (s.line i).stamps ≤ Config.lastSequence := by
  obtain ⟨counted, agrees⟩ := (accounted_iff s).1 h
  rw [← (agrees i).issued]
  exact (counted.issued_le i).trans counted.total_le

theorem Sis.AgreesWith.sameAccount {x : Sis} {i : Fin 8} {l m : Line} (h : x.AgreesWith i l) (k : l.SameAccount m)
    (le : l.stamps ≤ Config.lastSequence) : x.AgreesWith i m where
  issued := h.issued.trans (k.stamps le).symm
  cell := by rw [k.frame]; exact h.cell
  owed := by rw [k.frame, k.owed]; exact h.owed

/-- An issuer with the same line counts, cells and offers agrees with the same lines. -/
theorem Sis.AgreesWith.issuer {x y : Sis} {i : Fin 8} {l : Line} (h : x.AgreesWith i l) (hi : y.issued[i] = x.issued[i])
    (hc : y.cells[i].isSome = x.cells[i].isSome) (ho : y.offersOf i = x.offersOf i) : y.AgreesWith i l where
  issued := hi.trans h.issued
  cell := by rw [hc]; exact h.cell
  owed := by rw [ho]; exact h.owed

theorem AccountsKept.accounted {s t : State} (h : AccountsKept s t) (k : Accounted s) : Accounted t := by
  obtain ⟨counted, agrees⟩ := (accounted_iff s).1 k
  refine (accounted_iff t).2 ⟨by rw [h.sis]; exact counted, fun i => ?_⟩
  rw [h.sis]
  exact (agrees i).sameAccount (h.lines i) (k.stamps_le i)

/-- The Stamp Issuer replaced on both sides. -/
theorem AccountsKept.withSis {s t : State} (h : AccountsKept s t) (x : Sis) :
    AccountsKept { s with sis := x } { t with sis := x } := ⟨rfl, h.lines⟩

/-! ## What keeps the accounting outside tag frames and grants -/

/-- The accounting is kept and the issuer does not close; the pending offers and the last stamp stand, unless a step of VT may move the
captures: it may where the event is not calm and the issuer is CLOSED (R3). -/
structure IssuerSteady (calm : Prop) (s t : State) : Prop where
  accounted : Accounted s → Accounted t
  closed : t.sis.state = .closed → s.sis.state = .closed
  captures : calm ∨ s.sis.state ≠ .closed → t.sis.offers = s.sis.offers ∧ t.sis.last = s.sis.last

section
variable {calm : Prop}

theorem AccountsKept.steady {s t : State} (h : AccountsKept s t) : IssuerSteady calm s t :=
  ⟨h.accounted, fun x => by rw [← h.sis]; exact x, fun _ => by rw [h.sis]; exact ⟨rfl, rfl⟩⟩

/-- A change outside the lines and the Stamp Issuer. -/
theorem steady_outside {s t : State} (hl : t.lines = s.lines) (hs : t.sis = s.sis) : IssuerSteady calm s t :=
  (accounts_outside hl hs).steady

theorem IssuerSteady.refl (s : State) : IssuerSteady calm s s := (AccountsKept.refl s).steady

theorem IssuerSteady.trans {s t u : State} (h : IssuerSteady calm s t) (k : IssuerSteady calm t u) : IssuerSteady calm s u where
  accounted := fun x => k.accounted (h.accounted x)
  closed := fun x => h.closed (k.closed x)
  captures := fun x => by
    obtain ⟨offers, last⟩ := h.captures x
    obtain ⟨offers', last'⟩ := k.captures (x.imp_right fun n e => n (h.closed e))
    exact ⟨offers'.trans offers, last'.trans last⟩

/-- Composition from the last operation back. -/
theorem IssuerSteady.after {s t u : State} (k : IssuerSteady calm t u) (h : IssuerSteady calm s t) : IssuerSteady calm s u :=
  h.trans k

theorem IssuerSteady.ite {s t u : State} (p : Prop) [Decidable p] (h : IssuerSteady calm s t) (k : IssuerSteady calm s u) :
    IssuerSteady calm s (if p then t else u) := by
  split
  · exact h
  · exact k

/-! ## The issuer opened (R67), the captures moved (R183) -/

/-- Opening issues nothing: the next sequence of a CLOSED issuer was 1 already. -/
theorem accounted_opened (s : State) (o : Option (OpenCause × Nat)) (hs : s.sis.state = .closed) (h : Accounted s) :
    Accounted { s with sis := { s.sis with state := .opened, next := some 1, opening := o } } := by
  obtain ⟨counted, agrees⟩ := (accounted_iff s).1 h
  have total : s.sis.total = 0 := by rw [Sis.total, counted.closed hs]
  refine (accounted_iff _).2 ⟨⟨nofun, fun _ => ⟨1, rfl, le_rfl, by decide⟩, nofun, ?_, ?_⟩,
    fun i => (agrees i).issuer rfl rfl rfl⟩
  · exact counted.issued.trans total
  · exact counted.dispositions.trans total

theorem steady_openIssuer (s : State) (cause : OpenCause) (hs : s.sis.state = .closed) :
    IssuerSteady calm s (openIssuer s cause) := by
  have opened : IssuerSteady calm s
      { s with sis := { s.sis with state := .opened, next := some 1, opening := some (cause, s.now) } } :=
    ⟨accounted_opened s _ hs, fun _ => hs, fun _ => ⟨rfl, rfl⟩⟩
  unfold openIssuer
  exact opened.trans ((accounts_notify _ _ _ _).after (accounts_offer _ _)).steady

theorem steady_trackingReport (s : State) : IssuerSteady calm s (trackingReport s) := by
  unfold trackingReport
  split
  · rename_i h
    exact steady_openIssuer s _ h.1
  · exact IssuerSteady.refl s

/-- Captures moved stay in their cells and their offers on their lines. -/
theorem accounted_stepping (s : State) (theta : Int) (h : Accounted s) : Accounted (s.stepping theta) := by
  obtain ⟨counted, agrees⟩ := (accounted_iff s).1 h
  refine (accounted_iff _).2
    ⟨⟨counted.closed, counted.opened, counted.exhausted, counted.issued, counted.dispositions⟩,
      fun i => (agrees i).issuer rfl ?_ ?_⟩
  · rw [stepping_cells, Option.isSome_map]
  · rw [Sis.offersOf, stepping_offers, List.countP_map]
    rfl

theorem steady_stepVt (s : State) (theta : Int) (hs : s.sis.state = .closed) : IssuerSteady False s (stepVt s theta) := by
  have moved : IssuerSteady False s (s.stepping theta) :=
    ⟨accounted_stepping s theta, id, fun h => absurd hs (h.resolve_left id)⟩
  unfold stepVt
  exact moved.trans ((accounts_catchUp _).after ((accounts_notify _ _ _ _).after (accounts_offer _ _))).steady

/-! ## The clock -/

theorem steady_clockHandOn (s : State) (old : Tsu) (cause : ClockCause) : IssuerSteady calm s (clockHandOn s old cause) := by
  unfold clockHandOn
  refine IssuerSteady.ite _ ?_ (IssuerSteady.ite _ (accounts_qualityPending s).steady (IssuerSteady.refl s))
  have reported (u : State) : IssuerSteady calm u (if s.tsu.traceable = old.traceable then u else traceableReport u s.tsu.traceable) :=
    IssuerSteady.ite _ (IssuerSteady.refl u) (accounts_traceableReport u _).steady
  have tracking (u : State) : IssuerSteady calm u (if s.tsu.clock = .tracking ∧ old.clock ≠ .tracking then trackingReport u else u) :=
    IssuerSteady.ite _ (steady_trackingReport u) (IssuerSteady.refl u)
  unfold clockChanged
  exact ((accounts_notify _ _ _ _).after (accounts_qualityPending _)).steady.after
    ((tracking _).after ((reported _).after (accounts_offer s _).steady))

/-- The clock changed, then the change handed on. -/
theorem steady_clockChange (s : State) (t old : Tsu) (cause : ClockCause) :
    IssuerSteady calm s (clockHandOn { s with tsu := t } old cause) :=
  (steady_clockHandOn _ _ _).after (accounts_tsu s t).steady

theorem steady_secondBoundary (s : State) : IssuerSteady calm s (secondBoundary s) := by
  unfold secondBoundary
  refine IssuerSteady.ite _ ?_ (IssuerSteady.refl s)
  exact ((accounts_tsu _ _).after (accounts_qualityPending _)).steady.after (steady_clockChange s _ _ _)

theorem steady_selectionReport (s : State) (new : Option (Fin 2)) : IssuerSteady calm s (selectionReport s new) := by
  unfold selectionReport
  exact IssuerSteady.ite _ (IssuerSteady.refl s) (steady_clockChange s _ _ _)

theorem steady_setClockLimits (l : ClockLimits) (s : State) : IssuerSteady calm s (setClockLimits l s).state := by
  unfold setClockLimits
  split
  · exact (steady_clockChange _ _ _ _).after ((accounts_offer _ _).after (accounts_tsu s _)).steady
  · exact IssuerSteady.refl s

theorem accounts_sampled (s : State) (x : Sample) : AccountsKept s (s.sampled x) :=
  (accounts_announce _ _).after ((accounts_takeCount _ _).after (accounts_tsu s _))

/-- An update steps VT only while the issuer is CLOSED (R3). -/
theorem steady_corrected (s : State) (theta : Int) : IssuerSteady False s (s.corrected theta) := by
  unfold State.corrected
  split
  · rename_i due
    simp only [State.stepDue, Bool.and_eq_true, beq_iff_eq] at due
    exact steady_stepVt s theta due.1
  · exact (accounts_tsu s _).steady

theorem steady_takeSample (s : State) (x : Sample) : IssuerSteady False s (takeSample s x) := by
  by_cases h : s.tsu.clock = .acquiring ∨ s.tsu.clock = .tracking
  · rw [takeSample_eq s x h]
    exact (steady_clockChange _ _ _ _).after ((steady_corrected _ _).after (accounts_sampled s x).steady)
  · simp only [takeSample, h, if_false]
    exact IssuerSteady.refl s

/-! ## The references -/

theorem accounts_setRef (s : State) (i : Fin 3) (r : Ref) : AccountsKept s (s.setRef i r) := accounts_outside rfl rfl

theorem accounts_notifyRef (s : State) (i : Fin 3) : AccountsKept s (notifyRef s i) := accounts_notify _ _ _ _

theorem steady_showRefChange (s : State) (i : Fin 3) (old : RefState) (cause : RefCause) (extra : List Byte) :
    IssuerSteady calm s (showRefChange s i old cause extra) := by
  have cleared : AccountsKept s (clearDisagree s i old) := AccountsKept.ite _ (accounts_outside rfl rfl) (AccountsKept.refl s)
  have reselected (u : State) : IssuerSteady calm u (reselect u i old) := by
    unfold reselect
    refine IssuerSteady.ite _ (IssuerSteady.ite _ ?_ (accounts_tsu u _).steady) (IssuerSteady.refl u)
    exact (steady_selectionReport _ _).after (steady_outside rfl rfl)
  unfold showRefChange
  exact IssuerSteady.ite _ (IssuerSteady.refl s) ((reselected _).after ((accounts_offer _ _).after cleared).steady)

theorem accounts_checkDisagree (s : State) (i : Fin 3) : AccountsKept s (checkDisagree s i) := by
  have shown (a b : Offset) (diff : Int) : AccountsKept s (showDisagree s i a b diff) := by
    unfold showDisagree
    exact (accounts_notify _ _ _ _).after ((accounts_offer _ _).after (accounts_outside rfl rfl))
  unfold checkDisagree
  split
  · exact AccountsKept.refl s
  · exact AccountsKept.ite _ (AccountsKept.ite _ (AccountsKept.refl s) (shown _ _ _)) (accounts_outside rfl rfl)

/-- A sample may step VT; without one nothing happens. -/
theorem steady_handSample (s : State) (i : Fin 3) (x : Option Sample) (h : calm → x = none) :
    IssuerSteady calm s (handSample s i x) := by
  cases x with
  | none => exact IssuerSteady.refl s
  | some x =>
    obtain rfl : calm = False := eq_false fun c => nomatch h c
    exact IssuerSteady.ite _ (steady_takeSample s x) (IssuerSteady.refl s)

theorem steady_handOffRef (s : State) (i : Fin 3) (j : RefStep) (h : calm → j.sample = none) :
    IssuerSteady calm s (handOffRef s i j) := by
  have disagreed (p : Prop) [Decidable p] (u : State) : AccountsKept u (if p then checkDisagree u i else u) :=
    AccountsKept.ite p (accounts_checkDisagree u i) (AccountsKept.refl u)
  have noticed (p : Prop) [Decidable p] (u : State) : AccountsKept u (if p then u else notifyRef u i) :=
    AccountsKept.ite p (AccountsKept.refl u) (accounts_notifyRef u i)
  unfold handOffRef
  exact ((noticed _ _).after (disagreed _ _)).steady.after ((steady_handSample _ i _ h).after
    ((steady_showRefChange _ i _ _ _).after (accounts_setRef s i _).steady))

theorem accounts_pulseEdge (s : State) (i : Fin 3) (rising : Bool) (eighth : Fin 8) :
    AccountsKept s (pulseEdge s i rising eighth) := by
  unfold pulseEdge
  simp only []
  split
  · exact AccountsKept.refl s
  · split <;> exact accounts_setRef s i _

theorem steady_edgeJudged (s : State) (i : Fin 3) : IssuerSteady False s (edgeJudged s i) := by
  unfold edgeJudged
  simp only []
  split
  · exact IssuerSteady.refl s
  · split
    · exact (accounts_setRef s i _).steady
    · exact IssuerSteady.ite _ (IssuerSteady.refl s) (steady_handOffRef s i _ False.elim)

theorem bad_sample (r : Ref) (c : RefCause) : (r.bad c).sample = none := rfl

theorem missed_sample (r : Ref) (i : Fin 3) : (r.missed i).sample = none := by
  unfold Ref.missed
  split <;> rfl

theorem steady_overrun (s : State) (i : Fin 3) : IssuerSteady calm s (overrun s i) :=
  IssuerSteady.ite _ (steady_handOffRef s i _ fun _ => bad_sample _ _) (IssuerSteady.refl s)

theorem steady_missingPulse (s : State) (i : Fin 3) : IssuerSteady calm s (missingPulse s i) :=
  IssuerSteady.ite _ (steady_handOffRef s i _ fun _ => missed_sample _ _) (IssuerSteady.refl s)

theorem accounts_labelArrives (s : State) (i : Fin 2) (l : Option Label) : AccountsKept s (labelArrives s i l) := by
  unfold labelArrives
  simp only []
  split
  · exact AccountsKept.refl s
  · exact accounts_setRef s _ _

/-! ## The end of recovery -/

/-- The issuer is told the epoch (R79), and nothing of the accounting. -/
theorem accounted_epoch (s : State) (n : Nat) (h : Accounted s) : Accounted { s with sis := { s.sis with epoch := n } } := by
  obtain ⟨counted, agrees⟩ := (accounted_iff s).1 h
  exact (accounted_iff _).2
    ⟨⟨counted.closed, counted.opened, counted.exhausted, counted.issued, counted.dispositions⟩,
      fun i => (agrees i).issuer rfl rfl rfl⟩

theorem steady_epoch {s t : State} (n : Nat) (hl : t.lines = s.lines) (hs : t.sis = { s.sis with epoch := n }) :
    IssuerSteady calm s t where
  accounted := fun h => (accounts_outside (s := { s with sis := { s.sis with epoch := n } }) hl hs).accounted (accounted_epoch s n h)
  closed := fun h => by rw [hs] at h; exact h
  captures := fun _ => by rw [hs]; exact ⟨rfl, rfl⟩

theorem steady_beginEpoch (s : State) (r : Recovered) (truncated : Bool) : IssuerSteady calm s (beginEpoch s r truncated) := by
  have reported (u : State) (v : JournalState) : IssuerSteady calm u (journalReport u v) := (accounts_journalReport u v).steady
  unfold beginEpoch
  simp only []
  split
  · exact (reported _ _).after (steady_epoch (max r.epoch s.ej.storedEpoch + 1) rfl rfl)
  · exact (reported _ _).after (steady_outside rfl rfl)

theorem steady_recoveryEnd (s : State) : IssuerSteady calm s (recoveryEnd s) := by
  have closing (u : State) (e : Ej) : AccountsKept u (writerDecide { u with ej := e }) :=
    (accounts_writerDecide _).after (accounts_outside rfl rfl)
  unfold recoveryEnd
  split
  · exact ((closing _ _).after (accounts_notify _ _ _ _)).steady.after ((steady_beginEpoch _ _ _).after
      (steady_outside rfl rfl))
  · exact IssuerSteady.refl s

end

end Sys2Proof.Machine
end

