-- ==== Sys2Proof/Proofs/StampAccounts.lean ====
section
/-!
PROOFS. Proofs/StampAccounts.lean: tag frames and grants, which move the accounting of stamps (R44, R48, R70, R73, R78), and the capture
order of the pending offers and the last stamp (R71, R72).
-/
namespace Sys2Proof.Machine

/-! ## The capture order -/

theorem Offer.leads_trans {a b c : Offer} (h : a.leads b) (k : b.leads c) : a.leads c := by
  simp only [Offer.leads, Fin.le_def] at *
  omega

theorem Offer.leads_capture {a b : Offer} (h : a.leads b) : a.capture ≤ b.capture := by
  rcases h with h | h
  · exact h.le
  · exact h.1.le

theorem insertOffer_perm (o : Offer) (l : List Offer) : (insertOffer o l).Perm (o :: l) := by
  induction l with
  | nil => exact List.Perm.refl _
  | cons p ps ih =>
    unfold insertOffer
    split
    · exact List.Perm.refl _
    · exact (ih.cons p).trans (List.Perm.swap o p ps)

/-- An offer inserted keeps the capture order: it stands before the first offer it precedes, behind those that lead it (R71). -/
theorem insertOffer_leads (o : Offer) (l : List Offer) (h : l.Pairwise Offer.leads) : (insertOffer o l).Pairwise Offer.leads := by
  induction l with
  | nil => exact List.pairwise_singleton _ _
  | cons p ps ih =>
    obtain ⟨first, rest⟩ := List.pairwise_cons.1 h
    unfold insertOffer
    split
    · rename_i before
      have leads : o.leads p := before.imp_right fun e => ⟨e.1, e.2.le⟩
      refine List.pairwise_cons.2 ⟨fun x hx => ?_, h⟩
      rcases List.mem_cons.1 hx with rfl | hx
      · exact leads
      · exact Offer.leads_trans leads (first x hx)
    · rename_i behind
      have led : p.leads o := by
        simp only [Offer.leads, Fin.le_def]
        omega
      refine List.pairwise_cons.2 ⟨fun x hx => ?_, ih rest⟩
      rcases List.mem_cons.1 ((insertOffer_perm o ps).mem_iff.1 hx) with rfl | hx
      · exact led
      · exact first x hx

/-- No cell holds a capture before the last stamp's, as the timing of the lanes has it (R71, log 2). -/
def Sis.CellsBehind (x : Sis) : Prop :=
  ∀ (i : Fin 8) (c : Capture) (q v : Nat), x.cells[i] = some c → x.last = some (q, v) → v ≤ c.time

/-- The capture order kept from one issuer to the next, and no later stamp of an earlier capture. -/
structure Sis.StaysOrdered (x y : Sis) : Prop where
  ordered : CaptureOrdered y
  last : ∀ q v q' v', x.last = some (q, v) → y.last = some (q', v') → v ≤ v'

/-- Offers and the last stamp stand, and the issuer does not close. -/
theorem staysOrdered_same {x y : Sis} (h : CaptureOrdered x) (hs : y.state = .closed → x.state = .closed)
    (ho : y.offers = x.offers) (hl : y.last = x.last) : x.StaysOrdered y where
  ordered := ⟨fun e => by rw [hl]; exact h.closed (hs e), by rw [ho]; exact h.offers, by rw [ho, hl]; exact h.last⟩
  last := fun q v q' v' a b => by
    rw [hl, a] at b
    obtain ⟨-, rfl⟩ := Prod.mk.inj (Option.some.inj b)
    exact le_rfl

/-- A restarted issuer has neither offers nor a last stamp. -/
theorem staysOrdered_restarted (x : Sis) : x.StaysOrdered {} where
  ordered := ⟨fun _ => rfl, List.Pairwise.nil, fun _ _ _ _ ho => nomatch ho⟩
  last := fun _ _ _ _ _ e => nomatch e

/-- An offer inserted that is not before the last stamp. -/
theorem staysOrdered_inserted {x y : Sis} (h : CaptureOrdered x) (o : Offer) (hs : y.state = x.state) (hl : y.last = x.last)
    (ho : y.offers = insertOffer o x.offers) (behind : ∀ q v, x.last = some (q, v) → v ≤ o.capture) : x.StaysOrdered y where
  ordered := by
    refine ⟨fun e => by rw [hl]; exact h.closed (hs ▸ e), ho ▸ insertOffer_leads o _ h.offers, fun q v e p hp => ?_⟩
    rw [hl] at e
    rw [ho] at hp
    rcases List.mem_cons.1 ((insertOffer_perm o _).mem_iff.1 hp) with rfl | hp
    · exact behind q v e
    · exact h.last q v e p hp
  last := fun q v q' v' a b => (staysOrdered_same (y := x) h id rfl rfl).last q v q' v' a (hl ▸ b)

/-- The first offer taken and issued as the last stamp, or answered without one (R72). -/
theorem staysOrdered_granted {x y : Sis} (h : CaptureOrdered x) {o : Offer} {rest : List Offer} (hx : x.offers = o :: rest)
    (hs : y.state = .closed → x.state = .closed ∧ y.last = x.last) (ho : y.offers = rest)
    (hl : y.last = x.last ∨ ∃ q, y.last = some (q, o.capture)) : x.StaysOrdered y := by
  have offers := h.offers
  rw [hx] at offers
  obtain ⟨first, pairwise⟩ := List.pairwise_cons.1 offers
  have member (p : Offer) (hp : p ∈ rest) : p ∈ x.offers := hx ▸ List.mem_cons_of_mem o hp
  have closed (e : y.state = .closed) : y.last = none := (hs e).2.trans (h.closed (hs e).1)
  rcases hl with same | ⟨q, issued⟩
  · refine ⟨⟨closed, ho ▸ pairwise, fun q v e p hp => ?_⟩, fun q v q' v' a b => ?_⟩
    · exact h.last q v (same ▸ e) p (member p (ho ▸ hp))
    · exact (staysOrdered_same (y := x) h id rfl rfl).last q v q' v' a (same ▸ b)
  · refine ⟨⟨closed, ho ▸ pairwise, fun q' v e p hp => ?_⟩, fun q' v q'' v' a b => ?_⟩
    · rw [issued] at e
      obtain ⟨-, rfl⟩ := Prod.mk.inj (Option.some.inj e)
      exact Offer.leads_capture (first p (ho ▸ hp))
    · rw [issued] at b
      obtain ⟨-, rfl⟩ := Prod.mk.inj (Option.some.inj b)
      exact h.last q' v a o (hx ▸ List.mem_cons_self)

/-! ## What every command does -/

/-- The accounting is kept; and where the event moves no capture and no cell holds one before the last stamp, so is the capture order. -/
structure StampsKept (timely : Prop) (s t : State) : Prop where
  accounted : Accounted s → Accounted t
  ordered : timely → CaptureOrdered s.sis → s.sis.CellsBehind → s.sis.StaysOrdered t.sis

theorem IssuerSteady.stampsKept {calm timely : Prop} {s t : State} (h : IssuerSteady calm s t)
    (ht : timely → calm ∨ s.sis.state ≠ .closed) : StampsKept timely s t where
  accounted := h.accounted
  ordered := fun x k _ => by
    obtain ⟨offers, last⟩ := h.captures (ht x)
    exact staysOrdered_same k h.closed offers last

theorem StampsKept.refl {timely : Prop} (s : State) : StampsKept timely s s :=
  (IssuerSteady.refl (calm := True) s).stampsKept fun _ => .inl trivial

/-! ## One line and the issuer changed together -/

theorem accounted_replaced {s : State} {x : Sis} {i : Fin 8} {l : Line} (hx : x.Counted) (hl : x.AgreesWith i l)
    (ho : ∀ j, j ≠ i → x.AgreesWith j (s.line j)) : Accounted (({ s with sis := x } : State).setLine i l) := by
  refine (accounted_iff _).2 ⟨hx, fun j => ?_⟩
  show x.AgreesWith j _
  rw [setLine_line]
  split
  · rename_i e; subst e; exact hl
  · rename_i e; exact ho j e

theorem entry_set_self {α : Type} (v : Vector α 8) (i : Fin 8) (x : α) : (v.set i x)[i] = x := by simp

theorem entry_set_ne {α : Type} (v : Vector α 8) (i j : Fin 8) (x : α) (h : j ≠ i) : (v.set i x)[j] = v[j] :=
  Vector.getElem_set_ne _ _ fun e => h (Fin.ext e.symm)

/-- A line whose frame is none that holds the cell, before and after. -/
theorem Sis.AgreesWith.unjudged {x : Sis} {i : Fin 8} {l m : Line} (h : x.AgreesWith i l) (hl : l.frame ≠ .judged)
    (hm : m.frame ≠ .judged) (hs : m.stamps = l.stamps) (ho : m.owed = l.owed) : x.AgreesWith i m where
  issued := h.issued.trans hs.symm
  cell := ⟨fun e => absurd (h.cell.1 e) hl, fun e => absurd e hm⟩
  owed := by rw [ho, h.owed, if_neg hl, if_neg hm]

theorem accounted_frame (s : State) (i : Fin 8) (l : Line) (hl : (s.line i).frame ≠ .judged) (hm : l.frame ≠ .judged)
    (hs : l.stamps = (s.line i).stamps) (ho : l.owed = (s.line i).owed) (h : Accounted s) : Accounted (s.setLine i l) := by
  obtain ⟨counted, agrees⟩ := (accounted_iff s).1 h
  exact accounted_replaced (x := s.sis) counted ((agrees i).unjudged hl hm hs ho) fun j _ => agrees j

/-- A cell replaced, the counts standing. -/
theorem Sis.Counted.cells {x : Sis} (h : x.Counted) (cells : Vector (Option Capture) 8) (offers : List Offer) :
    ({ x with cells := cells, offers := offers } : Sis).Counted :=
  ⟨h.closed, h.opened, h.exhausted, h.issued, h.dispositions⟩

/-! ## Tag frames (R43, R44, R48, R70) -/

theorem bad_stamps (c : LineCounters) (cause : BadCause) :
    (c.bad cause).stampsSent = c.stampsSent ∧ (c.bad cause).stampsDropped = c.stampsDropped := by
  cases cause <;> exact ⟨rfl, rfl⟩

theorem accounts_frameBad (s : State) (i : Fin 8) (cause : BadCause) :
    AccountsKept ((releaseCell s i).setLine i ((s.line i).afterBad cause)) (frameBad s i cause) := by
  by_cases h : (s.line i).isolates
  · rw [frameBad_isolates s i cause h]
    exact accounts_isolate _ i
  · rw [frameBad_stays s i cause h]
    exact (accounts_drainTest _ i).after (accounts_showHealth _ i _)

theorem accounts_frameValid (s : State) (i : Fin 8) (fields : TagFields) :
    AccountsKept (({ s with sis := s.offering i fields } : State).setLine i (s.line i).afterValid) (frameValid s i fields) := by
  rw [frameValid_eq]
  exact (accounts_showHealth ((releaseCell s i).setLine i (s.line i).afterValid) i (s.line i).health).withSis (s.offering i fields)

section
variable {s : State} {i : Fin 8} (h : Accounted s) (judged : (s.line i).frame = .judged)

include h judged in
/-- A bad frame gives up its cell and its answer. -/
theorem accounted_frameBad (cause : BadCause) : Accounted (frameBad s i cause) := by
  obtain ⟨counted, agrees⟩ := (accounted_iff s).1 h
  obtain ⟨sent, dropped⟩ := bad_stamps (s.line i).counters cause
  refine (accounts_frameBad s i cause).accounted (accounted_replaced (counted.cells _ _) ⟨?_, ?_, ?_⟩ fun j hj => ?_)
  · rw [(agrees i).issued, Line.stamps, Line.stamps, Line.afterBad, sent, dropped]
  · rw [entry_set_self]
    exact ⟨nofun, nofun⟩
  · have owed := (agrees i).owed
    rw [if_pos judged] at owed
    exact congrArg (· - 1) owed
  · exact (agrees j).issuer rfl (by rw [entry_set_ne _ _ _ _ hj]) rfl

include h judged in
/-- A valid frame's answer is owed for its offer from now on (R48). -/
theorem accounted_frameValid (fields : TagFields) : Accounted (frameValid s i fields) := by
  obtain ⟨counted, agrees⟩ := (accounted_iff s).1 h
  obtain ⟨c, cell⟩ := Option.isSome_iff_exists.1 ((agrees i).cell.2 judged)
  have count (j : Fin 8) : (s.offering i fields).offersOf j = s.sis.offersOf j + if j = i then 1 else 0 := by
    have offers : s.offersWith i fields = insertOffer (s.offerOf i fields c) s.sis.offers := by
      simp only [State.offersWith, cell]
    have line : (s.offerOf i fields c).line = i := rfl
    rw [Sis.offersOf, State.offering, offers, (insertOffer_perm _ _).countP_eq, List.countP_cons, line, Sis.offersOf]
    by_cases e : j = i
    · simp [e]
    · simp [e, Ne.symm e]
  refine (accounts_frameValid s i fields).accounted (accounted_replaced (counted.cells _ _) ⟨?_, ?_, ?_⟩ fun j hj => ?_)
  · exact (agrees i).issued
  · rw [State.offering, entry_set_self]
    exact ⟨nofun, nofun⟩
  · have owed := (agrees i).owed
    rw [if_pos judged] at owed
    rw [count, if_pos rfl]
    exact owed
  · exact (agrees j).issuer rfl (by rw [State.offering, entry_set_ne _ _ _ _ hj]) (by rw [count, if_neg hj]; rfl)

include h judged in
theorem accounted_frameJudged (j : Judged) : Accounted (frameJudged s i j) := by
  cases j with
  | bad cause => exact accounted_frameBad h judged cause
  | valid fields => exact accounted_frameValid h judged fields

end

/-- A judged frame keeps the capture order: a valid one's offer takes its place in it, not before the last stamp. -/
theorem staysOrdered_frameJudged (s : State) (i : Fin 8) (j : Judged) (h : CaptureOrdered s.sis) (behind : s.sis.CellsBehind) :
    s.sis.StaysOrdered (frameJudged s i j).sis := by
  cases j with
  | bad cause =>
    have sis : (frameBad s i cause).sis = (releaseCell s i).sis := (accounts_frameBad s i cause).sis
    rw [frameJudged, sis]
    exact staysOrdered_same h id rfl rfl
  | valid fields =>
    have sis : (frameValid s i fields).sis = s.offering i fields := (accounts_frameValid s i fields).sis
    rw [frameJudged, sis]
    cases cell : s.sis.cells[i] with
    | none => exact staysOrdered_same h id (by simp only [State.offering, State.offersWith, cell]) rfl
    | some c =>
      exact staysOrdered_inserted h (s.offerOf i fields c) rfl rfl (by simp only [State.offering, State.offersWith, cell])
        fun q v => behind i c q v cell

theorem stampsKept_frameEnd {timely : Prop} (s : State) (i : Fin 8) (bytes : List Byte) (ending : FrameEnding) :
    StampsKept timely s (frameEnd s i bytes ending) := by
  cases frame : (s.line i).frame with
  | judged =>
    rw [frameEnd_judged s i bytes ending frame]
    exact ⟨fun h => accounted_frameJudged h frame _, fun _ h k => staysOrdered_frameJudged s i _ h k⟩
  | ignored =>
    rw [frameEnd_ignored s i bytes ending frame]
    exact ⟨accounted_frame s i _ (by rw [frame]; simp) (by simp) rfl rfl, fun _ h _ => staysOrdered_same h id rfl rfl⟩
  | noFrame =>
    have same : frameEnd s i bytes ending = s := by simp only [frameEnd, frame]
    rw [same]
    exact StampsKept.refl s

/-- A frame begun on a RUNNING line takes the cell and owes an answer; on any other it is ignored (R43, R70). -/
theorem accounted_beginFrame (s : State) (i : Fin 8) (free : (s.line i).frame ≠ .judged) (h : Accounted s) :
    Accounted (beginFrame s i) := by
  obtain ⟨counted, agrees⟩ := (accounted_iff s).1 h
  unfold beginFrame
  simp only []
  split
  · refine accounted_replaced (counted.cells _ _) ⟨(agrees i).issued, ?_, ?_⟩ fun j hj => ?_
    · rw [entry_set_self]
      exact ⟨fun _ => rfl, fun _ => rfl⟩
    · have owed := (agrees i).owed
      rw [if_neg free] at owed
      exact congrArg (· + 1) owed
    · exact (agrees j).issuer rfl (by rw [entry_set_ne _ _ _ _ hj]) rfl
  · exact accounted_frame s i _ free (by simp) rfl rfl h

theorem beginFrame_issuer (s : State) (i : Fin 8) : (beginFrame s i).sis.state = s.sis.state
    ∧ (beginFrame s i).sis.offers = s.sis.offers ∧ (beginFrame s i).sis.last = s.sis.last := by
  unfold beginFrame
  simp only []
  split <;> exact ⟨rfl, rfl, rfl⟩

theorem Sis.StaysOrdered.begun {x : Sis} {u : State} (h : x.StaysOrdered u.sis) (i : Fin 8) :
    x.StaysOrdered (beginFrame u i).sis := by
  obtain ⟨state, offers, last⟩ := beginFrame_issuer u i
  exact ⟨(staysOrdered_same h.ordered (fun e => state ▸ e) offers last).ordered, fun q v q' v' a b => h.last q v q' v' a (last ▸ b)⟩

theorem stampsKept_startDelimiter {timely : Prop} (s : State) (i : Fin 8) (bytes : List Byte) :
    StampsKept timely s (startDelimiter s i bytes) := by
  by_cases judged : (s.line i).frame = .judged
  · have ended : ((frameJudged s i (judgeFrame bytes .endDelimiter)).line i).frame ≠ .judged := by
      rw [(frameEnded_frameJudged s i _).1]
      simp
    rw [startDelimiter, endOpenFrame_judged s i bytes judged]
    exact ⟨fun h => accounted_beginFrame _ i ended (accounted_frameJudged h judged _),
      fun _ h k => (staysOrdered_frameJudged s i _ h k).begun i⟩
  · rw [startDelimiter_free s i bytes judged]
    exact ⟨accounted_beginFrame s i judged, fun _ h _ => (staysOrdered_same (y := s.sis) h id rfl rfl).begun i⟩

end Sys2Proof.Machine
end

