-- ==== Sys2Proof/Proofs/GrantAccounts.lean ====
section
/-!
PROOFS. Proofs/GrantAccounts.lean: a grant takes the first pending offer, issues its stamp or answers it without one, and gives the
answer to the line it is owed to (R53, R72, R73, R78): the accounting of stamps and their capture order stand.
-/
namespace Sys2Proof.Machine

/-! ## The answer given to its line (R53) -/

/-- The line that has been given an answer, before what the line then does: it waits there, or is dropped. -/
def Line.given (l : Line) (a : Answer) : Line :=
  if (l.state == .running || l.state == .holding) && decide (l.queue.length < Config.returnSlots) then
    { l with owed := l.owed - 1, queue := l.queue ++ [a] }
  else ({ l with owed := l.owed - 1 } : Line).dropped a

theorem handOff_given (s : State) (i : Fin 8) (a : Answer) :
    handOff s i a = drainTest (schedule (s.setLine i ((s.line i).given a)) i) i := rfl

theorem dropped_account (l : Line) (a : Answer) : (l.dropped a).frame = l.frame ∧ (l.dropped a).owed = l.owed := by
  cases a <;> exact ⟨rfl, rfl⟩

theorem given_frame (l : Line) (a : Answer) : (l.given a).frame = l.frame := by
  unfold Line.given
  split
  · rfl
  · exact (dropped_account _ a).1

theorem given_owed (l : Line) (a : Answer) : (l.given a).owed = l.owed - 1 := by
  unfold Line.given
  split
  · rfl
  · exact (dropped_account _ a).2

theorem given_stamps (l : Line) (a : Answer) (h : l.stamps + a.stamps ≤ Config.lastSequence) :
    (l.given a).stamps = l.stamps + a.stamps := by
  unfold Line.given
  split
  · simp only [Line.stamps, stampCount_concat]
    omega
  · exact stamps_dropped { l with owed := l.owed - 1 } a h

theorem accounts_handOff (s : State) (i : Fin 8) (a : Answer) :
    AccountsKept (s.setLine i ((s.line i).given a)) (handOff s i a) := by
  rw [handOff_given]
  exact (accounts_drainTest _ i).after (accounts_schedule _ i)

/-- The line that is given the answer of an offer agrees with the issuer that has granted it. -/
theorem Sis.AgreesWith.given {x y : Sis} {i : Fin 8} {l : Line} (h : x.AgreesWith i l) (a : Answer)
    (hi : y.issued[i] = x.issued[i] + a.stamps) (hc : y.cells[i].isSome = x.cells[i].isSome)
    (ho : x.offersOf i = y.offersOf i + 1) (le : y.issued[i] ≤ Config.lastSequence) : y.AgreesWith i (l.given a) where
  issued := by rw [given_stamps l a (by rw [← h.issued, ← hi]; exact le), hi, h.issued]
  cell := by rw [hc, given_frame]; exact h.cell
  owed := by
    rw [given_owed, given_frame, h.owed, ho]
    omega

/-! ## The stamp issued (R73, R69) -/

/-- The Stamp Issuer once a stamp of a sequence has been issued: the next sequence, or after the last one none. -/
def Sis.issuing (x : Sis) (st : Stamp) (q : Nat) : Sis :=
  if q = Config.lastSequence then { x.count st with state := .exhausted, next := none }
  else { x.count st with next := some (q + 1) }

/-- What an issue leaves, and which stamp it makes the last one. -/
theorem issuing_keeps (x : Sis) (st : Stamp) (q : Nat) : (x.issuing st q).offers = x.offers ∧ (x.issuing st q).cells = x.cells
    ∧ (x.issuing st q).issued = x.issued.set st.line (x.issued[st.line] + 1)
    ∧ (x.issuing st q).last = some (st.sequence, st.capture) := by
  unfold Sis.issuing
  split <;> exact ⟨rfl, rfl, rfl, rfl⟩

theorem sum_set_succ (v : Vector Nat 8) (i : Fin 8) :
    (allEight.map fun j => (v.set i (v[i] + 1))[j]).sum = (allEight.map fun j => v[j]).sum + 1 := by
  have entry (j : Fin 8) : (v.set i (v[i] + 1))[j] = v[j] + if j = i then 1 else 0 := by
    by_cases e : j = i
    · subst e
      rw [entry_set_self, if_pos rfl]
    · rw [entry_set_ne _ _ _ _ e, if_neg e, Nat.add_zero]
  have one : ∀ i : Fin 8, (allEight.map fun j => if j = i then 1 else 0).sum = 1 := by decide
  simp only [entry, List.sum_map_add, one]

/-- Every stamp has one disposition, and is counted there alone (R74). -/
theorem count_dispositions (x : Sis) (st : Stamp) :
    (x.count st).accepted + (x.count st).late + (x.count st).refusedSession + (x.count st).refusedGroup
      = x.accepted + x.late + x.refusedSession + x.refusedGroup + 1 := by
  unfold Sis.count
  cases st.disposition <;> simp <;> omega

theorem Sis.Counted.issuing {x : Sis} (h : x.Counted) {q : Nat} (hs : x.state = .opened) (hn : x.next = some q) (st : Stamp) :
    (x.issuing st q).Counted := by
  obtain ⟨q', next, first, last⟩ := h.opened hs
  obtain rfl : q = q' := Option.some.inj (hn.symm.trans next)
  have before : x.total = q - 1 := by rw [Sis.total, hn]
  have issued : (allEight.map fun i => (x.count st).issued[i]).sum = q := by
    refine (sum_set_succ x.issued st.line).trans ?_
    rw [h.issued, before]
    omega
  have dispositions : (x.count st).accepted + (x.count st).late + (x.count st).refusedSession + (x.count st).refusedGroup = q := by
    rw [count_dispositions, h.dispositions, before]
    omega
  unfold Sis.issuing
  split
  · rename_i e
    exact ⟨nofun, nofun, fun _ => rfl, issued.trans e, dispositions.trans e⟩
  · rename_i e
    have opened : (x.count st).state = .opened := hs
    exact ⟨fun k => (nomatch opened.symm.trans k), fun _ => ⟨q + 1, rfl, by omega, by omega⟩,
      fun k => (nomatch opened.symm.trans k), issued, dispositions⟩

theorem lines_reportIssue (s : State) (st : Stamp) : (reportIssue s st).lines = s.lines := by
  unfold reportIssue
  split <;> rfl

theorem sis_reportIssue (s : State) (st : Stamp) : (reportIssue s st).sis = s.sis := by
  unfold reportIssue
  split <;> rfl

theorem line_reportIssue (s : State) (st : Stamp) (i : Fin 8) : (reportIssue s st).line i = s.line i := by
  rw [State.line, lines_reportIssue, State.line]

theorem accounts_setLine_reportIssue (s : State) (st : Stamp) (i : Fin 8) (l : Line) :
    AccountsKept (s.setLine i l) ((reportIssue s st).setLine i l) :=
  ⟨sis_reportIssue s st, fun j => by rw [setLine_line, setLine_line, line_reportIssue]; exact Line.SameAccount.refl _⟩

theorem accounts_exhaustIssuer (s : State) (st : Stamp) :
    AccountsKept { s with sis := { s.sis with state := .exhausted, next := none } } (exhaustIssuer s st) := by
  unfold exhaustIssuer
  exact (accounts_notify _ _ _ _).after (accounts_offer _ _)

theorem accounts_issueStamp (s : State) (o : Offer) (q : Nat) :
    AccountsKept (({ s with sis := s.sis.issuing (stampOf s o q) q } : State).setLine o.line
      ((s.line o.line).given (.stamp (stampOf s o q)))) (issueStamp s o q) := by
  generalize hst : stampOf s o q = st
  have handed : AccountsKept
      (({ s with sis := { s.sis.count st with next := some (q + 1) } } : State).setLine o.line ((s.line o.line).given (.stamp st)))
      (handOff (reportIssue { s with sis := { s.sis.count st with next := some (q + 1) } } st) o.line (.stamp st)) := by
    have reported := accounts_handOff (reportIssue { s with sis := { s.sis.count st with next := some (q + 1) } } st) o.line (.stamp st)
    rw [line_reportIssue] at reported
    exact reported.after (accounts_setLine_reportIssue _ st o.line _)
  unfold issueStamp
  simp only [hst]
  unfold Sis.issuing
  split
  · refine (accounts_exhaustIssuer _ _).after ?_
    rw [handed.sis]
    exact handed.withSis { s.sis.count st with state := .exhausted, next := none }
  · exact handed

/-! ## The NOT_OPEN answer (R78) -/

/-- The Stamp Issuer once it has answered an offer without a stamp. -/
def Sis.answering (x : Sis) (i : Fin 8) : Sis := { x with notOpen := x.notOpen.set i (sat32 x.notOpen[i]) }

/-- The NOT_OPEN answer of an offer. -/
def notOpenOf (s : State) (o : Offer) : NotOpen :=
  { epoch := s.sis.epoch, line := o.line, capture := o.capture, issuer := s.sis.state, grade := s.tsu.grade, u := s.tsu.u,
    echo := o.fields }

theorem answerNotOpen_eq (s : State) (o : Offer) :
    answerNotOpen s o = handOff { s with sis := s.sis.answering o.line } o.line (.notOpen (notOpenOf s o)) := rfl

/-! ## The grant (R72) -/

/-- The state that has taken its first offer out of the pending ones. -/
def State.taking (s : State) (rest : List Offer) : State := { s with sis := { s.sis with offers := rest, lastGrant := some s.osc } }

theorem grantOffer_waits (s : State) (h : s.grantDue = false) : grantOffer s = s := if_neg (by rw [h]; exact Bool.false_ne_true)

theorem grantOffer_none (s : State) (h : s.sis.offers = []) : grantOffer s = s :=
  grantOffer_waits s (by simp [State.grantDue, h])

theorem grantOffer_stamp (s : State) (due : s.grantDue = true) (o : Offer) (rest : List Offer) (q : Nat) (ho : s.sis.offers = o :: rest)
    (hs : s.sis.state = .opened) (hn : s.sis.next = some q) : grantOffer s = issueStamp (s.taking rest) o q := by
  rw [grantOffer, if_pos due]
  simp only [ho, hs, hn, State.taking]

theorem grantOffer_notOpen (s : State) (due : s.grantDue = true) (o : Offer) (rest : List Offer) (ho : s.sis.offers = o :: rest)
    (h : ∀ q, s.sis.state = .opened → s.sis.next ≠ some q) : grantOffer s = answerNotOpen (s.taking rest) o := by
  rw [grantOffer, if_pos due]
  simp only [ho, State.taking]

/-- A grant is not due, or it issues the first offer's stamp, or answers it without one. -/
theorem grantOffer_cases (s : State) : grantOffer s = s ∨ ∃ o rest, s.sis.offers = o :: rest
    ∧ ((∃ q, s.sis.state = .opened ∧ s.sis.next = some q ∧ grantOffer s = issueStamp (s.taking rest) o q)
      ∨ grantOffer s = answerNotOpen (s.taking rest) o) := by
  cases due : s.grantDue with
  | false => exact .inl (grantOffer_waits s due)
  | true =>
    cases ho : s.sis.offers with
    | nil => exact .inl (grantOffer_none s ho)
    | cons o rest =>
      refine .inr ⟨o, rest, rfl, ?_⟩
      by_cases issues : ∃ q, s.sis.state = .opened ∧ s.sis.next = some q
      · obtain ⟨q, hs, hn⟩ := issues
        exact .inl ⟨q, hs, hn, grantOffer_stamp s due o rest q ho hs hn⟩
      · exact .inr (grantOffer_notOpen s due o rest ho fun q hs hn => issues ⟨q, hs, hn⟩)

/-- The first offer counts on its own line. -/
theorem offersOf_cons {x : Sis} {o : Offer} {rest : List Offer} (h : x.offers = o :: rest) (i : Fin 8) :
    x.offersOf i = (rest.countP fun p => p.line == i) + if i = o.line then 1 else 0 := by
  rw [Sis.offersOf, h, List.countP_cons]
  by_cases e : i = o.line
  · simp [e]
  · simp [e, Ne.symm e]

/-- An issuer that has granted the first offer, the answer given to its line. -/
theorem accounted_granted {s : State} {y : Sis} {o : Offer} {rest : List Offer} (a : Answer) (h : Accounted s)
    (hx : s.sis.offers = o :: rest) (counted : y.Counted) (ho : y.offers = rest) (hc : y.cells = s.sis.cells)
    (hi : y.issued[o.line] = s.sis.issued[o.line] + a.stamps) (others : ∀ j, j ≠ o.line → y.issued[j] = s.sis.issued[j]) :
    Accounted (({ s.taking rest with sis := y } : State).setLine o.line (((s.taking rest).line o.line).given a)) := by
  obtain ⟨-, agrees⟩ := (accounted_iff s).1 h
  have offers (i : Fin 8) : s.sis.offersOf i = y.offersOf i + if i = o.line then 1 else 0 := by
    rw [offersOf_cons hx, Sis.offersOf, ho]
  refine accounted_replaced counted ?_ fun j hj => ?_
  · exact (agrees o.line).given a hi (by rw [hc]) (by rw [offers, if_pos rfl]) ((counted.issued_le _).trans counted.total_le)
  · exact (agrees j).issuer (others j hj) (by rw [hc]) (by rw [offers, if_neg hj, Nat.add_zero])

theorem accounted_grantOffer (s : State) (h : Accounted s) : Accounted (grantOffer s) := by
  obtain ⟨counted, -⟩ := (accounted_iff s).1 h
  have taken (rest : List Offer) : (s.taking rest).sis.Counted :=
    ⟨counted.closed, counted.opened, counted.exhausted, counted.issued, counted.dispositions⟩
  rcases grantOffer_cases s with stands | ⟨o, rest, hx, ⟨q, hs, hn, stamp⟩ | notOpen⟩
  · rw [stands]
    exact h
  · rw [stamp]
    obtain ⟨offers, cells, issued, -⟩ := issuing_keeps (s.taking rest).sis (stampOf (s.taking rest) o q) q
    refine (accounts_issueStamp _ _ _).accounted (accounted_granted _ h hx ((taken rest).issuing hs hn _) offers cells ?_ fun j hj => ?_)
    · rw [issued]
      exact entry_set_self _ _ _
    · rw [issued]
      exact entry_set_ne _ _ _ _ hj
  · rw [notOpen, answerNotOpen_eq]
    refine (accounts_handOff _ _ _).accounted
      (accounted_granted (y := (s.taking rest).sis.answering o.line) _ h hx ?_ rfl rfl rfl fun _ _ => rfl)
    have k := taken rest
    exact ⟨k.closed, k.opened, k.exhausted, k.issued, k.dispositions⟩

theorem staysOrdered_grantOffer (s : State) (h : CaptureOrdered s.sis) : s.sis.StaysOrdered (grantOffer s).sis := by
  rcases grantOffer_cases s with stands | ⟨o, rest, hx, ⟨q, hs, hn, stamp⟩ | notOpen⟩
  · rw [stands]
    exact staysOrdered_same h id rfl rfl
  · have sis : (grantOffer s).sis = _ := stamp ▸ (accounts_issueStamp (s.taking rest) o q).sis
    obtain ⟨offers, -, -, last⟩ := issuing_keeps (s.taking rest).sis (stampOf (s.taking rest) o q) q
    have opened : (grantOffer s).sis.state ≠ .closed := by
      rw [sis]
      show ((s.taking rest).sis.issuing _ q).state ≠ _
      unfold Sis.issuing
      split
      · exact nofun
      · exact fun e => nomatch hs.symm.trans e
    refine staysOrdered_granted h hx (fun e => absurd e opened) ?_ (.inr ⟨q, ?_⟩)
    · rw [sis]
      exact offers
    · rw [sis]
      exact last
  · have sis : (grantOffer s).sis = (s.taking rest).sis.answering o.line :=
      notOpen ▸ (answerNotOpen_eq _ _ ▸ (accounts_handOff _ _ _).sis)
    refine staysOrdered_granted h hx ?_ (by rw [sis]; rfl) (.inl (by rw [sis]; rfl))
    rw [sis]
    exact fun e => ⟨e, rfl⟩

theorem stampsKept_grantOffer {timely : Prop} (s : State) : StampsKept timely s (grantOffer s) :=
  ⟨accounted_grantOffer s, fun _ h _ => staysOrdered_grantOffer s h⟩

end Sys2Proof.Machine
end

