-- ==== Sys2Proof/Proofs/StampSteps.lean ====
section
/-!
PROOFS. Proofs/StampSteps.lean: every request, every event and every step keeps the accounting of stamps and the capture order, or restarts
the part; the statement of the family about both follows.
-/
namespace Sys2Proof.Machine

/-! ## Requests -/

/-- An owner whose answer keeps the accounts of every line. -/
def AccountsOwner (owner : State → Answered) : Prop := ∀ s, AccountsKept s (owner s).state

/-- An owner whose answer keeps the accounting, and moves no capture. -/
def SteadyOwner (owner : State → Answered) : Prop := ∀ s, IssuerSteady True s (owner s).state

theorem AccountsOwner.steady {owner : State → Answered} (h : AccountsOwner owner) : SteadyOwner owner := fun s => (h s).steady

section
variable {p : State → Prop} {s : State}

/-- What holds of every line's answer, and of the state as it was, holds of the answer of a line's request; likewise below. -/
theorem onLine_state (n : Nat) (k : Fin 8 → Answered) (hs : p s) (h : ∀ i, p (k i).state) : p (onLine n s k).state := by
  unfold onLine
  split
  · exact h _
  · exact hs

theorem onGroup_state (n : Nat) (k : Fin 32 → Answered) (hs : p s) (h : ∀ g, p (k g).state) : p (onGroup n s k).state := by
  unfold onGroup
  split
  · exact h _
  · exact hs

theorem onRef_state (n : Nat) (k : Fin 3 → Answered) (hs : p s) (h : ∀ i, p (k i).state) : p (onRef n s k).state := by
  unfold onRef
  split
  · exact h _
  · exact hs

theorem onAgent_state (n : Nat) (k : Fin 8 → Answered) (hs : p s) (h : ∀ a, p (k a).state) : p (onAgent n s k).state := by
  unfold onAgent
  split
  · exact h _
  · exact hs

/-- One answer or another, by a condition. -/
theorem iteAnswer_state (c : Prop) [Decidable c] {a b : Answered} (h : p a.state) (k : p b.state) : p (if c then a else b).state := by
  split
  · exact h
  · exact k

end

/-- OK, with the state as the owner leaves it. -/
theorem AccountsKept.done {s u : State} (h : AccountsKept s u) : AccountsKept s (done u).state := h

theorem accounts_hli (s : State) (h : Hli) : AccountsKept s { s with hli := h } := accounts_outside rfl rfl

theorem accounts_ej (s : State) (e : Ej) : AccountsKept s { s with ej := e } := accounts_outside rfl rfl

theorem accounts_holdLine (n : Nat) : AccountsOwner (holdLine n) := fun s =>
  onLine_state (p := AccountsKept s) n _ (AccountsKept.refl s) fun i => by
    split
    · exact accounts_enterHeld s i _ _ _ ⟨rfl, rfl, fun _ => rfl⟩
    · exact accounts_beginHold s i
    all_goals exact AccountsKept.refl s

theorem accounts_configureLine (n mode delay : Nat) : AccountsOwner (configureLine n mode delay) := fun s =>
  onLine_state (p := AccountsKept s) n _ (AccountsKept.refl s) fun i =>
    iteAnswer_state _ (AccountsKept.refl s)
      (iteAnswer_state _ (accounts_reconfigure s i _ ⟨rfl, rfl, fun _ => rfl⟩) (AccountsKept.refl s))

theorem accounts_setFilter (n index enabled code mask : Nat) : AccountsOwner (setFilter n index enabled code mask) := fun s =>
  onLine_state (p := AccountsKept s) n _ (AccountsKept.refl s) fun i => by
    split
    · exact AccountsKept.refl s
    · exact iteAnswer_state _ (AccountsKept.refl s)
        (iteAnswer_state _ (accounts_reconfigure s i _ ⟨rfl, rfl, fun _ => rfl⟩) (AccountsKept.refl s))

theorem accounts_releaseLine (n : Nat) : AccountsOwner (releaseLine n) := fun s =>
  onLine_state (p := AccountsKept s) n _ (AccountsKept.refl s) fun i => iteAnswer_state _ (accounts_runLine s i) (AccountsKept.refl s)

theorem accounts_reconnectLine (n : Nat) : AccountsOwner (reconnectLine n) := fun s =>
  onLine_state (p := AccountsKept s) n _ (AccountsKept.refl s) fun i =>
    iteAnswer_state _ (accounts_enterHeld s i _ _ _ ⟨rfl, rfl, fun _ => rfl⟩) (AccountsKept.refl s)

theorem steady_openStamping : SteadyOwner openStamping := fun s => by
  unfold openStamping
  split
  · rename_i closed
    exact iteAnswer_state _ (steady_openIssuer s _ closed) (IssuerSteady.refl s)
  · exact IssuerSteady.refl s
  · exact IssuerSteady.refl s

theorem accounts_armAuction (a : ArmArgs) : AccountsOwner (armAuction a) := fun s =>
  onGroup_state (p := AccountsKept s) _ _ (AccountsKept.refl s) fun g => by
    refine iteAnswer_state _ (AccountsKept.refl s) (iteAnswer_state _ (AccountsKept.refl s)
      (iteAnswer_state _ (AccountsKept.refl s) ?_))
    split
    · exact iteAnswer_state _ (accounts_armGroup g a _ _ s) (AccountsKept.refl s)
    · exact AccountsKept.refl s
    · exact AccountsKept.refl s

theorem accounts_extendAuction (n : Nat) : AccountsOwner (extendAuction n) := fun s =>
  onGroup_state (p := AccountsKept s) n _ (AccountsKept.refl s) fun g => by
    have refused (st : Status) : AccountsKept s (refuse s st).state := AccountsKept.refl s
    have early := (accounts_extendEarly g s).done
    have late := (accounts_extendLate g s).done
    simp only []
    split
    · exact refused _
    · exact refused _
    · exact refused _
    · exact refused _
    · exact iteAnswer_state _ (refused _) early
    · exact iteAnswer_state _ (refused _) early
    all_goals exact iteAnswer_state _ (refused _) late

theorem accounts_cutNow (n : Nat) : AccountsOwner (cutNow n) := fun s =>
  onGroup_state (p := AccountsKept s) n _ (AccountsKept.refl s) fun g =>
    iteAnswer_state _ (accounts_cutGroup s g _ _).done (AccountsKept.refl s)

theorem accounts_cancelGroup (g : Fin 32) (s : State) : AccountsKept s (cancelGroup g s) := accounts_produced s g _ _ _

theorem accounts_cancelAuction (n : Nat) : AccountsOwner (cancelAuction n) := fun s =>
  onGroup_state (p := AccountsKept s) n _ (AccountsKept.refl s) fun g => by
    have refused : AccountsKept s (refuse s .wrongState).state := AccountsKept.refl s
    have cancelled := (accounts_cancelGroup g s).done
    split
    · exact refused
    · exact refused
    · exact refused
    · exact refused
    all_goals exact cancelled

theorem accounts_clearAuction (n : Nat) : AccountsOwner (clearAuction n) := fun s =>
  onGroup_state (p := AccountsKept s) n _ (AccountsKept.refl s) fun g => by
    have cleared := (accounts_clearGroup g s).done
    split
    · exact cleared
    · exact cleared
    all_goals exact AccountsKept.refl s

theorem accounts_requestClose : AccountsOwner requestClose := fun s =>
  iteAnswer_state _ (AccountsKept.refl s) (iteAnswer_state _ (AccountsKept.refl s)
    (iteAnswer_state _ (accounts_closePage s _) (accounts_ej s _)))

theorem accounts_confirmExport (serial chain : Nat) (retention : Option Nat) :
    AccountsOwner (confirmExport serial chain retention) := fun s => by
  have confirmed (p : Fin 64) (pg : Page) : AccountsKept s (done (s.setPage p pg)).state := accounts_outside rfl rfl
  unfold confirmExport
  simp only []
  split
  · exact AccountsKept.refl s
  · exact iteAnswer_state _ (AccountsKept.refl s) (iteAnswer_state _ (AccountsKept.refl s)
      (iteAnswer_state _ (AccountsKept.refl s) (confirmed _ _)))

theorem accounts_releasePage (serial : Nat) : AccountsOwner (releasePage serial) := fun s => by
  have released (p : Fin 64) : AccountsKept s (done (release s p)).state := accounts_outside rfl rfl
  unfold releasePage
  split
  · exact AccountsKept.refl s
  · split
    · exact AccountsKept.refl s
    · exact AccountsKept.refl s
    · exact AccountsKept.refl s
    · exact AccountsKept.refl s
    · exact AccountsKept.refl s
    · exact iteAnswer_state _ (AccountsKept.refl s) (iteAnswer_state _ (AccountsKept.refl s) (released _))

theorem accounts_annotate (data : List Byte) : AccountsOwner (annotate data) := fun s =>
  iteAnswer_state _ (accounts_offer s _) (accounts_offer s _)

theorem accounts_configureReference (a : RefArgs) : AccountsOwner (configureReference a) := fun s =>
  onRef_state (p := AccountsKept s) _ _ (AccountsKept.refl s) fun i =>
    iteAnswer_state _ (AccountsKept.refl s) (iteAnswer_state _ (accounts_setRef s i _) (AccountsKept.refl s))

theorem steady_enableReference (n : Nat) : SteadyOwner (enableReference n) := fun s =>
  onRef_state (p := IssuerSteady True s) n _ (IssuerSteady.refl s) fun i =>
    iteAnswer_state _ ((accounts_notifyRef _ i).steady.after ((steady_showRefChange _ _ _ _ _).after (accounts_setRef s i _).steady))
      (IssuerSteady.refl s)

theorem steady_disableReference (n : Nat) : SteadyOwner (disableReference n) := fun s =>
  onRef_state (p := IssuerSteady True s) n _ (IssuerSteady.refl s) fun i =>
    iteAnswer_state _ (IssuerSteady.refl s)
      ((accounts_notifyRef _ i).steady.after ((steady_showRefChange _ _ _ _ _).after (steady_outside rfl rfl)))

theorem accounts_configureAgent (args : AgentArgs) : AccountsOwner (configureAgent args) := fun s =>
  onAgent_state (p := AccountsKept s) _ _ (AccountsKept.refl s) fun a => by
    have configured (g : Agent) : AccountsKept s (done (s.setAgent a g)).state := accounts_outside rfl rfl
    exact iteAnswer_state _ (AccountsKept.refl s) (iteAnswer_state _ (configured _) (AccountsKept.refl s))

theorem accounts_enableAgent (n : Nat) : AccountsOwner (enableAgent n) := fun s =>
  onAgent_state (p := AccountsKept s) n _ (AccountsKept.refl s) fun a => by
    split
    · exact iteAnswer_state _ (AccountsKept.refl s) (accounts_enable s a)
    · exact iteAnswer_state _ (AccountsKept.refl s) (accounts_enable s a)
    all_goals exact AccountsKept.refl s

theorem accounts_disableAgent (n : Nat) : AccountsOwner (disableAgent n) := fun s =>
  onAgent_state (p := AccountsKept s) n _ (AccountsKept.refl s) fun a => iteAnswer_state _ (AccountsKept.refl s) (accounts_disable s a)

theorem accounts_resumeSurvey : AccountsOwner resumeSurvey := fun s => by
  unfold resumeSurvey
  split
  · exact (accounts_pollSchedule _).after (accounts_psm s _)
  · exact AccountsKept.refl s

theorem accounts_readRecords (serial slot count : Nat) : AccountsOwner (readRecords serial slot count) := fun s => by
  unfold readRecords
  refine iteAnswer_state _ (AccountsKept.refl s) ?_
  split
  · exact AccountsKept.refl s
  · exact iteAnswer_state _ (AccountsKept.refl s) (AccountsKept.refl s)

/-- Every request's owner keeps the accounting and moves no capture: no request steps VT. -/
theorem steady_perform (r : Request) : SteadyOwner (perform r) := by
  cases r with
  | identify => exact IssuerSteady.refl
  | restart => exact fun s => (accounts_hli s _).steady
  | fetchNotices n => exact fun s => iteAnswer_state _ (IssuerSteady.refl s) (accounts_hli s _).steady
  | setClockLimits l => exact steady_setClockLimits l
  | readClock => exact IssuerSteady.refl
  | announceLeap v => exact AccountsOwner.steady (accounts_announceLeap v)
  | configureReference a => exact (accounts_configureReference a).steady
  | enableReference n => exact steady_enableReference n
  | disableReference n => exact steady_disableReference n
  | readReference n => exact fun s => onRef_state (p := IssuerSteady True s) n _ (IssuerSteady.refl s) fun _ => IssuerSteady.refl s
  | holdLine n => exact (accounts_holdLine n).steady
  | configureLine n m d => exact (accounts_configureLine n m d).steady
  | setFilter n i e c m => exact (accounts_setFilter n i e c m).steady
  | releaseLine n => exact (accounts_releaseLine n).steady
  | reconnectLine n => exact (accounts_reconnectLine n).steady
  | readLine n => exact fun s => onLine_state (p := IssuerSteady True s) n _ (IssuerSteady.refl s) fun _ => IssuerSteady.refl s
  | openStamping => exact steady_openStamping
  | readIssuer => exact IssuerSteady.refl
  | armAuction a => exact (accounts_armAuction a).steady
  | extendAuction n => exact (accounts_extendAuction n).steady
  | cutNow n => exact (accounts_cutNow n).steady
  | cancelAuction n => exact (accounts_cancelAuction n).steady
  | clearAuction n => exact (accounts_clearAuction n).steady
  | readAuction n => exact fun s => onGroup_state (p := IssuerSteady True s) n _ (IssuerSteady.refl s) fun _ => IssuerSteady.refl s
  | readJournal => exact IssuerSteady.refl
  | readRecords p i n => exact (accounts_readRecords p i n).steady
  | closePage => exact accounts_requestClose.steady
  | confirmExport p c r => exact (accounts_confirmExport p c r).steady
  | releasePage p => exact (accounts_releasePage p).steady
  | annotate d => exact (accounts_annotate d).steady
  | configureAgent a => exact (accounts_configureAgent a).steady
  | enableAgent n => exact (accounts_enableAgent n).steady
  | disableAgent n => exact (accounts_disableAgent n).steady
  | resumeSurvey => exact accounts_resumeSurvey.steady
  | readAgent n => exact fun s => onAgent_state (p := IssuerSteady True s) n _ (IssuerSteady.refl s) fun _ => IssuerSteady.refl s

/-! ## Requests received and the framer -/

theorem accounts_addReply (s : State) (kind tag : Byte) (st : Status) (body : List Byte) :
    AccountsKept s (addReply s kind tag st body) := accounts_hli s _

/-- A request received, over any owners that keep the accounting. -/
theorem steady_receiveWith (owner : Request → State → Answered) (h : ∀ r, SteadyOwner (owner r)) (kind tag : Byte) (p : Parsed)
    (s : State) : IssuerSteady True s (receiveWith owner kind tag p s) := by
  have replied (u : State) (st : Status) (b : List Byte) : IssuerSteady True u (addReply u kind tag st b) :=
    (accounts_addReply u kind tag st b).steady
  have performed (u : State) : IssuerSteady True u (performWith owner kind tag p u) := by
    cases p with
    | unknownKind => exact replied u _ _
    | badLength => exact replied u _ _
    | request r => exact IssuerSteady.ite _ (replied u _ _) ((replied _ _ _).after (h r u))
  have busy : IssuerSteady True s (answerBusy s kind tag) := ((accounts_addReply _ _ _ _ _).after (accounts_hli s _)).steady
  exact IssuerSteady.ite _ (IssuerSteady.refl s) (IssuerSteady.ite _ (accounts_hli s _).steady
    (IssuerSteady.ite _ busy ((performed _).after (accounts_hli s _).steady)))

theorem steady_receivedRequest (s : State) (kind tag : Byte) (body : List Byte) :
    IssuerSteady True s (receivedRequest s kind tag body) := steady_receiveWith perform steady_perform kind tag _ s

theorem accounts_rejectFrame (s : State) (cause : RejectCause) : AccountsKept s (rejectFrame s cause) := by
  unfold rejectFrame
  exact AccountsKept.ite _ ((accounts_addReply _ _ _ _ _).after (accounts_hli s _)) ((accounts_hli _ _).after (accounts_hli s _))

theorem steady_frameComplete (s : State) (a : Assembly) : IssuerSteady True s (frameComplete s a) :=
  IssuerSteady.ite _ ((steady_receivedRequest _ _ _ _).after (accounts_hli s _).steady)
    ((accounts_rejectFrame _ _).after (accounts_hli s _)).steady

theorem steady_frameByte (s : State) (b : Byte) (stopLow : Bool) : IssuerSteady True s (frameByte s b stopLow) := by
  have kept (f : Framer) (a : Assembly) : IssuerSteady True s (keepByte s f a) := (accounts_hli s _).steady
  have rejected (c : RejectCause) : IssuerSteady True s (rejectFrame s c) := (accounts_rejectFrame s c).steady
  refine IssuerSteady.ite _ (rejected _) ?_
  cases s.hli.framer with
  | hunt => exact IssuerSteady.refl s
  | length => exact IssuerSteady.ite _ (kept _ _) (IssuerSteady.ite _ (rejected _) (kept _ _))
  | header =>
    show IssuerSteady True s (headerByte s _ b)
    unfold headerByte
    split <;> exact kept _ _
  | body => exact kept _ _
  | check => exact IssuerSteady.ite _ (kept _ _) (steady_frameComplete s _)

theorem steady_hostByte (s : State) (b : Byte) (stopLow : Bool) : IssuerSteady True s (hostByte s b stopLow) := by
  have hunted (u : State) : IssuerSteady True u (huntByte u b stopLow) :=
    (AccountsKept.ite _ (accounts_hli u _) (accounts_hli u _)).steady
  exact IssuerSteady.ite _ (IssuerSteady.refl s) (IssuerSteady.ite _ (hunted s)
    (IssuerSteady.ite _ ((hunted _).after (accounts_rejectFrame s _).steady) (steady_frameByte s b stopLow)))

theorem accounts_byteTimeout (s : State) : AccountsKept s (byteTimeout s) :=
  AccountsKept.ite _ (accounts_rejectFrame s _) (AccountsKept.refl s)

/-! ## Restarts (R172, R173) -/

/-- A restart leaves an issuer that has issued nothing, and lines that keep their PAUSE inputs alone. -/
theorem accounted_restarted {s t : State} (hs : t.sis = {}) (hl : t.lines = s.lines.map fun l => { pause := l.pause }) :
    Accounted t := by
  have empty : ∀ i : Fin 8, ({} : Sis).cells[i].isSome = false ∧ ({} : Sis).issued[i] = 0 := by decide
  refine (accounted_iff t).2 ⟨?_, fun i => ?_⟩
  · rw [hs]
    exact ⟨fun _ => rfl, nofun, nofun, by decide, rfl⟩
  · have line : t.line i = { pause := (s.line i).pause } := by simp [State.line, hl]
    obtain ⟨cell, issued⟩ := empty i
    rw [hs, line]
    exact ⟨issued, by rw [cell]; exact ⟨nofun, nofun⟩, rfl⟩

theorem stampsKept_restarted {timely : Prop} {s t : State} (hs : t.sis = {})
    (hl : t.lines = s.lines.map fun l => { pause := l.pause }) : StampsKept timely s t :=
  ⟨fun _ => accounted_restarted hs hl, fun _ _ _ => by rw [hs]; exact staysOrdered_restarted s.sis⟩

/-! ## Every command -/

section
variable {timely : Prop}

theorem AccountsKept.stampsKept {s t : State} (h : AccountsKept s t) : StampsKept timely s t :=
  (h.steady (calm := True)).stampsKept fun _ => .inl trivial

theorem IssuerSteady.calmStamps {s t : State} (h : IssuerSteady True s t) : StampsKept timely s t :=
  h.stampsKept fun _ => .inl trivial

theorem stampsKept_powerUp (s : State) (a b : Bool) : StampsKept timely s (powerUp s a b) := by
  unfold powerUp
  split
  · exact StampsKept.refl s
  · split
    · exact AccountsKept.stampsKept (accounts_outside rfl rfl)
    · exact stampsKept_restarted rfl rfl

theorem stampsKept_resetAssert (s : State) (n : Nat) : StampsKept timely s (resetAssert s n) := by
  unfold resetAssert
  split
  · exact StampsKept.refl s
  · exact stampsKept_restarted rfl rfl

theorem stampsKept_resetRelease (s : State) (a b : Bool) : StampsKept timely s (resetRelease s a b) := by
  unfold resetRelease
  split
  · simp only []
    split
    · exact stampsKept_restarted rfl rfl
    · exact AccountsKept.stampsKept (accounts_outside rfl rfl)
  · exact StampsKept.refl s

theorem stampsKept_supplyLoss (s : State) : StampsKept timely s (supplyLoss s) := by
  unfold supplyLoss
  split
  · exact stampsKept_restarted rfl rfl
  · exact StampsKept.refl s

theorem stampsKept_replySent (s : State) (a b : Bool) : StampsKept timely s (replySent s a b) := by
  unfold replySent
  split
  · exact StampsKept.refl s
  · simp only []
    split
    · exact stampsKept_restarted rfl rfl
    · exact (accounts_hli s _).stampsKept

/-- A command whose effect is the next state. -/
theorem stampsKept_next {s t u : State} (h : StampsKept timely s u)
    (ht : (.next u : Host.Outcome State Fault Refusal) = .next t) : StampsKept timely s t := by
  cases ht
  exact h

/-- An event while the part runs, or nothing. -/
theorem stampsKept_whenLive {s t : State} (effect : State → State) (h : StampsKept timely s (effect s))
    (ht : whenLive s effect = .next t) : StampsKept timely s t := by
  cases ht
  show StampsKept timely s (if s.live then _ else s)
  split
  · exact h
  · exact StampsKept.refl s

/-- An event that keeps it from every state, while the part runs. -/
theorem stampsKept_event {s t : State} {effect : State → State} (h : ∀ s, StampsKept timely s (effect s))
    (ht : whenLive s effect = .next t) : StampsKept timely s t := stampsKept_whenLive effect (h s) ht

/-- An expiry of a group's deadline, or none. -/
theorem accounts_expire (s : State) (g : Fin 32) (k : DeadlineKind) (effect : State → State) (h : AccountsKept s (effect s)) :
    AccountsKept s (expire s g k effect) := AccountsKept.ite _ h (AccountsKept.refl s)

theorem accounts_heldBack (g : Fin 32) (s : State) : AccountsKept s (heldBack g s) := accounts_entered s g _ _ _

theorem accounts_settled (g : Fin 32) (s : State) : AccountsKept s (settled g s) := accounts_entered s g _ _ _

theorem stampsKept_request {c : Instr} {tag : Byte} {r : Request} (h : c.request? = some (tag, r)) {s t : State}
    (ht : exec c s = .next t) : StampsKept timely s t := by
  rw [exec_request h] at ht
  exact stampsKept_event (fun s => (steady_receiveWith _ (fun _ => steady_perform r) _ _ _ s).calmStamps) ht

/-- Every command keeps the accounting of stamps; and the capture order, where a judged edge finds stamping open. -/
theorem stampsKept_exec {c : Instr} {s t : State} (hc : timely → ∀ i, c = .edgeJudged i → s.sis.state ≠ .closed)
    (ht : exec c s = .next t) : StampsKept timely s t := by
  cases hr : c.request? with
  | some q => exact stampsKept_request hr ht
  | none =>
    cases c with
    | powerUp a b => exact stampsKept_next (stampsKept_powerUp s a b) ht
    | resetAssert n => exact stampsKept_next (stampsKept_resetAssert s n) ht
    | resetRelease a b => exact stampsKept_next (stampsKept_resetRelease s a b) ht
    | supplyLoss => exact stampsKept_next (stampsKept_supplyLoss s) ht
    | replySent a b => exact stampsKept_event (fun s => stampsKept_replySent s a b) ht
    | recoveryEnd => exact stampsKept_event (fun s => (steady_recoveryEnd s).calmStamps) ht
    | hostByteReceived v b => exact stampsKept_event (fun s => (steady_hostByte s v b).calmStamps) ht
    | byteTimeout => exact stampsKept_event (fun s => (accounts_byteTimeout s).stampsKept) ht
    | receivedRequest k g b => exact stampsKept_event (fun s => (steady_receivedRequest s k g b).calmStamps) ht
    | secondBoundary => exact stampsKept_event (fun s => (steady_secondBoundary s).calmStamps) ht
    | clockSummary => exact stampsKept_event (fun s => (accounts_clockSummary s).stampsKept) ht
    | leapLatch => exact stampsKept_event (fun s => (accounts_leapLatch s).stampsKept) ht
    | leapApplication => exact stampsKept_event (fun s => (accounts_leapApplication s).stampsKept) ht
    | civilMidnight => exact stampsKept_event (fun s => (accounts_civilMidnight s).stampsKept) ht
    | pulseEdge r b e => exact stampsKept_event (fun s => (accounts_pulseEdge s r b e).stampsKept) ht
    | edgeJudged r => exact stampsKept_whenLive (edgeJudged · r) ((steady_edgeJudged s r).stampsKept fun h => .inr (hc h r rfl)) ht
    | overrun r => exact stampsKept_event (fun s => (steady_overrun s r).calmStamps) ht
    | missingPulse r => exact stampsKept_event (fun s => (steady_missingPulse s r).calmStamps) ht
    | labelFrame r b p =>
      exact stampsKept_event (fun s => (AccountsKept.ite _ (accounts_labelArrives s r _) (AccountsKept.refl s)).stampsKept) ht
    | labelTimeout x =>
      exact stampsKept_event (fun s => (AccountsKept.ite _ (accounts_labelArrives s _ _) (AccountsKept.refl s)).stampsKept) ht
    | tagStartDelimiter i b => exact stampsKept_event (fun s => stampsKept_startDelimiter s i b) ht
    | tagFrameEnd i b e => exact stampsKept_event (fun s => stampsKept_frameEnd s i b e) ht
    | returnFrameEnd i => exact stampsKept_event (fun s => (accounts_laneEnd s i).stampsKept) ht
    | pauseAssert i => exact stampsKept_next (AccountsKept.ite _ (accounts_assertPause s i) (accounts_pauseLevel s i _)).stampsKept ht
    | pauseDeassert i =>
      exact stampsKept_next (AccountsKept.ite _ (accounts_deassertPause s i) (accounts_pauseLevel s i _)).stampsKept ht
    | drainTimeout i => exact stampsKept_event (fun s => (accounts_drainTimeout s i).stampsKept) ht
    | grant => exact stampsKept_event (fun s => stampsKept_grantOffer s) ht
    | callStart g => exact stampsKept_event (fun s => (accounts_expire s g _ _ (accounts_callStarted g s)).stampsKept) ht
    | windowStart g => exact stampsKept_event (fun s => (accounts_expire s g _ _ (accounts_windowStarted g s)).stampsKept) ht
    | endExpiry g => exact stampsKept_event (fun s => (accounts_expire s g _ _ (accounts_ended g s)).stampsKept) ht
    | deferLimit g => exact stampsKept_event (fun s => (accounts_expire s g _ _ (accounts_heldBack g s)).stampsKept) ht
    | settle g => exact stampsKept_event (fun s => (accounts_expire s g _ _ (accounts_settled g s)).stampsKept) ht
    | writeVerified => exact stampsKept_event (fun s => (accounts_writeVerified s).stampsKept) ht
    | writeFailed => exact stampsKept_event (fun s => (accounts_writeFailed s).stampsKept) ht
    | pageOpenFailed => exact stampsKept_event (fun s => (accounts_pageOpenFailed s).stampsKept) ht
    | eraseEnd l => exact stampsKept_event (fun s => (accounts_eraseEnd s l).stampsKept) ht
    | agentDue a => exact stampsKept_event (fun s => (accounts_agentDue s a).stampsKept) ht
    | markPhaseEnd o => exact stampsKept_event (fun s => (accounts_markPhaseEnd s o).stampsKept) ht
    | gapEnd => exact stampsKept_event (fun s => (accounts_gapEnd s).stampsKept) ht
    | readPhaseEnd o => exact stampsKept_event (fun s => (accounts_readPhaseEnd s o).stampsKept) ht
    | arbitrationLost => exact stampsKept_event (fun s => (accounts_arbitrationLost s).stampsKept) ht
    | busError b => exact stampsKept_event (fun s => (accounts_busError s b).stampsKept) ht
    | clockLowTimeout b => exact stampsKept_event (fun s => (accounts_clockLowTimeout s b).stampsKept) ht
    | startConditionSeen a b => exact stampsKept_event (fun s => (accounts_startConditionSeen s a b).stampsKept) ht
    | stopConditionSeen => exact stampsKept_event (fun s => (accounts_freed _ s).stampsKept) ht
    | busTimerExpiry => exact stampsKept_event (fun s => (accounts_busTimerExpiry s).stampsKept) ht
    | clearingStopSent => exact stampsKept_event (fun s => (accounts_freed _ s).stampsKept) ht
    | stale a => exact stampsKept_event (fun s => (accounts_stale s a).stampsKept) ht
    | busLineChange a b => exact stampsKept_event (fun s => (accounts_lineChange s a b).stampsKept) ht
    | ninthClearingPulse => exact stampsKept_event (fun s => (accounts_ninthPulse s).stampsKept) ht
    | _ => exact absurd hr (by simp [Instr.request?])

end

/-! ## Every step -/

theorem accounts_tick (s : State) : AccountsKept s (tick s) := AccountsKept.ite _ (accounts_outside rfl rfl) (AccountsKept.refl s)

/-- Every step keeps the accounting of stamps; and the capture order, where no edge is judged before stamping has opened. -/
theorem stampsKept_step {timely : Prop} {s t : State}
    (hc : timely → s.sis.state = .closed → ∀ i, s.pending.head? ≠ some (.edgeJudged i)
      ∧ (s.pending = [] → dueCommand s ≠ some (.edgeJudged i))) (h : step s = .next t) : StampsKept timely s t := by
  unfold step at h
  split at h
  · rename_i c rest hp
    obtain ⟨accounted, ordered⟩ := stampsKept_exec (s := { s with pending := rest }) (timely := timely)
      (fun x i e closed => (hc x closed i).1 (by rw [hp, e]; rfl)) h
    have popped : AccountsKept s { s with pending := rest } := accounts_outside rfl rfl
    exact ⟨fun k => accounted (popped.accounted k), ordered⟩
  · rename_i hp
    split at h
    · rename_i c due
      exact stampsKept_exec (fun x i e closed => (hc x closed i).2 hp (by rw [due, e])) h
    · cases h
      exact (accounts_tick s).stampsKept

/-- Settles O32: tag frames and grants move the accounting and the capture order as they say, and whatever is handed on keeps them. -/
theorem stampsAreAccountedFor : Obligations.StampsAreAccountedFor := by
  refine ⟨fun s t h step => ?_, fun s t h step behind edges => ?_⟩
  · exact (stampsKept_step (timely := False) (fun x => x.elim) step).accounted h
  · obtain ⟨ordered, last⟩ := (stampsKept_step (timely := True) (fun _ => edges) step).ordered trivial h behind
    exact ⟨ordered, last⟩

end Sys2Proof.Machine
end

