-- ==== Sys2Proof/Proofs/Dispositions.lean ====
section
/-!
PROOFS. Proofs/Dispositions.lean: the disposition of an offer, branch by branch (R74), and what an issue report counts (R100).
-/
namespace Sys2Proof.Machine

/-! ## The auction a group byte names (R75) -/

theorem auctionOf_none {group : Byte} (h : 32 ≤ group.toNat) : auctionOf group = none := named_none 32 _ h

theorem auctionOf_some {group : Byte} {g : Fin 32} (h : group.toNat = g.val) : auctionOf group = some g := by
  rw [auctionOf, h, named_val]

/-! ## Dispositions (R74) -/

section
variable (s : State) {o : Offer}

theorem dispositionOf_session (h : o.accepted = false) : dispositionOf s o = .refusedSession := by
  rw [dispositionOf, if_pos (by rw [h]; rfl)]

theorem dispositionOf_group (h : o.accepted = true) (low : 32 ≤ o.fields.group.toNat) (high : o.fields.group.toNat ≤ 254) :
    dispositionOf s o = .refusedGroup := by
  rw [dispositionOf, if_neg (by rw [h]; exact nofun), if_pos ⟨low, high⟩]

/-- The group byte 255 names no auction. -/
theorem dispositionOf_free (h : o.accepted = true) (free : o.fields.group.toNat = 255) : dispositionOf s o = .accepted := by
  rw [dispositionOf, if_neg (by rw [h]; exact nofun), if_neg (by omega), auctionOf_none (by omega)]

/-- An offer for an auction is LATE behind its cut, and else ACCEPTED. -/
theorem dispositionOf_auction (h : o.accepted = true) {g : Fin 32} (names : o.fields.group.toNat = g.val) :
    dispositionOf s o = (s.group g).cutTime.elim .accepted fun t =>
      if ((s.group g).state = .cut ∨ (s.group g).state = .closed) ∧ t < o.capture then .late else .accepted := by
  have := g.isLt
  rw [dispositionOf, if_neg (by rw [h]; exact nofun), if_neg (by omega), auctionOf_some names]
  cases time : (s.group g).cutTime <;> simp only [time, Option.elim]

theorem dispositionOf_cut (h : o.accepted = true) {g : Fin 32} (names : o.fields.group.toNat = g.val) {c : Nat}
    (cut : (s.group g).state = .cut ∨ (s.group g).state = .closed) (time : (s.group g).cutTime = some c) :
    dispositionOf s o = if c < o.capture then .late else .accepted := by
  simp only [dispositionOf_auction s h names, time, Option.elim, cut, true_and]

theorem dispositionOf_running (h : o.accepted = true) {g : Fin 32} (names : o.fields.group.toNat = g.val)
    (cut : (s.group g).state ≠ .cut) (closed : (s.group g).state ≠ .closed) : dispositionOf s o = .accepted := by
  rw [dispositionOf_auction s h names]
  cases (s.group g).cutTime with
  | none => rfl
  | some t => exact if_neg fun ⟨ended, _⟩ => ended.elim cut closed

end

/-! ## Issue reports (R100) -/

section
variable (a : Auction) (p : AuctionState) (q : Nat)

theorem reported_accepted (idle : p ≠ .idle) (armed : p ≠ .armed) (cancelled : p ≠ .cancelled) :
    a.reported .accepted p q = { a with inCount := a.inCount + 1, lastIn := q } := by
  cases p with
  | idle => exact absurd rfl idle
  | armed => exact absurd rfl armed
  | cancelled => exact absurd rfl cancelled
  | _ => rfl

theorem reported_late (h : p = .cut ∨ p = .closed) : a.reported .late p q = { a with lateCount := a.lateCount + 1 } := by
  rcases h with rfl | rfl <;> rfl

theorem reported_outside (h : p = .idle ∨ p = .armed ∨ p = .cancelled) : a.reported .accepted p q = a := by
  rcases h with rfl | rfl | rfl <;> rfl

end

/-- Settles O48: the branches of the disposition in their order, and the cases of the report. -/
theorem dispositionsAreDecidedInOrder : Obligations.DispositionsAreDecidedInOrder := by
  intro s o n
  exact ⟨dispositionOf_session s, dispositionOf_group s, dispositionOf_free s,
    fun g accepted names => ⟨fun c => dispositionOf_cut s accepted names, dispositionOf_running s accepted names⟩,
    fun a q p => ⟨reported_accepted a p q, reported_late a p q, reported_outside a p q, rfl, rfl⟩⟩

end Sys2Proof.Machine
end

