-- ==== Sys2Proof/Proofs/AnswersHanded.lean ====
section
/-!
PROOFS. Proofs/AnswersHanded.lean: what becomes of an answer that is handed to its line (R51, R53, R61), at once and behind a record and a
notice of the same event.
-/
namespace Sys2Proof.Machine

/-! ## Lines with answers waiting -/

/-- What the scheduler's choice leaves of a line that has answers waiting: no further frame may begin, and every answer still waits or is
the frame on the lane. -/
structure Line.Chosen (l m : Line) : Prop where
  busy : m.maySend = false
  answers : ∀ a ∈ l.queue, a ∈ m.queue ∨ m.lane = some a.frame
  discarded : m.counters.notOpenDiscarded = l.counters.notOpenDiscarded

theorem Line.maySend_laneBusy (l : Line) (h : l.lane ≠ none) : l.maySend = false :=
  Bool.eq_false_iff.2 fun may => h ((maySend_iff l).1 may).2.1

/-- A line whose drop notice is sent keeps its queue through the record's hand-on. -/
theorem line_sendDrop (s : State) (i : Fin 8) :
    ((s.line i).dropSent (dropFrame i s.sis.epoch (s.line i).tally s.now)).WaitsAs ((sendDrop offer s i).line i) := by
  have waited := lanesWait_offer (s.setLine i ((s.line i).dropSent (dropFrame i s.sis.epoch (s.line i).tally s.now)))
    { kind := .drop, subject := i.val, vt := s.now,
      body := be 6 (s.line i).tally.count ++ be 6 ((s.line i).tally.lowest.getD 0) ++ be 6 ((s.line i).tally.highest.getD 0)
        ++ beVt s.now } i
  rw [setLine_line_self] at waited
  exact waited (Line.maySend_laneBusy _ nofun)

theorem schedule_chosen (s : State) (i : Fin 8) (h : (s.line i).queue ≠ []) : (s.line i).Chosen ((schedule s i).line i) := by
  have waiting (l : Line) (f : List Byte) (hl : l.lane = some f) (hq : l.queue = (s.line i).queue)
      (hd : l.counters.notOpenDiscarded = (s.line i).counters.notOpenDiscarded) : (s.line i).Chosen l :=
    ⟨Line.maySend_laneBusy l (by rw [hl]; nofun), fun a ha => .inl (hq ▸ ha), hd⟩
  unfold schedule scheduleWith
  simp only []
  split
  · split
    · rw [(line_sendDrop s i).same]
      exact waiting _ _ rfl rfl rfl
    · split
      · rw [sendQuality, setLine_line_self]
        exact waiting _ _ rfl rfl rfl
      · rw [sendPhase, setLine_line_self]
        exact waiting _ _ rfl rfl rfl
      · split
        · rename_i a rest hq
          unfold sendAnswer
          rw [setLine_line_self]
          refine ⟨Line.maySend_laneBusy _ nofun, fun b hb => ?_, by cases a <;> rfl⟩
          rw [hq] at hb
          rcases List.mem_cons.1 hb with rfl | hb
          · exact .inr rfl
          · exact .inl hb
        · contradiction
  · rename_i stops
    exact ⟨Bool.not_eq_true _ ▸ stops, fun a ha => .inl ha, rfl⟩

/-- A line with an answer waiting or on its lane has not drained. -/
theorem Line.Chosen.undrained {l m : Line} (h : l.Chosen m) (waits : l.queue ≠ []) : m.drained = false := by
  obtain ⟨a, ha⟩ := List.exists_mem_of_ne_nil _ waits
  rcases h.answers a ha with queued | sent
  · simp [Line.drained, List.ne_nil_of_mem queued]
  · simp [Line.drained, sent]

/-! ## The answer given (R53) -/

/-- The line holds or runs: it takes answers while its queue has room. -/
def Line.runs (l : Line) : Prop := l.state = .running ∨ l.state = .holding

/-- The line that has dropped an answer owed to it. -/
def Line.refused (l : Line) (a : Answer) : Line := ({ l with owed := l.owed - 1 } : Line).dropped a

theorem given_queued {l : Line} (a : Answer) (runs : l.runs) (room : l.queue.length < 16) :
    l.given a = { l with owed := l.owed - 1, queue := l.queue ++ [a] } :=
  if_pos (by simpa [Line.runs] using ⟨runs, room⟩)

theorem given_full {l : Line} (a : Answer) (full : 16 ≤ l.queue.length) : l.given a = l.refused a :=
  if_neg (by simp [Nat.not_lt.2 full])

theorem given_stopped {l : Line} (a : Answer) (stopped : ¬ l.runs) : l.given a = l.refused a :=
  if_neg (by simpa [Line.runs] using fun h => absurd h stopped)

/-- What a given answer leaves of the line. -/
theorem given_keeps (l : Line) (a : Answer) :
    (l.given a).state = l.state ∧ (l.given a).lane = l.lane ∧ (l.given a).pause = l.pause := by
  unfold Line.given
  split
  · exact ⟨rfl, rfl, rfl⟩
  · rw [dropped_keeps]
    exact ⟨rfl, rfl, rfl⟩

theorem refused_queue (l : Line) (a : Answer) : (l.refused a).queue = l.queue := by rw [Line.refused, dropped_keeps]

/-- A line that takes answers has some waiting once it has been given one. -/
theorem given_waits {l : Line} (a : Answer) (runs : l.runs) : (l.given a).queue ≠ [] := by
  by_cases room : l.queue.length < 16
  · rw [given_queued a runs room]
    simp
  · rw [given_full a (by omega), refused_queue]
    exact List.ne_nil_of_length_pos (by omega)

theorem given_maySend (l : Line) (a : Answer) : (l.given a).maySend = l.maySend := by
  obtain ⟨state, lane, pause⟩ := given_keeps l a
  simp only [Line.maySend, state, lane, pause]

/-- A line that has just been given an answer has not drained: nothing but the scheduler's choice is left of the hand-off. -/
theorem handOff_eq (s : State) (i : Fin 8) (a : Answer) : handOff s i a = schedule (s.setLine i ((s.line i).given a)) i := by
  rw [handOff_given]
  refine drainTest_waits _ i fun ⟨holding, drained⟩ => ?_
  have kept := ((handed_schedule (s.setLine i ((s.line i).given a)) i).lines i).state
  rw [setLine_line_self, (given_keeps _ a).1] at kept
  have waits : ((s.setLine i ((s.line i).given a)).line i).queue ≠ [] := by
    rw [setLine_line_self]
    exact given_waits a (.inr (kept.symm.trans holding))
  exact absurd drained (by rw [(schedule_chosen _ i waits).undrained waits]; exact nofun)

/-! ## What becomes of the line -/

/-- What becomes of a line that an answer is handed to, and of the answer (R53). -/
structure AnswerHanded (l m : Line) (a : Answer) : Prop where
  owed : m.owed = l.owed - 1
  busy : l.runs → m.maySend = false
  kept : l.runs → l.queue.length < 16 → a ∈ m.queue ∨ m.lane = some a.frame
  waits : l.maySend = false → { m with phases := l.phases } = { l.given a with phases := l.phases }
  stopped : ¬ l.runs → m = l.given a
  discarded : l.runs → m.counters.notOpenDiscarded = (l.given a).counters.notOpenDiscarded
  queue : m.queue <:+ (l.given a).queue

theorem runs_of_maySend {l : Line} (h : l.maySend = true) : l.runs := ((maySend_iff l).1 h).1

theorem answerHanded_handOff (s : State) (i : Fin 8) (a : Answer) : AnswerHanded (s.line i) ((handOff s i a).line i) a := by
  have here : (s.setLine i ((s.line i).given a)).line i = (s.line i).given a := setLine_line_self _ _ _
  have stands (h : (s.line i).maySend = false) : (handOff s i a).line i = (s.line i).given a := by
    rw [handOff_eq, schedule_waits _ i (by rw [here, given_maySend, h]), here]
  have chosen (runs : (s.line i).runs) : ((s.line i).given a).Chosen ((handOff s i a).line i) := by
    rw [handOff_eq]
    have := schedule_chosen (s.setLine i ((s.line i).given a)) i (by rw [here]; exact given_waits a runs)
    rwa [here] at this
  have kept : LineKept ((s.line i).given a) ((handOff s i a).line i) := by
    rw [handOff_eq]
    have := (handed_schedule (s.setLine i ((s.line i).given a)) i).lines i
    rwa [here] at this
  refine ⟨kept.owed.trans (given_owed _ a), fun runs => (chosen runs).busy, fun runs room => ?_, fun h => by rw [stands h],
    fun h => stands (Bool.eq_false_iff.2 fun may => h (runs_of_maySend may)), fun runs => (chosen runs).discarded, kept.queue⟩
  exact (chosen runs).answers a (by rw [given_queued a runs room]; simp)

/-- What a record offered and a notice behind it leave of every line. -/
structure LinesTrail (s t : State) : Prop where
  kept : ∀ i, LineKept (s.line i) (t.line i)
  waits : LanesWait s t
  still : Still s t

theorem LinesTrail.refl (s : State) : LinesTrail s s := ⟨fun _ => LineKept.refl _, LanesWait.refl s, Still.refl s⟩

theorem linesTrail_offerNotify (s : State) (r : Record) (k : NoticeKind) (x : Subject) (d : List Byte) :
    LinesTrail s (notify (offer s r) k x d) where
  kept := ((handed_offer s r).trans (handed_notify _ k x d)).lines
  waits := (lanesWait_notify _ k x d).back (lanesWait_offer s r)
  still := (still_of_lines (lines_notify _ k x d)).back (still_offer s r)

theorem AnswerHanded.later {l : Line} {s t : State} {i : Fin 8} {a : Answer} (h : AnswerHanded l (s.line i) a) (k : LinesTrail s t) :
    AnswerHanded l (t.line i) a := by
  have waited (runs : l.runs) : (s.line i).WaitsAs (t.line i) := k.waits i (h.busy runs)
  have stopped (e : ¬ l.runs) : t.line i = l.given a := by
    have here := h.stopped e
    have state : (s.line i).state ≠ .running := by
      rw [here, (given_keeps l a).1]
      exact fun running => e (.inl running)
    rw [k.still i state, here]
  have phased (e : l.maySend = false) : { t.line i with phases := l.phases } = { l.given a with phases := l.phases } := by
    by_cases runs : l.runs
    · rw [(waited runs).same]
      exact h.waits e
    · rw [stopped runs]
  refine ⟨(k.kept i).owed.trans h.owed, fun runs => (waited runs).maySend.trans (h.busy runs), fun runs room => ?_, phased, stopped,
    fun runs => ?_, (k.kept i).queue.trans h.queue⟩
  · rw [(waited runs).same]
    exact h.kept runs room
  · rw [(waited runs).same]
    exact h.discarded runs

/-! ## A full queue on a free lane: the drop notice (R53, R55) -/

/-- The drop notice of a tally is on the lane, and the answers before it wait. -/
structure DropNoticed (i : Fin 8) (epoch now : Nat) (tally : Tally) (q : List Answer) (m : Line) : Prop where
  lane : m.lane = some (dropFrame i epoch tally now)
  tally : m.tally = {}
  queue : m.queue = q

theorem DropNoticed.later {s t : State} {i : Fin 8} {epoch now : Nat} {tally : Tally} {q : List Answer}
    (h : DropNoticed i epoch now tally q (s.line i)) (k : LinesTrail s t) : DropNoticed i epoch now tally q (t.line i) := by
  rw [(k.waits i (Line.maySend_laneBusy _ (by rw [h.lane]; nofun))).same]
  exact ⟨h.lane, h.tally, h.queue⟩

theorem refused_tally_pos (l : Line) (st : Stamp) : 0 < (l.refused (.stamp st)).tally.count := Nat.succ_pos _

/-- A stamp that finds the queue full leaves on a free lane at once in a drop notice. -/
theorem handOff_dropNotice (s : State) (i : Fin 8) (st : Stamp) (may : (s.line i).maySend = true) (full : 16 ≤ (s.line i).queue.length) :
    DropNoticed i s.sis.epoch s.now ((s.line i).refused (.stamp st)).tally (s.line i).queue ((handOff s i (.stamp st)).line i)
      ∧ Offered s (handOff s i (.stamp st)) ⟨.drop, i.val, s.now,
          be 6 ((s.line i).refused (.stamp st)).tally.count ++ be 6 (((s.line i).refused (.stamp st)).tally.lowest.getD 0)
            ++ be 6 (((s.line i).refused (.stamp st)).tally.highest.getD 0) ++ beVt s.now⟩ := by
  obtain ⟨l, hl⟩ : ∃ l, l = (s.line i).refused (.stamp st) := ⟨_, rfl⟩
  have given : (s.line i).given (.stamp st) = l := by rw [given_full _ full, hl]
  have here : (s.setLine i l).line i = l := setLine_line_self s i l
  have sends : handOff s i (.stamp st) = sendDrop offer (s.setLine i l) i := by
    rw [handOff_eq, given]
    exact schedule_drop _ i (by rw [here, ← given, given_maySend, may]) (by rw [here, hl]; exact refused_tally_pos _ st)
  obtain ⟨-, lane, tally, recorded⟩ := sendDrop_spec (s.setLine i l) i l _ here rfl
  have queue := congrArg Line.queue (line_sendDrop (s.setLine i l) i).same
  rw [here] at queue
  rw [sends, ← hl]
  refine ⟨⟨lane, tally, queue.trans ?_⟩, recorded.sooner rfl⟩
  rw [hl]
  exact refused_queue _ _

end Sys2Proof.Machine
end

