-- ==== Sys2Proof/Proofs/Grants.lean ====
section
/-!
PROOFS. Proofs/Grants.lean: what a grant issues or answers, reports and hands to its line (R66, R69, R72, R73, R77, R78), and Open Stamping
(R80).
-/
namespace Sys2Proof.Machine

/-! ## An answer given to its line, and what follows it -/

/-- An answer has been handed to one line of a state, whose other lines and whose intake have only been handed on to. -/
structure AnswerGiven (s t : State) (i : Fin 8) (a : Answer) : Prop where
  others : ∀ k, k ≠ i → LineKept (s.line k) (t.line k)
  line : AnswerHanded (s.line i) (t.line i) a
  dropped : ∀ st, a = .stamp st → (s.line i).maySend = true → 16 ≤ (s.line i).queue.length →
    DropNoticed i s.sis.epoch s.now ((s.line i).refused (.stamp st)).tally (s.line i).queue (t.line i)
      ∧ Offered s t ⟨.drop, i.val, s.now,
          be 6 ((s.line i).refused (.stamp st)).tally.count ++ be 6 (((s.line i).refused (.stamp st)).tally.lowest.getD 0)
            ++ be 6 (((s.line i).refused (.stamp st)).tally.highest.getD 0) ++ beVt s.now⟩

theorem answerGiven_handOff (s : State) (i : Fin 8) (a : Answer) : AnswerGiven s (handOff s i a) i a where
  others := fun k hk => by
    have kept := (handed_schedule (s.setLine i ((s.line i).given a)) i).lines k
    rw [setLine_line_ne _ _ _ _ hk] at kept
    rw [handOff_eq]
    exact kept
  line := answerHanded_handOff s i a
  dropped := fun st e may full => e ▸ handOff_dropNotice s i st may full

theorem AnswerGiven.later {s u t : State} {i : Fin 8} {a : Answer} (h : AnswerGiven s u i a) (k : LinesTrail u t)
    (j : u.ej.intake <+: t.ej.intake) : AnswerGiven s t i a where
  others := fun n hn => (h.others n hn).trans (k.kept n)
  line := h.line.later k
  dropped := fun st e may full => by
    obtain ⟨noticed, recorded⟩ := h.dropped st e may full
    exact ⟨noticed.later k, fun takes => mem_drop_of_prefix j _ (recorded takes)⟩

/-- The state an answer is given in matters through its lines, its epoch, the journal and the clock. -/
theorem AnswerGiven.sooner {s s' t : State} {i : Fin 8} {a : Answer} (h : AnswerGiven s' t i a) (hl : s'.lines = s.lines)
    (hs : s'.sis.epoch = s.sis.epoch) (hj : s'.ej = s.ej) (hc : s'.tsu = s.tsu) : AnswerGiven s t i a := by
  have line (k : Fin 8) : s'.line k = s.line k := by rw [State.line, hl, State.line]
  have now : s'.now = s.now := by rw [State.now, hc, State.now]
  obtain ⟨others, handed, dropped⟩ := h
  simp only [line, hs, now] at others handed dropped
  refine ⟨others, handed, fun st e may full => ?_⟩
  obtain ⟨noticed, recorded⟩ := dropped st e may full
  exact ⟨noticed, recorded.sooner hj⟩

/-- A line that takes answers, with its lane busy or paused, begins no frame. -/
theorem maySend_of_occupied {l : Line} (h : l.lane ≠ none ∨ l.pause = true) : l.maySend = false :=
  Bool.eq_false_iff.2 fun may => by
    obtain ⟨-, lane, pause⟩ := (maySend_iff l).1 may
    exact h.elim (· lane) fun e => absurd e (by rw [pause]; exact nofun)

theorem maySend_of_free {l : Line} (runs : l.runs) (h : ¬ (l.lane ≠ none ∨ l.pause = true)) : l.maySend = true := by
  obtain ⟨lane, pause⟩ := not_or.1 h
  exact (maySend_iff l).2 ⟨runs, not_not.1 lane, Bool.not_eq_true _ ▸ pause⟩

/-- R53 case by case: where the lane is busy or paused the line is known but for the phase frames it goes on to gather. -/
theorem AnswerGiven.cases {s t : State} {i : Fin 8} {a : Answer} (h : AnswerGiven s t i a) :
    let l := s.line i
    let freed : Line := { l with owed := l.owed - 1 }
    let occupied : Prop := l.lane ≠ none ∨ l.pause = true
    (∀ k, k ≠ i → LineKept (s.line k) (t.line k))
      ∧ (t.line i).owed = l.owed - 1
      ∧ (l.runs → l.queue.length < 16 → a ∈ (t.line i).queue ∨ (t.line i).lane = some a.frame)
      ∧ (l.runs → l.queue.length < 16 → occupied → { t.line i with phases := l.phases } = { freed with queue := l.queue ++ [a] })
      ∧ (l.runs → 16 ≤ l.queue.length → occupied → { t.line i with phases := l.phases } = freed.dropped a)
      ∧ (¬ l.runs → t.line i = freed.dropped a) := by
  intro l freed occupied
  refine ⟨h.others, h.line.owed, h.line.kept, fun runs room busy => ?_, fun runs full busy => ?_, fun stopped => ?_⟩
  · rw [h.line.waits (maySend_of_occupied busy), given_queued a runs room]
  · rw [h.line.waits (maySend_of_occupied busy), given_full a full, Line.refused, dropped_keeps]
  · rw [h.line.stopped stopped, given_stopped a stopped]
    rfl

/-! ## Handing on, with the lines as they are afterwards -/

/-- What is handed on beside the lines and the Stamp Issuer. -/
theorem Handed.level {s t : State} (h : Handed s t) : Handed { s with sis := t.sis, lines := t.lines } t :=
  { h with sis := rfl, lines := fun _ => LineKept.refl _, groups := h.groups, held := h.held, pages := h.pages, slots := h.slots }

theorem handed_handOff (s : State) (i : Fin 8) (a : Answer) :
    Handed (s.setLine i ((s.line i).given a)) (handOff s i a) := handOff_eq s i a ▸ handed_schedule _ i

/-- The hand-off offers no critical record: one that the intake took before is still taken. -/
theorem offered_behind {s u : State} {n : Nat} {r : Record} (h : HandsOn 0 n s u)
    (k : s.ej.intake <+: u.ej.intake) (hr : r.kind.critical = true) : Offered s (offer u r) r := by
  intro takes
  rw [hr, takes_critical_iff] at takes
  obtain ⟨stalled, exhausted, room⟩ := takes
  obtain ⟨stalled', exhausted'⟩ := h.critical stalled exhausted
  have room' := h.room
  exact mem_drop_le k.length_le
    (offered_offer u r (by rw [hr, takes_critical_iff]; exact ⟨stalled', exhausted', by omega⟩))

/-! ## The issue report (R77, R100) -/

/-- The auction entry of a group once an issue has been reported. -/
def State.told (s : State) (st : Stamp) (g : Fin 32) : Auction :=
  if st.echo.group.toNat = g.val then (s.group g).reported st.disposition (s.group g).state st.sequence else s.group g

/-- The state an issue has been reported in. -/
def State.telling (s : State) (st : Stamp) : State := { s with auc := { s.auc with groups := Vector.ofFn (s.told st) } }

theorem telling_eq {s : State} {st : Stamp} {v : Vector Auction 32} (h : ∀ g : Fin 32, v[g] = s.told st g) :
    { s with auc := { s.auc with groups := v } } = s.telling st := by
  have groups : v = Vector.ofFn (s.told st) := Vector.ext fun j hj => by
    rw [Vector.getElem_ofFn]
    exact h ⟨j, hj⟩
  rw [groups, State.telling]

/-- A stamp's report goes to the entry its group byte names, and to no other. -/
theorem reportIssue_eq (s : State) (st : Stamp) (h : st.phase = (auctionOf st.echo.group).map fun g => (s.group g).state) :
    reportIssue s st = s.telling st := by
  by_cases names : ∃ g : Fin 32, st.echo.group.toNat = g.val
  · obtain ⟨g, hg⟩ := names
    have reported : reportIssue s st = s.setGroup g ((s.group g).reported st.disposition (s.group g).state st.sequence) := by
      rw [reportIssue, h, auctionOf_some hg]
      rfl
    rw [reported]
    refine telling_eq fun k => ?_
    have entry := setGroup_group s g ((s.group g).reported st.disposition (s.group g).state st.sequence) k
    refine Eq.trans entry ?_
    unfold State.told
    by_cases e : k = g
    · subst e
      rw [if_pos rfl, if_pos hg]
    · rw [if_neg e, if_neg fun x => e (Fin.ext (x.symm.trans hg))]
  · have none := auctionOf_none (group := st.echo.group) (not_lt.1 fun lt => names ⟨⟨_, lt⟩, rfl⟩)
    have unreported : reportIssue s st = s := by rw [reportIssue, none]
    rw [unreported]
    exact telling_eq fun g => (if_neg fun e => names ⟨g, e⟩).symm

/-! ## A stamp issued (R69, R73) -/

/-- What an issue leaves: the issuer, what its report and its hand-off change, and the last sequence's exhaustion. -/
structure StampIssued (s t : State) (st : Stamp) (q : Nat) : Prop where
  sis : t.sis = s.sis.issuing st q
  handed : Handed { s.telling st with sis := t.sis, lines := t.lines } t
  given : AnswerGiven s t st.line (.stamp st)
  exhausted : q = Config.lastSequence →
    Offered s t ⟨.sequenceExhausted, st.line.val, s.now,
        be 4 st.epoch ++ be 6 st.sequence ++ beVt st.capture ++ be 1 st.line.val⟩
      ∧ Noticed s t .sequenceExhausted s.now .nothing (be 1 st.line.val)

/-- The issuer exhausted, recorded and noticed behind a hand-off. -/
theorem exhaustIssuer_spec {x u : State} {n : Nat} (st : Stamp) (h : HandsOn 0 n x u) (k : Handed x u) :
    Handed { x with sis := { u.sis with state := .exhausted, next := none } } (exhaustIssuer u st)
      ∧ LinesTrail u (exhaustIssuer u st) ∧ u.ej.intake <+: (exhaustIssuer u st).ej.intake
      ∧ Offered x (exhaustIssuer u st) ⟨.sequenceExhausted, st.line.val, x.now,
          be 4 st.epoch ++ be 6 st.sequence ++ beVt st.capture ++ be 1 st.line.val⟩
      ∧ Noticed x (exhaustIssuer u st) .sequenceExhausted x.now .nothing (be 1 st.line.val) := by
  obtain ⟨v, hv⟩ : ∃ v : State, v = { u with sis := { u.sis with state := .exhausted, next := none } } := ⟨_, rfl⟩
  obtain ⟨r, hr⟩ : ∃ r : Record, r = ⟨.sequenceExhausted, st.line.val, x.now,
    be 4 st.epoch ++ be 6 st.sequence ++ beVt st.capture ++ be 1 st.line.val⟩ := ⟨_, rfl⟩
  have now : v.now = x.now := by rw [hv]; exact k.now
  have shows : exhaustIssuer u st = notify (offer v r) .sequenceExhausted .nothing (be 1 st.line.val) := by
    rw [hr, ← now, hv]
    rfl
  have behind : Handed { x with sis := { u.sis with state := .exhausted, next := none } } v := by
    rw [hv]
    exact k.withSis _
  have offered := handed_offer v r
  have last := handed_notify (offer v r) .sequenceExhausted .nothing (be 1 st.line.val)
  have joins : HandsOn 0 n x v := by
    rw [hv]
    exact h.then (handsOn_sis u _)
  have recorded : Offered x (offer v r) r := offered_behind joins behind.intake (by rw [hr]; rfl)
  have trail := linesTrail_offerNotify v r .sequenceExhausted .nothing (be 1 st.line.val)
  have noticed := noticed_notify (offer v r) .sequenceExhausted .nothing (be 1 st.line.val)
  rw [offered.now, now] at noticed
  have intake : u.ej.intake <+: (notify (offer v r) .sequenceExhausted .nothing (be 1 st.line.val)).ej.intake := by
    have := (offered.trans last).intake
    rw [hv] at this ⊢
    exact this
  rw [shows, ← hr]
  refine ⟨behind.trans (offered.trans last), ?_, intake, recorded.later last, noticed.sooner (behind.trans offered).noticesLe⟩
  rw [hv] at trail ⊢
  exact ⟨trail.kept, trail.waits, trail.still⟩

theorem stampIssued_issueStamp (s : State) (o : Offer) (q : Nat) :
    StampIssued s (issueStamp s o q) (stampOf s o q) q := by
  have sis : (issueStamp s o q).sis = s.sis.issuing (stampOf s o q) q := (accounts_issueStamp s o q).sis
  obtain ⟨st, hst⟩ : ∃ st, st = stampOf s o q := ⟨_, rfl⟩
  have line : st.line = o.line := by rw [hst]; rfl
  obtain ⟨w, hw⟩ : ∃ w : State, w = { s with sis := { s.sis.count st with next := some (q + 1) } } := ⟨_, rfl⟩
  have told : reportIssue w st = w.telling st := reportIssue_eq w st (by rw [hst, hw]; rfl)
  obtain ⟨u, hu⟩ : ∃ u, u = handOff (w.telling st) st.line (.stamp st) := ⟨_, rfl⟩
  have issued : issueStamp s o q = if q = Config.lastSequence then exhaustIssuer u st else u := by
    rw [hu, ← told, hw, line, hst]
    rfl
  have given : AnswerGiven s u st.line (.stamp st) :=
    hu ▸ (answerGiven_handOff (w.telling st) st.line (.stamp st)).sooner (by rw [hw]; rfl) (by rw [hw]; rfl) (by rw [hw]; rfl)
      (by rw [hw]; rfl)
  have handed := hu ▸ handed_handOff (w.telling st) st.line (.stamp st)
  have joins : HandsOn 0 0 ((w.telling st).setLine st.line (((w.telling st).line st.line).given (.stamp st))) u := by
    rw [hu, handOff_eq]
    exact handsOn_schedule _ _
  rw [← hst] at sis ⊢
  rw [issued] at sis ⊢
  by_cases last : q = Config.lastSequence
  · rw [if_pos last] at sis ⊢
    obtain ⟨exhausts, trail, intake, recorded, noticed⟩ := exhaustIssuer_spec st joins handed
    refine ⟨sis, ?_, given.later trail intake, fun _ => ⟨?_, ?_⟩⟩
    · have := exhausts.level
      rw [hw] at this
      exact this
    · rw [hw] at recorded
      exact recorded
    · rw [hw] at noticed
      exact noticed
  · rw [if_neg last] at sis ⊢
    refine ⟨sis, ?_, given, fun e => absurd e last⟩
    have := handed.level
    rw [hw] at this
    exact this

end Sys2Proof.Machine
end

