-- ==== Sys2Proof/Proofs/GrantsAnswered.lean ====
section
/-!
PROOFS. Proofs/GrantsAnswered.lean: the statement about grants and Open Stamping, from what an issue, a NOT_OPEN answer and an opening leave
(R66 to R69, R72, R73, R76 to R78, R80).
-/
namespace Sys2Proof.Machine

/-! ## When a grant may be made (R72) -/

theorem grantDue_early {s : State} (h : s.sis.offers = [] ∨ ∃ n, s.sis.lastGrant = some n ∧ s.osc < n + 2) : s.grantDue = false := by
  rcases h with none | ⟨n, last, early⟩
  · simp [State.grantDue, none]
  · simp only [State.grantDue, last, Bool.and_eq_false_iff, decide_eq_false_iff_not]
    exact .inr (Nat.not_le.2 early)

theorem grantDue_late {s : State} {o : Offer} {rest : List Offer} (ho : s.sis.offers = o :: rest)
    (h : s.sis.lastGrant = none ∨ ∃ n, s.sis.lastGrant = some n ∧ n + 2 ≤ s.osc) : s.grantDue = true := by
  rcases h with first | ⟨n, last, late⟩
  · simp [State.grantDue, ho, first]
  · simp only [State.grantDue, ho, last, List.isEmpty_cons, Bool.not_false, Bool.true_and, decide_eq_true_eq]
    exact late

/-! ## The stamp (R73, R76) -/

theorem notConforming_iff (s : State) (i : Fin 8) :
    s.psm.notConforming i = true ↔ ∃ a, (s.agent a).config.binding = some i ∧ (s.agent a).state ≠ .conforming := by
  simp only [Psm.notConforming, List.any_eq_true, Bool.and_eq_true, beq_iff_eq, bne_iff_ne]
  exact ⟨fun ⟨a, _, h⟩ => ⟨a, h⟩, fun ⟨a, h⟩ => ⟨a, mem_allEight a, h⟩⟩

theorem auctionOf_map {α : Type} (b : Byte) (f : Fin 32 → α) :
    (auctionOf b).map f = if h : b.toNat < 32 then some (f ⟨b.toNat, h⟩) else none := by
  unfold auctionOf named
  split <;> rfl

/-- The issuer after an issue in OPEN, field by field. -/
theorem issuing_opened {x : Sis} (h : x.state = .opened) (st : Stamp) (q : Nat) : x.issuing st q = { x.count st with
    next := if q = Config.lastSequence then none else some (q + 1),
    state := if q = Config.lastSequence then .exhausted else .opened } := by
  have opened : (x.count st).state = .opened := h
  unfold Sis.issuing
  split
  · rfl
  · rw [← opened]

/-! ## Open Stamping (R66, R80) -/

/-- The opening of the issuer, recorded and noticed. -/
theorem openIssuer_shown (s : State) (cause : OpenCause) :
    Offered s (openIssuer s cause) ⟨.stampingOpen, 255, s.now,
      be 1 cause.code ++ beVt s.now ++ be 1 s.tsu.clock.code ++ be 1 s.tsu.grade.code ++ be 3 s.tsu.u ++ beBool s.tsu.vtSet⟩
    ∧ Noticed s (openIssuer s cause) .stampingOpen s.now .nothing (be 1 cause.code ++ be 1 s.tsu.grade.code) := by
  obtain ⟨v, hv⟩ : ∃ v : State,
    v = { s with sis := { s.sis with state := .opened, next := some 1, opening := some (cause, s.now) } } := ⟨_, rfl⟩
  obtain ⟨r, hr⟩ : ∃ r : Record, r = ⟨.stampingOpen, 255, s.now, be 1 cause.code ++ beVt s.now ++ be 1 s.tsu.clock.code
      ++ be 1 s.tsu.grade.code ++ be 3 s.tsu.u ++ beBool s.tsu.vtSet⟩ := ⟨_, rfl⟩
  have offered := handed_offer v r
  have tsu : (offer v r).tsu = s.tsu := offered.tsu.trans (by rw [hv])
  have shows : openIssuer s cause
      = notify (offer v r) .stampingOpen .nothing (be 1 cause.code ++ be 1 s.tsu.grade.code) := by
    rw [← tsu, hr, hv]
    rfl
  have recorded : Offered v (offer v r) r := offered_offer v r
  have noticed := noticed_notify (offer v r) .stampingOpen .nothing (be 1 cause.code ++ be 1 s.tsu.grade.code)
  have now : (offer v r).now = s.now := by rw [State.now, tsu, State.now]
  rw [now] at noticed
  rw [shows, ← hr]
  refine ⟨(recorded.later (handed_notify _ _ _ _)).sooner (by rw [hv]), noticed.sooner ?_⟩
  have notices := offered.noticesLe
  rw [hv] at notices ⊢
  exact notices

theorem openStamping_closed {s : State} (hs : s.sis.state = .closed) (epoch : 0 < s.sis.epoch) :
    openStamping s = done (openIssuer s .request) := by
  simp only [openStamping, hs, if_pos epoch]

theorem openStamping_noEpoch {s : State} (hs : s.sis.state = .closed) (epoch : s.sis.epoch = 0) :
    openStamping s = refuse s .journalFull := by
  simp only [openStamping, hs, epoch, Nat.lt_irrefl, if_false]

theorem openStamping_opened {s : State} (hs : s.sis.state = .opened) : openStamping s = done s := by
  simp only [openStamping, hs]

theorem openStamping_exhausted {s : State} (hs : s.sis.state = .exhausted) : openStamping s = refuse s .wrongState := by
  simp only [openStamping, hs]

/-- A NOT_OPEN answer that finds the queue full is discarded and counted (R53). -/
theorem AnswerGiven.discards {s t : State} {i : Fin 8} {a : NotOpen} (h : AnswerGiven s t i (.notOpen a)) (runs : (s.line i).runs)
    (full : 16 ≤ (s.line i).queue.length) : (t.line i).counters.notOpenDiscarded = sat32 (s.line i).counters.notOpenDiscarded
      ∧ (t.line i).queue <:+ (s.line i).queue := by
  have discarded := h.line.discarded runs
  have queue := h.line.queue
  rw [given_full _ full] at discarded queue
  rw [refused_queue] at queue
  exact ⟨discarded, queue⟩

/-- Settles O47: a grant that is due issues a stamp or answers without one, by the issuer's state; Open Stamping by its owner's cases. -/
theorem grantsAreAnsweredInOrder : Obligations.GrantsAreAnsweredInOrder := by
  refine ⟨fun s live h => ?_, ?_, ?_⟩
  · exact (whenLive_live s grantOffer live).trans (congrArg _ (grantOffer_waits s (grantDue_early h)))
  · intro s o rest peer live ho spaced hpeer i l freed runs occupied granted handed
    have due := grantDue_late ho spaced
    have execs {t : State} (h : grantOffer s = t) : exec .grant s = .next t := h ▸ whenLive_live s grantOffer live
    have conforms : s.psm.notConforming o.line = peer := Bool.eq_iff_iff.2 ((notConforming_iff s o.line).trans hpeer.symm)
    refine ⟨?_, ?_⟩
    · intro q hs hn st d told gone
      have stamp : stampOf (s.taking rest) o q = st := by
        simp only [stampOf, auctionOf_map, st, ← conforms]
        rfl
      have issued := stampIssued_issueStamp (s.taking rest) o q
      rw [stamp] at issued
      refine ⟨_, execs (grantOffer_stamp s due o rest q ho hs hn), ?_, issued.handed, issued.given.cases, ?_, issued.exhausted⟩
      · rw [issued.sis, issuing_opened (x := (s.taking rest).sis) hs]
        simp only [Sis.count, st, decide_eq_true_eq]
        rfl
      · intro takes full free
        obtain ⟨⟨lane, tally, queue⟩, recorded⟩ := issued.given.dropped st rfl (maySend_of_free takes free) full
        exact ⟨lane, tally, queue, recorded⟩
    · intro closed a
      have given := (answerGiven_handOff { s with sis := (s.taking rest).sis.answering o.line } o.line (.notOpen a))
      have kept := (handed_handOff { s with sis := (s.taking rest).sis.answering o.line } o.line (.notOpen a))
      have unissued (q : Nat) (hs : s.sis.state = .opened) : s.sis.next ≠ some q := by
        rw [closed.resolve_left (not_not.2 hs)]
        exact nofun
      refine ⟨_, execs (grantOffer_notOpen s due o rest ho unissued), kept.sis, kept.level, given.cases, given.discards⟩
  · intro s tag ha r
    have performed {t : State} (h : openStamping (acceptRequest s 0x28#8 tag) = done t) :
        exec (.openStamping tag) s = .next (addReply t 0x28#8 tag .ok []) :=
      hostRequest_done tag .openStamping openStamping s t ha rfl h
    have refused (st : Status) := hostRequest_refused tag .openStamping openStamping s st ha rfl
    refine ⟨fun hs epoch => ?_, fun hs epoch => ?_, fun hs => ?_, fun hs => ?_⟩
    · obtain ⟨recorded, noticed⟩ := openIssuer_shown (acceptRequest s 0x28#8 tag) .request
      exact ⟨_, performed (openStamping_closed hs epoch), (handed_openIssuer _ _).addReply _ _ _ _, recorded.answered, noticed.answered⟩
    · exact refused _ (openStamping_noEpoch hs epoch)
    · exact performed (openStamping_opened hs)
    · exact refused _ (openStamping_exhausted hs)

end Sys2Proof.Machine
end

