-- ==== Sys2Proof/Proofs/ListFollows.lean ====
section
/-!
PROOFS. Proofs/ListFollows.lean: the deadline list goes on following the groups (R84) through every operation of every block: handing on
keeps it, `enter` puts the deadlines of an entry where they belong, and an entry replaced without it keeps its state and its instants.
-/
namespace Sys2Proof.Machine

/-- The deadline list of a state follows its groups (R84). -/
def State.Listed (s : State) : Prop := s.auc.listFollows

section
variable {s t : State}

theorem Handed.listed (h : Handed s t) (k : s.Listed) : t.Listed := h.listFollows k

/-- A state with the list and the groups of another. -/
theorem State.Listed.same (h : s.Listed) (hd : t.auc.deadlines = s.auc.deadlines) (hg : t.auc.groups = s.auc.groups) : t.Listed := by
  obtain ⟨ordered, holds⟩ := h
  exact ⟨hd ▸ ordered, fun d => by rw [hd, hg]; exact holds d⟩

theorem listed_ite {p : Prop} [Decidable p] (h : s.Listed) (k : t.Listed) : (if p then s else t).Listed := by
  split
  · exact h
  · exact k

theorem listed_foldl {α : Type} {f : State → α → State} (hf : ∀ {u : State} {a : α}, u.Listed → (f u a).Listed) {l : List α}
    (h : s.Listed) : (l.foldl f s).Listed := by
  induction l generalizing s with
  | nil => exact h
  | cons a l ih => exact ih (hf h)

/-! ## Handing on -/

theorem listed_notify {k : NoticeKind} {x : Subject} {d : List Byte} (h : s.Listed) : (notify s k x d).Listed :=
  (handed_notify s k x d).listed h

theorem listed_offer {r : Record} (h : s.Listed) : (offer s r).Listed := (handed_offer s r).listed h

theorem listed_loseRecord {k : RecKind} (h : s.Listed) : (loseRecord s k).Listed := (handed_loseRecord s k).listed h

theorem listed_writerDecide (h : s.Listed) : (writerDecide s).Listed := (handed_writerDecide s).listed h

theorem listed_schedule {i : Fin 8} (h : s.Listed) : (schedule s i).Listed := (handed_schedule s i).listed h

theorem listed_qualityPending (h : s.Listed) : (qualityPending s).Listed := (handed_qualityPending s).listed h

theorem listed_showGroup {g : Fin 32} {vt : Nat} (h : s.Listed) : (showGroup s g vt).Listed := (handed_showGroup s g vt).listed h

theorem listed_judgeJournal (h : s.Listed) : (judgeJournal s).Listed := (handed_judgeJournal s).listed h

theorem listed_traceableReport {v : Bool} (h : s.Listed) : (traceableReport s v).Listed :=
  (handed_traceableReport s v).listed (s := { s with auc := { s.auc with traceableView := v } }) (h.same rfl rfl)

theorem listed_journalReport {v : JournalState} (h : s.Listed) : (journalReport s v).Listed := (handed_journalReport s v).listed h

/-! ## Entries -/

theorem listed_enter {g : Fin 32} {a : Auction} (h : s.Listed) : (enter s g a).Listed := enter_listFollows s g a h

/-- An entry replaced by one with the same deadlines: neither its state nor an instant of one has changed. -/
theorem listed_setGroup {g : Fin 32} {a : Auction} (hd : a.deadlines g = (s.group g).deadlines g) (h : s.Listed) :
    (s.setGroup g a).Listed := setGroup_listFollows s g a hd h

theorem listed_produce {g : Fin 32} {r : HeldRecord} (h : s.Listed) : (produce s g r).Listed := by
  unfold produce
  split
  · exact listed_setGroup rfl h
  · exact listed_offer h

theorem listed_reportIndex {g : Fin 32} {index : Nat} (h : s.Listed) : (reportIndex s g index).Listed :=
  listed_foldl listed_offer (listed_setGroup rfl h)

/-- A stamp counted against a group moves none of its deadlines. -/
theorem reported_deadlines (a : Auction) (d : Disposition) (ph : AuctionState) (q : Nat) (g : Fin 32) :
    (a.reported d ph q).deadlines g = a.deadlines g := by
  unfold Auction.reported
  split <;> rfl

theorem listed_reportIssue {st : Stamp} (h : s.Listed) : (reportIssue s st).Listed := by
  unfold reportIssue
  split
  · exact listed_setGroup (reported_deadlines _ _ _ _ _) h
  · exact h

theorem listed_leapReport (h : s.Listed) : (leapReport s).Listed :=
  (handed_leapReport s).listed (reconverted_listFollows s h allGroups)

/-! ## Auctions -/

/-- An entry entered, a record produced, the group shown. -/
theorem listed_entered {g : Fin 32} {a : Auction} {r : HeldRecord} {vt : Nat} (h : s.Listed) :
    (showGroup (produce (enter s g a) g r) g vt).Listed := listed_showGroup (listed_produce (listed_enter h))

/-- A record produced, an entry entered, the group shown. -/
theorem listed_produced {g : Fin 32} {r : HeldRecord} {a : Auction} {vt : Nat} (h : s.Listed) :
    (showGroup (enter (produce s g r) g a) g vt).Listed := listed_showGroup (listed_enter (listed_produce h))

theorem listed_callStarted {g : Fin 32} (h : s.Listed) : (callStarted g s).Listed := listed_showGroup (listed_enter h)

theorem listed_windowStarted {g : Fin 32} (h : s.Listed) : (windowStarted g s).Listed :=
  listed_entered (s := { s with auc := { s.auc with draws := s.auc.draws + 1 } }) (h.same rfl rfl)

theorem listed_cutGroup {g : Fin 32} {cutTime : Nat} {forced : Bool} (h : s.Listed) : (cutGroup s g cutTime forced).Listed := by
  unfold cutGroup cutGroupWith
  exact listed_showGroup (listed_enter h)

theorem listed_ended {g : Fin 32} (h : s.Listed) : (ended g s).Listed := by
  unfold ended
  split
  · exact listed_cutGroup h
  · exact listed_entered h

theorem listed_heldBack {g : Fin 32} (h : s.Listed) : (heldBack g s).Listed := by
  unfold heldBack
  exact listed_entered h

theorem listed_settled {g : Fin 32} (h : s.Listed) : (settled g s).Listed := by
  unfold settled
  exact listed_entered h

theorem listed_showExtension {g : Fin 32} (h : s.Listed) : (showExtension g s).Listed := listed_showGroup (listed_produce h)

theorem listed_extendEarly {g : Fin 32} (h : s.Listed) : (extendEarly g s).Listed := listed_showExtension (listed_enter h)

theorem listed_extendLate {g : Fin 32} (h : s.Listed) : (extendLate g s).Listed := by
  unfold extendLate
  simp only []
  split
  · exact listed_showExtension (listed_enter (listed_produce h))
  · exact listed_showExtension (listed_enter h)

theorem listed_clearGroup {g : Fin 32} (h : s.Listed) : (clearGroup g s).Listed := by
  unfold clearGroup
  exact listed_produced h

theorem listed_cancelGroup {g : Fin 32} (h : s.Listed) : (cancelGroup g s).Listed := by
  unfold cancelGroup
  exact listed_produced h

theorem listed_armGroup {g : Fin 32} {a : ArmArgs} {call window : Start} (h : s.Listed) :
    (armGroup g a call window s).state.Listed := by
  have cleared : (if (s.group g).state = .idle then s else clearGroup g s).Listed := listed_ite h (listed_clearGroup h)
  unfold armGroup
  generalize (if (s.group g).state = .idle then s else clearGroup g s) = u at cleared ⊢
  refine iteAnswer_state (p := State.Listed) _ ?_ (listed_offer cleared)
  simp only [done]
  exact listed_showGroup (listed_enter (listed_offer cleared))

/-! ## Leap matters -/

theorem listed_applyLeap (h : s.Listed) : (applyLeap s).Listed := by
  unfold applyLeap notifyLeap
  exact listed_notify (listed_qualityPending (listed_offer h))

theorem listed_setPending {new : Leap} (h : s.Listed) : (setPending s new).Listed := by
  have recorded {p : Prop} [Decidable p] {u : State} {r : Record} (k : u.Listed) : (if p then u else offer u r).Listed :=
    listed_ite k (listed_offer k)
  exact listed_ite h (listed_notify (listed_qualityPending (listed_leapReport (recorded (recorded h)))))

theorem listed_derivePending (h : s.Listed) : (derivePending s).Listed := listed_ite h (listed_setPending h)

theorem listed_announce {x : Tsu} (h : s.Listed) : (announce s x).Listed :=
  listed_derivePending ((handed_showConflict _ _).listed h)

theorem listed_adoptCount {k : Nat} {first : Bool} (h : s.Listed) : (adoptCount s k first).Listed := by
  have adopted {u : State} {r : Record} (k : u.Listed) : (leapReport (offer u r)).Listed := listed_leapReport (listed_offer k)
  exact listed_ite (adopted h) (listed_notify (listed_offer (adopted h)))

theorem listed_takeCount {k : Nat} (h : s.Listed) : (takeCount s k).Listed :=
  listed_ite h (listed_ite (listed_applyLeap h) (listed_adoptCount h))

theorem listed_leapLatch (h : s.Listed) : (leapLatch s).Listed := listed_ite (listed_ite (listed_applyLeap h) h) h

theorem listed_leapApplication (h : s.Listed) : (leapApplication s).Listed := listed_ite (listed_applyLeap h) h

theorem listed_civilMidnight (h : s.Listed) : (civilMidnight s).Listed := listed_ite h h

theorem listed_catchUp (h : s.Listed) : (catchUp s).Listed :=
  listed_leapLatch (listed_civilMidnight (s := leapApplication (leapLatch { s with tsu := s.tsu.dayBack }))
    (listed_leapApplication (listed_leapLatch h)))

theorem listed_announceLeap {v : Nat} (h : s.Listed) : (announceLeap v s).state.Listed := by
  unfold announceLeap
  refine iteAnswer_state _ h ?_
  split
  · exact h
  · exact iteAnswer_state _ h (iteAnswer_state _ h (listed_announce h))

/-! ## The clock -/

theorem listed_openIssuer {cause : OpenCause} (h : s.Listed) : (openIssuer s cause).Listed := (handed_openIssuer s cause).listed h

theorem listed_clockHandOn {old : Tsu} {cause : ClockCause} (h : s.Listed) : (clockHandOn s old cause).Listed := by
  have reported {p : Prop} [Decidable p] {u : State} {v : Bool} (k : u.Listed) : (if p then u else traceableReport u v).Listed :=
    listed_ite k (listed_traceableReport k)
  have tracking {p : Prop} [Decidable p] {u : State} (k : u.Listed) : (if p then trackingReport u else u).Listed :=
    listed_ite (listed_ite (listed_openIssuer k) k) k
  exact listed_ite (listed_notify (listed_qualityPending (tracking (reported (listed_offer h)))))
    (listed_ite (listed_qualityPending h) h)

theorem listed_secondBoundary (h : s.Listed) : (secondBoundary s).Listed := by
  have counted {u : State} {x : Tsu} (k : u.Listed) : State.Listed { u with tsu := x } := k
  exact listed_ite (counted (listed_qualityPending (listed_clockHandOn h))) h

theorem listed_clockSummary (h : s.Listed) : (clockSummary s).Listed := listed_ite (listed_offer h) h

theorem listed_setClockLimits {l : ClockLimits} (h : s.Listed) : (setClockLimits l s).state.Listed :=
  iteAnswer_state _ (listed_clockHandOn (listed_offer (s := { s with tsu := { s.tsu with limits := l } }) h)) h

theorem listed_corrected {theta : Int} (h : s.Listed) : (s.corrected theta).Listed := by
  have stepped : (stepVt s theta).Listed :=
    listed_catchUp (listed_notify (listed_offer (s := shiftCaptures { s with tsu := s.tsu.step theta } theta) h))
  exact listed_ite stepped h

theorem listed_takeSample {x : Sample} (h : s.Listed) : (takeSample s x).Listed := by
  by_cases taken : s.tsu.clock = .acquiring ∨ s.tsu.clock = .tracking
  · rw [takeSample_eq s x taken]
    have sampled : (s.sampled x).Listed :=
      listed_announce (s := takeCount { s with tsu := { s.tsu with f := x.f } } x.leapCount) (listed_takeCount h)
    exact listed_clockHandOn (listed_corrected sampled)
  · rw [takeSample, if_neg taken]
    exact h

end

end Sys2Proof.Machine
end

