-- ==== Sys2Proof/Proofs/ListSteps.lean ====
section
/-!
PROOFS. Proofs/ListSteps.lean: the references, the lines, the journal, the survey and the host link keep the deadline list following the
groups (R84), a restart empties both; so every request, every event and every step keeps it.
-/
namespace Sys2Proof.Machine

section
variable {s : State}

/-! ## The references -/

theorem listed_showRefChange {i : Fin 3} {old : RefState} {cause : RefCause} {extra : List Byte} (h : s.Listed) :
    (showRefChange s i old cause extra).Listed := by
  have cleared : (clearDisagree s i old).Listed := listed_ite h h
  have selected {u : State} {new : Option (Fin 2)} (k : u.Listed) : (selectionReport u new).Listed :=
    listed_ite k (listed_clockHandOn k)
  have reselected {u : State} (k : u.Listed) : (reselect u i old).Listed := listed_ite (listed_ite (selected k) k) k
  exact listed_ite h (reselected (listed_offer cleared))

theorem listed_checkDisagree {i : Fin 3} (h : s.Listed) : (checkDisagree s i).Listed := by
  have shown {a b : Offset} {diff : Int} : (showDisagree s i a b diff).Listed := (handed_showDisagree s i a b diff).listed h
  unfold checkDisagree
  split
  · exact h
  · exact listed_ite (listed_ite h shown) h

theorem listed_handSample {i : Fin 3} {x : Option Sample} (h : s.Listed) : (handSample s i x).Listed := by
  cases x with
  | none => exact h
  | some x => exact listed_ite (listed_takeSample h) h

theorem listed_handOffRef {i : Fin 3} {j : RefStep} (h : s.Listed) : (handOffRef s i j).Listed := by
  have shown : (showRefChange (s.setRef i j.ref) i (s.ref i).state j.cause []).Listed := listed_showRefChange h
  have sampled := listed_handSample (i := i) (x := j.sample) shown
  have checked {p : Prop} [Decidable p] {u : State} (k : u.Listed) : (if p then checkDisagree u i else u).Listed :=
    listed_ite (listed_checkDisagree k) k
  exact listed_ite (checked sampled) (listed_notify (checked sampled))

theorem listed_pulseEdge {i : Fin 3} {rising : Bool} {eighth : Fin 8} (h : s.Listed) : (pulseEdge s i rising eighth).Listed := by
  refine listed_ite h ?_
  split <;> exact h

theorem listed_edgeJudged {i : Fin 3} (h : s.Listed) : (edgeJudged s i).Listed := by
  unfold edgeJudged
  simp only []
  split
  · exact h
  · split
    · exact h
    · exact listed_ite h (listed_handOffRef h)

theorem listed_overrun {i : Fin 3} (h : s.Listed) : (overrun s i).Listed := listed_ite (listed_handOffRef h) h

theorem listed_missingPulse {i : Fin 3} (h : s.Listed) : (missingPulse s i).Listed := listed_ite (listed_handOffRef h) h

theorem listed_labelArrives {i : Fin 2} {l : Option Label} (h : s.Listed) : (labelArrives s i l).Listed := by
  unfold labelArrives
  simp only []
  split <;> exact h

theorem listed_labelFrame {i : Fin 2} {bytes : List Byte} {low : Bool} (h : s.Listed) : (labelFrame s i bytes low).Listed :=
  listed_ite (listed_labelArrives h) h

theorem listed_labelTimeout {cut : CutLabel} (h : s.Listed) : (labelTimeout s cut).Listed := listed_ite (listed_labelArrives h) h

/-! ## The line machine and the grant -/

theorem listed_enterHeld {i : Fin 8} {l : Line} {cause : LineCause} {extra : List Byte} (h : s.Listed) :
    (enterHeld s i l cause extra).Listed := by
  unfold enterHeld notifyHeld
  exact listed_notify (listed_offer (s := s.setLine i { l with state := .held }) h)

theorem listed_drainTest {i : Fin 8} (h : s.Listed) : (drainTest s i).Listed := listed_ite (listed_enterHeld h) h

/-- A line changed, its record and notice handed on. -/
theorem listed_lineShown {i : Fin 8} {l : Line} {r : Record} (h : s.Listed) : (notifyLine (offer (s.setLine i l) r) i).Listed :=
  listed_notify (listed_offer h)

theorem listed_isolate {i : Fin 8} (h : s.Listed) : (isolate s i).Listed := listed_lineShown h

theorem listed_showHealth {i : Fin 8} {old : Option Health} (h : s.Listed) : (showHealth s i old).Listed :=
  listed_ite h (listed_notify (listed_offer h))

theorem listed_frameJudged {i : Fin 8} {j : Judged} (h : s.Listed) : (frameJudged s i j).Listed := by
  cases j with
  | bad cause => exact listed_ite (listed_isolate h) (listed_drainTest (listed_showHealth h))
  | valid fields =>
    have shown {l : Line} {old : Option Health} : (showHealth ((releaseCell s i).setLine i l) i old).Listed := listed_showHealth h
    show (frameValid s i fields).Listed
    unfold frameValid
    simp only []
    split <;> exact shown

theorem listed_startDelimiter {i : Fin 8} {bytes : List Byte} (h : s.Listed) : (startDelimiter s i bytes).Listed := by
  have ended : (endOpenFrame s i bytes).Listed := listed_ite (listed_frameJudged h) h
  exact listed_ite ended ended

theorem listed_frameEnd {i : Fin 8} {bytes : List Byte} {ending : FrameEnding} (h : s.Listed) :
    (frameEnd s i bytes ending).Listed := by
  unfold frameEnd
  split
  · exact listed_frameJudged h
  · exact h
  · exact h

theorem listed_laneEnd {i : Fin 8} (h : s.Listed) : (laneEnd s i).Listed :=
  listed_ite (listed_schedule (listed_drainTest h)) h

/-- A PAUSE input asserted, while the part runs or does not; likewise deasserted. -/
theorem listed_pauseAsserted {i : Fin 8} (h : s.Listed) :
    (if s.live then assertPause s i else s.setLine i { s.line i with pause := true }).Listed := listed_ite (listed_ite h h) h

theorem listed_pauseDeasserted {i : Fin 8} (h : s.Listed) :
    (if s.live then deassertPause s i else s.setLine i { s.line i with pause := false }).Listed := listed_ite (listed_schedule h) h

theorem listed_drainTimeout {i : Fin 8} (h : s.Listed) : (drainTimeout s i).Listed := listed_ite (listed_enterHeld h) h

theorem listed_beginHold {i : Fin 8} (h : s.Listed) : (beginHold s i).Listed := listed_drainTest (listed_lineShown h)

theorem listed_reconfigure {i : Fin 8} {l : Line} (h : s.Listed) : (reconfigure s i l).Listed := listed_offer h

theorem listed_runLine {i : Fin 8} (h : s.Listed) : (runLine s i).Listed := listed_schedule (listed_lineShown h)

theorem listed_handOff {i : Fin 8} {a : Answer} (h : s.Listed) : (handOff s i a).Listed := (handed_handOff s i a).listed h

theorem listed_issueStamp {o : Offer} {q : Nat} (h : s.Listed) : (issueStamp s o q).Listed := by
  have issued : State.Listed { s with sis := { s.sis.count (stampOf s o q) with next := some (q + 1) } } := h
  have handed := listed_handOff (i := o.line) (a := .stamp (stampOf s o q)) (listed_reportIssue (st := stampOf s o q) issued)
  have exhausted {u : State} {st : Stamp} (k : u.Listed) : (exhaustIssuer u st).Listed := listed_notify (listed_offer k)
  unfold issueStamp
  exact listed_ite (exhausted handed) handed

theorem listed_grantOffer (h : s.Listed) : (grantOffer s).Listed := by
  rcases grantOffer_cases s with stands | ⟨o, rest, -, ⟨q, -, -, stamp⟩ | notOpen⟩
  · rw [stands]
    exact h
  · rw [stamp]
    exact listed_issueStamp h
  · rw [notOpen]
    exact listed_handOff h

/-! ## The journal -/

theorem listed_closePage {cause : CloseCause} (h : s.Listed) : (closePage s cause).Listed := by
  unfold closePage closePageWith
  split
  · exact h
  · exact listed_notify (listed_judgeJournal h)

theorem listed_writerNext (h : s.Listed) : (writerNext s).Listed := listed_writerDecide h

theorem listed_reportArm {r : Record} {index : Nat} (h : s.Listed) : (reportArm s r index).Listed := by
  unfold reportArm
  split
  · exact listed_reportIndex h
  · exact h

theorem listed_releaseSource {src : WriteSource} (h : s.Listed) : (releaseSource s src).Listed := by
  cases src <;> exact h

theorem listed_writeVerified (h : s.Listed) : (writeVerified s).Listed := by
  have closed {u : State} {slot : Fin 128} (k : u.Listed) : (closeAfter u slot).Listed :=
    listed_ite (listed_closePage k) (listed_ite (listed_closePage k) k)
  unfold writeVerified
  split
  · exact h
  · rename_i w _
    have stood : (standRecord s w).Listed := h
    exact listed_writerNext (closed (listed_reportArm (listed_releaseSource stood)))

theorem listed_oweAgain {src : WriteSource} (h : s.Listed) : (oweAgain s src).Listed := by
  cases src <;> exact h

theorem listed_loseFailed {r : Record} {src : WriteSource} (h : s.Listed) : (loseFailed s r src).Listed := by
  cases src with
  | pageOpen => exact h
  | intake =>
    exact listed_reportArm (listed_loseRecord (s := { s with ej := { s.ej with intake := s.ej.intake.tail, rewriteOwed := false } }) h)
  | gap g => exact h

theorem listed_writeFailed (h : s.Listed) : (writeFailed s).Listed := by
  unfold writeFailed
  split
  · exact h
  · rename_i w _
    have closed : (closePage (setSlot s w.page w.slot .void) .short).Listed := listed_closePage h
    exact listed_ite h (listed_writerNext (listed_ite (listed_oweAgain closed) (listed_loseFailed closed)))

theorem listed_showDefect {p : Fin 64} {serial : Nat} {cause : DefectCause} (h : s.Listed) : (showDefect s p serial cause).Listed :=
  listed_judgeJournal (listed_notify (listed_offer h))

theorem listed_pageOpenFailed (h : s.Listed) : (pageOpenFailed s).Listed := by
  unfold pageOpenFailed
  split
  · exact h
  · exact listed_ite (listed_writerNext (listed_showDefect h)) h

theorem listed_eraseEnd {notBlank : List (Fin 128)} (h : s.Listed) : (eraseEnd s notBlank).Listed := by
  unfold eraseEnd
  split
  · exact h
  · unfold pageFreed pageSpoiled
    exact listed_ite (listed_writerDecide (listed_judgeJournal (listed_notify h))) (listed_showDefect h)

theorem listed_beginEpoch {r : Recovered} {truncated : Bool} (h : s.Listed) : (beginEpoch s r truncated).Listed :=
  listed_ite (listed_journalReport h) (listed_journalReport h)

theorem listed_recoveryEnd (h : s.Listed) : (recoveryEnd s).Listed := by
  have started {u : State} {r : Recovered} {b : Bool} {d : List Byte} (k : u.Listed) :
      (notify (beginEpoch u r b) .start .nothing d).Listed := listed_notify (listed_beginEpoch k)
  have decided {u : State} {e : Ej} (k : u.Listed) : (writerDecide { u with ej := e }).Listed := listed_writerDecide k
  exact listed_ite (decided (started h)) h

/-! ## The survey -/

theorem listed_pollSchedule (h : s.Listed) : (pollSchedule s).Listed := by
  refine listed_ite ?_ h
  split <;> exact h

theorem listed_busIdled (h : s.Listed) : (busIdled s).Listed := by
  unfold busIdled
  split
  · exact listed_pollSchedule h
  · exact listed_ite h (listed_ite h h)

theorem listed_agentChanged {a : Fin 8} {old : AgentState} {cause : AgentCause} {extra : List Byte} (h : s.Listed) :
    (agentChanged s a old cause extra).Listed := listed_notify (listed_offer h)

theorem listed_moveAgent {a : Fin 8} {new : AgentState} {cause : AgentCause} (h : s.Listed) :
    (moveAgent s a new cause).Listed := listed_ite h (listed_agentChanged h)

theorem listed_failPoll {a : Fin 8} {e : PollError} (h : s.Listed) : (failPoll s a e).Listed :=
  listed_ite (listed_moveAgent h) h

theorem listed_endTxn {t : Txn} {outcome : State → State} (hf : ∀ {u : State}, u.Listed → (outcome u).Listed) (h : s.Listed) :
    (endTxn s t outcome).Listed := listed_ite h (hf h)

theorem listed_endFailed {t : Txn} {e : PollError} (h : s.Listed) : (endFailed s t e).Listed :=
  listed_pollSchedule (listed_endTxn listed_failPoll h)

theorem listed_checkBytes {t : Txn} (h : s.Listed) : (checkBytes s t).Listed := by
  unfold checkBytes
  split
  · exact listed_failPoll h
  · exact listed_moveAgent h

theorem listed_markPhaseEnd {outcome : MarkOutcome} (h : s.Listed) : (markPhaseEnd s outcome).Listed := by
  unfold markPhaseEnd
  split
  · exact h
  · cases outcome with
    | addressNack => exact listed_endFailed h
    | dataNack => exact listed_endFailed h
    | acknowledged => exact h

theorem listed_gapEnd (h : s.Listed) : (gapEnd s).Listed := by
  unfold gapEnd
  split
  · exact listed_ite h h
  · exact h

theorem listed_readPhaseEnd {outcome : ReadOutcome} (h : s.Listed) : (readPhaseEnd s outcome).Listed := by
  unfold readPhaseEnd
  split
  · exact h
  · cases outcome with
    | addressNack => exact listed_endFailed h
    | reading bytes => exact listed_pollSchedule (listed_endTxn listed_checkBytes h)

theorem listed_arbitrationLost (h : s.Listed) : (arbitrationLost s).Listed := by
  unfold arbitrationLost
  split
  · exact h
  · exact listed_ite (listed_pollSchedule (listed_endTxn id h)) (listed_ite h (listed_endFailed h))

theorem listed_busError {isStart : Bool} (h : s.Listed) : (busError s isStart).Listed := by
  have halted {u : State} {t : Txn} (k : u.Listed) : (haltSurvey u t).Listed :=
    (listed_ite k k : (if t.discard then countDiscard u t.agent else u).Listed)
  unfold busError
  split
  · exact h
  · exact listed_notify (listed_offer (halted h))

theorem listed_clockLowTimeout {dataHigh : Bool} (h : s.Listed) : (clockLowTimeout s dataHigh).Listed := by
  unfold clockLowTimeout
  split
  · exact h
  · exact listed_ite (listed_endFailed h) h

theorem listed_lineChange {clockHigh dataHigh : Bool} (h : s.Listed) : (lineChange s clockHigh dataHigh).Listed := by
  unfold lineChange
  split
  · exact listed_ite h h
  all_goals exact h

theorem listed_startConditionSeen {clockHigh dataHigh : Bool} (h : s.Listed) : (startConditionSeen s clockHigh dataHigh).Listed := by
  unfold startConditionSeen
  split
  · exact h
  · exact h
  · exact listed_lineChange h
  · exact listed_lineChange h

/-- The bus made IDLE by a condition. -/
theorem listed_freed {p : Prop} [Decidable p] (h : s.Listed) : (if p then busIdled { s with psm := s.psm.released } else s).Listed :=
  listed_ite (listed_busIdled h) h

theorem listed_busTimerExpiry (h : s.Listed) : (busTimerExpiry s).Listed := listed_ite (listed_ite (listed_busIdled h) h) h

theorem listed_ninthPulse (h : s.Listed) : (ninthPulse s).Listed := listed_ite h h

theorem listed_agentDue {a : Fin 8} (h : s.Listed) : (agentDue s a).Listed := listed_ite (listed_pollSchedule h) h

theorem listed_stale {a : Fin 8} (h : s.Listed) : (stale s a).Listed := listed_ite (listed_moveAgent h) h

theorem listed_enable {a : Fin 8} (h : s.Listed) : (enable s a).Listed := listed_pollSchedule (listed_agentChanged h)

theorem listed_disable {a : Fin 8} (h : s.Listed) : (disable s a).Listed := by
  have discarded {u : State} (k : u.Listed) : (discardTxn u a).Listed := by
    unfold discardTxn
    split
    · exact k
    · exact listed_ite k (listed_ite (listed_endTxn id k) k)
  exact listed_pollSchedule (listed_agentChanged (discarded h))

end

/-! ## Requests -/

/-- An owner whose answer keeps the list following the groups. -/
def ListOwner (owner : State → Answered) : Prop := ∀ s : State, s.Listed → (owner s).state.Listed

theorem listed_addReply {s : State} {kind tag : Byte} {st : Status} {body : List Byte} (h : s.Listed) :
    (addReply s kind tag st body).Listed := h

/-- OK, with the state as the owner leaves it. -/
theorem listed_done {s : State} (h : s.Listed) : (done s).state.Listed := h

theorem listOwner_onLine {n : Nat} {k : State → Fin 8 → Answered} (h : ∀ s : State, s.Listed → ∀ i, (k s i).state.Listed) :
    ListOwner fun s => onLine n s (k s) := fun s l => onLine_state (p := State.Listed) n _ l (h s l)

theorem listOwner_onGroup {n : Nat} {k : State → Fin 32 → Answered} (h : ∀ s : State, s.Listed → ∀ g, (k s g).state.Listed) :
    ListOwner fun s => onGroup n s (k s) := fun s l => onGroup_state (p := State.Listed) n _ l (h s l)

theorem listOwner_onRef {n : Nat} {k : State → Fin 3 → Answered} (h : ∀ s : State, s.Listed → ∀ i, (k s i).state.Listed) :
    ListOwner fun s => onRef n s (k s) := fun s l => onRef_state (p := State.Listed) n _ l (h s l)

theorem listOwner_onAgent {n : Nat} {k : State → Fin 8 → Answered} (h : ∀ s : State, s.Listed → ∀ a, (k s a).state.Listed) :
    ListOwner fun s => onAgent n s (k s) := fun s l => onAgent_state (p := State.Listed) n _ l (h s l)

/-- One answer or another, by a condition. -/
theorem listed_iteAnswer {c : Prop} [Decidable c] {a b : Answered} (h : a.state.Listed) (k : b.state.Listed) :
    (if c then a else b).state.Listed := iteAnswer_state (p := State.Listed) c h k

theorem listOwner_configureReference (a : RefArgs) : ListOwner (configureReference a) :=
  listOwner_onRef fun _ h _ => listed_iteAnswer h (listed_iteAnswer h h)

theorem listOwner_enableReference (n : Nat) : ListOwner (enableReference n) := listOwner_onRef fun s h i => by
  have shown : (showRefChange (s.setRef i (s.ref i).enabled) i .disabled .enable (s.ref i).config.bytes).Listed :=
    listed_showRefChange h
  exact listed_iteAnswer (listed_notify shown) h

theorem listOwner_disableReference (n : Nat) : ListOwner (disableReference n) := listOwner_onRef fun s h i => by
  have shown {r : Ref} {x : Rfe} : (showRefChange { s.setRef i r with rfe := x } i (s.ref i).state .disable []).Listed :=
    listed_showRefChange h
  exact listed_iteAnswer h (listed_notify shown)

theorem listOwner_holdLine (n : Nat) : ListOwner (holdLine n) := listOwner_onLine fun s h i => by
  split
  · exact listed_enterHeld h
  · exact listed_beginHold h
  all_goals exact h

theorem listOwner_configureLine (n mode delay : Nat) : ListOwner (configureLine n mode delay) := listOwner_onLine fun _ h _ =>
  listed_iteAnswer h (listed_iteAnswer (listed_reconfigure h) h)

theorem listOwner_setFilter (n index enabled code mask : Nat) : ListOwner (setFilter n index enabled code mask) :=
  listOwner_onLine fun _ h _ => by
    split
    · exact h
    · exact listed_iteAnswer h (listed_iteAnswer (listed_reconfigure h) h)

theorem listOwner_releaseLine (n : Nat) : ListOwner (releaseLine n) := listOwner_onLine fun _ h _ =>
  listed_iteAnswer (listed_runLine h) h

theorem listOwner_reconnectLine (n : Nat) : ListOwner (reconnectLine n) := listOwner_onLine fun _ h _ =>
  listed_iteAnswer (listed_enterHeld h) h

theorem listOwner_openStamping : ListOwner openStamping := fun s h => by
  unfold openStamping
  split
  · exact listed_iteAnswer (listed_openIssuer h) h
  · exact h
  · exact h

theorem listOwner_armAuction (a : ArmArgs) : ListOwner (armAuction a) := listOwner_onGroup fun _ h _ => by
  refine listed_iteAnswer h (listed_iteAnswer h (listed_iteAnswer h ?_))
  split
  · exact listed_iteAnswer (listed_armGroup h) h
  · exact h
  · exact h

theorem listOwner_extendAuction (n : Nat) : ListOwner (extendAuction n) := listOwner_onGroup fun s h g => by
  have early : (done (extendEarly g s)).state.Listed := listed_done (listed_extendEarly h)
  have late : (done (extendLate g s)).state.Listed := listed_done (listed_extendLate h)
  have refused (st : Status) : (refuse s st).state.Listed := h
  simp only []
  split
  · exact refused _
  · exact refused _
  · exact refused _
  · exact refused _
  · exact listed_iteAnswer (refused _) early
  · exact listed_iteAnswer (refused _) early
  all_goals exact listed_iteAnswer (refused _) late

theorem listOwner_cutNow (n : Nat) : ListOwner (cutNow n) := listOwner_onGroup fun _ h _ => 
  listed_iteAnswer (listed_done (listed_cutGroup h)) h

theorem listOwner_cancelAuction (n : Nat) : ListOwner (cancelAuction n) := listOwner_onGroup fun s h g => by
  have cancelled : (done (cancelGroup g s)).state.Listed := listed_done (listed_cancelGroup h)
  have refused (st : Status) : (refuse s st).state.Listed := h
  split
  · exact refused _
  · exact refused _
  · exact refused _
  · exact refused _
  all_goals exact cancelled

theorem listOwner_clearAuction (n : Nat) : ListOwner (clearAuction n) := listOwner_onGroup fun s h g => by
  have cleared : (done (clearGroup g s)).state.Listed := listed_done (listed_clearGroup h)
  split
  · exact cleared
  · exact cleared
  all_goals exact h

theorem listOwner_readRecords (serial slot count : Nat) : ListOwner (readRecords serial slot count) := fun s h => by
  refine listed_iteAnswer h ?_
  split
  · exact h
  · exact listed_iteAnswer h h

theorem listOwner_requestClose : ListOwner requestClose := fun _ h =>
  listed_iteAnswer h (listed_iteAnswer h (listed_iteAnswer (listed_closePage h) h))

theorem listOwner_confirmExport (serial chain : Nat) (retention : Option Nat) : ListOwner (confirmExport serial chain retention) :=
  fun s h => by
    unfold confirmExport
    simp only []
    split
    · exact h
    · exact listed_iteAnswer h (listed_iteAnswer h (listed_iteAnswer h h))

theorem listOwner_releasePage (serial : Nat) : ListOwner (releasePage serial) := fun s h => by
  unfold releasePage
  split
  · exact h
  · split
    · exact h
    · exact h
    · exact h
    · exact h
    · exact h
    · exact listed_iteAnswer h (listed_iteAnswer h h)

theorem listOwner_annotate (data : List Byte) : ListOwner (annotate data) := fun _ h =>
  listed_iteAnswer (listed_offer h) (listed_offer h)

theorem listOwner_configureAgent (args : AgentArgs) : ListOwner (configureAgent args) :=
  listOwner_onAgent fun _ h _ => listed_iteAnswer h (listed_iteAnswer h h)

theorem listOwner_enableAgent (n : Nat) : ListOwner (enableAgent n) := listOwner_onAgent fun s h a => by
  split
  · exact listed_iteAnswer h (listed_enable h)
  · exact listed_iteAnswer h (listed_enable h)
  all_goals exact h

theorem listOwner_disableAgent (n : Nat) : ListOwner (disableAgent n) := listOwner_onAgent fun _ h _ =>
  listed_iteAnswer h (listed_disable h)

theorem listOwner_resumeSurvey : ListOwner resumeSurvey := fun s h => by
  unfold resumeSurvey
  split
  · exact listed_pollSchedule h
  · exact h

/-- Every request's owner keeps the list following the groups. -/
theorem listOwner_perform (r : Request) : ListOwner (perform r) := by
  cases r with
  | identify => exact fun _ h => h
  | restart => exact fun _ h => h
  | fetchNotices n => exact fun _ h => listed_iteAnswer h h
  | setClockLimits l => exact fun _ h => listed_setClockLimits h
  | readClock => exact fun _ h => h
  | announceLeap v => exact fun _ h => listed_announceLeap h
  | configureReference a => exact listOwner_configureReference a
  | enableReference n => exact listOwner_enableReference n
  | disableReference n => exact listOwner_disableReference n
  | readReference n => exact listOwner_onRef fun _ h _ => h
  | holdLine n => exact listOwner_holdLine n
  | configureLine n m d => exact listOwner_configureLine n m d
  | setFilter n i e c m => exact listOwner_setFilter n i e c m
  | releaseLine n => exact listOwner_releaseLine n
  | reconnectLine n => exact listOwner_reconnectLine n
  | readLine n => exact listOwner_onLine fun _ h _ => h
  | openStamping => exact listOwner_openStamping
  | readIssuer => exact fun _ h => h
  | armAuction a => exact listOwner_armAuction a
  | extendAuction n => exact listOwner_extendAuction n
  | cutNow n => exact listOwner_cutNow n
  | cancelAuction n => exact listOwner_cancelAuction n
  | clearAuction n => exact listOwner_clearAuction n
  | readAuction n => exact listOwner_onGroup fun _ h _ => h
  | readJournal => exact fun _ h => h
  | readRecords p i n => exact listOwner_readRecords p i n
  | closePage => exact listOwner_requestClose
  | confirmExport p c r => exact listOwner_confirmExport p c r
  | releasePage p => exact listOwner_releasePage p
  | annotate d => exact listOwner_annotate d
  | configureAgent a => exact listOwner_configureAgent a
  | enableAgent n => exact listOwner_enableAgent n
  | disableAgent n => exact listOwner_disableAgent n
  | resumeSurvey => exact listOwner_resumeSurvey
  | readAgent n => exact listOwner_onAgent fun _ h _ => h

/-! ## Requests received and the framer -/

section
variable {s : State}

/-- A request received, over any owners that keep the list following the groups. -/
theorem listed_receiveWith {owner : Request → State → Answered} (hf : ∀ r, ListOwner (owner r)) {kind tag : Byte} {p : Parsed}
    (h : s.Listed) : (receiveWith owner kind tag p s).Listed := by
  have performed {u : State} (k : u.Listed) : (performWith owner kind tag p u).Listed := by
    cases p with
    | unknownKind => exact k
    | badLength => exact k
    | request r => exact listed_ite k (listed_addReply (hf r u k))
  exact listed_ite h (listed_ite h (listed_ite h (performed h)))

theorem listed_receivedRequest {kind tag : Byte} {body : List Byte} (h : s.Listed) : (receivedRequest s kind tag body).Listed :=
  listed_receiveWith listOwner_perform h

theorem listed_rejectFrame {cause : RejectCause} (h : s.Listed) : (rejectFrame s cause).Listed := listed_ite h h

theorem listed_frameComplete {a : Assembly} (h : s.Listed) : (frameComplete s a).Listed :=
  listed_ite (listed_receivedRequest h) (listed_rejectFrame h)

theorem listed_frameByte {b : Byte} {stopLow : Bool} (h : s.Listed) : (frameByte s b stopLow).Listed := by
  have kept {f : Framer} {a : Assembly} : (keepByte s f a).Listed := h
  have rejected {c : RejectCause} : (rejectFrame s c).Listed := listed_rejectFrame h
  refine listed_ite rejected ?_
  cases s.hli.framer with
  | hunt => exact h
  | length => exact listed_ite kept (listed_ite rejected kept)
  | header =>
    show (headerByte s _ b).Listed
    unfold headerByte
    split <;> exact kept
  | body => exact kept
  | check => exact listed_ite kept (listed_frameComplete h)

theorem listed_hostByte {b : Byte} {stopLow : Bool} (h : s.Listed) : (hostByte s b stopLow).Listed := by
  have hunted {u : State} (k : u.Listed) : (huntByte u b stopLow).Listed := listed_ite k k
  exact listed_ite h (listed_ite (hunted h) (listed_ite (hunted (listed_rejectFrame h)) (listed_frameByte h)))

theorem listed_byteTimeout (h : s.Listed) : (byteTimeout s).Listed := listed_ite (listed_rejectFrame h) h

/-! ## Restarts (R108, R173) -/

/-- A restart leaves no deadline, and every group IDLE, which has none. -/
theorem listed_restarted {t : State} {n : Nat} (h : t.auc = { draws := n }) : t.Listed := by
  have idle : ∀ g : Fin 32, (({} : Auc).groups[g]).deadlines g = [] := by decide
  refine ⟨by rw [h]; exact List.Pairwise.nil, fun d => ?_⟩
  have none : (({ draws := n } : Auc).groups[d.group]).deadlines d.group = [] := idle d.group
  rw [h, none]

theorem listed_powerUp {a b : Bool} (h : s.Listed) : (powerUp s a b).Listed :=
  listed_ite h (listed_ite h (listed_restarted rfl))

theorem listed_resetAssert {n : Nat} (h : s.Listed) : (resetAssert s n).Listed := listed_ite h (listed_restarted rfl)

theorem listed_resetRelease {a b : Bool} (h : s.Listed) : (resetRelease s a b).Listed :=
  listed_ite (listed_ite (listed_restarted rfl) h) h

theorem listed_supplyLoss (h : s.Listed) : (supplyLoss s).Listed := listed_ite (listed_restarted rfl) h

theorem listed_replySent {a b : Bool} (h : s.Listed) : (replySent s a b).Listed := by
  unfold replySent
  split
  · exact h
  · exact listed_ite (listed_restarted rfl) h

/-! ## Every command and every step -/

theorem listed_expire {g : Fin 32} {k : DeadlineKind} {effect : State → State} (hf : ∀ {u : State}, u.Listed → (effect u).Listed)
    (h : s.Listed) : (expire s g k effect).Listed := listed_ite (hf h) h

end

/-- A command whose effect is the next state. -/
theorem listed_next {t u : State} (h : u.Listed) (ht : (.next u : Host.Outcome State Fault Refusal) = .next t) : t.Listed := by
  cases ht
  exact h

/-- An event that keeps the list following the groups, while the part runs. -/
theorem listed_event {s t : State} {effect : State → State} (hf : ∀ {u : State}, u.Listed → (effect u).Listed) (h : s.Listed)
    (ht : whenLive s effect = .next t) : t.Listed := listed_next (listed_ite (hf h) h) ht

/-- Every command keeps the list following the groups. -/
theorem listed_exec {c : Instr} {s t : State} (h : s.Listed) (ht : exec c s = .next t) : t.Listed := by
  cases hr : c.request? with
  | some q =>
    rw [exec_request (r := q.2) hr] at ht
    exact listed_next (listed_ite (listed_receiveWith (fun _ => listOwner_perform q.2) h) h) ht
  | none =>
    cases c with
    | powerUp a b => exact listed_next (listed_powerUp h) ht
    | resetAssert n => exact listed_next (listed_resetAssert h) ht
    | resetRelease a b => exact listed_next (listed_resetRelease h) ht
    | supplyLoss => exact listed_next (listed_supplyLoss h) ht
    | replySent a b => exact listed_event listed_replySent h ht
    | recoveryEnd => exact listed_event listed_recoveryEnd h ht
    | hostByteReceived v b => exact listed_event listed_hostByte h ht
    | byteTimeout => exact listed_event listed_byteTimeout h ht
    | receivedRequest k g b => exact listed_event listed_receivedRequest h ht
    | secondBoundary => exact listed_event listed_secondBoundary h ht
    | clockSummary => exact listed_event listed_clockSummary h ht
    | leapLatch => exact listed_event listed_leapLatch h ht
    | leapApplication => exact listed_event listed_leapApplication h ht
    | civilMidnight => exact listed_event listed_civilMidnight h ht
    | pulseEdge r b e => exact listed_event listed_pulseEdge h ht
    | edgeJudged r => exact listed_event listed_edgeJudged h ht
    | overrun r => exact listed_event listed_overrun h ht
    | missingPulse r => exact listed_event listed_missingPulse h ht
    | labelFrame r b p => exact listed_event listed_labelFrame h ht
    | labelTimeout x => exact listed_event listed_labelTimeout h ht
    | tagStartDelimiter i b => exact listed_event listed_startDelimiter h ht
    | tagFrameEnd i b e => exact listed_event listed_frameEnd h ht
    | returnFrameEnd i => exact listed_event listed_laneEnd h ht
    | pauseAssert i => exact listed_next (listed_pauseAsserted h) ht
    | pauseDeassert i => exact listed_next (listed_pauseDeasserted h) ht
    | drainTimeout i => exact listed_event listed_drainTimeout h ht
    | grant => exact listed_event listed_grantOffer h ht
    | callStart g => exact listed_event (listed_expire listed_callStarted) h ht
    | windowStart g => exact listed_event (listed_expire listed_windowStarted) h ht
    | endExpiry g => exact listed_event (listed_expire listed_ended) h ht
    | deferLimit g => exact listed_event (listed_expire listed_heldBack) h ht
    | settle g => exact listed_event (listed_expire listed_settled) h ht
    | writeVerified => exact listed_event listed_writeVerified h ht
    | writeFailed => exact listed_event listed_writeFailed h ht
    | pageOpenFailed => exact listed_event listed_pageOpenFailed h ht
    | eraseEnd l => exact listed_event listed_eraseEnd h ht
    | agentDue a => exact listed_event listed_agentDue h ht
    | markPhaseEnd o => exact listed_event listed_markPhaseEnd h ht
    | gapEnd => exact listed_event listed_gapEnd h ht
    | readPhaseEnd o => exact listed_event listed_readPhaseEnd h ht
    | arbitrationLost => exact listed_event listed_arbitrationLost h ht
    | busError b => exact listed_event listed_busError h ht
    | clockLowTimeout b => exact listed_event listed_clockLowTimeout h ht
    | startConditionSeen a b => exact listed_event listed_startConditionSeen h ht
    | stopConditionSeen => exact listed_event listed_freed h ht
    | busTimerExpiry => exact listed_event listed_busTimerExpiry h ht
    | clearingStopSent => exact listed_event listed_freed h ht
    | stale a => exact listed_event listed_stale h ht
    | busLineChange a b => exact listed_event listed_lineChange h ht
    | ninthClearingPulse => exact listed_event listed_ninthPulse h ht
    | _ => exact absurd hr (by simp [Instr.request?])

theorem listed_tick {s : State} (h : s.Listed) : (tick s).Listed := listed_ite h h

/-- Settles O30: handing on keeps the list, `enter` puts an entry's deadlines where they belong, and whatever else replaces an entry keeps
its state and its instants; every command of a step is made of these. -/
theorem deadlineListKept : Obligations.DeadlineListKept := by
  intro s t h ht
  unfold step at ht
  split at ht
  · rename_i c rest _
    exact listed_exec (s := { s with pending := rest }) h ht
  · split at ht
    · exact listed_exec h ht
    · exact listed_next (listed_tick h) ht

end Sys2Proof.Machine
end

