-- ==== Sys2Proof/Proofs/AuctionReadouts.lean ====
section
/-!
PROOFS. Proofs/AuctionReadouts.lean: requests that name no group (R87), the state after reset against the invariants, and what the read-out
of a group withholds of its draw (R93, R107).
-/
namespace Sys2Proof.Machine

/-! ## Requests that name no group (R87) -/

/-- A group above 31 is refused before anything else of the request is looked at. -/
theorem onGroup_unknown (n : Nat) (s : State) (k : Fin 32 → Answered) (h : 31 < n) : onGroup n s k = refuse s .badArgument := by
  rw [onGroup, named_none 32 n h]

/-- Settles O20: each of the six requests looks its group up first. -/
theorem unknownGroupIsRefused : Obligations.UnknownGroupIsRefused := by
  intro s tag n ha hn
  refine ⟨fun a hg => ?_, ?_, ?_, ?_, ?_, ?_⟩
  · exact hostRequest_refused tag (.armAuction a) (armAuction a) s _ ha rfl (onGroup_unknown _ _ _ (hg ▸ hn))
  · exact hostRequest_refused tag (.extendAuction n) (extendAuction n) s _ ha rfl (onGroup_unknown n _ _ hn)
  · exact hostRequest_refused tag (.cutNow n) (cutNow n) s _ ha rfl (onGroup_unknown n _ _ hn)
  · exact hostRequest_refused tag (.cancelAuction n) (cancelAuction n) s _ ha rfl (onGroup_unknown n _ _ hn)
  · exact hostRequest_refused tag (.clearAuction n) (clearAuction n) s _ ha rfl (onGroup_unknown n _ _ hn)
  · exact hostRequest_refused tag (.readAuction n) (readAuction n) s _ ha rfl (onGroup_unknown n _ _ hn)

/-! ## The state after reset -/

theorem reset_lines : State.reset.lines = State.reset.lines.map fun l => { pause := l.pause } := by
  simp [State.reset]

theorem reset_bounded : Bounded State.reset where
  intake := by decide
  replies := by decide
  notices := by decide
  u := by decide
  rateLow := by decide
  rateHigh := by decide
  frac := by decide
  vt := by decide
  rec_ i := by rw [reset_line]; decide
  queue i := by rw [reset_line]; decide
  interleave i := by rw [reset_line]; decide

/-- Settles O33: the reset state is one after a restart: its issuer has issued nothing, its groups are IDLE, its store is blank. -/
theorem resetMeetsInvariants : Obligations.ResetMeetsInvariants := by
  have idle (g : Fin 32) : (State.reset.group g).state ≠ .deferred := by rw [reset_group]; exact nofun
  exact ⟨reset_bounded, accounted_restarted rfl reset_lines, (staysOrdered_restarted {}).ordered,
    listed_restarted (n := 0) rfl, fun _ => idle, .of_check (by decide +kernel), rfl, rfl⟩

/-! ## The draw withheld (R93, R107) -/

/-- An entry with another draw. -/
def Auction.redrawn (a : Auction) (end_ : Option Nat) (nonce : Option Word64) : Auction :=
  { a with drawnEnd := end_, nonce := nonce }

/-- The deadline list of a group with another draw: the instants that follow the drawn end are moved. -/
def redrawnDeadline (g : Fin 32) (moved : Deadline → Nat) (d : Deadline) : Deadline :=
  if d.group = g ∧ (d.kind = .endAt ∨ d.kind = .deferLimit) then { d with instant := moved d } else d

/-- A state whose group has another draw, its deadlines moved with it. -/
def State.redrawn (s : State) (g : Fin 32) (end_ : Option Nat) (nonce : Option Word64) (moved : Deadline → Nat) : State :=
  { s with auc := { s.auc with
      groups := s.auc.groups.set g ((s.group g).redrawn end_ nonce), deadlines := s.auc.deadlines.map (redrawnDeadline g moved) } }

theorem redrawnDeadline_group (g : Fin 32) (moved : Deadline → Nat) (d : Deadline) : (redrawnDeadline g moved d).group = d.group := by
  unfold redrawnDeadline
  split <;> rfl

theorem redrawnDeadline_kind (g : Fin 32) (moved : Deadline → Nat) (d : Deadline) : (redrawnDeadline g moved d).kind = d.kind := by
  unfold redrawnDeadline
  split <;> rfl

/-- Only the instants the read-out withholds are moved. -/
theorem redrawnDeadline_instant (g : Fin 32) (moved : Deadline → Nat) (d : Deadline) (h : ¬ (d.kind = .endAt ∨ d.kind = .deferLimit)) :
    (redrawnDeadline g moved d).instant = d.instant := by
  rw [redrawnDeadline, if_neg fun k => h k.2]

section
variable (s : State) (g : Fin 32) (end_ : Option Nat) (nonce : Option Word64) (moved : Deadline → Nat)

theorem redrawn_group_self : (s.redrawn g end_ nonce moved).group g = (s.group g).redrawn end_ nonce :=
  setGroup_group_self s g _

theorem redrawn_group_ne (h : Fin 32) (hg : h ≠ g) : (s.redrawn g end_ nonce moved).group h = s.group h :=
  setGroup_group_ne s g _ h hg

/-- A deadline's place in the list, its kind and what is shown of its instant are those before. -/
theorem redrawn_deadlineBytes (h : Fin 32) (k : DeadlineKind) :
    deadlineBytes (s.redrawn g end_ nonce moved) h k = deadlineBytes s h k := by
  have found : (s.redrawn g end_ nonce moved).auc.deadlines.find? (fun d => d.group == h && d.kind == k)
      = (s.auc.deadlines.find? fun d => d.group == h && d.kind == k).map (redrawnDeadline g moved) := by
    show (s.auc.deadlines.map (redrawnDeadline g moved)).find? _ = _
    rw [List.find?_map]
    congr 2
    funext d
    simp only [Function.comp, redrawnDeadline_group, redrawnDeadline_kind]
  unfold deadlineBytes
  rw [found]
  cases hd : s.auc.deadlines.find? fun d => d.group == h && d.kind == k with
  | none => rfl
  | some d =>
    have kind : d.kind = k := by
      have := List.find?_some hd
      simp only [Bool.and_eq_true, beq_iff_eq] at this
      exact this.2
    by_cases withheld : k = .endAt ∨ k = .deferLimit
    · simp only [Option.map_some, if_pos withheld]
    · simp only [Option.map_some, if_neg withheld, redrawnDeadline_instant g moved d (kind ▸ withheld)]

/-- Until the cut the read-out of a group shows neither its drawn end nor its nonce. -/
theorem redrawn_auctionBody (hg : (s.group g).state.revealed = false) (h : Fin 32) :
    auctionBody (s.redrawn g end_ nonce moved) h = auctionBody s h := by
  have length : (s.redrawn g end_ nonce moved).auc.deadlines.length = s.auc.deadlines.length := List.length_map _
  unfold auctionBody
  rw [length, funext (redrawn_deadlineBytes s g end_ nonce moved h)]
  by_cases e : h = g
  · subst e
    simp only [redrawn_group_self, Auction.redrawn, hg]
    rfl
  · rw [redrawn_group_ne s g end_ nonce moved h e]
    rfl

/-- A phase frame reads neither. -/
theorem redrawn_phaseFrame (i : Fin 8) (h : Fin 32) (vt : Nat) :
    phaseFrame i h ((s.redrawn g end_ nonce moved).group h) vt = phaseFrame i h (s.group h) vt := by
  by_cases e : h = g
  · subst e
    rw [redrawn_group_self]
    rfl
  · rw [redrawn_group_ne s g end_ nonce moved h e]

/-- The reply to Read Auction, and so the host link behind it, is the same where the bodies of all groups are. -/
theorem readAuction_hli {s t : State} (ha : s.accepts = true) (tb : t.accepts = true) (hh : t.hli = s.hli)
    (hb : ∀ h, auctionBody t h = auctionBody s h) (tag : Byte) (n : Nat) : ∃ u v, exec (.readAuction tag n) s = .next u
      ∧ exec (.readAuction tag n) t = .next v ∧ v.hli = u.hli := by
  by_cases hn : 31 < n
  · have refused (x : State) := hostRequest_refused tag (.readAuction n) (readAuction n) x .badArgument
    refine ⟨_, _, refused s ha rfl (onGroup_unknown n _ _ hn), refused t tb rfl (onGroup_unknown n _ _ hn), ?_⟩
    simp only [State.answered, addReply, acceptRequest, hh]
  · obtain ⟨h, rfl⟩ : ∃ h : Fin 32, n = h.val := ⟨⟨n, by omega⟩, rfl⟩
    have read (x : State) (hx : x.accepts = true) : exec (.readAuction tag h.val) x
        = .next (x.answered 0x35#8 tag .ok (auctionBody x h)) :=
      hostRequest_read tag (.readAuction h.val) (readAuction h.val) x hx rfl (onGroup_val h _ _) rfl
    refine ⟨_, _, read s ha, read t tb, ?_⟩
    simp only [State.answered, addReply, acceptRequest, hh, hb]

end

/-- Settles O52: an entry that is not revealed shows the same body and frame with any draw, and the deadlines moved with the draw are the
two whose instants are withheld. -/
theorem drawIsWithheld : Obligations.DrawIsWithheld := by
  intro s g end_ nonce moved hcut hclosed hcancelled a other s'
  have hidden : (s.group g).state.revealed = false := by
    simp [AuctionState.revealed, hcut, hclosed, hcancelled]
  have body := redrawn_auctionBody s g end_ nonce moved hidden
  exact ⟨body, fun i h vt => redrawn_phaseFrame s g end_ nonce moved i h vt,
    fun tag n ha => readAuction_hli ha (t := s.redrawn g end_ nonce moved) ha rfl body tag n⟩

end Sys2Proof.Machine
end

