-- ==== Sys2Proof/Proofs/GroupsShown.lean ====
section
/-!
PROOFS. Proofs/GroupsShown.lean: a group's entry replaced, with its record, phase frames and notice in one event (R83), said once for every
operation of the Auction Controller that ends so.
-/
namespace Sys2Proof.Machine

/-! ## Phase frames on the lines (R57) -/

/-- The group's phase frame is pending on the line, or a frame is on its lane. -/
def Line.tells (l : Line) (g : Fin 32) : Prop := g ∈ l.phases ∨ l.lane ≠ none

theorem Line.WaitsAs.tells {l m : Line} {g : Fin 32} (h : l.WaitsAs m) (k : l.tells g) : m.tells g := by
  rcases k with pending | sending
  · exact .inl (h.phases pending)
  · exact .inr (by rw [h.same]; exact sending)

/-- With a phase frame pending a lane that may begin a frame begins one (R61). -/
theorem schedule_sends (s : State) (i : Fin 8) (may : (s.line i).maySend = true) (hp : (s.line i).phases ≠ []) :
    ((schedule s i).line i).lane ≠ none := by
  by_cases dropped : 0 < (s.line i).tally.count
  · obtain ⟨-, lane, -⟩ := sendDrop_spec s i _ _ rfl rfl
    rw [schedule_drop s i may dropped, lane]
    exact nofun
  · have untallied : (s.line i).tally.count = 0 := by omega
    by_cases turn : (s.line i).pendingTurn
    · cases hq : (s.line i).quality with
      | true =>
        rw [schedule_quality s i may untallied turn hq]
        simp [sendQuality]
      | false =>
        obtain ⟨g, rest, phases⟩ := List.exists_cons_of_ne_nil hp
        rw [schedule_phase s i may untallied g rest turn hq phases]
        simp [sendPhase]
    · obtain ⟨queued, interleave⟩ := not_or.1 turn
      obtain ⟨a, rest, queue⟩ := List.exists_cons_of_ne_nil queued
      rw [schedule_answer s i may untallied a rest queue (.inl interleave)]
      simp [sendAnswer]

/-- A group made pending on a RUNNING line stays pending there or has a frame sent before it, and no frame may begin. -/
theorem phaseOn_tells (s : State) (g : Fin 32) (i : Fin 8) (h : (s.line i).state = .running) :
    ((phaseOnWith offer g s i).line i).maySend = false ∧ ((phaseOnWith offer g s i).line i).tells g := by
  obtain ⟨u, hu⟩ : ∃ u, u = s.setLine i { s.line i with phases := addGroup g (s.line i).phases } := ⟨_, rfl⟩
  have pending : g ∈ (u.line i).phases := by rw [hu, setLine_line_self]; exact (mem_addGroup g g _).2 (.inl rfl)
  have scheduled : phaseOnWith offer g s i = schedule u i := by rw [hu]; exact if_pos h
  rw [scheduled]
  cases may : (u.line i).maySend with
  | false =>
    rw [schedule_waits u i may]
    exact ⟨may, .inl pending⟩
  | true =>
    have sent := schedule_sends u i may (List.ne_nil_of_mem pending)
    refine ⟨?_, .inr sent⟩
    rw [← Bool.not_eq_true, maySend_iff]
    exact fun free => sent free.2.1

theorem handed_phaseOn (s : State) (g : Fin 32) (i : Fin 8) : Handed s (phaseOnWith offer g s i) := by
  have added : LineKept (s.line i) { s.line i with phases := addGroup g (s.line i).phases } :=
    ⟨rfl, rfl, rfl, rfl, rfl, rfl, rfl, rfl, rfl, List.suffix_refl _, id⟩
  unfold phaseOnWith
  simp only []
  split
  · exact (handed_setLine s i _ added).trans (handed_schedule _ i)
  · exact Handed.refl s

theorem phaseOn_foldl_tells (g : Fin 32) (i : Fin 8) (is : List (Fin 8)) (s : State) (hi : i ∈ is)
    (h : (s.line i).state = .running) : ((is.foldl (phaseOnWith offer g) s).line i).tells g := by
  induction is generalizing s with
  | nil => exact absurd hi List.not_mem_nil
  | cons j is ih =>
    by_cases e : i = j
    · subst e
      obtain ⟨waits, tells⟩ := phaseOn_tells s g i h
      exact (lanesWait_foldl _ (lanesWait_phaseOnWith lanesWait_offer g) is _ i waits).tells tells
    · exact ih _ ((List.mem_cons.1 hi).resolve_left e) (((handed_phaseOn s g j).lines i).state.trans h)

/-! ## Steps 3 and 4 of R83 -/

theorem showGroup_eq (s : State) (g : Fin 32) (vt : Nat) : showGroup s g vt =
    notifyAt (phasePending s g) .auctionState vt (.group g.val) (be 1 ((phasePending s g).group g).state.code) := rfl

theorem phasePending_eq (s : State) (g : Fin 32) : phasePending s g = allEight.foldl (phaseOnWith offer g) s := rfl

theorem group_notifyAt (s : State) (k : NoticeKind) (vt : Nat) (x : Subject) (d : List Byte) (g : Fin 32) :
    (notifyAt s k vt x d).group g = s.group g := by
  unfold notifyAt
  simp only []
  split <;> rfl

/-- A group shown is pending on every RUNNING line whose lane is idle (R57). -/
theorem showGroup_tells (s : State) (g : Fin 32) (vt : Nat) (i : Fin 8) (h : (s.line i).state = .running) :
    ((showGroup s g vt).line i).tells g := by
  rw [showGroup_eq, State.line, lines_notifyAt, phasePending_eq]
  exact phaseOn_foldl_tells g i allEight s (mem_allEight i) h

/-- What a record offered, a line replaced and a notice produced all keep, a group shown keeps. -/
theorem showGroup_keeps {p : State → Prop} (offers : ∀ {s : State} {r : Record}, p s → p (offer s r))
    (lines : ∀ {s : State} {i : Fin 8} {l : Line}, p s → p (s.setLine i l))
    (notices : ∀ {s : State} {k : NoticeKind} {vt : Nat} {x : Subject} {d : List Byte}, p s → p (notifyAt s k vt x d))
    {s : State} (g : Fin 32) (vt : Nat) (h : p s) : p (showGroup s g vt) := by
  have scheduled {u : State} {i : Fin 8} (k : p u) : p (schedule u i) := by
    unfold schedule scheduleWith
    simp only []
    split
    · split
      · exact offers (lines k)
      · split
        · exact lines k
        · exact lines k
        · split
          · exact lines k
          · exact k
    · exact k
  rw [showGroup_eq, phasePending_eq]
  refine notices (List.foldlRecOn (motive := p) _ _ h fun u k i _ => ?_)
  unfold phaseOnWith
  simp only []
  split
  · exact scheduled (lines k)
  · exact k

/-- The notice of a group shown gives its state. -/
theorem noticed_showGroup (s : State) (g : Fin 32) (vt : Nat) :
    Noticed s (showGroup s g vt) .auctionState vt (.group g.val) (be 1 ((showGroup s g vt).group g).state.code) := by
  rw [showGroup_eq, group_notifyAt]
  exact (noticed_notifyAt (phasePending s g) _ vt _ _).sooner (handed_phasePending s g).noticesLe

/-! ## An entry replaced with its record and shown -/

/-- The held list of an entry with a record of the group produced: it joins while the arming index is unassigned (R90). -/
def Auction.heldWith (a : Auction) (record : Option HeldRecord) : List HeldRecord :=
  if a.armIndex = none then a.heldList ++ record.toList else a.heldList

theorem heldWith_none (a : Auction) : a.heldWith none = a.heldList := by
  unfold Auction.heldWith
  split
  · exact List.append_nil _
  · rfl

/-- A record of a group produced: it has joined the held list, or it has been offered and the list is as it was. -/
theorem handed_produced (s : State) (g : Fin 32) (r : HeldRecord) :
    Handed (s.setGroup g { s.group g with heldList := (s.group g).heldWith (some r) }) (produce s g r) := by
  have h := handed_produce s g r
  simpa [Auction.heldWith] using h

/-- A group's entry has been replaced, a record of the change produced if there is one, and the group shown with the VT of the change. -/
structure GroupShown (s t : State) (g : Fin 32) (new : Auction) (vt : Nat) (record : Option HeldRecord) : Prop where
  handed : Handed (enter s g { new with heldList := new.heldWith record }) t
  noticed : Noticed s t .auctionState vt (.group g.val) (be 1 (t.group g).state.code)
  recorded : ∀ r k, record = some r → new.armIndex = some k → Offered s t (r.toRecord g k)
  lines : ∀ i, (s.line i).state = .running → (t.line i).tells g

section
variable (s : State) (g : Fin 32) (new : Auction) (vt : Nat)

theorem groupShown_enter : GroupShown s (showGroup (enter s g new) g vt) g new vt none where
  handed := by
    rw [heldWith_none]
    exact handed_showGroup _ g vt
  noticed := noticed_showGroup (enter s g new) g vt
  recorded := nofun
  lines i h := showGroup_tells (enter s g new) g vt i h

/-- An entry entered, then a record of the group produced. -/
theorem handed_entered (r : HeldRecord) :
    Handed (enter s g { new with heldList := new.heldWith (some r) }) (produce (enter s g new) g r) := by
  have h := handed_produced (enter s g new) g r
  rw [enter_group_self, enter_setGroup] at h
  · exact h
  · rfl

theorem groupShown_produced (r : HeldRecord) :
    GroupShown s (showGroup (produce (enter s g new) g r) g vt) g new vt (some r) := by
  have produced := handed_entered s g new r
  have shown := handed_showGroup (produce (enter s g new) g r) g vt
  refine ⟨produced.trans shown, ?_, fun r' k hr hk => ?_, fun i h => ?_⟩
  · exact (noticed_showGroup (produce (enter s g new) g r) g vt).sooner produced.noticesLe
  · cases hr
    have offered : Offered s (produce (enter s g new) g r) (r.toRecord g k) :=
      offered_produce (enter s g new) g r k (by rw [enter_group_self]; exact hk)
    exact offered.later shown
  · exact showGroup_tells _ g vt i ((produced.lines i).state.trans h)

end

end Sys2Proof.Machine
end

