-- ==== Sys2Proof/Proofs/Expiries.lean ====
section
/-!
PROOFS. Proofs/Expiries.lean: the five deadline expiries (R85, R91, R92, R94, R96, R99), each an entry replaced and shown.
-/
namespace Sys2Proof.Machine

/-! ## The first deadline of the list (R85) -/

/-- What an expiry does to its group: the entry it makes, the VT of the change and the record of it. -/
def Expires (s : State) (d : Deadline) (c : Instr) (new : Auction) (vt : Nat) (record : Option HeldRecord) : Prop :=
  ∃ t, exec c s = .next t
    ∧ Handed (enter { s with auc := { s.auc with draws := t.auc.draws } } d.group { new with heldList := new.heldWith record }) t
    ∧ Noticed s t .auctionState vt (.group d.group.val) (be 1 (t.group d.group).state.code)
    ∧ (∀ r k, record = some r → new.armIndex = some k → Offered s t (r.toRecord d.group k))
    ∧ (t.auc.draws = s.auc.draws + if d.kind = .windowStart then 1 else 0)
    ∧ (∀ i, (s.line i).state = .running → (t.line i).tells d.group)

/-- A state with more draws made. -/
def State.drawn (s : State) (n : Nat) : State := { s with auc := { s.auc with draws := n } }

section
variable {s : State} {d : Deadline} {more : List Deadline} (live : s.live = true) (first : s.auc.deadlines = d :: more)
  (reached : d.instant ≤ s.now)

include live first reached in
/-- The expiry of the first deadline of the list, once VT has reached it. -/
theorem expiry_taken {k : DeadlineKind} (hk : d.kind = k) (effect : State → State) :
    whenLive s (fun s => expire s d.group k effect) = .next (effect s) := by
  have due : s.expiring d.group k = true := by simp [State.expiring, first, hk, reached]
  rw [whenLive_live s _ live, expire, if_pos due]

/-- An expiry that draws `n` draws and then shows the entry it makes. -/
theorem GroupShown.expires {t : State} {c : Instr} {new : Auction} {vt : Nat} {record : Option HeldRecord} {n : Nat}
    (h : GroupShown (s.drawn n) t d.group new vt record) (ht : exec c s = .next t)
    (hn : n = s.auc.draws + if d.kind = .windowStart then 1 else 0) : Expires s d c new vt record := by
  have draws : t.auc.draws = n := h.handed.draws
  exact ⟨t, ht, draws ▸ h.handed, h.noticed, h.recorded, draws.trans hn, h.lines⟩

end

/-- The end drawn lies inside the window, a whole number of microseconds from its start (R92). -/
theorem drawnEndOf_inside {ws length : Nat} (n : Nat) (pos : 0 < length) (span : ws + length * 1000000 ≤ Config.vtSpan) :
    ws ≤ drawnEndOf ws length n ∧ drawnEndOf ws length n < ws + length * 1000000 ∧ (drawnEndOf ws length n - ws) % 1000 = 0 := by
  have micros : Config.drawOffset n % (length * 1000) < length * 1000 := Nat.mod_lt _ (by omega)
  have drawn : drawnEndOf ws length n = ws + Config.drawOffset n % (length * 1000) * 1000 := by
    rw [drawnEndOf, ← Nat.cast_add]
    exact vtOfInt_natCast _ (by omega)
  omega

/-! ## The five expiries -/

/-- Producing a record takes no time. -/
theorem now_produce (s : State) (g : Fin 32) (r : HeldRecord) : (produce s g r).now = s.now := (handed_produce s g r).now

theorem windowStarted_eq (g : Fin 32) (s : State) :
    let a := s.group g
    let ws := startVt a.windowStart
    let e := drawnEndOf ws a.windowLength s.auc.draws
    let n := Config.drawNonce s.auc.draws
    windowStarted g s = showGroup (produce (enter (s.drawn (s.auc.draws + 1)) g
        { a with state := .window, drawnEnd := some e, nonce := some n, drawCheck := checkFor g a.armIndex e n }) g
      ⟨.draw, s.now, .draw ws a.windowLength e n⟩) g s.now := by
  unfold windowStarted
  simp only [now_produce]
  rfl

theorem cutGroup_eq (s : State) (g : Fin 32) (cutTime : Nat) (forced : Bool) : cutGroup s g cutTime forced = showGroup (enter s g
    { s.group g with state := .cut, cutTime := some cutTime, forced := forced, quality := some (s.tsu.u, s.tsu.grade) }) g s.now := rfl

theorem deferGroup_eq (g : Fin 32) (why : DeferReason) (s : State) : deferGroup g why s =
    showGroup (produce (enter s g { s.group g with state := .deferred }) g ⟨.defer, (s.group g).drawnEnd.getD 0,
      .plain (be 1 why.code ++ be 2 (s.group g).deferLimit)⟩) g ((s.group g).drawnEnd.getD 0) := rfl

theorem heldBack_eq (g : Fin 32) (s : State) : heldBack g s = showGroup (produce (enter s g { s.group g with state := .held }) g
    ⟨.hold, s.now, .plain (beOpt (s.auc.deferReason.map (·.code)))⟩) g s.now := by
  unfold heldBack
  simp only [now_produce]
  rfl

theorem settled_eq (g : Fin 32) (s : State) : settled g s = showGroup (produce (enter s g { s.group g with state := .closed }) g
    ⟨.cut, s.now, (s.group g).cutBody⟩) g s.now := by
  unfold settled
  simp only [now_produce]
  rfl

/-- With no reason to defer the cut is taken at its END, otherwise the group is deferred (R94). -/
theorem ended_cut (g : Fin 32) (s : State) (h : s.auc.cutConditions = true) :
    ended g s = cutGroup s g ((s.group g).drawnEnd.getD 0) false := by
  have reason : s.auc.deferReason = none := by
    obtain ⟨view, journal⟩ := Bool.and_eq_true_iff.1 h
    rw [Auc.deferReason, view, journal]
  rw [ended, reason]

theorem ended_deferred (g : Fin 32) (s : State) {why : DeferReason} (h : s.auc.deferReason = some why) :
    ended g s = deferGroup g why s := by
  rw [ended, h]

section
variable {s : State} {d : Deadline} {more : List Deadline} (live : s.live = true) (first : s.auc.deadlines = d :: more)
  (reached : d.instant ≤ s.now)

include live first reached in
theorem callStart_expires (hk : d.kind = .callStart) :
    Expires s d (.callStart d.group) { s.group d.group with state := .call } s.now none :=
  (groupShown_enter s d.group { s.group d.group with state := .call } s.now).expires
    (expiry_taken live first reached hk (callStarted d.group)) (by simp [hk])

include live first reached in
theorem windowStart_expires (hk : d.kind = .windowStart) :
    let a := s.group d.group
    let ws := startVt a.windowStart
    let e := drawnEndOf ws a.windowLength s.auc.draws
    let n := Config.drawNonce s.auc.draws
    Expires s d (.windowStart d.group)
      { a with state := .window, drawnEnd := some e, nonce := some n, drawCheck := checkFor d.group a.armIndex e n } s.now
      (some ⟨.draw, s.now, .draw ws a.windowLength e n⟩) := by
  have taken := expiry_taken live first reached hk (windowStarted d.group)
  rw [windowStarted_eq] at taken
  exact (groupShown_produced (s.drawn (s.auc.draws + 1)) d.group _ s.now _).expires taken (by simp [hk])

include live first reached in
theorem endAt_cuts (hk : d.kind = .endAt) (holds : s.auc.cutConditions = true) :
    Expires s d (.endExpiry d.group) { s.group d.group with
      state := .cut, cutTime := some ((s.group d.group).drawnEnd.getD 0), forced := false, quality := some (s.tsu.u, s.tsu.grade) }
      s.now none := by
  have taken := expiry_taken live first reached hk (ended d.group)
  rw [ended_cut _ _ holds, cutGroup_eq] at taken
  exact (groupShown_enter s d.group _ s.now).expires taken (by simp [hk])

include live first reached in
theorem endAt_defers (hk : d.kind = .endAt) {why : DeferReason} (fails : s.auc.deferReason = some why) :
    Expires s d (.endExpiry d.group) { s.group d.group with state := .deferred } ((s.group d.group).drawnEnd.getD 0)
      (some ⟨.defer, (s.group d.group).drawnEnd.getD 0, .plain (be 1 why.code ++ be 2 (s.group d.group).deferLimit)⟩) := by
  have taken := expiry_taken live first reached hk (ended d.group)
  rw [ended_deferred _ _ fails, deferGroup_eq] at taken
  exact (groupShown_produced s d.group _ _ _).expires taken (by simp [hk])

include live first reached in
theorem deferLimit_expires (hk : d.kind = .deferLimit) :
    Expires s d (.deferLimit d.group) { s.group d.group with state := .held } s.now
      (some ⟨.hold, s.now, .plain (beOpt (s.auc.deferReason.map (·.code)))⟩) := by
  have taken := expiry_taken live first reached hk (heldBack d.group)
  rw [heldBack_eq] at taken
  exact (groupShown_produced s d.group _ s.now _).expires taken (by simp [hk])

include live first reached in
theorem settle_expires (hk : d.kind = .settle) :
    Expires s d (.settle d.group) { s.group d.group with state := .closed } s.now
      (some ⟨.cut, s.now, (s.group d.group).cutBody⟩) := by
  have taken := expiry_taken live first reached hk (settled d.group)
  rw [settled_eq] at taken
  exact (groupShown_produced s d.group _ s.now _).expires taken (by simp [hk])

end

/-! ## A deferral that stays (R94, R95)

A page opened for the record of a deferral has the journal judged, and a journal report may cut a DEFERRED group; not where the clock
already withholds the cut. -/

/-- The group is DEFERRED and the traceable predicate fails: no report of the journal cuts it. -/
def State.Deferring (s : State) (g : Fin 32) : Prop := s.auc.traceableView = false ∧ (s.group g).state = .deferred

section
variable {s : State} {g : Fin 32}

theorem deferring_notifyAt {k : NoticeKind} {vt : Nat} {x : Subject} {b : List Byte} (h : s.Deferring g) :
    (notifyAt s k vt x b).Deferring g := by
  unfold notifyAt
  simp only []
  split <;> exact h

theorem deferring_enqueue {r : Record} (h : s.Deferring g) : (enqueue s r).Deferring g := by
  unfold enqueue loseRecord
  simp only []
  split
  · exact h
  · split
    · exact deferring_notifyAt h
    · exact h

theorem deferring_judgeJournalWith {offer : Offerer} (h : s.Deferring g) : (judgeJournalWith offer s).Deferring g := by
  have uncut (v : JournalState) (u : State) (k : u.Deferring g) : (journalReportWith offer u v).Deferring g := by
    have fails : ¬ ({ u.auc with journalView := v } : Auc).cutConditions = true := by simp [Auc.cutConditions, k.1]
    rw [journalReportWith, cutAllWith, if_neg fails]
    exact k
  unfold judgeJournalWith
  split
  · exact h
  · exact h
  all_goals
    simp only []
    split
    · exact h
    · exact deferring_notifyAt (uncut _ _ h)

theorem deferring_writerDecide (h : s.Deferring g) : (writerDecide s).Deferring g := by
  unfold writerDecide
  split
  · split
    · split
      · exact deferring_judgeJournalWith h
      · exact h
    · unfold beginNext
      simp only []
      split
      · exact h
      · exact h
      · exact h
      · split <;> exact h
  · exact h

theorem deferring_offer {r : Record} (h : s.Deferring g) : (offer s r).Deferring g := by
  unfold offer
  simp only []
  split
  · exact deferring_writerDecide (deferring_enqueue h)
  · exact deferring_enqueue h

theorem deferring_showGroup {x : Fin 32} {vt : Nat} (h : s.Deferring g) : (showGroup s x vt).Deferring g :=
  showGroup_keeps (p := fun u => u.Deferring g) deferring_offer id deferring_notifyAt x vt h

theorem deferring_produce {r : HeldRecord} (h : s.Deferring g) : (produce s g r).Deferring g := by
  unfold produce
  split
  · refine ⟨h.1, ?_⟩
    rw [setGroup_group_self]
    exact h.2
  · exact deferring_offer h

theorem deferring_deferGroup {why : DeferReason} (h : s.auc.traceableView = false) : (deferGroup g why s).Deferring g := by
  have entered : (enter s g { s.group g with state := .deferred }).Deferring g := ⟨h, by rw [enter_group_self]⟩
  rw [deferGroup_eq]
  exact deferring_showGroup (deferring_produce entered)

end

/-- Settles O50: each expiry makes its entry, produces its record and shows the group; the drawn end is inside the window. -/
theorem deadlinesTakeEffect : Obligations.DeadlinesTakeEffect := by
  intro s d more live first reached g a ws e entered
  refine ⟨callStart_expires live first reached, fun hk => ?_, endAt_cuts live first reached, fun why hk fails => ⟨?_, fun view => ?_⟩,
    deferLimit_expires live first reached, settle_expires live first reached⟩
  · have taken := windowStart_expires live first reached hk
    exact ⟨_, _, drawnEndOf_inside s.auc.draws, taken⟩
  · exact endAt_defers live first reached hk fails
  · have taken := expiry_taken live first reached hk (ended d.group)
    rw [ended_deferred _ _ fails] at taken
    exact ⟨_, taken, (deferring_deferGroup view).2⟩

end Sys2Proof.Machine
end

