-- ==== Sys2Proof/Proofs/AuctionRequests.lean ====
section
/-!
PROOFS. Proofs/AuctionRequests.lean: extension, the forced cut, cancellation and clearing (R97, R101 to R105).
-/
namespace Sys2Proof.Machine

/-! ## A record produced, then the entry replaced and shown -/

/-- A record of a group has been produced, then its entry replaced and the group shown with the VT of the change. -/
structure ProducedThenShown (s u t : State) (g : Fin 32) (r : HeldRecord) (new : Auction) (vt : Nat) : Prop where
  produced : Handed (s.setGroup g { s.group g with heldList := (s.group g).heldWith (some r) }) u
  handed : Handed (enter u g new) t
  noticed : Noticed s t .auctionState vt (.group g.val) (be 1 (t.group g).state.code)
  recorded : ∀ k, (s.group g).armIndex = some k → Offered s t (r.toRecord g k)

theorem producedThenShown (s : State) (g : Fin 32) (r : HeldRecord) (new : Auction) (vt : Nat) :
    ProducedThenShown s (produce s g r) (showGroup (enter (produce s g r) g new) g vt) g r new vt := by
  have produced := handed_produced s g r
  have shown := handed_showGroup (enter (produce s g r) g new) g vt
  refine ⟨produced, shown, ?_, fun k hk => ?_⟩
  · exact (noticed_showGroup (enter (produce s g r) g new) g vt).sooner produced.noticesLe
  · have offered : Offered s (enter (produce s g r) g new) (r.toRecord g k) := (offered_produce s g r k hk).upto rfl
    exact offered.later shown

/-- What producing a record leaves of its group's entry: the held list with the record, the arming index. -/
theorem produce_held (s : State) (g : Fin 32) (r : HeldRecord) :
    ((produce s g r).group g).heldList = (s.group g).heldWith (some r)
      ∧ ((produce s g r).group g).armIndex = (s.group g).armIndex := by
  have h := (handed_produced s g r).held g
  rwa [setGroup_group_self] at h

theorem now_enter (s : State) (g : Fin 32) (a : Auction) : (enter s g a).now = s.now := rfl

theorem tsu_produce (s : State) (g : Fin 32) (r : HeldRecord) : (produce s g r).tsu = s.tsu := (handed_produced s g r).tsu

/-! ## Requests and their replies -/

section
variable {s u t : State} {g : Fin 32} {kind tag : Byte} {new : Auction} {vt : Nat}

/-- The reply to a request whose owner has replaced an entry and shown it. -/
theorem GroupShown.answered {record : Option HeldRecord} (h : GroupShown (acceptRequest s kind tag) t g new vt record) :
    Handed (enter (s.answered kind tag .ok []) g { new with heldList := new.heldWith record }) (addReply t kind tag .ok [])
      ∧ Noticed s (addReply t kind tag .ok []) .auctionState vt (.group g.val)
        (be 1 ((addReply t kind tag .ok []).group g).state.code)
      ∧ ∀ r k, record = some r → new.armIndex = some k → Offered s (addReply t kind tag .ok []) (r.toRecord g k) :=
  ⟨h.handed.addReply kind tag .ok [], h.noticed, h.recorded⟩

/-- The reply to a request whose owner has produced a record first. -/
theorem ProducedThenShown.answered {r : HeldRecord} (h : ProducedThenShown (acceptRequest s kind tag) u t g r new vt) :
    Handed ((s.answered kind tag .ok []).setGroup g { s.group g with heldList := (s.group g).heldWith (some r) })
        (addReply u kind tag .ok [])
      ∧ Handed (enter (addReply u kind tag .ok []) g new) (addReply t kind tag .ok [])
      ∧ Noticed s (addReply t kind tag .ok []) .auctionState vt (.group g.val)
        (be 1 ((addReply t kind tag .ok []).group g).state.code)
      ∧ ∀ k, (s.group g).armIndex = some k → Offered s (addReply t kind tag .ok []) (r.toRecord g k) :=
  ⟨h.produced.addReply kind tag .ok [], h.handed.addReply kind tag .ok [], h.noticed, h.recorded⟩

end

/-! ## Extension (R101 to R103) -/

/-- The record of an extension of an entry. -/
def Auction.extendRecord (a : Auction) (vt : Nat) : HeldRecord :=
  ⟨.extend, vt, .plain (beVt (startVt a.windowStart) ++ be 1 a.extUsed)⟩

/-- An entry whose window start an extension has set. -/
def Auction.extendedTo (a : Auction) (w : Start) : Auction := { a with windowStart := some w, extUsed := a.extUsed + 1 }

/-- An entry whose draw an extension withdraws (R103). -/
def Auction.withdrawn (a : Auction) : Auction := { a with state := .call, drawnEnd := none, nonce := none, drawCheck := .noCheck }

theorem showExtension_eq (g : Fin 32) (s : State) (a : Auction) :
    showExtension g (enter s g a) = showGroup (produce (enter s g a) g (a.extendRecord s.now)) g s.now := by
  have entry : (enter s g a).group g = a := enter_group_self s g a
  unfold showExtension
  simp only [now_produce, entry]
  rfl

/-- The start an extension before the window leads to (R102). -/
def State.earlyStart (s : State) (a : Auction) : Start :=
  startAt s (vtOfInt ((startVt a.windowStart : Int) + (a.extLength * nsPerSecond : Nat)))

/-- The start an extension that withdraws the draw leads to (R103). -/
def State.lateStart (s : State) (a : Auction) : Start :=
  startAt s (vtOfInt ((upToMs s.now : Int) + (a.extLength * nsPerSecond : Nat)))

theorem extendEarly_eq (g : Fin 32) (s : State) :
    extendEarly g s = showExtension g (enter s g ((s.group g).extendedTo (s.earlyStart (s.group g)))) := rfl

/-- The record of a draw withdrawn (R103). -/
def withdrawRecord (vt e : Nat) (n : Word64) : HeldRecord := ⟨.withdraw, vt, .withdraw e n⟩

/-- The entry an extension leads to that withdraws the draw, its record held before (R103). -/
def Auction.lateEntry (a : Auction) (w : Start) (withdraw : HeldRecord) : Auction :=
  { a.withdrawn.extendedTo w with heldList := a.heldWith (some withdraw) }

theorem extendLate_eq (g : Fin 32) (s : State) (e : Nat) (n : Word64) (he : (s.group g).drawnEnd = some e)
    (hn : (s.group g).nonce = some n) : extendLate g s = showExtension g (enter (produce s g (withdrawRecord s.now e n)) g
      ((s.group g).lateEntry (s.lateStart (s.group g)) (withdrawRecord s.now e n))) := by
  have draw : (s.group g).draw = some (e, n) := by rw [Auction.draw, he, hn]
  have held := (produce_held s g ⟨.withdraw, s.now, .withdraw e n⟩).1
  unfold extendLate State.lateStart startAt withdrawRecord
  simp only [draw, held, now_produce, tsu_produce]
  rfl

/-- A critical record offered behind at most seven others of its event (R113). -/
theorem offeredAfter_behind {s u : State} {c n : Nat} {r : Record} (h : HandsOn c n s u) (few : c ≤ 7)
    (k : s.ej.intake <+: u.ej.intake) (hr : r.kind.critical = true) : OfferedAfter c s (offer u r) r := by
  intro takes room
  rw [hr, takes_critical_iff] at takes
  rw [if_pos hr] at room
  obtain ⟨stalled, exhausted, -⟩ := takes
  obtain ⟨stalled', exhausted'⟩ := h.critical stalled exhausted
  have grown := h.room
  have slots : s.ej.intake.length + c < 32 := room
  exact mem_drop_le k.length_le (offered_offer u r (by rw [hr, takes_critical_iff]; exact ⟨stalled', exhausted', by omega⟩))

theorem OfferedAfter.later {n : Nat} {s t u : State} {r : Record} (h : OfferedAfter n s t r) (k : Handed t u) :
    OfferedAfter n s u r := fun takes room => mem_drop_of_prefix k.intake _ (h takes room)

/-- A record of a group whose arming index is known is offered. -/
theorem produce_offers (s : State) (g : Fin 32) (r : HeldRecord) {k : Nat} (h : (s.group g).armIndex = some k) :
    produce s g r = offer s (r.toRecord g k) := by
  rw [produce, h]

/-- The EXTEND record of a late extension joins behind its WITHDRAW record. -/
theorem offeredAfter_withdraw (s : State) (g : Fin 32) (vt : Nat) (b : AucBody) (a : Auction) (r : HeldRecord) {k : Nat}
    (hk : (s.group g).armIndex = some k) (ha : a.armIndex = some k) (open_ : a.state ≠ .deferred) (hr : r.kind.critical = true) :
    OfferedAfter 1 s (produce (enter (produce s g ⟨.withdraw, vt, b⟩) g a) g r) (r.toRecord g k) := by
  have withdrawn : HandsOn 1 1 s (produce s g ⟨.withdraw, vt, b⟩) := by
    rw [produce_offers s g _ hk]
    exact handsOn_offer s (HeldRecord.toRecord ⟨.withdraw, vt, b⟩ g k)
  have entered := withdrawn.then (handsOn_enter _ g a (.inl open_))
  have joined : s.ej.intake <+: (produce s g ⟨.withdraw, vt, b⟩).ej.intake := (handed_produced s g _).intake
  rw [produce_offers (enter _ g a) g r (by rw [enter_group_self]; exact ha)]
  exact offeredAfter_behind entered (by decide) joined hr

/-- What a late extension does: the draw withdrawn, then the entry extended (R103). -/
structure LateExtension (s u t : State) (g : Fin 32) (withdraw extend : HeldRecord) (new : Auction) : Prop where
  withdrawn : Handed (s.setGroup g { s.group g with heldList := (s.group g).heldWith (some withdraw) }) u
  handed : Handed (enter u g new) t
  noticed : Noticed s t .auctionState s.now (.group g.val) (be 1 (t.group g).state.code)
  recorded : ∀ k, (s.group g).armIndex = some k →
    Offered s t (withdraw.toRecord g k) ∧ OfferedAfter 1 s t (extend.toRecord g k)

/-- The reply to a late extension. -/
theorem LateExtension.answered {s u t : State} {g : Fin 32} {kind tag : Byte} {withdraw extend : HeldRecord} {new : Auction}
    (h : LateExtension (acceptRequest s kind tag) u t g withdraw extend new) :
    Handed ((s.answered kind tag .ok []).setGroup g { s.group g with heldList := (s.group g).heldWith (some withdraw) })
        (addReply u kind tag .ok [])
      ∧ Handed (enter (addReply u kind tag .ok []) g new) (addReply t kind tag .ok [])
      ∧ Noticed s (addReply t kind tag .ok []) .auctionState s.now (.group g.val)
        (be 1 ((addReply t kind tag .ok []).group g).state.code)
      ∧ ∀ k, (s.group g).armIndex = some k → Offered s (addReply t kind tag .ok []) (withdraw.toRecord g k)
        ∧ OfferedAfter 1 s (addReply t kind tag .ok []) (extend.toRecord g k) :=
  ⟨h.withdrawn.addReply kind tag .ok [], h.handed.addReply kind tag .ok [], h.noticed, h.recorded⟩

/-- Two records of a group held one behind the other. -/
theorem heldWith_heldWith (a b : Auction) (r q : HeldRecord) (hi : b.armIndex = a.armIndex) (hl : b.heldList = a.heldWith (some r)) :
    b.heldWith (some q) = if a.armIndex = none then a.heldList ++ [r, q] else a.heldList := by
  unfold Auction.heldWith at hl ⊢
  rw [hi, hl]
  split
  · exact List.append_assoc _ _ _
  · rfl

/-- A withdrawal produced, then an entry that holds it extended and shown. -/
theorem lateExtension_of (g : Fin 32) (s : State) (e : Nat) (n : Word64) (b : Auction)
    (hi : b.armIndex = (s.group g).armIndex) (hl : b.heldList = (s.group g).heldWith (some (withdrawRecord s.now e n)))
    (hs : b.state ≠ .deferred) :
    LateExtension s (produce s g (withdrawRecord s.now e n)) (showExtension g (enter (produce s g (withdrawRecord s.now e n)) g b)) g
      (withdrawRecord s.now e n) (b.extendRecord s.now)
      { b with heldList := if (s.group g).armIndex = none then
          (s.group g).heldList ++ [withdrawRecord s.now e n, b.extendRecord s.now] else (s.group g).heldList } := by
  have held := heldWith_heldWith (s.group g) b _ (b.extendRecord s.now) hi hl
  have produced := handed_produced s g (withdrawRecord s.now e n)
  have shown := groupShown_produced (produce s g (withdrawRecord s.now e n)) g b s.now (b.extendRecord s.now)
  have entered := handed_entered (produce s g (withdrawRecord s.now e n)) g b (b.extendRecord s.now)
  rw [showExtension_eq, now_produce]
  have last := handed_showGroup (produce (enter (produce s g (withdrawRecord s.now e n)) g b) g (b.extendRecord s.now)) g s.now
  refine ⟨produced, held ▸ shown.handed, shown.noticed.sooner produced.noticesLe, fun k hk => ⟨?_, ?_⟩⟩
  · have first : Offered s (enter (produce s g (withdrawRecord s.now e n)) g
        { b with heldList := b.heldWith (some (b.extendRecord s.now)) }) ((withdrawRecord s.now e n).toRecord g k) :=
      (offered_produce s g _ k hk).upto rfl
    exact (first.later entered).later last
  · exact (offeredAfter_withdraw s g s.now _ b _ hk (hi.trans hk) hs rfl).later last

theorem lateExtension (g : Fin 32) (s : State) (e : Nat) (n : Word64) (he : (s.group g).drawnEnd = some e)
    (hn : (s.group g).nonce = some n) :
    let b := (s.group g).lateEntry (s.lateStart (s.group g)) (withdrawRecord s.now e n)
    LateExtension s (produce s g (withdrawRecord s.now e n)) (extendLate g s) g (withdrawRecord s.now e n) (b.extendRecord s.now)
      { b with heldList := if (s.group g).armIndex = none then
          (s.group g).heldList ++ [withdrawRecord s.now e n, b.extendRecord s.now] else (s.group g).heldList } := by
  rw [extendLate_eq g s e n he hn]
  exact lateExtension_of g s e n _ rfl rfl nofun

theorem earlyExtension (g : Fin 32) (s : State) :
    let new := (s.group g).extendedTo (s.earlyStart (s.group g))
    GroupShown s (extendEarly g s) g new s.now (some (new.extendRecord s.now)) := by
  intro new
  rw [extendEarly_eq, showExtension_eq]
  exact groupShown_produced s g new s.now _

/-! ## The owners by the state of the group -/

section
variable (s : State) (g : Fin 32)

theorem extendAuction_early (h : (s.group g).state = .armed ∨ (s.group g).state = .call)
    (left : (s.group g).extUsed ≠ (s.group g).maxExt) : extendAuction g.val s = done (extendEarly g s) := by
  rw [extendAuction, onGroup_val]
  rcases h with h | h <;> simp only [h, if_neg left]

theorem extendAuction_late (h : (s.group g).state = .window ∨ (s.group g).state = .deferred ∨ (s.group g).state = .held)
    (left : (s.group g).extUsed ≠ (s.group g).maxExt) : extendAuction g.val s = done (extendLate g s) := by
  rw [extendAuction, onGroup_val]
  rcases h with h | h | h <;> simp only [h, if_neg left]

theorem extendAuction_limit (idle : (s.group g).state ≠ .idle) (cut : (s.group g).state ≠ .cut) (closed : (s.group g).state ≠ .closed)
    (cancelled : (s.group g).state ≠ .cancelled) (used : (s.group g).extUsed = (s.group g).maxExt) :
    extendAuction g.val s = refuse s .extensionLimit := by
  rw [extendAuction, onGroup_val]
  cases h : (s.group g).state with
  | idle => exact absurd h idle
  | cut => exact absurd h cut
  | closed => exact absurd h closed
  | cancelled => exact absurd h cancelled
  | armed | call | window | deferred | held => simp only [h, if_pos used]

theorem extendAuction_tooLate (h : (s.group g).state = .cut ∨ (s.group g).state = .closed) :
    extendAuction g.val s = refuse s .tooLate := by
  rw [extendAuction, onGroup_val]
  rcases h with h | h <;> simp only [h]

theorem extendAuction_wrongState (h : (s.group g).state = .idle ∨ (s.group g).state = .cancelled) :
    extendAuction g.val s = refuse s .wrongState := by
  rw [extendAuction, onGroup_val]
  rcases h with h | h <;> simp only [h]

theorem cutNow_held (h : (s.group g).state = .held) : cutNow g.val s = done (cutGroup s g s.now true) := by
  rw [cutNow, onGroup_val, if_pos h]

theorem cutNow_refused (h : (s.group g).state ≠ .held) : cutNow g.val s = refuse s .wrongState := by
  rw [cutNow, onGroup_val, if_neg h]

theorem cancelAuction_open (h : (s.group g).state = .armed ∨ (s.group g).state = .call ∨ (s.group g).state = .window
    ∨ (s.group g).state = .deferred ∨ (s.group g).state = .held) : cancelAuction g.val s = done (cancelGroup g s) := by
  rw [cancelAuction, onGroup_val]
  rcases h with h | h | h | h | h <;> simp only [h]

theorem cancelAuction_tooLate (h : (s.group g).state = .cut ∨ (s.group g).state = .closed) :
    cancelAuction g.val s = refuse s .tooLate := by
  rw [cancelAuction, onGroup_val]
  rcases h with h | h <;> simp only [h]

theorem cancelAuction_wrongState (h : (s.group g).state = .idle ∨ (s.group g).state = .cancelled) :
    cancelAuction g.val s = refuse s .wrongState := by
  rw [cancelAuction, onGroup_val]
  rcases h with h | h <;> simp only [h]

theorem clearAuction_over (h : (s.group g).state = .closed ∨ (s.group g).state = .cancelled) :
    clearAuction g.val s = done (clearGroup g s) := by
  rw [clearAuction, onGroup_val]
  rcases h with h | h <;> simp only [h]

theorem clearAuction_refused (closed : (s.group g).state ≠ .closed) (cancelled : (s.group g).state ≠ .cancelled) :
    clearAuction g.val s = refuse s .wrongState := by
  rw [clearAuction, onGroup_val]
  cases h : (s.group g).state with
  | closed => exact absurd h closed
  | cancelled => exact absurd h cancelled
  | idle | armed | call | window | deferred | held | cut => rfl

/-! ## The cut, the cancellation and the clearing -/

theorem cutNow_shown : GroupShown s (cutGroup s g s.now true) g
    { s.group g with state := .cut, cutTime := some s.now, forced := true, quality := some (s.tsu.u, s.tsu.grade) } s.now none := by
  rw [cutGroup_eq]
  exact groupShown_enter s g _ s.now

/-- The record of a cancellation (R104). -/
def Auction.cancelRecord (a : Auction) (vt : Nat) : HeldRecord := ⟨.cancel, vt, .cancel a.state a.inCount a.draw⟩

/-- The record of a clearing (R105). -/
def Auction.clearRecord (a : Auction) (vt : Nat) : HeldRecord :=
  ⟨.clear, vt, .plain (be 1 a.state.code ++ be 6 a.inCount ++ be 6 a.lastIn ++ be 6 a.lateCount)⟩

theorem cancelGroup_eq : cancelGroup g s = showGroup (enter (produce s g ((s.group g).cancelRecord s.now)) g
    { s.group g with state := .cancelled, heldList := (s.group g).heldWith (some ((s.group g).cancelRecord s.now)) }) g s.now := by
  have held := (produce_held s g ((s.group g).cancelRecord s.now)).1
  unfold cancelGroup
  unfold Auction.cancelRecord at held ⊢
  simp only [held, now_enter, now_produce]

theorem clearGroup_eq : clearGroup g s = showGroup (enter (produce s g ((s.group g).clearRecord s.now)) g
    { heldList := (s.group g).heldWith (some ((s.group g).clearRecord s.now)) }) g s.now := by
  have held := (produce_held s g ((s.group g).clearRecord s.now)).1
  unfold clearGroup
  unfold Auction.clearRecord at held ⊢
  simp only [held, now_enter, now_produce]

theorem cancelGroup_shown : ProducedThenShown s (produce s g ((s.group g).cancelRecord s.now)) (cancelGroup g s) g
    ((s.group g).cancelRecord s.now)
    { s.group g with state := .cancelled, heldList := (s.group g).heldWith (some ((s.group g).cancelRecord s.now)) } s.now := by
  rw [cancelGroup_eq]
  exact producedThenShown s g _ _ s.now

theorem clearGroup_shown : ProducedThenShown s (produce s g ((s.group g).clearRecord s.now)) (clearGroup g s) g
    ((s.group g).clearRecord s.now) { heldList := (s.group g).heldWith (some ((s.group g).clearRecord s.now)) } s.now := by
  rw [clearGroup_eq]
  exact producedThenShown s g _ _ s.now

end

/-! ## The statement -/

/-- Settles O51: the owner's answer by the state of the group, and what each operation hands on, with the reply made after it. -/
theorem auctionRequestsTakeEffect : Obligations.AuctionRequestsTakeEffect := by
  intro s tag g ha a st ok ws held shown extended extend
  have extends_ := hostRequest_done tag (.extendAuction g.val) (extendAuction g.val) s
  have extendRefused := hostRequest_refused tag (.extendAuction g.val) (extendAuction g.val) s
  have cancelRefused := hostRequest_refused tag (.cancelAuction g.val) (cancelAuction g.val) s
  refine ⟨fun hs left => ?_, fun e n hs left he hn => ?_, fun idle cut closed cancelled used => ?_, fun hs => ⟨?_, ?_⟩,
    fun hs => ⟨?_, ?_⟩, fun hs => ?_, fun hs => ?_, fun hs => ?_, fun hs => ?_, fun closed cancelled => ?_⟩
  · obtain ⟨handed, noticed, recorded⟩ := (earlyExtension g (acceptRequest s 0x31#8 tag)).answered
    simp only [acceptRequest_group, acceptRequest_now] at handed noticed recorded
    exact ⟨_, extends_ _ ha rfl (extendAuction_early _ g hs left), handed, noticed, fun k hk => recorded _ k rfl hk⟩
  · obtain ⟨withdrawn, handed, noticed, recorded⟩ := (lateExtension g (acceptRequest s 0x31#8 tag) e n he hn).answered
    simp only [acceptRequest_group, acceptRequest_now] at withdrawn handed noticed recorded
    exact ⟨_, _, extends_ _ ha rfl (extendAuction_late _ g hs left), withdrawn, handed, noticed, recorded⟩
  · exact extendRefused _ ha rfl (extendAuction_limit _ g idle cut closed cancelled used)
  · exact extendRefused _ ha rfl (extendAuction_tooLate _ g hs)
  · exact cancelRefused _ ha rfl (cancelAuction_tooLate _ g hs)
  · exact extendRefused _ ha rfl (extendAuction_wrongState _ g hs)
  · exact cancelRefused _ ha rfl (cancelAuction_wrongState _ g hs)
  · obtain ⟨handed, noticed, -⟩ := (cutNow_shown (acceptRequest s 0x32#8 tag) g).answered
    simp only [acceptRequest_group, acceptRequest_now, heldWith_none] at handed noticed
    exact ⟨_, hostRequest_done tag (.cutNow g.val) (cutNow g.val) s _ ha rfl (cutNow_held _ g hs), handed, noticed⟩
  · exact hostRequest_refused tag (.cutNow g.val) (cutNow g.val) s _ ha rfl (cutNow_refused _ g hs)
  · obtain ⟨produced, handed, noticed, recorded⟩ := (cancelGroup_shown (acceptRequest s 0x33#8 tag) g).answered
    simp only [acceptRequest_group, acceptRequest_now] at produced handed noticed recorded
    exact ⟨_, _, hostRequest_done tag (.cancelAuction g.val) (cancelAuction g.val) s _ ha rfl (cancelAuction_open _ g hs),
      produced, handed, noticed, recorded⟩
  · obtain ⟨produced, handed, noticed, recorded⟩ := (clearGroup_shown (acceptRequest s 0x34#8 tag) g).answered
    simp only [acceptRequest_group, acceptRequest_now] at produced handed noticed recorded
    exact ⟨_, _, hostRequest_done tag (.clearAuction g.val) (clearAuction g.val) s _ ha rfl (clearAuction_over _ g hs),
      produced, handed, noticed, recorded⟩
  · exact hostRequest_refused tag (.clearAuction g.val) (clearAuction g.val) s _ ha rfl (clearAuction_refused _ g closed cancelled)

end Sys2Proof.Machine
end

