-- ==== Sys2Proof/Proofs/Arming.lean ====
section
/-!
PROOFS. Proofs/Arming.lean: Arm Auction (R88, R89): its checks in their order, and the arming of an IDLE group or of one cleared first.
-/
namespace Sys2Proof.Machine

/-! ## The ranges of a request (check 1 of R88) -/

/-- The days of a month (R175). -/
def monthDays (y m : Nat) : Nat :=
  if m = 2 then (if (y % 4 = 0 ∧ y % 100 ≠ 0) ∨ y % 400 = 0 then 29 else 28)
  else if m = 4 ∨ m = 6 ∨ m = 9 ∨ m = 11 then 30 else 31

theorem monthLength_eq (y : Nat) {m : Nat} (first : 1 ≤ m) (last : m ≤ 12) : monthLength y m = monthDays y m := by
  interval_cases m <;> simp [monthLength, monthDays, leapYear]

/-- A civil time in range (R88). -/
def civilInRange (c : CivilArgs) : Prop :=
  2000 ≤ c.year ∧ 1 ≤ c.month ∧ c.month ≤ 12 ∧ 1 ≤ c.day ∧ c.day ≤ monthDays c.year c.month
    ∧ c.hour ≤ 23 ∧ c.minute ≤ 59 ∧ c.milli ≤ 999 ∧ (c.second ≤ 59 ∨ (c.second = 60 ∧ c.hour = 23 ∧ c.minute = 59))

theorem civilValid_iff (c : CivilArgs) : CivilArgs.valid c = true ↔ civilInRange c := by
  rw [CivilArgs.valid, decide_eq_true_iff]
  constructor
  · rintro ⟨year, first, last, rest⟩
    rw [monthLength_eq _ first last] at rest
    exact ⟨year, first, last, rest⟩
  · rintro ⟨year, first, last, rest⟩
    rw [← monthLength_eq _ first last] at rest
    exact ⟨year, first, last, rest⟩

theorem armInRange_iff (a : ArmArgs) : ArmArgs.inRange a = true ↔ civilInRange a.callStart ∧ civilInRange a.windowStart
    ∧ 1000 ≤ a.windowLength ∧ a.windowLength ≤ 600000 ∧ 1 ≤ a.extLength ∧ a.extLength ≤ 3600 ∧ a.maxExt ≤ 15
    ∧ 1 ≤ a.deferLimit ∧ a.deferLimit ≤ 600 := by
  rw [ArmArgs.inRange, Bool.and_eq_true, Bool.and_eq_true, decide_eq_true_iff, civilValid_iff, civilValid_iff, and_assoc]

theorem mayArm_iff (a : Auction) : a.mayArm = true ↔ a.state = .idle ∨ a.state = .closed ∨ a.state = .cancelled := by
  simp [Auction.mayArm, or_assoc]

/-! ## The checks in their order (R88) -/

section
variable (s : State) (g : Fin 32) (a : ArmArgs) (group : a.group = g.val)

include group

theorem armAuction_outOfRange (h : ¬ ArmArgs.inRange a = true) : armAuction a s = refuse s .badArgument := by
  rw [armAuction, group, onGroup_val, if_pos (by simpa using h)]

variable (inRange : ArmArgs.inRange a = true)
include inRange

theorem armAuction_wrongState (h : ¬ (s.group g).mayArm = true) : armAuction a s = refuse s .wrongState := by
  rw [armAuction, group, onGroup_val, if_neg (by simp [inRange]), if_pos (by simpa using h)]

variable (mayArm : (s.group g).mayArm = true)
include mayArm

theorem armAuction_notReady (h : ¬ (s.auc.journalView = .normal ∧ (s.group g).heldList = [])) :
    armAuction a s = refuse s .journalFull := by
  rw [armAuction, group, onGroup_val, if_neg (by simp [inRange]), if_neg (by simp [mayArm]), if_pos (not_and_or.1 h)]

variable (ready : s.auc.journalView = .normal ∧ (s.group g).heldList = [])
include ready

theorem armAuction_noTime (h : s.tsu.fromCivil (CivilArgs.toCivil a.callStart) = none
    ∨ s.tsu.fromCivil (CivilArgs.toCivil a.windowStart) = none) : armAuction a s = refuse s .badArgument := by
  have waits : ¬ (s.auc.journalView ≠ .normal ∨ (s.group g).heldList ≠ []) := fun h => h.elim (absurd ready.1) (absurd ready.2)
  rw [armAuction, group, onGroup_val, if_neg (by simp [inRange]), if_neg (by simp [mayArm]), if_neg waits]
  rcases h with h | h
  · simp only [h]
  · cases hc : s.tsu.fromCivil (CivilArgs.toCivil a.callStart) <;> simp only [h]

variable {c w : Nat} (hc : s.tsu.fromCivil (CivilArgs.toCivil a.callStart) = some c)
  (hw : s.tsu.fromCivil (CivilArgs.toCivil a.windowStart) = some w)
include hc hw

/-- With the first three checks passed and both times converted, the times are compared. -/
theorem armAuction_compares : armAuction a s = if c < w ∧ s.now + nsPerSecond ≤ w then
    armGroup g a ⟨CivilArgs.toCivil a.callStart, c⟩ ⟨CivilArgs.toCivil a.windowStart, w⟩ s else refuse s .badArgument := by
  have waits : ¬ (s.auc.journalView ≠ .normal ∨ (s.group g).heldList ≠ []) := fun h => h.elim (absurd ready.1) (absurd ready.2)
  rw [armAuction, group, onGroup_val, if_neg (by simp [inRange]), if_neg (by simp [mayArm]), if_neg waits]
  simp only [hc, hw]

theorem armAuction_early (h : w ≤ c ∨ w < s.now + 1000000000) : armAuction a s = refuse s .badArgument := by
  have fails : ¬ (c < w ∧ s.now + nsPerSecond ≤ w) := by
    unfold nsPerSecond
    omega
  rw [armAuction_compares s g a group inRange mayArm ready hc hw, if_neg fails]

theorem armAuction_passes (before : c < w) (ahead : s.now + 1000000000 ≤ w) :
    armAuction a s = armGroup g a ⟨CivilArgs.toCivil a.callStart, c⟩ ⟨CivilArgs.toCivil a.windowStart, w⟩ s := by
  rw [armAuction_compares s g a group inRange mayArm ready hc hw, if_pos ⟨before, ahead⟩]

end

/-! ## What the journal takes after a clearing

The CLEAR record is not critical: it takes nothing from the room of the critical ones, and a page opened for it leaves the journal
accepting them. -/

/-- The journal takes no critical record, and so no record at all. -/
def State.Refusing (s : State) : Prop := s.ej.takes true = false

theorem takes_of_refusing {s : State} (h : s.Refusing) (critical : Bool) : s.ej.takes critical = false := by
  cases critical with
  | true => exact h
  | false =>
    have full : ¬ s.ej.takes true = true := by rw [show s.ej.takes true = false from h]; exact Bool.false_ne_true
    rw [← Bool.not_eq_true, takes_open_iff]
    rintro ⟨state, room⟩
    refine full ((takes_critical_iff _).2 ⟨fun e => ?_, fun e => ?_, by omega⟩) <;> simp [e] at state

theorem ej_notifyAt (s : State) (k : NoticeKind) (vt : Nat) (x : Subject) (d : List Byte) : (notifyAt s k vt x d).ej = s.ej := by
  unfold notifyAt
  simp only []
  split <;> rfl

theorem refusing_notifyAt {s : State} {k : NoticeKind} {vt : Nat} {x : Subject} {d : List Byte} (h : s.Refusing) :
    (notifyAt s k vt x d).Refusing := by
  rw [State.Refusing, ej_notifyAt]
  exact h

/-- A lost record changes the counts of losses alone. -/
theorem refusing_loseRecord {s : State} {k : RecKind} (h : s.Refusing) : (loseRecord s k).Refusing := by
  unfold loseRecord
  cases k.critical <;> simp only [] <;> split
  · exact refusing_notifyAt h
  · exact h
  · exact refusing_notifyAt h
  · exact h

theorem refusing_offer {s : State} {r : Record} (h : s.Refusing) : (offer s r).Refusing := by
  have refused : ¬ s.ej.takes r.kind.critical = true := by simp [takes_of_refusing h]
  rw [offer, if_neg refused, enqueue, if_neg refused]
  exact refusing_loseRecord h

theorem refusing_produce {s : State} {g : Fin 32} {r : HeldRecord} (h : s.Refusing) : (produce s g r).Refusing := by
  unfold produce
  split
  · exact h
  · exact refusing_offer h

theorem refusing_clearGroup {s : State} {g : Fin 32} (h : s.Refusing) : (clearGroup g s).Refusing := by
  rw [clearGroup_eq]
  exact showGroup_keeps (p := State.Refusing) refusing_offer id refusing_notifyAt g _ (refusing_produce h)

/-- An entry replaced by one that is DEFERRED only if the entry was. -/
theorem handsOn_setGroup (s : State) (g : Fin 32) (a : Auction) (h : a.state = .deferred → (s.group g).state = .deferred) :
    HandsOn 0 0 s (s.setGroup g a) where
  told := id
  settled := fun x => ⟨x.journal, fun holds g' => by
    rw [setGroup_group]
    split
    · exact mt h (x.cut holds g)
    · exact x.cut holds g'⟩
  serves := fun _ => id
  running := id
  room := Nat.le_refl _
  critical := fun a b => ⟨a, b⟩
  paged := fun a => ⟨a, rfl, Nat.le_refl _⟩

/-- A record of a group produced joins the intake at most as one of its kind. -/
theorem handsOn_produce (s : State) (g : Fin 32) (r : HeldRecord) : HandsOn r.kind.weight 1 s (produce s g r) := by
  cases h : (s.group g).armIndex with
  | none =>
    rw [produce, h]
    exact (handsOn_setGroup s g { s.group g with heldList := (s.group g).heldList ++ [r] } id).mono (Nat.zero_le _) (Nat.zero_le _)
  | some k =>
    rw [produce_offers s g r h]
    exact handsOn_offer s (r.toRecord g k)

/-- A clearing offers no critical record. -/
theorem handsOn_clearGroup (s : State) (g : Fin 32) : HandsOn 0 1 s (clearGroup g s) := by
  rw [clearGroup_eq]
  exact (handsOn_produce s g ((s.group g).clearRecord s.now)).then
    ((handsOn_showGroup _ g _).after (handsOn_enter _ g _ (.inl nofun)))

/-- Whether the journal takes critical records a clearing leaves as it is. -/
theorem takes_clearGroup (s : State) (g : Fin 32) : (clearGroup g s).ej.takes true = s.ej.takes true := by
  cases h : s.ej.takes true with
  | false => exact refusing_clearGroup h
  | true =>
    have cleared := handsOn_clearGroup s g
    have room := cleared.room
    rw [takes_critical_iff] at h ⊢
    obtain ⟨stalled, exhausted, slots⟩ := h
    obtain ⟨stalled', exhausted'⟩ := cleared.critical stalled exhausted
    exact ⟨stalled', exhausted', by omega⟩

/-! ## The arming (R89) -/

/-- The state an arming enters. -/
def enteredState (now : Nat) (call : Start) : AuctionState := if call.vt ≤ now then .call else .armed

theorem enteredState_ne_deferred (now : Nat) (call : Start) : enteredState now call ≠ .deferred := by
  unfold enteredState
  split <;> exact nofun

/-- The arming record of a request that has passed its checks. -/
def armingRecord (s : State) (g : Fin 32) (a : ArmArgs) (call window : Start) : Record :=
  armRecord s g a call window (enteredState s.now call)

/-- The state whose entry is to be loaded: an IDLE group's as it is, any other cleared. -/
def readied (g : Fin 32) (s : State) : State := if (s.group g).state = .idle then s else clearGroup g s

/-- A state with the clock of another makes the same arming record. -/
theorem armingRecord_congr {s u : State} (h : u.tsu = s.tsu) (g : Fin 32) (a : ArmArgs) (call window : Start) :
    armingRecord u g a call window = armingRecord s g a call window := by
  have now : u.now = s.now := congrArg Tsu.vt h
  unfold armingRecord armRecord
  rw [now, h]

/-- The arming over the readied state. -/
theorem armGroup_readied (g : Fin 32) (a : ArmArgs) (call window : Start) (s : State) :
    let u := readied g s
    let v := offer u (armingRecord u g a call window)
    armGroup g a call window s =
      if u.ej.takes true then done (showGroup (enter v g (loadedEntry a call window (enteredState u.now call))) g v.now)
      else refuse v .journalFull := rfl

/-- The answer of an arming once its record has been offered: the entry loaded and shown where the journal took the record. -/
def armingAnswer (taken : Bool) (now : Nat) (v : State) (g : Fin 32) (loaded : Auction) : Answered :=
  if taken then done (showGroup (enter v g loaded) g now) else refuse v .journalFull

theorem armingAnswer_taken {taken : Bool} (now : Nat) (v : State) (g : Fin 32) (loaded : Auction) (h : taken = true) :
    armingAnswer taken now v g loaded = done (showGroup (enter v g loaded) g now) := if_pos h

theorem armingAnswer_refused {taken : Bool} (now : Nat) (v : State) (g : Fin 32) (loaded : Auction) (h : taken = false) :
    armingAnswer taken now v g loaded = refuse v .journalFull := if_neg (by rw [h]; exact Bool.false_ne_true)

/-- The record and the entry of an arming are those of the state before the clearing. -/
theorem armGroup_eq (g : Fin 32) (a : ArmArgs) (call window : Start) (s u : State) (hu : readied g s = u) (clock : u.tsu = s.tsu) :
    armGroup g a call window s =
      armingAnswer (u.ej.takes true) s.now (offer u (armingRecord s g a call window)) g
        (loadedEntry a call window (enteredState s.now call)) := by
  have now : u.now = s.now := congrArg Tsu.vt clock
  rw [armGroup_readied, armingAnswer]
  simp only [hu, armingRecord_congr clock, (handed_offer _ _).now, now]

section
variable (g : Fin 32) (a : ArmArgs) (call window : Start) (s : State)

theorem armGroup_idle (idle : (s.group g).state = .idle) : armGroup g a call window s =
    armingAnswer (s.ej.takes true) s.now (offer s (armingRecord s g a call window)) g
      (loadedEntry a call window (enteredState s.now call)) :=
  armGroup_eq g a call window s s (if_pos idle) rfl

theorem tsu_clearGroup : (clearGroup g s).tsu = s.tsu := by
  have cleared := clearGroup_shown s g
  exact cleared.handed.tsu.trans cleared.produced.tsu

/-- A clearing only adds to the intake and to the notices. -/
theorem clearGroup_grows : s.ej.intake <+: (clearGroup g s).ej.intake ∧ s.hli.notices <+: (clearGroup g s).hli.notices := by
  have cleared := clearGroup_shown s g
  have intake : s.ej.intake <+: (produce s g ((s.group g).clearRecord s.now)).ej.intake := cleared.produced.intake
  have notices : s.hli.notices <+: (produce s g ((s.group g).clearRecord s.now)).hli.notices := cleared.produced.notices
  exact ⟨intake.trans cleared.handed.intake, notices.trans cleared.handed.notices⟩

theorem armGroup_cleared (busy : (s.group g).state ≠ .idle) : armGroup g a call window s =
    armingAnswer (s.ej.takes true) s.now (offer (clearGroup g s) (armingRecord s g a call window)) g
      (loadedEntry a call window (enteredState s.now call)) := by
  rw [armGroup_eq g a call window s (clearGroup g s) (if_neg busy) (tsu_clearGroup g s), takes_clearGroup]

end

/-! ## What an arming hands on -/

/-- A loaded entry shown stands: it is not DEFERRED. -/
theorem shown_group (s : State) (g : Fin 32) (new : Auction) (vt : Nat) (h : new.state ≠ .deferred) :
    (showGroup (enter s g new) g vt).group g = new := by
  rw [(handed_showGroup (enter s g new) g vt).groups g (by rwa [enter_group_self]), enter_group_self]

/-- The notice of a loaded entry gives the state it has been loaded in. -/
theorem noticed_loaded (s : State) (g : Fin 32) (new : Auction) (vt : Nat) (h : new.state ≠ .deferred) :
    Noticed s (showGroup (enter s g new) g vt) .auctionState vt (.group g.val) (be 1 new.state.code) := by
  have shown := noticed_showGroup (enter s g new) g vt
  rw [shown_group s g new vt h] at shown
  exact shown

/-- What was shown before an entry was replaced stands behind it. -/
theorem Noticed.thenShown {s u : State} {k : NoticeKind} {at_ : Nat} {x : Subject} {d : List Byte} (h : Noticed s u k at_ x d)
    (g : Fin 32) (new : Auction) (vt : Nat) : Noticed s (showGroup (enter u g new) g vt) k at_ x d := by
  have entered : Noticed s (enter u g new) k at_ x d := h.upto rfl
  exact entered.later (handed_showGroup _ g vt)

theorem Offered.thenShown {s u : State} {r : Record} (h : Offered s u r) (g : Fin 32) (new : Auction) (vt : Nat) :
    Offered s (showGroup (enter u g new) g vt) r := by
  have entered : Offered s (enter u g new) r := h.upto rfl
  exact entered.later (handed_showGroup _ g vt)

/-- What an arming has done to a group behind a state: its record offered, its entry loaded and shown. -/
structure ArmedBehind (s v t : State) (g : Fin 32) (r : Record) (loaded : Auction) : Prop where
  handed : Handed (enter v g loaded) t
  group : t.group g = loaded
  recorded : Offered s t r
  noticed : Noticed s t .auctionState s.now (.group g.val) (be 1 loaded.state.code)

/-- The group of a state that has been handed its changes armed. -/
theorem armedBehind (s v : State) (g : Fin 32) (r : Record) (loaded : Auction) (open_ : loaded.state ≠ .deferred)
    (recorded : Offered s v r) (notices : s.hli.notices.length ≤ v.hli.notices.length) :
    ArmedBehind s v (showGroup (enter v g loaded) g s.now) g r loaded where
  handed := handed_showGroup (enter v g loaded) g s.now
  group := shown_group v g loaded s.now open_
  recorded := recorded.thenShown g loaded s.now
  noticed := (noticed_loaded v g loaded s.now open_).sooner notices

/-- What a clearing leaves behind, with records handed on after it. -/
structure ClearedBehind (s u v : State) (g : Fin 32) : Prop where
  produced : Handed (s.setGroup g { s.group g with heldList := (s.group g).heldWith (some ((s.group g).clearRecord s.now)) }) u
  handed : Handed (enter u g { heldList := (s.group g).heldWith (some ((s.group g).clearRecord s.now)) }) v
  group : v.group g = { heldList := (s.group g).heldWith (some ((s.group g).clearRecord s.now)) }
  recorded : ∀ k, (s.group g).armIndex = some k → Offered s v (((s.group g).clearRecord s.now).toRecord g k)
  noticed : Noticed s v .auctionState s.now (.group g.val) (be 1 0)

theorem clearedBehind {s v : State} {g : Fin 32} (k : Handed (clearGroup g s) v) :
    ClearedBehind s (produce s g ((s.group g).clearRecord s.now)) v g := by
  have cleared := clearGroup_shown s g
  have handed := cleared.handed.trans k
  have idle : (clearGroup g s).group g = { heldList := (s.group g).heldWith (some ((s.group g).clearRecord s.now)) } := by
    rw [clearGroup_eq]
    exact shown_group _ g _ s.now nofun
  have noticed := cleared.noticed
  rw [idle] at noticed
  refine ⟨cleared.produced, handed, ?_, fun i hi => (cleared.recorded i hi).later k, noticed.later k⟩
  rw [k.groups g (by rw [idle]; exact nofun), idle]

/-- A held list that was empty, with one record produced. -/
theorem heldWith_of_empty (a : Auction) (r : HeldRecord) (h : a.heldList = []) :
    a.heldWith (some r) = if a.armIndex = none then [r] else [] := by
  rw [Auction.heldWith, h]
  rfl

/-! ## The request and its reply -/

section
variable {s u v t : State} {g : Fin 32} {kind tag : Byte}

/-- A request its owner refuses with a status after it has changed the state. -/
theorem hostRequest_refusedAfter (r : Request) (owner : State → Answered) (st : Status) (h : s.accepts = true)
    (hc : checkedRequest r = .request r) (ho : owner (acceptRequest s (kindOf r) tag) = refuse t st) :
    hostRequest tag r owner s = .next (addReply t (kindOf r) tag st []) := by
  rw [hostRequest_accepted tag r owner s h hc, ho]
  rfl

theorem ArmedBehind.answered {r : Record} {loaded : Auction} (h : ArmedBehind (acceptRequest s kind tag) v t g r loaded) :
    ArmedBehind s (addReply v kind tag .ok []) (addReply t kind tag .ok []) g r loaded :=
  ⟨h.handed.addReply kind tag .ok [], h.group, h.recorded, h.noticed⟩

/-- The reply to a request whose owner has cleared the group first. -/
theorem ClearedBehind.answered (st : Status) (h : ClearedBehind (acceptRequest s kind tag) u v g) :
    Handed ((s.answered kind tag st []).setGroup g { s.group g with
        heldList := (s.group g).heldWith (some ((s.group g).clearRecord s.now)) }) (addReply u kind tag st [])
      ∧ Handed (enter (addReply u kind tag st []) g { heldList := (s.group g).heldWith (some ((s.group g).clearRecord s.now)) })
        (addReply v kind tag st [])
      ∧ (addReply v kind tag st []).group g = { heldList := (s.group g).heldWith (some ((s.group g).clearRecord s.now)) }
      ∧ (∀ k, (s.group g).armIndex = some k → Offered s (addReply v kind tag st []) (((s.group g).clearRecord s.now).toRecord g k))
      ∧ Noticed s (addReply v kind tag st []) .auctionState s.now (.group g.val) (be 1 0) :=
  ⟨h.produced.addReply kind tag st [], h.handed.addReply kind tag st [], h.group, h.recorded, h.noticed⟩

end

section
variable {s : State} {tag : Byte} {g : Fin 32} {a : ArmArgs} {call window : Start} (ha : s.accepts = true)
  (passes : armAuction a (acceptRequest s 0x30#8 tag) = armGroup g a call window (acceptRequest s 0x30#8 tag))

include ha passes

/-- An IDLE group armed: the record offered, then the entry loaded and shown. -/
theorem armed_idle (idle : (s.group g).state = .idle) (takes : s.ej.takes true = true) :
    ∃ u t, exec (.armAuction tag a) s = .next t ∧ Handed (s.answered 0x30#8 tag .ok []) u
      ∧ ArmedBehind s u t g (armingRecord s g a call window) (loadedEntry a call window (enteredState s.now call)) := by
  have arms := passes.trans (armGroup_idle g a call window (acceptRequest s 0x30#8 tag) idle)
  rw [acceptRequest_ej, armingAnswer_taken _ _ _ _ takes] at arms
  have offered := handed_offer (acceptRequest s 0x30#8 tag) (armingRecord s g a call window)
  have armed := armedBehind (acceptRequest s 0x30#8 tag) _ g (armingRecord s g a call window)
    (loadedEntry a call window (enteredState s.now call)) (enteredState_ne_deferred s.now call) (offered_offer _ _) offered.noticesLe
  exact ⟨_, _, hostRequest_done tag (.armAuction a) (armAuction a) s _ ha rfl arms, offered.addReply _ _ _ _, armed.answered⟩

/-- An IDLE group whose arming record the journal refuses is not armed. -/
theorem refused_idle (idle : (s.group g).state = .idle) (refused : s.ej.takes true = false) :
    ∃ t, exec (.armAuction tag a) s = .next t ∧ Handed (s.answered 0x30#8 tag .journalFull []) t := by
  have refuses := passes.trans (armGroup_idle g a call window (acceptRequest s 0x30#8 tag) idle)
  rw [acceptRequest_ej, armingAnswer_refused _ _ _ _ refused] at refuses
  exact ⟨_, hostRequest_refusedAfter (.armAuction a) (armAuction a) .journalFull ha rfl refuses, (handed_offer _ _).addReply _ _ _ _⟩

/-- A group that is not IDLE is cleared first, then armed where the journal takes the arming record, or left cleared. -/
theorem armed_cleared (busy : (s.group g).state ≠ .idle) (empty : (s.group g).heldList = []) :
    let r := armingRecord s g a call window
    let loaded := loadedEntry a call window (enteredState s.now call)
    let cleared := (s.group g).clearRecord s.now
    let held : List HeldRecord := if (s.group g).armIndex = none then [cleared] else []
    ∃ t, exec (.armAuction tag a) s = .next t
      ∧ (s.ej.takes true = true → ∃ u v,
          Handed ((s.answered 0x30#8 tag .ok []).setGroup g { s.group g with heldList := held }) u
            ∧ Handed (enter u g { heldList := held }) v ∧ ArmedBehind s v t g r loaded)
      ∧ (s.ej.takes true = false → ∃ u,
          Handed ((s.answered 0x30#8 tag .journalFull []).setGroup g { s.group g with heldList := held }) u
            ∧ Handed (enter u g { heldList := held }) t ∧ t.group g = { heldList := held })
      ∧ (∀ k, (s.group g).armIndex = some k → Offered s t (cleared.toRecord g k))
      ∧ Noticed s t .auctionState s.now (.group g.val) (be 1 0) := by
  intro r loaded cleared held
  have hheld : (s.group g).heldWith (some cleared) = held := heldWith_of_empty _ _ empty
  have arms := passes.trans (armGroup_cleared g a call window (acceptRequest s 0x30#8 tag) busy)
  have offered := handed_offer (clearGroup g (acceptRequest s 0x30#8 tag)) r
  have behind := clearedBehind offered
  cases takes : s.ej.takes true with
  | true =>
    rw [acceptRequest_ej, armingAnswer_taken _ _ _ _ takes] at arms
    obtain ⟨joined, noted⟩ := clearGroup_grows g (acceptRequest s 0x30#8 tag)
    have armed := armedBehind (acceptRequest s 0x30#8 tag) _ g r loaded (enteredState_ne_deferred s.now call)
      (offered_behind (handsOn_clearGroup _ g) joined rfl) (noted.length_le.trans offered.noticesLe)
    obtain ⟨produced, handed, -⟩ := behind.answered .ok
    rw [hheld] at produced handed
    have recorded := behind.recorded
    have noticed := behind.noticed
    simp only [acceptRequest_group, acceptRequest_now] at recorded noticed
    refine ⟨_, hostRequest_done tag (.armAuction a) (armAuction a) s _ ha rfl arms,
      fun _ => ⟨_, _, produced, handed, armed.answered⟩, nofun, fun k hk => ?_, ?_⟩
    · exact ((recorded k hk).thenShown g loaded s.now).answered
    · exact (noticed.thenShown g loaded s.now).answered
  | false =>
    rw [acceptRequest_ej, armingAnswer_refused _ _ _ _ takes] at arms
    obtain ⟨produced, handed, stands, recorded, noticed⟩ := behind.answered .journalFull
    rw [hheld] at produced handed stands
    exact ⟨_, hostRequest_refusedAfter (.armAuction a) (armAuction a) .journalFull ha rfl arms, nofun,
      fun _ => ⟨_, produced, handed, stands⟩, recorded, noticed⟩

end

/-! ## The statement -/

/-- Settles O49: the checks in their order, then the arming of an IDLE group, or of one cleared first, which leaves the journal taking
what it took. -/
theorem armingFollowsItsChecks : Obligations.ArmingFollowsItsChecks := by
  intro s tag a g ha group answered old mayArm ready february days valid inRange
  have refused (st : Status) (h : armAuction a (acceptRequest s 0x30#8 tag) = refuse (acceptRequest s 0x30#8 tag) st) :
      exec (.armAuction tag a) s = .next (answered st) := hostRequest_refused tag (.armAuction a) (armAuction a) s st ha rfl h
  have ranges : ArmArgs.inRange a = true ↔ inRange := armInRange_iff a
  have may : old.mayArm = true ↔ mayArm := mayArm_iff old
  refine ⟨fun out => refused _ (armAuction_outOfRange _ g a group (mt ranges.1 out)),
    fun inside barred => refused _ (armAuction_wrongState _ g a group (ranges.2 inside) (mt may.1 barred)),
    fun inside free waits => refused _ (armAuction_notReady _ g a group (ranges.2 inside) (may.2 free) waits),
    fun inside free now => ⟨fun none => refused _ (armAuction_noTime _ g a group (ranges.2 inside) (may.2 free) now none),
      fun c w hc hw => ⟨fun early => refused _ (armAuction_early _ g a group (ranges.2 inside) (may.2 free) now hc hw early),
        fun before ahead => ?_⟩⟩⟩
  have passes := armAuction_passes (acceptRequest s 0x30#8 tag) g a group (ranges.2 inside) (may.2 free) now hc hw before ahead
  intro entered call window loaded r
  refine ⟨fun idle takes => ?_, refused_idle ha passes, fun busy => ?_⟩
  · obtain ⟨u, t, ht, handed, armed⟩ := armed_idle ha passes idle takes
    exact ⟨u, t, ht, handed, armed.handed, armed.group, armed.recorded, armed.noticed⟩
  · intro cleared held
    obtain ⟨t, ht, arms, refuses, recorded, noticed⟩ := armed_cleared ha passes busy now.2
    refine ⟨t, ht, fun takes => ?_, refuses, recorded, noticed⟩
    obtain ⟨u, v, produced, handed, armed⟩ := arms takes
    exact ⟨u, v, produced, handed, armed.handed, armed.group, armed.recorded, armed.noticed⟩

end Sys2Proof.Machine
end

