-- ==== Sys2Proof/Proofs/RecordsFed.lean ====
section
/-!
PROOFS. Proofs/RecordsFed.lean: of the journal, the operations of the other blocks touch nothing but by offering records.  Said once of each
shared operation and of the clock, the auctions and the leap matters, for every property of the journal that an offer keeps.
-/
namespace Sys2Proof.Machine

/-- Between two states the journal has been touched by nothing but records offered: what holds of it and is kept by every offer holds of
it still. -/
def FedBy (offer : Offerer) (s t : State) : Prop :=
  ∀ P : Ej → Prop, (∀ u r, P u.ej → P (offer u r).ej) → P s.ej → P t.ej

/-- Records offered as events. -/
abbrev Fed : State → State → Prop := FedBy offer

theorem FedBy.refl (offer : Offerer) (s : State) : FedBy offer s s := fun _ _ h => h

section
variable {offer : Offerer} {o s t : State}

theorem FedBy.trans (h : FedBy offer o s) (k : FedBy offer s t) : FedBy offer o t := fun P closed x => k P closed (h P closed x)

theorem FedBy.offered (h : FedBy offer o s) (r : Record) : FedBy offer o (offer s r) := fun P closed x => closed s r (h P closed x)

theorem FedBy.ite {p : Prop} [Decidable p] (h : FedBy offer o s) (k : FedBy offer o t) : FedBy offer o (if p then s else t) := by
  split
  · exact h
  · exact k

theorem FedBy.foldl {α : Type} {f : State → α → State} (hf : ∀ {u : State} {a : α}, FedBy offer o u → FedBy offer o (f u a))
    {l : List α} (h : FedBy offer o s) : FedBy offer o (l.foldl f s) := by
  induction l generalizing s with
  | nil => exact h
  | cons a l ih => exact ih (hf h)

theorem fed_notifyAt {k : NoticeKind} {vt : Nat} {x : Subject} {d : List Byte} (h : FedBy offer o s) :
    FedBy offer o (notifyAt s k vt x d) := fun P closed y => by rw [ej_notifyAt]; exact h P closed y

theorem fed_notify {k : NoticeKind} {x : Subject} {d : List Byte} (h : FedBy offer o s) : FedBy offer o (notify s k x d) :=
  fed_notifyAt h

/-! ## The lanes and the cuts, over any way of offering -/

theorem fed_scheduleWith {i : Fin 8} (h : FedBy offer o s) : FedBy offer o (scheduleWith offer s i) := by
  unfold scheduleWith
  simp only []
  split
  · split
    · exact FedBy.offered (s := s.setLine i _) h _
    · split
      · exact h
      · exact h
      · split <;> exact h
  · exact h

theorem fed_qualityPendingWith (h : FedBy offer o s) : FedBy offer o (qualityPendingWith offer s) :=
  FedBy.foldl (fun {u} {_} k => FedBy.ite (fed_scheduleWith (s := u.setLine _ _) k) k) h

theorem fed_phasePendingWith {g : Fin 32} (h : FedBy offer o s) : FedBy offer o (phasePendingWith offer s g) :=
  FedBy.foldl (fun {u} {_} k => FedBy.ite (fed_scheduleWith (s := u.setLine _ _) k) k) h

theorem fed_showGroupWith {g : Fin 32} {vt : Nat} (h : FedBy offer o s) : FedBy offer o (showGroupWith offer s g vt) := by
  unfold showGroupWith
  exact fed_notifyAt (fed_phasePendingWith h)

theorem fed_cutGroupWith {g : Fin 32} {cutTime : Nat} {forced : Bool} (h : FedBy offer o s) :
    FedBy offer o (cutGroupWith offer s g cutTime forced) := by
  unfold cutGroupWith
  exact fed_showGroupWith (s := enter s g _) h

theorem fed_cutAllWith (h : FedBy offer o s) : FedBy offer o (cutAllWith offer s) :=
  FedBy.ite (FedBy.foldl (fun k => FedBy.ite (fed_cutGroupWith k) k) h) h

theorem fed_journalReportWith {v : JournalState} (h : FedBy offer o s) : FedBy offer o (journalReportWith offer s v) :=
  fed_cutAllWith (s := { s with auc := { s.auc with journalView := v } }) h

end

section
variable {o s : State}

theorem fed_offer {r : Record} (h : Fed o s) : Fed o (offer s r) := h.offered r

theorem fed_schedule {i : Fin 8} (h : Fed o s) : Fed o (schedule s i) := fed_scheduleWith h

theorem fed_qualityPending (h : Fed o s) : Fed o (qualityPending s) := fed_qualityPendingWith h

theorem fed_phasePending {g : Fin 32} (h : Fed o s) : Fed o (phasePending s g) := fed_phasePendingWith h

theorem fed_showGroup {g : Fin 32} {vt : Nat} (h : Fed o s) : Fed o (showGroup s g vt) := fed_showGroupWith h

theorem fed_traceableReport {v : Bool} (h : Fed o s) : Fed o (traceableReport s v) :=
  fed_cutAllWith (s := { s with auc := { s.auc with traceableView := v } }) h

/-! ## Auctions -/

theorem fed_produce {g : Fin 32} {r : HeldRecord} (h : Fed o s) : Fed o (produce s g r) := by
  unfold produce
  split
  · exact h
  · exact fed_offer h

theorem fed_reportIndex {g : Fin 32} {index : Nat} (h : Fed o s) : Fed o (reportIndex s g index) :=
  FedBy.foldl (s := s.setGroup g _) (fun k => fed_offer k) h

theorem fed_reportIssue {st : Stamp} (h : Fed o s) : Fed o (reportIssue s st) := by
  unfold reportIssue
  split <;> exact h

theorem fed_leapReport (h : Fed o s) : Fed o (leapReport s) :=
  FedBy.foldl (fun k => fed_phasePending k) (FedBy.foldl (fun {u} {g} k => by
    unfold reconvertGroup
    exact FedBy.ite k k) h)

/-- An entry entered, a record produced, the group shown. -/
theorem fed_entered {g : Fin 32} {a : Auction} {r : HeldRecord} {vt : Nat} (h : Fed o s) :
    Fed o (showGroup (produce (enter s g a) g r) g vt) := fed_showGroup (fed_produce (s := enter s g a) h)

/-- A record produced, an entry entered, the group shown. -/
theorem fed_produced {g : Fin 32} {r : HeldRecord} {a : Auction} {vt : Nat} (h : Fed o s) :
    Fed o (showGroup (enter (produce s g r) g a) g vt) := fed_showGroup (s := enter _ g a) (fed_produce h)

theorem fed_callStarted {g : Fin 32} (h : Fed o s) : Fed o (callStarted g s) := fed_showGroup (s := enter s g _) h

theorem fed_windowStarted {g : Fin 32} (h : Fed o s) : Fed o (windowStarted g s) :=
  fed_entered (s := { s with auc := { s.auc with draws := s.auc.draws + 1 } }) h

theorem fed_cutGroup {g : Fin 32} {cutTime : Nat} {forced : Bool} (h : Fed o s) : Fed o (cutGroup s g cutTime forced) :=
  fed_cutGroupWith h

theorem fed_ended {g : Fin 32} (h : Fed o s) : Fed o (ended g s) := by
  unfold ended
  split
  · exact fed_cutGroup h
  · exact fed_entered h

theorem fed_heldBack {g : Fin 32} (h : Fed o s) : Fed o (heldBack g s) := by
  unfold heldBack
  exact fed_entered h

theorem fed_settled {g : Fin 32} (h : Fed o s) : Fed o (settled g s) := by
  unfold settled
  exact fed_entered h

theorem fed_showExtension {g : Fin 32} (h : Fed o s) : Fed o (showExtension g s) := fed_showGroup (fed_produce h)

theorem fed_extendEarly {g : Fin 32} (h : Fed o s) : Fed o (extendEarly g s) := by
  unfold extendEarly
  exact fed_showExtension h

theorem fed_extendLate {g : Fin 32} (h : Fed o s) : Fed o (extendLate g s) := by
  unfold extendLate
  simp only []
  split
  · exact fed_showExtension (s := enter _ g _) (fed_produce h)
  · exact fed_showExtension (s := enter s g _) h

theorem fed_clearGroup {g : Fin 32} (h : Fed o s) : Fed o (clearGroup g s) := by
  unfold clearGroup
  exact fed_produced h

theorem fed_cancelGroup {g : Fin 32} (h : Fed o s) : Fed o (cancelGroup g s) := by
  unfold cancelGroup
  exact fed_produced h

theorem fed_armGroup {g : Fin 32} {a : ArmArgs} {call window : Start} (h : Fed o s) : Fed o (armGroup g a call window s).state := by
  have cleared : Fed o (if (s.group g).state = .idle then s else clearGroup g s) := FedBy.ite h (fed_clearGroup h)
  unfold armGroup
  generalize (if (s.group g).state = .idle then s else clearGroup g s) = u at cleared ⊢
  refine iteAnswer_state (p := Fed o) _ ?_ (fed_offer cleared)
  simp only [done]
  exact fed_showGroup (s := enter _ g _) (fed_offer cleared)

/-! ## Leap matters -/

theorem fed_applyLeap (h : Fed o s) : Fed o (applyLeap s) := by
  unfold applyLeap notifyLeap
  exact fed_notify (fed_qualityPending (fed_offer h))

theorem fed_setPending {new : Leap} (h : Fed o s) : Fed o (setPending s new) := by
  have recorded {p : Prop} [Decidable p] {u : State} {r : Record} (k : Fed o u) : Fed o (if p then u else offer u r) :=
    FedBy.ite k (fed_offer k)
  exact FedBy.ite h (fed_notify (fed_qualityPending (fed_leapReport (recorded (recorded h)))))

theorem fed_announce {x : Tsu} (h : Fed o s) : Fed o (announce s x) := by
  have conflict {p : Prop} [Decidable p] {u : State} {reason : ConflictReason} {a b : Nat} (k : Fed o u) :
      Fed o (if p then leapConflict u reason a b else u) := FedBy.ite (fed_offer k) k
  have shown : Fed o (showConflict { s with tsu := x } s.tsu) := conflict (conflict h)
  exact FedBy.ite shown (fed_setPending shown)

theorem fed_adoptCount {k : Nat} {first : Bool} (h : Fed o s) : Fed o (adoptCount s k first) := by
  have adopted {u : State} {r : Record} (k : Fed o u) : Fed o (leapReport (offer u r)) := fed_leapReport (fed_offer k)
  exact FedBy.ite (adopted h) (fed_notify (fed_offer (adopted h)))

theorem fed_takeCount {k : Nat} (h : Fed o s) : Fed o (takeCount s k) :=
  FedBy.ite h (FedBy.ite (fed_applyLeap h) (fed_adoptCount h))

theorem fed_leapLatch (h : Fed o s) : Fed o (leapLatch s) :=
  FedBy.ite (FedBy.ite (fed_applyLeap h) h) h

theorem fed_leapApplication (h : Fed o s) : Fed o (leapApplication s) := FedBy.ite (fed_applyLeap h) h

theorem fed_civilMidnight (h : Fed o s) : Fed o (civilMidnight s) := FedBy.ite h h

theorem fed_catchUp (h : Fed o s) : Fed o (catchUp s) := by
  unfold catchUp
  exact fed_leapLatch (fed_civilMidnight (fed_leapApplication (fed_leapLatch h)))

theorem fed_announceLeap {v : Nat} (h : Fed o s) : Fed o (announceLeap v s).state := by
  unfold announceLeap
  refine iteAnswer_state _ h ?_
  split
  · exact h
  · exact iteAnswer_state _ h (iteAnswer_state _ h (fed_announce h))

/-! ## The clock -/

theorem fed_openIssuer {cause : OpenCause} (h : Fed o s) : Fed o (openIssuer s cause) := by
  unfold openIssuer
  exact fed_notify (fed_offer h)

theorem fed_clockHandOn {old : Tsu} {cause : ClockCause} (h : Fed o s) : Fed o (clockHandOn s old cause) := by
  have reported {p : Prop} [Decidable p] {u : State} {v : Bool} (k : Fed o u) : Fed o (if p then u else traceableReport u v) :=
    FedBy.ite k (fed_traceableReport k)
  have tracking {p : Prop} [Decidable p] {u : State} (k : Fed o u) : Fed o (if p then trackingReport u else u) :=
    FedBy.ite (FedBy.ite (fed_openIssuer k) k) k
  exact FedBy.ite (fed_notify (fed_qualityPending (tracking (reported (fed_offer h)))))
    (FedBy.ite (fed_qualityPending h) h)

theorem fed_secondBoundary (h : Fed o s) : Fed o (secondBoundary s) := by
  have counted {u : State} {x : Tsu} (k : Fed o u) : Fed o { u with tsu := x } := k
  exact FedBy.ite (counted (fed_qualityPending (fed_clockHandOn h))) h

theorem fed_clockSummary (h : Fed o s) : Fed o (clockSummary s) := FedBy.ite (fed_offer h) h

theorem fed_setClockLimits {l : ClockLimits} (h : Fed o s) : Fed o (setClockLimits l s).state :=
  iteAnswer_state _ (fed_clockHandOn (fed_offer (s := { s with tsu := { s.tsu with limits := l } }) h)) h

theorem fed_corrected {theta : Int} (h : Fed o s) : Fed o (s.corrected theta) := by
  have stepped : Fed o (stepVt s theta) :=
    fed_catchUp (fed_notify (fed_offer (s := shiftCaptures { s with tsu := s.tsu.step theta } theta) h))
  exact FedBy.ite stepped h

theorem fed_takeSample {x : Sample} (h : Fed o s) : Fed o (takeSample s x) := by
  by_cases taken : s.tsu.clock = .acquiring ∨ s.tsu.clock = .tracking
  · rw [takeSample_eq s x taken]
    have sampled : Fed o (s.sampled x) := fed_announce (fed_takeCount (s := { s with tsu := { s.tsu with f := x.f } }) h)
    exact fed_clockHandOn (fed_corrected sampled)
  · rw [takeSample, if_neg taken]
    exact h

end

end Sys2Proof.Machine
end

