-- ==== Sys2Proof/Proofs/BlocksFeed.lean ====
section
/-!
PROOFS. Proofs/BlocksFeed.lean: the references, the lines, the issuer and the survey touch nothing of the journal but by offering records,
nor do the requests of the other blocks.
-/
namespace Sys2Proof.Machine

section
variable {o s : State}

/-! ## The references -/

theorem fed_showRefChange {i : Fin 3} {old : RefState} {cause : RefCause} {extra : List Byte} (h : Fed o s) :
    Fed o (showRefChange s i old cause extra) := by
  have cleared : Fed o (clearDisagree s i old) := FedBy.ite h h
  have selected {u : State} {new : Option (Fin 2)} (k : Fed o u) : Fed o (selectionReport u new) :=
    FedBy.ite k (fed_clockHandOn k)
  have reselected {u : State} (k : Fed o u) : Fed o (reselect u i old) := FedBy.ite (FedBy.ite (selected k) k) k
  exact FedBy.ite h (reselected (fed_offer cleared))

theorem fed_checkDisagree {i : Fin 3} (h : Fed o s) : Fed o (checkDisagree s i) := by
  have shown {a b : Offset} {diff : Int} : Fed o (showDisagree s i a b diff) := by
    unfold showDisagree
    exact fed_notify (fed_offer h)
  unfold checkDisagree
  split
  · exact h
  · exact FedBy.ite (FedBy.ite h shown) h

theorem fed_handSample {i : Fin 3} {x : Option Sample} (h : Fed o s) : Fed o (handSample s i x) := by
  cases x with
  | none => exact h
  | some x => exact FedBy.ite (fed_takeSample h) h

theorem fed_handOffRef {i : Fin 3} {j : RefStep} (h : Fed o s) : Fed o (handOffRef s i j) := by
  have shown : Fed o (showRefChange (s.setRef i j.ref) i (s.ref i).state j.cause []) := fed_showRefChange h
  have sampled := fed_handSample (i := i) (x := j.sample) shown
  have checked {p : Prop} [Decidable p] {u : State} (k : Fed o u) : Fed o (if p then checkDisagree u i else u) :=
    FedBy.ite (fed_checkDisagree k) k
  exact FedBy.ite (checked sampled) (fed_notify (checked sampled))

theorem fed_pulseEdge {i : Fin 3} {rising : Bool} {eighth : Fin 8} (h : Fed o s) : Fed o (pulseEdge s i rising eighth) := by
  refine FedBy.ite h ?_
  split <;> exact h

theorem fed_edgeJudged {i : Fin 3} (h : Fed o s) : Fed o (edgeJudged s i) := by
  unfold edgeJudged
  simp only []
  split
  · exact h
  · split
    · exact h
    · exact FedBy.ite h (fed_handOffRef h)

theorem fed_overrun {i : Fin 3} (h : Fed o s) : Fed o (overrun s i) := FedBy.ite (fed_handOffRef h) h

theorem fed_missingPulse {i : Fin 3} (h : Fed o s) : Fed o (missingPulse s i) := FedBy.ite (fed_handOffRef h) h

theorem fed_labelArrives {i : Fin 2} {l : Option Label} (h : Fed o s) : Fed o (labelArrives s i l) := by
  unfold labelArrives
  simp only []
  split <;> exact h

theorem fed_labelFrame {i : Fin 2} {bytes : List Byte} {low : Bool} (h : Fed o s) : Fed o (labelFrame s i bytes low) :=
  FedBy.ite (fed_labelArrives h) h

theorem fed_labelTimeout {cut : CutLabel} (h : Fed o s) : Fed o (labelTimeout s cut) := FedBy.ite (fed_labelArrives h) h

/-! ## The line machine and the grant -/

theorem fed_enterHeld {i : Fin 8} {l : Line} {cause : LineCause} {extra : List Byte} (h : Fed o s) :
    Fed o (enterHeld s i l cause extra) := by
  unfold enterHeld notifyHeld
  exact fed_notify (fed_offer (s := s.setLine i { l with state := .held }) h)

theorem fed_drainTest {i : Fin 8} (h : Fed o s) : Fed o (drainTest s i) := FedBy.ite (fed_enterHeld h) h

/-- A line changed, its record and notice handed on. -/
theorem fed_lineShown {i : Fin 8} {l : Line} {r : Record} (h : Fed o s) : Fed o (notifyLine (offer (s.setLine i l) r) i) :=
  fed_notify (fed_offer h)

theorem fed_showHealth {i : Fin 8} {old : Option Health} (h : Fed o s) : Fed o (showHealth s i old) :=
  FedBy.ite h (fed_notify (fed_offer h))

theorem fed_frameJudged {i : Fin 8} {j : Judged} (h : Fed o s) : Fed o (frameJudged s i j) := by
  cases j with
  | bad cause =>
    have isolated {u : State} (k : Fed o u) : Fed o (isolate u i) := fed_lineShown k
    exact FedBy.ite (isolated h) (fed_drainTest (fed_showHealth h))
  | valid fields =>
    have shown {l : Line} {old : Option Health} : Fed o (showHealth ((releaseCell s i).setLine i l) i old) := fed_showHealth h
    show Fed o (frameValid s i fields)
    unfold frameValid
    simp only []
    split <;> exact shown

theorem fed_startDelimiter {i : Fin 8} {bytes : List Byte} (h : Fed o s) : Fed o (startDelimiter s i bytes) := by
  have ended : Fed o (endOpenFrame s i bytes) := FedBy.ite (fed_frameJudged h) h
  exact FedBy.ite ended ended

theorem fed_frameEnd {i : Fin 8} {bytes : List Byte} {ending : FrameEnding} (h : Fed o s) : Fed o (frameEnd s i bytes ending) := by
  unfold frameEnd
  split
  · exact fed_frameJudged h
  · exact h
  · exact h

theorem fed_laneEnd {i : Fin 8} (h : Fed o s) : Fed o (laneEnd s i) := FedBy.ite (fed_schedule (fed_drainTest h)) h

/-- A PAUSE input asserted, while the part runs or does not; likewise deasserted. -/
theorem fed_pauseAsserted {i : Fin 8} (h : Fed o s) :
    Fed o (if s.live then assertPause s i else s.setLine i { s.line i with pause := true }) := FedBy.ite (FedBy.ite h h) h

theorem fed_pauseDeasserted {i : Fin 8} (h : Fed o s) :
    Fed o (if s.live then deassertPause s i else s.setLine i { s.line i with pause := false }) := FedBy.ite (fed_schedule h) h

theorem fed_drainTimeout {i : Fin 8} (h : Fed o s) : Fed o (drainTimeout s i) := FedBy.ite (fed_enterHeld h) h

theorem fed_handOff {i : Fin 8} {a : Answer} (h : Fed o s) : Fed o (handOff s i a) := by
  unfold handOff
  exact fed_drainTest (fed_schedule h)

theorem fed_issueStamp {f : Offer} {q : Nat} (h : Fed o s) : Fed o (issueStamp s f q) := by
  have answered : Fed o (handOff (reportIssue { s with sis := { s.sis.count (stampOf s f q) with next := some (q + 1) } }
      (stampOf s f q)) f.line (.stamp (stampOf s f q))) := fed_handOff (fed_reportIssue h)
  have exhausted {u : State} {st : Stamp} (k : Fed o u) : Fed o (exhaustIssuer u st) := fed_notify (fed_offer k)
  unfold issueStamp
  exact FedBy.ite (exhausted answered) answered

theorem fed_grantOffer (h : Fed o s) : Fed o (grantOffer s) := by
  rcases grantOffer_cases s with stands | ⟨f, rest, -, ⟨q, -, -, stamp⟩ | notOpen⟩
  · rw [stands]
    exact h
  · rw [stamp]
    exact fed_issueStamp h
  · rw [notOpen]
    exact fed_handOff h

/-! ## The survey -/

theorem fed_pollSchedule (h : Fed o s) : Fed o (pollSchedule s) := by
  refine FedBy.ite ?_ h
  split <;> exact h

theorem fed_busIdled (h : Fed o s) : Fed o (busIdled s) := by
  unfold busIdled
  split
  · exact fed_pollSchedule h
  · exact FedBy.ite h (FedBy.ite h h)

theorem fed_agentChanged {a : Fin 8} {old : AgentState} {cause : AgentCause} {extra : List Byte} (h : Fed o s) :
    Fed o (agentChanged s a old cause extra) := fed_notify (fed_offer h)

theorem fed_moveAgent {a : Fin 8} {new : AgentState} {cause : AgentCause} (h : Fed o s) : Fed o (moveAgent s a new cause) :=
  FedBy.ite h (fed_agentChanged h)

theorem fed_failPoll {a : Fin 8} {e : PollError} (h : Fed o s) : Fed o (failPoll s a e) := FedBy.ite (fed_moveAgent h) h

theorem fed_endTxn {t : Txn} {outcome : State → State} (hf : ∀ {u : State}, Fed o u → Fed o (outcome u)) (h : Fed o s) :
    Fed o (endTxn s t outcome) := FedBy.ite h (hf h)

theorem fed_endFailed {t : Txn} {e : PollError} (h : Fed o s) : Fed o (endFailed s t e) :=
  fed_pollSchedule (fed_endTxn fed_failPoll h)

theorem fed_checkBytes {t : Txn} (h : Fed o s) : Fed o (checkBytes s t) := by
  unfold checkBytes
  split
  · exact fed_failPoll h
  · exact fed_moveAgent h

theorem fed_markPhaseEnd {outcome : MarkOutcome} (h : Fed o s) : Fed o (markPhaseEnd s outcome) := by
  unfold markPhaseEnd
  split
  · exact h
  · cases outcome with
    | addressNack => exact fed_endFailed h
    | dataNack => exact fed_endFailed h
    | acknowledged => exact h

theorem fed_gapEnd (h : Fed o s) : Fed o (gapEnd s) := by
  unfold gapEnd
  split
  · exact FedBy.ite h h
  · exact h

theorem fed_readPhaseEnd {outcome : ReadOutcome} (h : Fed o s) : Fed o (readPhaseEnd s outcome) := by
  unfold readPhaseEnd
  split
  · exact h
  · cases outcome with
    | addressNack => exact fed_endFailed h
    | reading bytes => exact fed_pollSchedule (fed_endTxn fed_checkBytes h)

theorem fed_arbitrationLost (h : Fed o s) : Fed o (arbitrationLost s) := by
  unfold arbitrationLost
  split
  · exact h
  · exact FedBy.ite (fed_pollSchedule (fed_endTxn id h)) (FedBy.ite h (fed_endFailed h))

theorem fed_busError {isStart : Bool} (h : Fed o s) : Fed o (busError s isStart) := by
  have halted {u : State} {t : Txn} (k : Fed o u) : Fed o (haltSurvey u t) :=
    (FedBy.ite k k : Fed o (if t.discard then countDiscard u t.agent else u))
  unfold busError
  split
  · exact h
  · exact fed_notify (fed_offer (halted h))

theorem fed_clockLowTimeout {dataHigh : Bool} (h : Fed o s) : Fed o (clockLowTimeout s dataHigh) := by
  unfold clockLowTimeout
  split
  · exact h
  · exact FedBy.ite (fed_endFailed h) h

theorem fed_lineChange {clockHigh dataHigh : Bool} (h : Fed o s) : Fed o (lineChange s clockHigh dataHigh) := by
  unfold lineChange
  split
  · exact FedBy.ite h h
  all_goals exact h

theorem fed_startConditionSeen {clockHigh dataHigh : Bool} (h : Fed o s) : Fed o (startConditionSeen s clockHigh dataHigh) := by
  unfold startConditionSeen
  split
  · exact h
  · exact h
  · exact fed_lineChange h
  · exact fed_lineChange h

/-- The bus made IDLE by a condition. -/
theorem fed_freed {p : Prop} [Decidable p] (h : Fed o s) : Fed o (if p then busIdled { s with psm := s.psm.released } else s) :=
  FedBy.ite (fed_busIdled h) h

theorem fed_busTimerExpiry (h : Fed o s) : Fed o (busTimerExpiry s) := FedBy.ite (FedBy.ite (fed_busIdled h) h) h

theorem fed_ninthPulse (h : Fed o s) : Fed o (ninthPulse s) := FedBy.ite h h

theorem fed_agentDue {a : Fin 8} (h : Fed o s) : Fed o (agentDue s a) := FedBy.ite (fed_pollSchedule h) h

theorem fed_stale {a : Fin 8} (h : Fed o s) : Fed o (stale s a) := FedBy.ite (fed_moveAgent h) h

theorem fed_enable {a : Fin 8} (h : Fed o s) : Fed o (enable s a) := fed_pollSchedule (fed_agentChanged h)

theorem fed_disable {a : Fin 8} (h : Fed o s) : Fed o (disable s a) := by
  have discarded {u : State} (k : Fed o u) : Fed o (discardTxn u a) := by
    unfold discardTxn
    split
    · exact k
    · exact FedBy.ite k (FedBy.ite (fed_endTxn id k) k)
  exact fed_pollSchedule (fed_agentChanged (discarded h))

end

/-! ## Requests -/

/-- An owner that touches nothing of the journal but by offering records. -/
def FeedingOwner (owner : State → Answered) : Prop := ∀ s, Fed s (owner s).state

section
variable {o s : State}

theorem feeding_onLine {n : Nat} {k : State → Fin 8 → Answered} (h : ∀ s i, Fed s (k s i).state) :
    FeedingOwner fun s => onLine n s (k s) := fun s => onLine_state (p := Fed s) n _ (FedBy.refl _ s) (h s)

theorem feeding_onGroup {n : Nat} {k : State → Fin 32 → Answered} (h : ∀ s g, Fed s (k s g).state) :
    FeedingOwner fun s => onGroup n s (k s) := fun s => onGroup_state (p := Fed s) n _ (FedBy.refl _ s) (h s)

theorem feeding_onRef {n : Nat} {k : State → Fin 3 → Answered} (h : ∀ s i, Fed s (k s i).state) :
    FeedingOwner fun s => onRef n s (k s) := fun s => onRef_state (p := Fed s) n _ (FedBy.refl _ s) (h s)

theorem feeding_onAgent {n : Nat} {k : State → Fin 8 → Answered} (h : ∀ s a, Fed s (k s a).state) :
    FeedingOwner fun s => onAgent n s (k s) := fun s => onAgent_state (p := Fed s) n _ (FedBy.refl _ s) (h s)

/-- One answer or another, by a condition. -/
theorem fed_iteAnswer {c : Prop} [Decidable c] {a b : Answered} (h : Fed o a.state) (k : Fed o b.state) :
    Fed o (if c then a else b).state := iteAnswer_state (p := Fed o) c h k

/-- OK, with the state as the owner leaves it. -/
theorem fed_done (h : Fed o s) : Fed o (done s).state := h

/-- A request refused, or answered OK with the journal untouched. -/
theorem fed_self (s : State) : Fed s s := FedBy.refl _ s

end

theorem feeding_configureReference (a : RefArgs) : FeedingOwner (configureReference a) :=
  feeding_onRef fun s _ => fed_iteAnswer (fed_self s) (fed_iteAnswer (fed_self s) (fed_self s))

theorem feeding_enableReference (n : Nat) : FeedingOwner (enableReference n) := feeding_onRef fun s i => by
  have shown : Fed s (showRefChange (s.setRef i (s.ref i).enabled) i .disabled .enable (s.ref i).config.bytes) :=
    fed_showRefChange (fed_self s)
  exact fed_iteAnswer (fed_notify shown) (fed_self s)

theorem feeding_disableReference (n : Nat) : FeedingOwner (disableReference n) := feeding_onRef fun s i => by
  have shown {r : Ref} {x : Rfe} : Fed s (showRefChange { s.setRef i r with rfe := x } i (s.ref i).state .disable []) :=
    fed_showRefChange (fed_self s)
  exact fed_iteAnswer (fed_self s) (fed_notify shown)

theorem feeding_holdLine (n : Nat) : FeedingOwner (holdLine n) := feeding_onLine fun s i => by
  split
  · exact fed_enterHeld (fed_self s)
  · exact fed_drainTest (fed_lineShown (fed_self s))
  all_goals exact fed_self s

theorem feeding_configureLine (n mode delay : Nat) : FeedingOwner (configureLine n mode delay) := feeding_onLine fun s i => by
  have reconfigured {l : Line} : Fed s (reconfigure s i l) := fed_offer (fed_self s)
  exact fed_iteAnswer (fed_self s) (fed_iteAnswer reconfigured (fed_self s))

theorem feeding_setFilter (n index enabled code mask : Nat) : FeedingOwner (setFilter n index enabled code mask) :=
  feeding_onLine fun s i => by
    have reconfigured {l : Line} : Fed s (reconfigure s i l) := fed_offer (fed_self s)
    split
    · exact fed_self s
    · exact fed_iteAnswer (fed_self s) (fed_iteAnswer reconfigured (fed_self s))

theorem feeding_releaseLine (n : Nat) : FeedingOwner (releaseLine n) := feeding_onLine fun s i => by
  have run : Fed s (runLine s i) := fed_schedule (fed_lineShown (fed_self s))
  exact fed_iteAnswer run (fed_self s)

theorem feeding_reconnectLine (n : Nat) : FeedingOwner (reconnectLine n) := feeding_onLine fun s _ =>
  fed_iteAnswer (fed_enterHeld (fed_self s)) (fed_self s)

theorem feeding_openStamping : FeedingOwner openStamping := fun s => by
  unfold openStamping
  split
  · exact fed_iteAnswer (fed_openIssuer (fed_self s)) (fed_self s)
  · exact fed_self s
  · exact fed_self s

theorem feeding_armAuction (a : ArmArgs) : FeedingOwner (armAuction a) := feeding_onGroup fun s _ => by
  refine fed_iteAnswer (fed_self s) (fed_iteAnswer (fed_self s) (fed_iteAnswer (fed_self s) ?_))
  split
  · exact fed_iteAnswer (fed_armGroup (fed_self s)) (fed_self s)
  · exact fed_self s
  · exact fed_self s

theorem feeding_extendAuction (n : Nat) : FeedingOwner (extendAuction n) := feeding_onGroup fun s g => by
  have early : Fed s (done (extendEarly g s)).state := fed_done (fed_extendEarly (fed_self s))
  have late : Fed s (done (extendLate g s)).state := fed_done (fed_extendLate (fed_self s))
  have refused (st : Status) : Fed s (refuse s st).state := fed_self s
  simp only []
  split
  · exact refused _
  · exact refused _
  · exact refused _
  · exact refused _
  · exact fed_iteAnswer (refused _) early
  · exact fed_iteAnswer (refused _) early
  all_goals exact fed_iteAnswer (refused _) late

theorem feeding_cutNow (n : Nat) : FeedingOwner (cutNow n) := feeding_onGroup fun s g => by
  have cut : Fed s (done (cutGroup s g s.now true)).state := fed_done (fed_cutGroup (fed_self s))
  exact fed_iteAnswer cut (fed_self s)

theorem feeding_cancelAuction (n : Nat) : FeedingOwner (cancelAuction n) := feeding_onGroup fun s g => by
  have cancelled : Fed s (done (cancelGroup g s)).state := fed_done (fed_cancelGroup (fed_self s))
  have refused (st : Status) : Fed s (refuse s st).state := fed_self s
  split
  · exact refused _
  · exact refused _
  · exact refused _
  · exact refused _
  all_goals exact cancelled

theorem feeding_clearAuction (n : Nat) : FeedingOwner (clearAuction n) := feeding_onGroup fun s g => by
  have cleared : Fed s (done (clearGroup g s)).state := fed_done (fed_clearGroup (fed_self s))
  split
  · exact cleared
  · exact cleared
  all_goals exact fed_self s

theorem feeding_readRecords (serial slot count : Nat) : FeedingOwner (readRecords serial slot count) := fun s => by
  refine fed_iteAnswer (fed_self s) ?_
  split
  · exact fed_self s
  · exact fed_iteAnswer (fed_self s) (fed_self s)

theorem feeding_annotate (data : List Byte) : FeedingOwner (annotate data) := fun s => by
  have offered {r : Record} : Fed s (offer s r) := fed_offer (fed_self s)
  exact fed_iteAnswer offered offered

theorem feeding_configureAgent (args : AgentArgs) : FeedingOwner (configureAgent args) :=
  feeding_onAgent fun s _ => fed_iteAnswer (fed_self s) (fed_iteAnswer (fed_self s) (fed_self s))

theorem feeding_enableAgent (n : Nat) : FeedingOwner (enableAgent n) := feeding_onAgent fun s a => by
  have enabled : Fed s (done (enable s a)).state := fed_done (fed_enable (fed_self s))
  split
  · exact fed_iteAnswer (fed_self s) enabled
  · exact fed_iteAnswer (fed_self s) enabled
  all_goals exact fed_self s

theorem feeding_disableAgent (n : Nat) : FeedingOwner (disableAgent n) := feeding_onAgent fun s a => by
  have disabled : Fed s (done (disable s a)).state := fed_done (fed_disable (fed_self s))
  exact fed_iteAnswer (fed_self s) disabled

theorem feeding_resumeSurvey : FeedingOwner resumeSurvey := fun s => by
  unfold resumeSurvey
  split
  · exact fed_pollSchedule (fed_self s)
  · exact fed_self s

end Sys2Proof.Machine
end

