-- ==== Sys2Proof/Proofs/StoreLaid.lean ====
section
/-!
PROOFS. Proofs/StoreLaid.lean: the soundness of the journal's store in parts: how the pages are laid out, whether the writer fits them, and
whether the journal state is the one they give.  What changes of one page do to each part, and what an offer does to the journal.
-/
namespace Sys2Proof.Machine

/-! ## The parts of a sound store -/

/-- The page table agrees with the open page and the erase queue (R119, R127, R133). -/
structure Ej.Laid (e : Ej) : Prop where
  stopped : e.state = .starting ∨ e.state = .exhausted → e.openPage = none
  starting : e.state = .starting → e.eraseQueue = []
  opened : e.state ≠ .starting → ∀ p : Fin 64, (e.pages[p]).state = .opened ↔ ∃ n, e.openPage = some (p, n)
  free : ∀ p : Fin 64, (e.pages[p]).state = .free → e.pages[p] = {}
  erasing : e.eraseQueue.Nodup ∧ ∀ p ∈ e.eraseQueue, (e.pages[p]).state = .erasing

/-- The writer writes the intake's head, or a record of its own, into the next slot of the open page (R115, R119). -/
structure Ej.WriterFits (e : Ej) : Prop where
  idle : e.state = .starting ∨ e.state = .exhausted → e.writer = none
  slot : ∀ p n, e.openPage = some (p, n) → n < 128
  writer : ∀ w, e.writer = some w → e.openPage = some (w.page, w.slot.val)
  source : ∀ w, e.writer = some w → w.source = .intake → e.intake.head? = some w.record

/-- The journal state is the one the page table gives, where it follows the page table (R122). -/
def Ej.WellJudged (e : Ej) : Prop := e.state = .starting ∨ e.state = .exhausted ∨ e.state = e.judged

/-- What `StoreSound` says of the journal. -/
structure Ej.Sound (e : Ej) : Prop where
  laid : e.Laid
  fits : e.WriterFits
  judged : e.WellJudged

theorem storeSound_iff (s : State) : StoreSound s ↔ s.ej.Sound := by
  constructor
  · intro h
    exact ⟨⟨fun x => (h.stopped x).2, h.starting, h.opened, h.free, h.erasing⟩,
      ⟨fun x => (h.stopped x).1, h.slot, h.writer, h.source⟩, h.judged⟩
  · rintro ⟨laid, fits, judged⟩
    exact ⟨fun x => ⟨fits.idle x, laid.stopped x⟩, laid.starting, laid.opened, fits.slot, fits.writer, fits.source, laid.free,
      laid.erasing, judged⟩

/-! ## Counting pages -/

section
variable {e f : Ej}

theorem Ej.pagesIn_eq (e : Ej) (st : PageState) : e.pagesIn st = (List.finRange 64).countP fun p => (e.pages[p]).state == st :=
  Machine.pagesIn_eq { ej := e } st

theorem pagesIn_congr {st : PageState} (h : ∀ p : Fin 64, (f.pages[p]).state = st ↔ (e.pages[p]).state = st) :
    f.pagesIn st = e.pagesIn st := by
  rw [Ej.pagesIn_eq, Ej.pagesIn_eq]
  exact List.countP_congr fun p _ => by simpa using h p

/-- The page table gives the same journal state where the same pages are FREE and OPEN. -/
theorem judged_congr (free : ∀ p : Fin 64, (f.pages[p]).state = .free ↔ (e.pages[p]).state = .free)
    (opened : ∀ p : Fin 64, (f.pages[p]).state = .opened ↔ (e.pages[p]).state = .opened) : f.judged = e.judged := by
  unfold Ej.judged
  rw [pagesIn_congr free, pagesIn_congr opened]

theorem judged_ne_exhausted (e : Ej) : e.judged ≠ .exhausted := by
  unfold Ej.judged
  split
  · simp
  · split <;> simp

/-- The journal judged where it follows the page table. -/
def Ej.rejudged (e : Ej) : Ej :=
  match e.state with
  | .starting | .exhausted => e
  | .normal | .tight | .stalled => { e with state := e.judged }

theorem rejudged_eq_of_running (h : e.state ≠ .starting) (h' : e.state ≠ .exhausted) : e.rejudged = { e with state := e.judged } := by
  unfold Ej.rejudged
  cases hs : e.state <;> simp_all

/-- A journal judged is as it was, or has the state its page table gives. -/
theorem rejudged_cases (e : Ej) : ((e.state = .starting ∨ e.state = .exhausted) ∧ e.rejudged = e)
    ∨ (e.state ≠ .starting ∧ e.state ≠ .exhausted ∧ e.rejudged = { e with state := e.judged }) := by
  unfold Ej.rejudged
  cases hs : e.state <;> simp

/-- The judgement moves the journal's state alone. -/
theorem rejudged_stands (e : Ej) : e.rejudged = { e with state := e.rejudged.state } := by
  rcases rejudged_cases e with ⟨-, k⟩ | ⟨-, -, k⟩ <;> rw [k]

theorem rejudged_writer (e : Ej) : e.rejudged.writer = e.writer := by rw [rejudged_stands]
theorem rejudged_openPage (e : Ej) : e.rejudged.openPage = e.openPage := by rw [rejudged_stands]
theorem rejudged_pages (e : Ej) : e.rejudged.pages = e.pages := by rw [rejudged_stands]

theorem wellJudged_rejudged (e : Ej) : e.rejudged.WellJudged := by
  rcases rejudged_cases e with ⟨h, k⟩ | ⟨-, -, k⟩
  · rw [k]
    exact h.elim .inl fun x => .inr (.inl x)
  · rw [k]
    exact .inr (.inr rfl)

theorem Ej.Laid.rejudged (h : e.Laid) : e.rejudged.Laid := by
  rcases rejudged_cases e with ⟨-, k⟩ | ⟨running, -, k⟩
  · rwa [k]
  · rw [k]
    exact ⟨fun x => x.elim (fun y => absurd y (judged_ne_starting e)) fun y => absurd y (judged_ne_exhausted e),
      fun x => absurd x (judged_ne_starting e), fun _ => h.opened running, h.free, h.erasing⟩

theorem Ej.WriterFits.rejudged (h : e.WriterFits) : e.rejudged.WriterFits := by
  rcases rejudged_cases e with ⟨-, k⟩ | ⟨-, -, k⟩
  · rwa [k]
  · rw [k]
    exact ⟨fun x => x.elim (fun y => absurd y (judged_ne_starting e)) fun y => absurd y (judged_ne_exhausted e),
      h.slot, h.writer, h.source⟩

theorem sound_rejudged (h : e.Laid) (k : e.WriterFits) : e.rejudged.Sound := ⟨h.rejudged, k.rejudged, wellJudged_rejudged e⟩

/-! ## Changes of one page -/

theorem Ej.Laid.congr (h : e.Laid) (state : f.state = e.state) (openPage : f.openPage = e.openPage)
    (queue : f.eraseQueue = e.eraseQueue) (pages : f.pages = e.pages) : f.Laid :=
  ⟨by rw [state, openPage]; exact h.stopped, by rw [state, queue]; exact h.starting,
    by rw [state, openPage, pages]; exact h.opened, by rw [pages]; exact h.free, by rw [queue, pages]; exact h.erasing⟩

theorem wellJudged_congr (h : e.WellJudged) (state : f.state = e.state) (pages : f.pages = e.pages) : f.WellJudged := by
  have same : f.judged = e.judged := judged_congr (by simp [pages]) (by simp [pages])
  rw [Ej.WellJudged, state, same]
  exact h

/-- The journal with one page of its store replaced. -/
def Ej.withPage (e : Ej) (p : Fin 64) (x : Page) : Ej := { e with pages := e.pages.set p x }

theorem withPage_page (e : Ej) (p : Fin 64) (x : Page) (q : Fin 64) :
    (e.withPage p x).pages[q] = if q = p then x else e.pages[q] := setPage_page { ej := e } p x q

theorem withPage_page_ne (e : Ej) {p : Fin 64} (x : Page) {q : Fin 64} (h : q ≠ p) : (e.withPage p x).pages[q] = e.pages[q] :=
  setPage_page_ne { ej := e } p x q h

/-- A page that waits in the erase queue is ERASING, so any other page is not in it. -/
theorem Ej.Laid.not_mem_queue (h : e.Laid) {p : Fin 64} (hp : (e.pages[p]).state ≠ .erasing) : p ∉ e.eraseQueue :=
  fun k => hp (h.erasing.2 p k)

/-- A page replaced by one that is OPEN where it was, FREE only when blank, and not in the erase queue. -/
theorem Ej.Laid.withPage (h : e.Laid) {p : Fin 64} {x : Page} (opened : x.state = .opened ↔ (e.pages[p]).state = .opened)
    (free : x.state = .free → x = {}) (queue : p ∉ e.eraseQueue) : (e.withPage p x).Laid where
  stopped := h.stopped
  starting := h.starting
  opened := fun running q => by
    rw [withPage_page]
    split
    · rename_i same
      rw [same, opened]
      exact h.opened running p
    · exact h.opened running q
  free := fun q => by
    rw [withPage_page]
    split
    · exact free
    · exact h.free q
  erasing := ⟨h.erasing.1, fun q hq => by
    rw [withPage_page_ne _ _ (ne_of_mem_of_not_mem hq queue)]
    exact h.erasing.2 q hq⟩

/-- A page replaced by one that is FREE or OPEN where it was leaves the journal state the page table gives. -/
theorem judged_withPage {p : Fin 64} {x : Page} (free : x.state = .free ↔ (e.pages[p]).state = .free)
    (opened : x.state = .opened ↔ (e.pages[p]).state = .opened) : (e.withPage p x).judged = e.judged := by
  refine judged_congr (fun q => ?_) (fun q => ?_)
  · rw [withPage_page]
    split
    · rename_i same
      rw [same, free]
    · exact Iff.rfl
  · rw [withPage_page]
    split
    · rename_i same
      rw [same, opened]
    · exact Iff.rfl

/-- The open page, as the register of it says, is OPEN. -/
theorem Ej.Laid.opened_of_register (h : e.Laid) {p : Fin 64} {n : Nat} (ho : e.openPage = some (p, n)) :
    e.state ≠ .starting ∧ e.state ≠ .exhausted ∧ (e.pages[p]).state = .opened := by
  have running : ¬ (e.state = .starting ∨ e.state = .exhausted) := fun x => by rw [h.stopped x] at ho; exact nomatch ho
  rw [not_or] at running
  exact ⟨running.1, running.2, (h.opened running.1 p).2 ⟨n, ho⟩⟩

/-- The open page replaced by one neither OPEN nor FREE, and no page open. -/
theorem Ej.Laid.shut (h : e.Laid) {p : Fin 64} {n : Nat} (ho : e.openPage = some (p, n)) {x : Page} (opened : x.state ≠ .opened)
    (free : x.state ≠ .free) (asked : Bool) : { e.withPage p x with openPage := none, closeRequested := asked }.Laid where
  stopped := fun _ => rfl
  starting := h.starting
  opened := fun running q => by
    show ((e.withPage p x).pages[q]).state = .opened ↔ _
    rw [withPage_page]
    split
    · simp [opened]
    · rename_i other
      rw [h.opened running q, ho]
      simp [Ne.symm other]
  free := fun q => by
    show ((e.withPage p x).pages[q]).state = .free → (e.withPage p x).pages[q] = {}
    rw [withPage_page]
    split
    · exact fun y => absurd y free
    · exact h.free q
  erasing := ⟨h.erasing.1, fun q hq => by
    have out : p ∉ e.eraseQueue := h.not_mem_queue (by rw [(h.opened_of_register ho).2.2]; exact nofun)
    show ((e.withPage p x).pages[q]).state = .erasing
    rw [withPage_page_ne _ _ (ne_of_mem_of_not_mem hq out)]
    exact h.erasing.2 q hq⟩

/-- A FREE page opened, with no page open before. -/
theorem Ej.Laid.opening (h : e.Laid) (running : e.state ≠ .starting) (live : e.state ≠ .exhausted) (none : e.openPage = none)
    {p : Fin 64} (hp : (e.pages[p]).state = .free) {x : Page} (opened : x.state = .opened) (n m : Nat) :
    { e.withPage p x with openPage := some (p, n), nextSerial := m }.Laid where
  stopped := fun k => k.elim (fun y => absurd y running) fun y => absurd y live
  starting := fun k => absurd k running
  opened := fun _ q => by
    show ((e.withPage p x).pages[q]).state = .opened ↔ _
    rw [withPage_page]
    split
    · rename_i same
      simp [opened, same]
    · rename_i other
      rw [h.opened running q, none]
      simp [Ne.symm other]
  free := fun q => by
    show ((e.withPage p x).pages[q]).state = .free → (e.withPage p x).pages[q] = {}
    rw [withPage_page]
    split
    · exact fun y => absurd (opened.symm.trans y) nofun
    · exact h.free q
  erasing := ⟨h.erasing.1, fun q hq => by
    have out : p ∉ e.eraseQueue := h.not_mem_queue (by rw [hp]; exact nofun)
    show ((e.withPage p x).pages[q]).state = .erasing
    rw [withPage_page_ne _ _ (ne_of_mem_of_not_mem hq out)]
    exact h.erasing.2 q hq⟩

/-- The next slot of the open page moved on. -/
theorem Ej.Laid.moved (h : e.Laid) {p : Fin 64} {n : Nat} (ho : e.openPage = some (p, n)) (m : Nat) :
    { e with openPage := some (p, m) }.Laid := by
  obtain ⟨running, live, -⟩ := h.opened_of_register ho
  refine ⟨fun k => k.elim (fun y => absurd y running) fun y => absurd y live, h.starting, fun k q => ?_, h.free, h.erasing⟩
  rw [h.opened k q, ho]
  simp

/-! ## Offers -/

/-- The journal has taken records at its intake's tail, or counted losses, and stands otherwise. -/
structure Ej.Took (e f : Ej) : Prop where
  stands : f = { e with intake := f.intake, criticalLost := f.criticalLost, nonCriticalLost := f.nonCriticalLost,
                        firstLoss := f.firstLoss }
  intake : e.intake <+: f.intake

theorem Ej.Took.refl (e : Ej) : e.Took e := ⟨rfl, List.prefix_refl _⟩

theorem Ej.Took.state (h : e.Took f) : f.state = e.state := by rw [h.stands]
theorem Ej.Took.writer (h : e.Took f) : f.writer = e.writer := by rw [h.stands]
theorem Ej.Took.openPage (h : e.Took f) : f.openPage = e.openPage := by rw [h.stands]
theorem Ej.Took.pages (h : e.Took f) : f.pages = e.pages := by rw [h.stands]
theorem Ej.Took.nextSerial (h : e.Took f) : f.nextSerial = e.nextSerial := by rw [h.stands]
theorem Ej.Took.eraseQueue (h : e.Took f) : f.eraseQueue = e.eraseQueue := by rw [h.stands]
theorem Ej.Took.closeRequested (h : e.Took f) : f.closeRequested = e.closeRequested := by rw [h.stands]
theorem Ej.Took.rewriteOwed (h : e.Took f) : f.rewriteOwed = e.rewriteOwed := by rw [h.stands]
theorem Ej.Took.gapOwed (h : e.Took f) : f.gapOwed = e.gapOwed := by rw [h.stands]
theorem Ej.Took.chain (h : e.Took f) : f.chain = e.chain := by rw [h.stands]
theorem Ej.Took.nextIndex (h : e.Took f) : f.nextIndex = e.nextIndex := by rw [h.stands]

theorem Ej.Took.trans {g : Ej} (h : e.Took f) (k : f.Took g) : e.Took g := by
  refine ⟨?_, h.intake.trans k.intake⟩
  rw [k.stands, h.stands]

theorem Ej.Took.laid (h : e.Took f) (k : e.Laid) : f.Laid := k.congr h.state h.openPage h.eraseQueue h.pages

theorem Ej.Took.wellJudged (h : e.Took f) (k : e.WellJudged) : f.WellJudged := wellJudged_congr k h.state h.pages

theorem head?_of_prefix {α : Type} {a b : List α} (h : a <+: b) {x : α} (hx : a.head? = some x) : b.head? = some x := by
  obtain ⟨c, rfl⟩ := h
  cases a with
  | nil => exact nomatch hx
  | cons y a => exact hx

theorem Ej.Took.writerFits (h : e.Took f) (k : e.WriterFits) : f.WriterFits where
  idle := by rw [h.state, h.writer]; exact k.idle
  slot := by rw [h.openPage]; exact k.slot
  writer := by rw [h.writer, h.openPage]; exact k.writer
  source := fun w hw hs => head?_of_prefix h.intake (k.source w (by rw [← h.writer]; exact hw) hs)

theorem Ej.Took.sound (h : e.Took f) (k : e.Sound) : f.Sound := ⟨h.laid k.laid, h.writerFits k.fits, h.wellJudged k.judged⟩

theorem took_losses (e : Ej) (c n : Nat) (v : Option Nat) : e.Took { e with criticalLost := c, nonCriticalLost := n, firstLoss := v } :=
  ⟨rfl, List.prefix_refl _⟩

theorem took_loseRecord (s : State) (k : RecKind) : s.ej.Took (loseRecord s k).ej := by
  unfold loseRecord
  cases k.critical <;> simp only [Bool.false_eq_true, if_true, if_false] <;> split
  · rw [ej_notify]; exact took_losses _ _ _ _
  · exact took_losses _ _ _ _
  · rw [ej_notify]; exact took_losses _ _ _ _
  · exact took_losses _ _ _ _

theorem took_enqueue (s : State) (r : Record) : s.ej.Took (enqueue s r).ej := by
  unfold enqueue
  split
  · exact ⟨rfl, List.prefix_append _ _⟩
  · exact took_loseRecord s r.kind

/-- A busy writer decides nothing. -/
theorem writerDecide_busy (s : State) (h : s.ej.writer ≠ none) : writerDecide s = s := by
  cases hw : s.ej.writer with
  | none => exact absurd hw h
  | some w => simp [writerDecide, Ej.writerReady, hw]

/-- With the writer busy a record offered joins the intake or is lost. -/
theorem took_offer_busy (s : State) (r : Record) (h : s.ej.writer ≠ none) : s.ej.Took (offer s r).ej := by
  have took := took_enqueue s r
  unfold offer
  simp only []
  split
  · rwa [writerDecide_busy _ (by rw [took.writer]; exact h)]
  · exact took

/-- With the writer busy records fed to the journal join the intake or are lost. -/
theorem took_of_fed {s t : State} (h : Fed s t) (busy : s.ej.writer ≠ none) : s.ej.Took t.ej :=
  h (fun f => s.ej.Took f) (fun u r k => k.trans (took_offer_busy u r (by rw [k.writer]; exact busy))) (Ej.Took.refl _)

/-- So do records offered beside the writer's own decision. -/
theorem took_of_fedBy_enqueue {s t : State} (h : FedBy enqueue s t) : s.ej.Took t.ej :=
  h (fun f => s.ej.Took f) (fun u r k => k.trans (took_enqueue u r)) (Ej.Took.refl _)

end

/-! ## The judgement of the journal -/

/-- A state with its journal judged, and nothing handed on. -/
def State.rejudged (s : State) : State := { s with ej := s.ej.rejudged }

/-- The judgement takes the state the page table gives, and then only offers records (R122). -/
theorem fed_judgeJournalWith (offer : Offerer) (s : State) : FedBy offer s.rejudged (judgeJournalWith offer s) := by
  have unchanged (h : s.ej.rejudged = s.ej) : FedBy offer s.rejudged s := by
    intro P closed x
    rwa [State.rejudged, h] at x
  unfold judgeJournalWith
  split
  · rename_i hs
    exact unchanged (by rw [Ej.rejudged, hs])
  · rename_i hs
    exact unchanged (by rw [Ej.rejudged, hs])
  all_goals
    rename_i hs
    have judged : s.ej.rejudged = { s.ej with state := s.ej.judged } := by rw [Ej.rejudged, hs]
    simp only []
    split
    · rename_i same
      exact unchanged (by rw [judged, same])
    · refine fed_notify (fed_journalReportWith ?_)
      intro P closed x
      rwa [State.rejudged, judged] at x

theorem fed_judgeJournal (s : State) : Fed s.rejudged (judgeJournal s) := fed_judgeJournalWith offer s

/-- The journal judged with the writer busy. -/
theorem took_judgeJournal (s : State) (busy : s.ej.writer ≠ none) : s.ej.rejudged.Took (judgeJournal s).ej := by
  refine took_of_fed (fed_judgeJournal s) ?_
  rwa [State.rejudged, rejudged_writer]

/-! ## The writer's decision -/

section
variable {s : State}

/-- The record the writer would begin with `w` is one it may write into the open page. -/
structure Ej.MayWrite (e : Ej) (p : Fin 64) (n : Nat) (w : Write) : Prop where
  page : w.page = p
  slot : w.slot = Fin.ofNat 128 n
  source : w.source = .intake → e.intake.head? = some w.record

/-- The writer's choice with a page open: nothing, or a write begun, the losses reported in it or not. -/
theorem beginNext_cases (s : State) (p : Fin 64) (n : Nat) : beginNext s p n = s
    ∨ ∃ w c m v, s.ej.MayWrite p n w ∧ beginNext s p n = { s with ej := { s.ej with
        writer := some w, criticalLost := c, nonCriticalLost := m, firstLoss := v } } := by
  unfold beginNext
  simp only []
  split
  · rename_i hi
    exact .inr ⟨_, _, _, _, ⟨rfl, rfl, fun _ => by rw [hi]; rfl⟩, rfl⟩
  · exact .inr ⟨_, _, _, _, ⟨rfl, rfl, fun gap => by cases gap⟩, rfl⟩
  · exact .inl rfl
  · rename_i hi _
    split
    · exact .inr ⟨_, _, _, _, ⟨rfl, rfl, fun gap => by cases gap⟩, rfl⟩
    · exact .inr ⟨_, _, _, _, ⟨rfl, rfl, fun _ => by rw [hi]; rfl⟩, rfl⟩

theorem sound_beginNext {p : Fin 64} {n : Nat} (h : s.ej.Sound) (ho : s.ej.openPage = some (p, n)) : (beginNext s p n).ej.Sound := by
  obtain ⟨running, live, -⟩ := h.laid.opened_of_register ho
  rcases beginNext_cases s p n with k | ⟨w, c, m, v, may, k⟩
  · rwa [k]
  · rw [k]
    refine ⟨h.laid.congr rfl rfl rfl rfl, ⟨fun x => x.elim (fun y => absurd y running) fun y => absurd y live, h.fits.slot, ?_, ?_⟩,
      wellJudged_congr h.judged rfl rfl⟩
    · rintro w' ⟨⟩
      rw [may.page, may.slot, Fin.val_ofNat, Nat.mod_eq_of_lt (h.fits.slot p n ho)]
      exact ho
    · rintro w' ⟨⟩
      exact may.source

/-- A page as it is opened (R119). -/
def Page.openedAs (x : Page) (serial : Nat) : Page := { x with state := .opened, serial := some serial }

/-- The PAGE_OPEN record (R119, R181). -/
def State.pageOpenRecord (s : State) (p : Fin 64) : Record :=
  { kind := .pageOpen, subject := p.val, vt := s.now,
    body := be 8 s.ej.nextIndex ++ be 4 s.ej.chain.toNat ++ be 4 s.ej.nextSerial ++ be 1 s.tsu.leapCount }

/-- The journal with a FREE page opened and the write of its PAGE_OPEN begun, not yet judged (R119). -/
def State.opening (s : State) (p : Fin 64) : Ej :=
  { s.ej.withPage p ((s.page p).openedAs s.ej.nextSerial) with
    openPage := some (p, 0), nextSerial := freeSucc 1 Config.max32 s.ej.nextSerial,
    writer := some { page := p, slot := 0, record := s.pageOpenRecord p, source := .pageOpen } }

theorem openPage_eq (s : State) (p : Fin 64) : openPage s p = judgeJournalWith enqueue { s with ej := s.opening p } := rfl

/-- A page opened: the journal is judged, and records may join behind. -/
theorem took_openPage (s : State) (p : Fin 64) : (s.opening p).rejudged.Took (openPage s p).ej := by
  rw [openPage_eq]
  exact took_of_fedBy_enqueue (fed_judgeJournalWith enqueue { s with ej := s.opening p })

theorem sound_opening {p : Fin 64} (h : s.ej.Sound) (running : s.ej.state ≠ .starting) (live : s.ej.state ≠ .exhausted)
    (none : s.ej.openPage = none) (hp : (s.page p).state = .free) : (s.opening p).rejudged.Sound := by
  refine sound_rejudged ((h.laid.opening running live none hp (x := (s.page p).openedAs s.ej.nextSerial) rfl 0 0).congr rfl rfl rfl rfl)
    ⟨fun x => x.elim (fun y => absurd y running) fun y => absurd y live, ?_, ?_, ?_⟩
  · rintro q n ⟨⟩
    exact Nat.zero_lt_succ _
  · rintro w ⟨⟩
    rfl
  · rintro w ⟨⟩
    exact nofun

/-- The writer's decision: none, a page opened, or the next write begun in the open page (R115). -/
theorem writerDecide_cases (s : State) : writerDecide s = s
    ∨ ((s.ej.writer = none ∧ s.ej.state ≠ .starting ∧ s.ej.state ≠ .exhausted) ∧
        ((∃ p, s.ej.openPage = none ∧ s.ej.firstFree = some p ∧ writerDecide s = openPage s p)
          ∨ ∃ p n, s.ej.openPage = some (p, n) ∧ writerDecide s = beginNext s p n)) := by
  unfold writerDecide
  split
  · rename_i ready
    have idle : s.ej.writer = none ∧ s.ej.state ≠ .starting ∧ s.ej.state ≠ .exhausted := by
      simp only [Ej.writerReady, Bool.and_eq_true, Bool.or_eq_true, beq_iff_eq, Option.isNone_iff_eq_none] at ready
      obtain ⟨⟨hw, hs⟩, -⟩ := ready
      refine ⟨hw, ?_, ?_⟩ <;> rcases hs with (hs | hs) | hs <;> rw [hs] <;> exact nofun
    split
    · rename_i ho
      split
      · rename_i p hp
        exact .inr ⟨idle, .inl ⟨p, ho, hp, rfl⟩⟩
      · exact .inl rfl
    · rename_i p n ho
      exact .inr ⟨idle, .inr ⟨p, n, ho, rfl⟩⟩
  · exact .inl rfl

theorem sound_writerDecide (h : s.ej.Sound) : (writerDecide s).ej.Sound := by
  rcases writerDecide_cases s with k | ⟨⟨-, running, live⟩, ⟨p, ho, hp, k⟩ | ⟨p, n, ho, k⟩⟩
  · rwa [k]
  · rw [k]
    exact (took_openPage s p).sound (sound_opening h running live ho (firstFree_free s p hp))
  · rw [k]
    exact sound_beginNext h ho

/-- What records taken or lost and the writer's decision keep, an offer keeps (R113). -/
theorem closed_offer {P : Ej → Prop} (took : ∀ {e f : Ej}, e.Took f → P e → P f)
    (decides : ∀ {u : State}, P u.ej → P (writerDecide u).ej) (r : Record) (h : P s.ej) : P (offer s r).ej := by
  have taken := took (took_enqueue s r) h
  unfold offer
  simp only []
  split
  · exact decides taken
  · exact taken

theorem sound_offer (r : Record) (h : s.ej.Sound) : (offer s r).ej.Sound := closed_offer Ej.Took.sound sound_writerDecide r h

/-- Records fed to a sound journal leave it sound. -/
theorem Ej.Sound.fed {s t : State} (h : s.ej.Sound) (k : Fed s t) : t.ej.Sound := k Ej.Sound (fun _ r => sound_offer r) h

/-- A journal whose pages and writer fit is sound once it has been judged. -/
theorem sound_judgeJournal (h : s.ej.Laid) (k : s.ej.WriterFits) : (judgeJournal s).ej.Sound :=
  Ej.Sound.fed (s := s.rejudged) (sound_rejudged h k) (fed_judgeJournal s)

end

end Sys2Proof.Machine
end

