-- ==== Sys2Proof/Proofs/WritesKept.lean ====
section
/-!
PROOFS. Proofs/WritesKept.lean: the ends of writes and erases keep the journal's store sound, and so do the journal's requests.
-/
namespace Sys2Proof.Machine

section
variable {e f : Ej} {s : State}

/-! ## A store that is sound once its writer is idle -/

/-- What a sound store still has when its writer's record is done with. -/
structure Ej.Rests (e : Ej) : Prop where
  laid : e.Laid
  judged : e.WellJudged
  slot : ∀ p n, e.openPage = some (p, n) → n < 128

theorem Ej.Rests.congr (h : e.Rests) (state : f.state = e.state) (openPage : f.openPage = e.openPage)
    (queue : f.eraseQueue = e.eraseQueue) (pages : f.pages = e.pages) : f.Rests :=
  ⟨h.laid.congr state openPage queue pages, wellJudged_congr h.judged state pages, by rw [openPage]; exact h.slot⟩

theorem Ej.Took.rests (h : e.Took f) (k : e.Rests) : f.Rests := k.congr h.state h.openPage h.eraseQueue h.pages

theorem Ej.Rests.sound (h : e.Rests) (idle : e.writer = none) : e.Sound :=
  ⟨h.laid, ⟨fun _ => idle, h.slot, by rw [idle]; exact nofun, by rw [idle]; exact nofun⟩, h.judged⟩

theorem sound_writerNext (h : s.ej.Rests) : (writerNext s).ej.Sound :=
  sound_writerDecide (s := { s with ej := { s.ej with writer := none } })
    (Ej.Rests.sound (e := { s.ej with writer := none }) (h.congr rfl rfl rfl rfl) rfl)

theorem Ej.Sound.congr (h : e.Sound) (state : f.state = e.state) (openPage : f.openPage = e.openPage)
    (queue : f.eraseQueue = e.eraseQueue) (pages : f.pages = e.pages) (writer : f.writer = e.writer) (intake : f.intake = e.intake) :
    f.Sound :=
  ⟨h.laid.congr state openPage queue pages,
    ⟨by rw [state, writer]; exact h.fits.idle, by rw [openPage]; exact h.fits.slot, by rw [writer, openPage]; exact h.fits.writer,
      by rw [writer, intake]; exact h.fits.source⟩,
    wellJudged_congr h.judged state pages⟩

/-- A page replaced by one that is FREE or OPEN where it was keeps the journal well judged. -/
theorem wellJudged_withPage (h : e.WellJudged) {p : Fin 64} {x : Page} (free : x.state = .free ↔ (e.pages[p]).state = .free)
    (opened : x.state = .opened ↔ (e.pages[p]).state = .opened) : (e.withPage p x).WellJudged :=
  h.imp id (Or.imp id fun k => k.trans (judged_withPage free opened).symm)

/-- The page a write is in progress in. -/
theorem Ej.Sound.writing (h : e.Sound) {w : Write} (hw : e.writer = some w) :
    e.openPage = some (w.page, w.slot.val) ∧ e.state ≠ .starting ∧ e.state ≠ .exhausted ∧ (e.pages[w.page]).state = .opened :=
  ⟨h.fits.writer w hw, h.laid.opened_of_register (h.fits.writer w hw)⟩

/-- A slot of the page a write is in progress in given a content. -/
theorem Ej.Sound.setSlot (h : s.ej.Sound) {w : Write} (hw : s.ej.writer = some w) (i : Fin 128) (c : Slot) :
    (setSlot s w.page i c).ej.Sound := by
  obtain ⟨-, -, -, opened⟩ := h.writing hw
  have used : (s.page w.page).state ≠ .free := fun x => absurd (x.symm.trans opened) nofun
  have out : w.page ∉ s.ej.eraseQueue := h.laid.not_mem_queue (by rw [opened]; exact nofun)
  exact ⟨h.laid.withPage Iff.rfl (fun x => absurd x used) out, ⟨h.fits.idle, h.fits.slot, h.fits.writer, h.fits.source⟩,
    wellJudged_withPage h.judged Iff.rfl Iff.rfl⟩

/-! ## The open page closed (R120) -/

/-- A page as it is closed. -/
def Page.closedAs (x : Page) (cause : CloseCause) (time count : Nat) (chain : Chain) : Page :=
  { x with state := .closed, closeCause := some cause, closeTime := some time, count := count, lastChain := some chain }

/-- The journal with its open page closed, not yet judged. -/
def State.closing (s : State) (p : Fin 64) (n : Nat) (cause : CloseCause) : Ej :=
  { s.ej.withPage p ((s.page p).closedAs cause s.now n s.ej.chain) with openPage := none, closeRequested := false }

theorem closePage_none (h : s.ej.openPage = none) (cause : CloseCause) : closePage s cause = s := by
  rw [closePage, closePageWith, h]

theorem closePage_eq {p : Fin 64} {n : Nat} (h : s.ej.openPage = some (p, n)) (cause : CloseCause) :
    closePage s cause = notify (judgeJournal { s with ej := s.closing p n cause }) .pageClosed (.page p.val)
      (be 4 ((s.page p).serial.getD 0) ++ be 1 cause.code ++ be 1 n) := by
  rw [closePage, closePageWith, h]
  rfl

theorem ej_closePage {p : Fin 64} {n : Nat} (h : s.ej.openPage = some (p, n)) (cause : CloseCause) :
    (closePage s cause).ej = (judgeJournal { s with ej := s.closing p n cause }).ej := by
  rw [closePage_eq h, ej_notify]

theorem laid_closing {p : Fin 64} {n : Nat} (h : s.ej.Laid) (ho : s.ej.openPage = some (p, n)) (cause : CloseCause) :
    (s.closing p n cause).Laid :=
  h.shut ho (x := (s.page p).closedAs cause s.now n s.ej.chain) nofun nofun false

/-- With the writer busy the page closed is judged, and records may join behind. -/
theorem took_closePage {p : Fin 64} {n : Nat} (ho : s.ej.openPage = some (p, n)) (busy : s.ej.writer ≠ none) (cause : CloseCause) :
    (s.closing p n cause).rejudged.Took (closePage s cause).ej := by
  rw [ej_closePage ho]
  exact took_judgeJournal { s with ej := s.closing p n cause } busy

theorem rests_closing {p : Fin 64} {n : Nat} (h : s.ej.Laid) (ho : s.ej.openPage = some (p, n)) (cause : CloseCause) :
    (s.closing p n cause).rejudged.Rests := by
  refine ⟨(laid_closing h ho cause).rejudged, wellJudged_rejudged _, fun q m hq => ?_⟩
  rw [rejudged_openPage] at hq
  exact nomatch hq

theorem rests_closePage {p : Fin 64} {n : Nat} (h : s.ej.Laid) (ho : s.ej.openPage = some (p, n)) (busy : s.ej.writer ≠ none)
    (cause : CloseCause) : (closePage s cause).ej.Rests := (took_closePage ho busy cause).rests (rests_closing h ho cause)

/-- With the writer idle the page may be closed at once. -/
theorem sound_closePage (h : s.ej.Sound) (idle : s.ej.writer = none) (cause : CloseCause) : (closePage s cause).ej.Sound := by
  cases ho : s.ej.openPage with
  | none => rwa [closePage_none ho]
  | some o =>
    obtain ⟨p, n⟩ := o
    rw [ej_closePage ho]
    refine sound_judgeJournal (s := { s with ej := s.closing p n cause }) (laid_closing h.laid ho cause) ⟨fun _ => idle, nofun, ?_, ?_⟩
    · exact fun w hw => absurd (idle.symm.trans hw) nofun
    · exact fun w hw => absurd (idle.symm.trans hw) nofun

/-! ## The end of a write (R116, R118, R119) -/

/-- The store while the source of a verified record is released and its index reported: the writer still busy, the open page's next
slot moved on. -/
structure Ej.Stood (e : Ej) (w : Write) : Prop where
  laid : e.Laid
  judged : e.WellJudged
  writer : e.writer = some w
  openPage : e.openPage = some (w.page, w.slot.val + 1)

theorem Ej.Took.stood {w : Write} (h : e.Took f) (k : e.Stood w) : f.Stood w :=
  ⟨h.laid k.laid, h.wellJudged k.judged, h.writer.trans k.writer, h.openPage.trans k.openPage⟩

theorem stood_standRecord {w : Write} (h : s.ej.Sound) (hw : s.ej.writer = some w) : (standRecord s w).ej.Stood w := by
  have slot := h.setSlot hw w.slot (.data (recordBytes s.ej.chain w.record s.ej.epoch ((s.page w.page).serial.getD 0) w.slot.val))
  exact ⟨(slot.laid.moved (h.writing hw).1 (w.slot.val + 1)).congr rfl rfl rfl rfl, wellJudged_congr slot.judged rfl rfl, hw, rfl⟩

theorem stood_releaseSource {w : Write} (h : s.ej.Stood w) (src : WriteSource) : (releaseSource s src).ej.Stood w := by
  cases src <;> exact ⟨h.laid.congr rfl rfl rfl rfl, wellJudged_congr h.judged rfl rfl, h.writer, h.openPage⟩

theorem fed_reportArm (s : State) (r : Record) (index : Nat) : Fed s (reportArm s r index) := by
  unfold reportArm
  split
  · exact fed_reportIndex (FedBy.refl _ s)
  · exact FedBy.refl _ s

theorem took_reportArm (busy : s.ej.writer ≠ none) (r : Record) (index : Nat) : s.ej.Took (reportArm s r index).ej :=
  took_of_fed (fed_reportArm s r index) busy

theorem rests_closeAfter {w : Write} (h : s.ej.Stood w) : (closeAfter s w.slot).ej.Rests := by
  have closed (cause : CloseCause) : (closePage s cause).ej.Rests :=
    rests_closePage h.laid h.openPage (by rw [h.writer]; exact nofun) cause
  unfold closeAfter
  split
  · exact closed .full
  · split
    · exact closed .request
    · refine ⟨h.laid, h.judged, fun p n hp => ?_⟩
      rw [h.openPage] at hp
      cases hp
      omega

theorem sound_writeVerified (h : s.ej.Sound) : (writeVerified s).ej.Sound := by
  unfold writeVerified
  split
  · exact h
  · rename_i w hw
    have released := stood_releaseSource (stood_standRecord h hw) w.source
    have reported := took_reportArm (s := releaseSource (standRecord s w) w.source) (by rw [released.writer]; exact nofun) w.record
      s.ej.nextIndex
    exact sound_writerNext (rests_closeAfter (reported.stood released))

theorem rests_oweAgain (h : s.ej.Rests) (src : WriteSource) : (oweAgain s src).ej.Rests := by
  cases src <;> exact h.congr rfl rfl rfl rfl

theorem rests_loseFailed (h : s.ej.Rests) (busy : s.ej.writer ≠ none) (r : Record) (src : WriteSource) :
    (loseFailed s r src).ej.Rests := by
  cases src with
  | pageOpen => exact h
  | intake =>
    have lost := took_loseRecord { s with ej := { s.ej with intake := s.ej.intake.tail, rewriteOwed := false } } r.kind
    have reported := took_reportArm (by rw [lost.writer]; exact busy) r Config.noIndex
    exact (lost.trans reported).rests (h.congr rfl rfl rfl rfl)
  | gap g => exact h.congr rfl rfl rfl rfl

theorem sound_writeFailed (h : s.ej.Sound) : (writeFailed s).ej.Sound := by
  unfold writeFailed
  split
  · exact h
  · rename_i w hw
    simp only []
    split
    · exact h
    · have void := h.setSlot hw w.slot .void
      have busy : (setSlot s w.page w.slot .void).ej.writer ≠ none := fun x => absurd (hw.symm.trans x) nofun
      have closed := rests_closePage void.laid (h.writing hw).1 busy .short
      have held : (closePage (setSlot s w.page w.slot .void) .short).ej.writer ≠ none := by
        rw [(took_closePage (s := setSlot s w.page w.slot .void) (h.writing hw).1 busy .short).writer, rejudged_writer]
        exact busy
      refine sound_writerNext ?_
      split
      · exact rests_oweAgain closed w.source
      · exact rests_loseFailed closed held w.record w.source

/-- A defect shown with the writer busy and no page open. -/
theorem rests_showDefect (h : s.ej.Laid) (none : s.ej.openPage = none) (busy : s.ej.writer ≠ .none) (p : Fin 64) (serial : Nat)
    (cause : DefectCause) : (showDefect s p serial cause).ej.Rests := by
  have offered := took_offer_busy s { kind := .pageDefect, subject := p.val, vt := s.now, body := be 4 serial ++ be 1 cause.code } busy
  unfold showDefect
  simp only []
  generalize hu : notify (offer s _) _ _ _ = u
  have took : s.ej.Took u.ej := by rw [← hu, ej_notify]; exact offered
  have judged := took_judgeJournal u (by rw [took.writer]; exact busy)
  refine judged.rests ⟨(took.laid h).rejudged, wellJudged_rejudged _, fun q m hq => ?_⟩
  rw [rejudged_openPage, took.openPage, none] at hq
  exact nomatch hq

/-- The journal with a page whose PAGE_OPEN failed out of use (R119). -/
def State.spoilOpen (s : State) (w : Write) : State :=
  let u := setSlot s w.page w.slot .void
  { u with ej := { u.ej.withPage w.page { u.page w.page with state := .defective, defect := some .openFailed } with
      openPage := none, closeRequested := false } }

theorem pageOpenFailed_eq {w : Write} (hw : s.ej.writer = some w) (hs : w.source = .pageOpen) :
    pageOpenFailed s = writerNext (showDefect (s.spoilOpen w) w.page ((s.page w.page).serial.getD 0) .openFailed) := by
  unfold pageOpenFailed
  rw [hw]
  simp only [hs, if_true]
  have serial : (setSlot s w.page w.slot .void).page w.page
      = { s.page w.page with slots := (s.page w.page).slots.set w.slot .void } := setPage_page_self _ _ _
  rw [serial]
  simp only [State.spoilOpen, serial]
  rfl

theorem laid_spoilOpen {w : Write} (h : s.ej.Sound) (hw : s.ej.writer = some w) : (s.spoilOpen w).ej.Laid :=
  (h.setSlot hw w.slot .void).laid.shut (h.writing hw).1 (x := { (setSlot s w.page w.slot .void).page w.page with
    state := .defective, defect := some .openFailed }) nofun nofun false

theorem sound_pageOpenFailed (h : s.ej.Sound) : (pageOpenFailed s).ej.Sound := by
  cases hw : s.ej.writer with
  | none => rwa [pageOpenFailed, hw]
  | some w =>
    by_cases hs : w.source = .pageOpen
    · rw [pageOpenFailed_eq hw hs]
      exact sound_writerNext (rests_showDefect (laid_spoilOpen h hw) rfl (fun x => absurd (hw.symm.trans x) nofun) _ _ _)
    · rw [pageOpenFailed, hw]
      simpa only [hs, if_false] using h

/-! ## The end of an erase (R127) -/

/-- The store with the head of its erase queue taken off: that page is ERASING and not in the rest. -/
theorem Ej.Sound.takeErase (h : e.Sound) {p : Fin 64} {rest : List (Fin 64)} (hq : e.eraseQueue = p :: rest) :
    { e with eraseQueue := rest }.Sound ∧ (e.pages[p]).state = .erasing ∧ p ∉ rest := by
  obtain ⟨nodup, erasing⟩ := h.laid.erasing
  rw [hq, List.nodup_cons] at nodup
  rw [hq] at erasing
  have running : e.state ≠ .starting := fun x => absurd (hq.symm.trans (h.laid.starting x)) nofun
  refine ⟨⟨⟨h.laid.stopped, fun x => absurd x running, h.laid.opened, h.laid.free,
    ⟨nodup.2, fun q hq => erasing q (List.mem_cons_of_mem _ hq)⟩⟩, ⟨h.fits.idle, h.fits.slot, h.fits.writer, h.fits.source⟩,
    wellJudged_congr h.judged rfl rfl⟩, erasing p List.mem_cons_self, nodup.1⟩

theorem sound_eraseEnd (h : s.ej.Sound) (notBlank : List (Fin 128)) : (eraseEnd s notBlank).ej.Sound := by
  unfold eraseEnd
  split
  · exact h
  · rename_i p rest hq
    obtain ⟨taken, erasing, out⟩ := h.takeErase hq
    have notOpen : (s.page p).state ≠ .opened := fun x => absurd (x.symm.trans erasing) nofun
    have notFree : (s.page p).state ≠ .free := fun x => absurd (x.symm.trans erasing) nofun
    have replaced {x : Page} (opened : x.state ≠ .opened) (free : x.state = .free → x = {}) :
        ({ s.ej with eraseQueue := rest }.withPage p x).Laid := taken.laid.withPage (iff_of_false opened notOpen) free out
    simp only []
    split
    · unfold pageFreed
      refine sound_writerDecide (sound_judgeJournal ?_ ?_)
      · rw [ej_notify]
        exact replaced nofun fun _ => rfl
      · rw [ej_notify]
        exact ⟨taken.fits.idle, taken.fits.slot, taken.fits.writer, taken.fits.source⟩
    · unfold pageSpoiled showDefect
      have spoiled : ({ s.ej with eraseQueue := rest }.withPage p
          { state := .defective, serial := (s.page p).serial, defect := some .eraseVerify, slots := erasedSlots notBlank }).Sound :=
        ⟨replaced nofun nofun, ⟨taken.fits.idle, taken.fits.slot, taken.fits.writer, taken.fits.source⟩,
          wellJudged_withPage taken.judged (iff_of_false nofun notFree) (iff_of_false nofun notOpen)⟩
      have offered (u : State) (r : Record) (k : NoticeKind) (x : Subject) (d : List Byte) (hu : u.ej.Sound) :
          (judgeJournal (notify (offer u r) k x d)).ej.Sound := by
        have kept : (notify (offer u r) k x d).ej.Sound := by
          rw [ej_notify]
          exact sound_offer r hu
        exact sound_judgeJournal kept.laid kept.fits
      exact offered _ _ _ _ _ spoiled

/-! ## The journal's requests -/

theorem sound_requestClose (h : s.ej.Sound) : (requestClose s).state.ej.Sound := by
  unfold requestClose
  split
  · exact h
  · split
    · exact h
    · split
      · rename_i idle
        exact sound_closePage h (Option.isNone_iff_eq_none.1 idle) .request
      · exact h.congr rfl rfl rfl rfl rfl rfl

/-- A page in use replaced by one in use, neither of them OPEN nor ERASING before. -/
theorem Ej.Sound.withPage (h : e.Sound) {p : Fin 64} {x : Page} (old : (e.pages[p]).state ≠ .opened ∧ (e.pages[p]).state ≠ .free
      ∧ (e.pages[p]).state ≠ .erasing) (new : x.state ≠ .opened ∧ x.state ≠ .free) : (e.withPage p x).Sound := by
  obtain ⟨notOpen, notFree, notErasing⟩ := old
  exact ⟨h.laid.withPage (iff_of_false new.1 notOpen) (fun y => absurd y new.2) (h.laid.not_mem_queue notErasing),
    ⟨h.fits.idle, h.fits.slot, h.fits.writer, h.fits.source⟩,
    wellJudged_withPage h.judged (iff_of_false new.2 notFree) (iff_of_false new.1 notOpen)⟩

theorem sound_confirmExport (h : s.ej.Sound) (serial chain : Nat) (retention : Option Nat) :
    (confirmExport serial chain retention s).state.ej.Sound := by
  unfold confirmExport
  simp only []
  split
  · exact h
  · rename_i p _
    refine iteAnswer_state (p := fun u => u.ej.Sound) _ h ?_
    by_cases closed : (s.page p).state ≠ .closed
    · rw [if_pos closed]
      exact h
    · rw [if_neg closed]
      rw [not_not] at closed
      refine iteAnswer_state (p := fun u => u.ej.Sound) _ h ?_
      have old : (s.ej.pages[p]).state = .closed := closed
      exact h.withPage (x := { s.page p with state := .exported, retention := some (retention.getD 7) })
        (by rw [old]; exact ⟨nofun, nofun, nofun⟩) ⟨nofun, nofun⟩

theorem sound_release (h : s.ej.Sound) {p : Fin 64} (running : s.ej.state ≠ .starting) (hp : (s.page p).state = .exported) :
    (release s p).ej.Sound := by
  have old : (s.ej.pages[p]).state = .exported := hp
  have out : p ∉ s.ej.eraseQueue := h.laid.not_mem_queue (by rw [old]; exact nofun)
  have erasing := h.withPage (p := p) (x := { s.page p with state := .erasing }) (by rw [old]; exact ⟨nofun, nofun, nofun⟩)
    ⟨nofun, nofun⟩
  have queued : ∀ q ∈ s.ej.eraseQueue ++ [p], ((s.ej.withPage p { s.page p with state := .erasing }).pages[q]).state = .erasing := by
    intro q hq
    rcases List.mem_append.1 hq with hq | hq
    · exact erasing.laid.erasing.2 q hq
    · rw [List.mem_singleton.1 hq, withPage_page, if_pos rfl]
  exact ⟨⟨erasing.laid.stopped, fun x => absurd x running, erasing.laid.opened, erasing.laid.free,
    ⟨h.laid.erasing.1.append (List.nodup_singleton p) (by simpa using out), queued⟩⟩,
    ⟨h.fits.idle, h.fits.slot, h.fits.writer, h.fits.source⟩, wellJudged_congr erasing.judged rfl rfl⟩

theorem sound_releasePage (h : s.ej.Sound) (running : s.ej.state ≠ .starting) (serial : Nat) :
    (releasePage serial s).state.ej.Sound := by
  unfold releasePage
  split
  · exact h
  · split
    · exact h
    · exact h
    · exact h
    · exact h
    · exact h
    · rename_i exported
      refine iteAnswer_state (p := fun u => u.ej.Sound) _ h (iteAnswer_state (p := fun u => u.ej.Sound) _ h ?_)
      exact sound_release h running exported

end

end Sys2Proof.Machine
end

