-- ==== Sys2Proof/Proofs/StoreSteps.lean ====
section
/-!
PROOFS. Proofs/StoreSteps.lean: the end of recovery makes a sound store, a restart leaves one; so every request, every event and every step
keeps the journal's store sound.
-/
namespace Sys2Proof.Machine

section
variable {s : State}

/-! ## The end of recovery (R129 to R132) -/

/-- What this recovery finds at the chain end. -/
def Ej.chainFound (e : Ej) : Recovered := recoveredFrom (e.pages.map Page.recovered)

/-- The store as recovery leaves it: OPEN pages closed, those with no record at the chain end. -/
def Ej.recoveredStore (e : Ej) : Vector Page 64 :=
  Vector.ofFn fun i : Fin 64 => ((e.pages.map Page.recovered)[i]).settle ((e.pages[i]).state == .opened) e.chainFound

/-- Some OPEN page had a torn tail (R131). -/
def Ej.truncated (e : Ej) : Bool := e.pages.toList.any fun p => p.state == .opened && p.torn

/-- The greatest serial in the page table. -/
def Ej.topSerial (e : Ej) : Nat := (e.recoveredStore.toList.filterMap (·.serial)).foldl max 0

/-- The journal with the chain found, before the next epoch begins. -/
def Ej.walkedThrough (e : Ej) : Ej :=
  { e with
    pages := e.recoveredStore
    nextIndex := match e.chainFound.index with | some i => freeSucc 2 (Config.noIndex - 1) i | none => 0
    chain := e.chainFound.chain
    nextSerial := freeSucc 1 Config.max32 e.topSerial }

/-- The part with the chain found, its clock loaded. -/
def State.delivered (s : State) : State :=
  loadClock { s with ej := s.ej.walkedThrough } s.ej.chainFound.vt s.ej.chainFound.leapCount

/-- The part with the next epoch begun, or with none left. -/
def State.begun (s : State) : State := beginEpoch s.delivered s.ej.chainFound s.ej.truncated

/-- START noticed, the erases owed again (R127, R131). -/
def State.startNoticed (s : State) : State :=
  let u := notify s .start .nothing (be 1 s.ej.restartCause.code ++ be 4 s.ej.epoch ++ be 1 s.ej.state.code)
  { u with ej := { u.ej with eraseQueue := allPages.filter fun p => (u.page p).state == .erasing } }

/-- The greater of the recovered and the stored epoch. -/
def Ej.lastEpoch (e : Ej) (r : Recovered) : Nat := max r.epoch e.storedEpoch

/-- The journal in its next epoch, START at the head of its intake (R130, R131). -/
def Ej.inEpoch (e : Ej) (n : Nat) (r : Recovered) (truncated : Bool) : Ej :=
  { e with
    epoch := n, storedEpoch := n
    intake := startRecord { e with epoch := n, storedEpoch := n } r truncated :: e.intake
    state := e.judged }

theorem beginEpoch_next {r : Recovered} (h : s.ej.lastEpoch r < Config.max32) (truncated : Bool) :
    beginEpoch s r truncated = journalReport { s with
      ej := s.ej.inEpoch (s.ej.lastEpoch r + 1) r truncated, sis := { s.sis with epoch := s.ej.lastEpoch r + 1 } } s.ej.judged := by
  unfold beginEpoch
  exact (if_pos h).trans rfl

theorem beginEpoch_last {r : Recovered} (h : ¬ s.ej.lastEpoch r < Config.max32) (truncated : Bool) :
    beginEpoch s r truncated = journalReport { s with ej := { s.ej with state := .exhausted } } .exhausted := by
  unfold beginEpoch
  exact if_neg h

theorem recoveryEnd_eq (h : s.ej.state = .starting) : recoveryEnd s = writerDecide s.begun.startNoticed := by
  unfold recoveryEnd
  rw [if_pos h]
  rfl

theorem recovered_of_not_opened {x : Page} (h : x.state ≠ .opened) : x.recovered = x := if_neg h

theorem recoveredStore_page (e : Ej) (p : Fin 64) :
    e.recoveredStore[p] = (e.pages[p]).recovered.settle ((e.pages[p]).state == .opened) e.chainFound := by
  simp [Ej.recoveredStore]

/-- A page that was not OPEN is as it was. -/
theorem recoveredStore_of_not_opened (e : Ej) {p : Fin 64} (h : (e.pages[p]).state ≠ .opened) : e.recoveredStore[p] = e.pages[p] := by
  rw [recoveredStore_page, recovered_of_not_opened h, Page.settle, if_neg]
  exact fun x => h (by simpa using x.1)

/-- A page that was OPEN is closed. -/
theorem recoveredStore_closed (e : Ej) {p : Fin 64} (h : (e.pages[p]).state = .opened) : (e.recoveredStore[p]).state = .closed := by
  rw [recoveredStore_page, Page.settle, Page.recovered, if_pos h]
  split <;> rfl

/-- Recovery leaves no page OPEN, and as FREE only what was FREE. -/
theorem recoveredStore_state (e : Ej) (p : Fin 64) : (e.recoveredStore[p]).state ≠ .opened := by
  by_cases h : (e.pages[p]).state = .opened
  · rw [recoveredStore_closed e h]
    exact nofun
  · rwa [recoveredStore_of_not_opened e h]

theorem recoveredStore_free (e : Ej) {p : Fin 64} (h : (e.recoveredStore[p]).state = .free) : e.recoveredStore[p] = e.pages[p] := by
  by_cases k : (e.pages[p]).state = .opened
  · exact absurd ((recoveredStore_closed e k).symm.trans h) nofun
  · exact recoveredStore_of_not_opened e k

/-- After recovery a journal in any state but STARTING is laid out with no page open. -/
theorem laid_recovered {e : Ej} (blank : ∀ p : Fin 64, (e.pages[p]).state = .free → e.pages[p] = {}) {f : Ej}
    (running : f.state ≠ .starting) (openPage : f.openPage = none) (queue : f.eraseQueue = []) (pages : f.pages = e.recoveredStore) :
    f.Laid where
  stopped := fun _ => openPage
  starting := fun x => absurd x running
  opened := fun _ p => by
    rw [pages, openPage]
    exact iff_of_false (recoveredStore_state e p) fun ⟨n, hn⟩ => nomatch hn
  free := fun p hp => by
    rw [pages] at hp ⊢
    have same := recoveredStore_free e hp
    rw [same] at hp ⊢
    exact blank p hp
  erasing := by rw [queue]; exact ⟨List.nodup_nil, nofun⟩

/-- A journal after recovery, judged or EXHAUSTED, is sound: nothing is being written. -/
theorem sound_recovered (h : s.ej.Sound) (starting : s.ej.state = .starting) {f : Ej} (running : f.state ≠ .starting)
    (judged : f.WellJudged) (register : f.openPage = s.ej.openPage) (queue : f.eraseQueue = s.ej.eraseQueue)
    (writer : f.writer = s.ej.writer) (pages : f.pages = s.ej.recoveredStore) : f.Sound := by
  have none : f.openPage = none := register.trans (h.laid.stopped (.inl starting))
  have laid := laid_recovered h.laid.free running none (queue.trans (h.laid.starting starting)) pages
  exact Ej.Rests.sound ⟨laid, judged, by rw [none]; exact nofun⟩ (writer.trans (h.fits.idle (.inl starting)))

theorem sound_journalReport {v : JournalState} (h : s.ej.Sound) (running : s.ej.state ≠ .starting) :
    (journalReport s v).ej.Sound ∧ (journalReport s v).ej.state ≠ .starting :=
  ⟨h.fed (fed_journalReportWith (FedBy.refl _ s)), (handed_journalReport s v).running running⟩

theorem sound_begun (h : s.ej.Sound) (starting : s.ej.state = .starting) : s.begun.ej.Sound ∧ s.begun.ej.state ≠ .starting := by
  have delivered : s.delivered.ej = s.ej.walkedThrough := rfl
  unfold State.begun
  generalize s.delivered = u at delivered ⊢
  by_cases next : u.ej.lastEpoch s.ej.chainFound < Config.max32
  · rw [beginEpoch_next next]
    refine sound_journalReport ?_ (judged_ne_starting _)
    refine sound_recovered h starting (judged_ne_starting _) (.inr (.inr ?_)) ?_ ?_ ?_ ?_
    · exact judged_congr (fun _ => Iff.rfl) fun _ => Iff.rfl
    all_goals simp only [Ej.inEpoch, delivered, Ej.walkedThrough]
  · rw [beginEpoch_last next, delivered]
    refine sound_journalReport ?_ nofun
    exact sound_recovered h starting nofun (.inr (.inl rfl)) rfl rfl rfl rfl

theorem sound_recoveryEnd (h : s.ej.Sound) : (recoveryEnd s).ej.Sound := by
  by_cases starting : s.ej.state = .starting
  · rw [recoveryEnd_eq starting]
    obtain ⟨begun, running⟩ := sound_begun h starting
    generalize s.begun = u at begun running ⊢
    refine sound_writerDecide ?_
    unfold State.startNoticed
    simp only []
    generalize hv : notify u .start .nothing _ = v
    have same : v.ej = u.ej := by rw [← hv, ej_notify]
    rw [← same] at begun running
    have owed : (allPages.filter fun p => (v.page p).state == .erasing).Nodup := List.Nodup.filter _ (List.nodup_finRange 64)
    refine ⟨⟨begun.laid.stopped, fun x => absurd x running, begun.laid.opened, begun.laid.free,
      ⟨owed, fun p hp => ?_⟩⟩, ⟨begun.fits.idle, begun.fits.slot, begun.fits.writer, begun.fits.source⟩,
      wellJudged_congr begun.judged rfl rfl⟩
    exact eq_of_beq (List.mem_filter.1 hp).2
  · rwa [recoveryEnd, if_neg starting]

/-! ## Requests received and the framer -/

/-- An owner that keeps the store sound once recovery has ended. -/
def SoundOwner (owner : State → Answered) : Prop :=
  ∀ s : State, s.ej.state ≠ .starting → s.ej.Sound → (owner s).state.ej.Sound

theorem FeedingOwner.sound {owner : State → Answered} (h : FeedingOwner owner) : SoundOwner owner := fun s _ k => k.fed (h s)

/-- Every request's owner keeps the store sound. -/
theorem soundOwner_perform (r : Request) : SoundOwner (perform r) := by
  have unchanged {owner : State → Answered} (h : ∀ s, (owner s).state.ej = s.ej) : SoundOwner owner := fun s _ k => by rwa [h s]
  cases r with
  | identify => exact unchanged fun _ => rfl
  | restart => exact unchanged fun _ => rfl
  | fetchNotices n => exact unchanged fun s => iteAnswer_state (p := fun u => u.ej = s.ej) _ rfl rfl
  | setClockLimits l => exact FeedingOwner.sound fun s => fed_setClockLimits (fed_self s)
  | readClock => exact unchanged fun _ => rfl
  | announceLeap v => exact FeedingOwner.sound fun s => fed_announceLeap (fed_self s)
  | configureReference a => exact (feeding_configureReference a).sound
  | enableReference n => exact (feeding_enableReference n).sound
  | disableReference n => exact (feeding_disableReference n).sound
  | readReference n => exact (feeding_onRef fun s _ => fed_self s).sound
  | holdLine n => exact (feeding_holdLine n).sound
  | configureLine n m d => exact (feeding_configureLine n m d).sound
  | setFilter n i e c m => exact (feeding_setFilter n i e c m).sound
  | releaseLine n => exact (feeding_releaseLine n).sound
  | reconnectLine n => exact (feeding_reconnectLine n).sound
  | readLine n => exact (feeding_onLine fun s _ => fed_self s).sound
  | openStamping => exact feeding_openStamping.sound
  | readIssuer => exact unchanged fun _ => rfl
  | armAuction a => exact (feeding_armAuction a).sound
  | extendAuction n => exact (feeding_extendAuction n).sound
  | cutNow n => exact (feeding_cutNow n).sound
  | cancelAuction n => exact (feeding_cancelAuction n).sound
  | clearAuction n => exact (feeding_clearAuction n).sound
  | readAuction n => exact (feeding_onGroup fun s _ => fed_self s).sound
  | readJournal => exact unchanged fun _ => rfl
  | readRecords p i n => exact (feeding_readRecords p i n).sound
  | closePage => exact fun _ _ k => sound_requestClose k
  | confirmExport p c r => exact fun _ _ k => sound_confirmExport k p c r
  | releasePage p => exact fun _ running k => sound_releasePage k running p
  | annotate d => exact (feeding_annotate d).sound
  | configureAgent a => exact (feeding_configureAgent a).sound
  | enableAgent n => exact (feeding_enableAgent n).sound
  | disableAgent n => exact (feeding_disableAgent n).sound
  | resumeSurvey => exact feeding_resumeSurvey.sound
  | readAgent n => exact (feeding_onAgent fun s _ => fed_self s).sound

theorem sound_ite {c : Prop} [Decidable c] {t u : State} (h : t.ej.Sound) (k : u.ej.Sound) : (if c then t else u).ej.Sound := by
  split
  · exact h
  · exact k

/-- A request received: before recovery has ended none but Identify reaches its owner (R164). -/
theorem sound_receiveWith {owner : Request → State → Answered} {kind tag : Byte} {p : Parsed}
    (hf : ∀ r, p = .request r → owner r = perform r) (h : s.ej.Sound) : (receiveWith owner kind tag p s).ej.Sound := by
  have performed {u : State} (k : u.ej.Sound) : (performWith owner kind tag p u).ej.Sound := by
    cases p with
    | unknownKind => exact k
    | badLength => exact k
    | request r =>
      rw [performWith, hf r rfl]
      by_cases early : u.ej.state = .starting
      · by_cases harmless : r = .identify
        · subst harmless
          exact sound_ite (t := addReply u kind tag .starting []) k k
        · rw [if_pos ⟨early, harmless⟩]
          exact k
      · rw [if_neg fun x => early x.1]
        exact soundOwner_perform r u early k
  exact sound_ite h (sound_ite (t := leaveUnanswered s) h
    (sound_ite (t := answerBusy s kind tag) h (performed (u := acceptRequest s kind tag) h)))

theorem sound_receivedRequest {kind tag : Byte} {body : List Byte} (h : s.ej.Sound) : (receivedRequest s kind tag body).ej.Sound :=
  sound_receiveWith (fun _ _ => rfl) h

theorem ej_rejectFrame (s : State) (cause : RejectCause) : (rejectFrame s cause).ej = s.ej := by
  unfold rejectFrame
  simp only []
  split <;> rfl

theorem sound_frameComplete {a : Assembly} (h : s.ej.Sound) : (frameComplete s a).ej.Sound := by
  unfold frameComplete
  split
  · exact sound_receivedRequest (s := { s with hli := s.hli.hunting }) h
  · rwa [ej_rejectFrame]

theorem sound_frameByte {b : Byte} {stopLow : Bool} (h : s.ej.Sound) : (frameByte s b stopLow).ej.Sound := by
  have kept {f : Framer} {a : Assembly} : (keepByte s f a).ej.Sound := h
  have rejected {c : RejectCause} : (rejectFrame s c).ej.Sound := by rwa [ej_rejectFrame]
  refine sound_ite rejected ?_
  cases s.hli.framer with
  | hunt => exact h
  | length => exact sound_ite kept (sound_ite rejected kept)
  | header =>
    show (headerByte s _ b).ej.Sound
    unfold headerByte
    split <;> exact kept
  | body => exact kept
  | check => exact sound_ite kept (sound_frameComplete h)

theorem ej_huntByte (s : State) (b : Byte) (stopLow : Bool) : (huntByte s b stopLow).ej = s.ej := by
  unfold huntByte
  split <;> rfl

theorem sound_hostByte {b : Byte} {stopLow : Bool} (h : s.ej.Sound) : (hostByte s b stopLow).ej.Sound := by
  refine sound_ite h (sound_ite ?_ (sound_ite ?_ (sound_frameByte h)))
  · rwa [ej_huntByte]
  · rwa [ej_huntByte, ej_rejectFrame]

theorem sound_byteTimeout (h : s.ej.Sound) : (byteTimeout s).ej.Sound := sound_ite (by rwa [ej_rejectFrame]) h

/-! ## Restarts (R133, R173) -/

theorem settledStore_free (h : s.ej.Sound) {p : Fin 64} (hp : ((settledStore s)[p]).state = .free) : (settledStore s)[p] = {} := by
  have slot {w : Write} (hw : s.ej.writer = some w) (c : Slot) (q : Fin 64)
      (hq : ((s.ej.pages.set w.page { s.page w.page with slots := (s.page w.page).slots.set w.slot c })[q]).state = .free) :
      (s.ej.pages.set w.page { s.page w.page with slots := (s.page w.page).slots.set w.slot c })[q] = {} :=
    (h.setSlot hw w.slot c).laid.free q hq
  unfold settledStore at hp ⊢
  cases hw : s.ej.writer with
  | none =>
    rw [hw] at hp
    exact h.laid.free p hp
  | some w =>
    rw [hw] at hp
    simp only [] at hp ⊢
    split at hp
    · exact slot hw _ p hp
    · exact slot hw _ p hp
    · exact h.laid.free p hp

/-- A part at its restart values has a sound store: nothing is being written, no page is open for it, and recovery has not ended. -/
theorem sound_restarted {t : State} {n : Nat} {cause : RestartCause} (h : s.ej.Sound)
    (ht : t.ej = { pages := settledStore s, storedEpoch := n, restartCause := cause }) : t.ej.Sound := by
  rw [ht]
  exact ⟨⟨fun _ => rfl, fun _ => rfl, fun x => absurd rfl x, fun p => settledStore_free h, List.nodup_nil, nofun⟩,
    ⟨fun _ => rfl, nofun, nofun, nofun⟩, .inl rfl⟩

theorem sound_powerUp {a b : Bool} (h : s.ej.Sound) : (powerUp s a b).ej.Sound :=
  sound_ite h (sound_ite (t := { s with supply := true, powerOwed := true }) h
    (sound_restarted (s := { s with supply := true }) h rfl))

theorem sound_resetAssert {n : Nat} (h : s.ej.Sound) : (resetAssert s n).ej.Sound := sound_ite h (sound_restarted h rfl)

theorem sound_resetRelease {a b : Bool} (h : s.ej.Sound) : (resetRelease s a b).ej.Sound :=
  sound_ite (sound_ite (u := { s with resetLow := false }) (sound_restarted (s := { s with resetLow := false }) h rfl) h) h

theorem sound_supplyLoss (h : s.ej.Sound) : (supplyLoss s).ej.Sound := sound_ite (sound_restarted h rfl) h

theorem sound_replySent {a b : Bool} (h : s.ej.Sound) : (replySent s a b).ej.Sound := by
  unfold replySent
  split
  · exact h
  · rename_i r rest _
    have sent {out : Option (Byte × Byte)} : { s with hli := { s.hli with replies := rest, outstanding := out } }.ej.Sound := h
    exact sound_ite (sound_restarted sent rfl) sent

end

/-! ## Every command and every step -/

/-- A command whose effect is the next state. -/
theorem sound_next {t u : State} (h : u.ej.Sound) (ht : (.next u : Host.Outcome State Fault Refusal) = .next t) : t.ej.Sound := by
  cases ht
  exact h

/-- An event of the journal or the host link, while the part runs. -/
theorem sound_event {s t : State} {effect : State → State} (hf : ∀ {u : State}, u.ej.Sound → (effect u).ej.Sound) (h : s.ej.Sound)
    (ht : whenLive s effect = .next t) : t.ej.Sound := sound_next (sound_ite (hf h) h) ht

/-- An event of another block, which only offers records. -/
theorem sound_fedEvent {s t : State} {effect : State → State} (hf : ∀ {o u : State}, Fed o u → Fed o (effect u)) (h : s.ej.Sound)
    (ht : whenLive s effect = .next t) : t.ej.Sound := sound_event (fun {u} k => k.fed (hf (fed_self u))) h ht

theorem fed_expire {o s : State} {g : Fin 32} {k : DeadlineKind} {effect : State → State}
    (hf : ∀ {u : State}, Fed o u → Fed o (effect u)) (h : Fed o s) : Fed o (expire s g k effect) := FedBy.ite (hf h) h

/-- A command's request is checked as itself, or refused for its length. -/
theorem checkedRequest_eq {r q : Request} (h : checkedRequest r = .request q) : q = r := by
  unfold checkedRequest at h
  split at h
  · unfold whenLength at h
    split at h
    · exact (Parsed.request.inj h).symm
    · exact nomatch h
  · exact (Parsed.request.inj h).symm

theorem sound_exec {c : Instr} {s t : State} (h : s.ej.Sound) (ht : exec c s = .next t) : t.ej.Sound := by
  cases hr : c.request? with
  | some q =>
    rw [exec_request (r := q.2) hr] at ht
    exact sound_next (sound_ite (sound_receiveWith (fun r hc => by rw [checkedRequest_eq hc]) h) h) ht
  | none =>
    cases c with
    | powerUp a b => exact sound_next (sound_powerUp h) ht
    | resetAssert n => exact sound_next (sound_resetAssert h) ht
    | resetRelease a b => exact sound_next (sound_resetRelease h) ht
    | supplyLoss => exact sound_next (sound_supplyLoss h) ht
    | replySent a b => exact sound_event sound_replySent h ht
    | recoveryEnd => exact sound_event sound_recoveryEnd h ht
    | hostByteReceived v b => exact sound_event sound_hostByte h ht
    | byteTimeout => exact sound_event sound_byteTimeout h ht
    | receivedRequest k g b => exact sound_event sound_receivedRequest h ht
    | writeVerified => exact sound_event sound_writeVerified h ht
    | writeFailed => exact sound_event sound_writeFailed h ht
    | pageOpenFailed => exact sound_event sound_pageOpenFailed h ht
    | eraseEnd l => exact sound_event (fun k => sound_eraseEnd k l) h ht
    | secondBoundary => exact sound_fedEvent fed_secondBoundary h ht
    | clockSummary => exact sound_fedEvent fed_clockSummary h ht
    | leapLatch => exact sound_fedEvent fed_leapLatch h ht
    | leapApplication => exact sound_fedEvent fed_leapApplication h ht
    | civilMidnight => exact sound_fedEvent fed_civilMidnight h ht
    | pulseEdge r b e => exact sound_fedEvent fed_pulseEdge h ht
    | edgeJudged r => exact sound_fedEvent fed_edgeJudged h ht
    | overrun r => exact sound_fedEvent fed_overrun h ht
    | missingPulse r => exact sound_fedEvent fed_missingPulse h ht
    | labelFrame r b p => exact sound_fedEvent fed_labelFrame h ht
    | labelTimeout x => exact sound_fedEvent fed_labelTimeout h ht
    | tagStartDelimiter i b => exact sound_fedEvent fed_startDelimiter h ht
    | tagFrameEnd i b e => exact sound_fedEvent fed_frameEnd h ht
    | returnFrameEnd i => exact sound_fedEvent fed_laneEnd h ht
    | pauseAssert i => exact sound_next (h.fed (fed_pauseAsserted (fed_self s))) ht
    | pauseDeassert i => exact sound_next (h.fed (fed_pauseDeasserted (fed_self s))) ht
    | drainTimeout i => exact sound_fedEvent fed_drainTimeout h ht
    | grant => exact sound_fedEvent fed_grantOffer h ht
    | callStart g => exact sound_fedEvent (fed_expire fed_callStarted) h ht
    | windowStart g => exact sound_fedEvent (fed_expire fed_windowStarted) h ht
    | endExpiry g => exact sound_fedEvent (fed_expire fed_ended) h ht
    | deferLimit g => exact sound_fedEvent (fed_expire fed_heldBack) h ht
    | settle g => exact sound_fedEvent (fed_expire fed_settled) h ht
    | agentDue a => exact sound_fedEvent fed_agentDue h ht
    | markPhaseEnd o => exact sound_fedEvent fed_markPhaseEnd h ht
    | gapEnd => exact sound_fedEvent fed_gapEnd h ht
    | readPhaseEnd o => exact sound_fedEvent fed_readPhaseEnd h ht
    | arbitrationLost => exact sound_fedEvent fed_arbitrationLost h ht
    | busError b => exact sound_fedEvent fed_busError h ht
    | clockLowTimeout b => exact sound_fedEvent fed_clockLowTimeout h ht
    | startConditionSeen a b => exact sound_fedEvent fed_startConditionSeen h ht
    | stopConditionSeen => exact sound_fedEvent fed_freed h ht
    | busTimerExpiry => exact sound_fedEvent fed_busTimerExpiry h ht
    | clearingStopSent => exact sound_fedEvent fed_freed h ht
    | stale a => exact sound_fedEvent fed_stale h ht
    | busLineChange a b => exact sound_fedEvent fed_lineChange h ht
    | ninthClearingPulse => exact sound_fedEvent fed_ninthPulse h ht
    | _ => exact absurd hr (by simp [Instr.request?])

theorem sound_tick {s : State} (h : s.ej.Sound) : (tick s).ej.Sound :=
  sound_ite (t := { s with osc := s.osc + 1, tsu := if s.ej.state = .starting then s.tsu else s.tsu.advance }) h h

/-- Settles O53: what the other blocks do to the journal is offering records, which keep it sound; each event of the journal, the end of
recovery and a restart leave it sound. -/
theorem storeSoundKept : Obligations.StoreSoundKept := by
  intro s t h ht
  rw [storeSound_iff] at h ⊢
  unfold step at ht
  split at ht
  · rename_i c rest _
    exact sound_exec (s := { s with pending := rest }) h ht
  · split at ht
    · exact sound_exec h ht
    · exact sound_next (sound_tick h) ht

end Sys2Proof.Machine
end

