-- ==== Sys2Proof/Proofs/JournalRequests.lean ====
section
/-!
PROOFS. Proofs/JournalRequests.lean: the requests that close a page, confirm that it was exported, release it and annotate (R121,
R125, R126, R128).
-/
namespace Sys2Proof.Machine

section
variable {s t u : State}

/-! ## What a journal event keeps of the other blocks -/

theorem OutsideJournal.trans (h : OutsideJournal s t) (k : OutsideJournal t u) : OutsideJournal s u where
  pending := k.pending.trans h.pending
  pins := ⟨k.pins.1.trans h.pins.1, k.pins.2.1.trans h.pins.2.1, k.pins.2.2.trans h.pins.2.2⟩
  osc := ⟨k.osc.1.trans h.osc.1, k.osc.2.trans h.osc.2⟩
  tsu := k.tsu.trans h.tsu
  rfe := k.rfe.trans h.rfe
  sis := k.sis.trans h.sis
  psm := k.psm.trans h.psm
  lines := fun i => (h.lines i).trans (k.lines i)
  host := by rw [k.host, h.host]
  notices := h.notices.trans k.notices
  epoch := ⟨k.epoch.1.trans h.epoch.1, k.epoch.2.trans h.epoch.2⟩

theorem OutsideJournal.now (h : OutsideJournal s t) : t.now = s.now := by rw [State.now, State.now, h.tsu]

theorem OutsideJournal.noticesLe (h : OutsideJournal s t) : s.hli.notices.length ≤ t.hli.notices.length := h.notices.length_le

theorem outside_setGroup (s : State) (g : Fin 32) (a : Auction) : OutsideJournal s (s.setGroup g a) :=
  ⟨rfl, ⟨rfl, rfl, rfl⟩, ⟨rfl, rfl⟩, rfl, rfl, rfl, rfl, fun _ => LineKept.refl _, rfl, List.prefix_refl _, rfl, rfl⟩

/-- A change of the journal that keeps the epoch. -/
theorem outside_ej {e : Ej} (epoch : e.epoch = s.ej.epoch) (stored : e.storedEpoch = s.ej.storedEpoch) :
    OutsideJournal s { s with ej := e } :=
  ⟨rfl, ⟨rfl, rfl, rfl⟩, ⟨rfl, rfl⟩, rfl, rfl, rfl, rfl, fun _ => LineKept.refl _, rfl, List.prefix_refl _, epoch, stored⟩

theorem Handed.outside (h : Handed s t) : OutsideJournal s t where
  pending := h.pending
  pins := ⟨h.supply, h.resetLow, h.powerOwed⟩
  osc := ⟨h.osc, h.restarts⟩
  tsu := h.tsu
  rfe := h.rfe
  sis := h.sis
  psm := h.psm
  lines := h.lines
  host := h.host
  notices := h.notices
  epoch := ⟨h.epoch, h.storedEpoch⟩

theorem Handed.outsideOf {e : Ej} (h : Handed { s with ej := e } t) (epoch : e.epoch = s.ej.epoch)
    (stored : e.storedEpoch = s.ej.storedEpoch) : OutsideJournal s t := (outside_ej epoch stored).trans h.outside

/-! ## Close Page (R121) -/

/-- The page closed, as the request's statement gives it. -/
structure ClosedShown (s t : State) (p : Fin 64) (n : Nat) (cause : CloseCause) : Prop where
  handed : Handed { s with ej := s.closing p n cause } t
  page : t.page p = (s.page p).closedAs cause s.now n s.ej.chain
  others : ∀ q, q ≠ p → (s.page q).state ≠ .free → t.page q = s.page q
  noticed : Noticed s t .pageClosed s.now (.page p.val) (be 4 ((s.page p).serial.getD 0) ++ be 1 cause.code ++ be 1 n)

theorem closing_page (s : State) (p : Fin 64) (n : Nat) (cause : CloseCause) (q : Fin 64) :
    ({ s with ej := s.closing p n cause } : State).page q = if q = p then (s.page p).closedAs cause s.now n s.ej.chain else s.page q :=
  withPage_page s.ej p _ q

theorem closePage_shown {p : Fin 64} {n : Nat} (h : s.ej.openPage = some (p, n)) (cause : CloseCause) :
    ClosedShown s (closePage s cause) p n cause := by
  have judged := handed_judgeJournal { s with ej := s.closing p n cause }
  have handed : Handed { s with ej := s.closing p n cause } (closePage s cause) := by
    rw [closePage_eq h]
    exact judged.trans (handed_notify _ _ _ _)
  refine ⟨handed, ?_, fun q hq used => ?_, ?_⟩
  · have closed := closing_page s p n cause p
    rw [if_pos rfl] at closed
    rw [handed.pages p (by rw [closed]; exact nofun), closed]
  · have same := closing_page s p n cause q
    rw [if_neg hq] at same
    rw [handed.pages q (by rwa [same]), same]
  · rw [closePage_eq h]
    have noticed := noticed_notify (judgeJournal { s with ej := s.closing p n cause }) .pageClosed (.page p.val)
      (be 4 ((s.page p).serial.getD 0) ++ be 1 cause.code ++ be 1 n)
    rw [judged.now] at noticed
    exact noticed.sooner judged.noticesLe

/-- A page that is not OPEN is not the open page. -/
theorem Ej.Sound.notOpenPage {e : Ej} (h : e.Sound) {p : Fin 64} (hp : (e.pages[p]).state ≠ .opened) (m : Nat) :
    e.openPage ≠ some (p, m) := fun k => hp (h.laid.opened_of_register k).2.2

theorem closePageTakesEffect (tag : Byte) (ha : s.accepts = true) (sound : s.ej.Sound) :
    let ok := s.answered 0x3A#8 tag .ok []
    (s.ej.openPage = none → exec (.closePage tag) s = .next (s.answered 0x3A#8 tag .wrongState []))
    ∧ (s.ej.openPage ≠ none → s.ej.closeRequested = true → exec (.closePage tag) s = .next ok)
    ∧ (s.ej.openPage ≠ none → s.ej.closeRequested = false → s.ej.writer ≠ none →
        exec (.closePage tag) s = .next { ok with ej := { s.ej with closeRequested := true } })
    ∧ (∀ p n, s.ej.openPage = some (p, n) → s.ej.closeRequested = false → s.ej.writer = none →
        ∃ t, exec (.closePage tag) s = .next t ∧ ClosedShown ok t p n .request ∧ t.ej.Sound) := by
  intro ok
  have opened (h : s.ej.openPage ≠ none) : s.ej.openPage.isNone = false := by simpa [Option.isSome_iff_ne_none] using h
  have asked (owner : State) (h : requestClose (acceptRequest s 0x3A#8 tag) = done owner) :
      exec (.closePage tag) s = .next (addReply owner 0x3A#8 tag .ok []) :=
    hostRequest_done tag .closePage requestClose s owner ha rfl h
  refine ⟨fun none => ?_, fun h requested => asked _ ?_, fun h requested busy => asked { acceptRequest s 0x3A#8 tag with
    ej := { s.ej with closeRequested := true } } ?_, fun p n h requested idle => ?_⟩
  · refine hostRequest_refused tag .closePage requestClose s _ ha rfl ?_
    rw [requestClose, acceptRequest_ej, none]
    rfl
  · rw [requestClose, acceptRequest_ej, opened h, requested]
    rfl
  · have writing : s.ej.writer.isNone = false := by simpa [Option.isSome_iff_ne_none] using busy
    rw [requestClose, acceptRequest_ej, opened h, requested, writing]
    rfl
  · refine ⟨_, asked (closePage (acceptRequest s 0x3A#8 tag) .request) ?_, ?_, ?_⟩
    · rw [requestClose, acceptRequest_ej, opened (by rw [h]; exact nofun), requested, idle]
      rfl
    · obtain ⟨handed, page, others, noticed⟩ := closePage_shown (s := acceptRequest s 0x3A#8 tag) h .request
      exact ⟨handed.addReply _ _ _ _, page, others, noticed⟩
    · exact sound_closePage (s := acceptRequest s 0x3A#8 tag) sound idle .request

/-! ## Confirm Export (R125) -/

theorem confirmExportTakesEffect (tag : Byte) (ha : s.accepts = true) (serial chain : Nat) (retention : Option Nat) :
    let answer (st : Status) := exec (.confirmExport tag serial chain retention) s = .next (s.answered 0x3B#8 tag st [])
    let days := retention.getD 7
    (s.ej.pageOf serial = none → answer .badArgument)
    ∧ (∀ p, s.ej.pageOf serial = some p →
      (4095 < days → answer .badArgument)
      ∧ (days ≤ 4095 → (s.page p).state ≠ .closed → answer .wrongState)
      ∧ (∀ c, days ≤ 4095 → (s.page p).state = .closed → (s.page p).lastChain = some c →
        (c.toNat ≠ chain → answer .chainMismatch)
        ∧ (c.toNat = chain → exec (.confirmExport tag serial chain retention) s = .next
            ((s.answered 0x3B#8 tag .ok []).setPage p { s.page p with state := .exported, retention := some days })))) := by
  intro answer days
  have refused (st : Status) (h : confirmExport serial chain retention (acceptRequest s 0x3B#8 tag)
      = refuse (acceptRequest s 0x3B#8 tag) st) : answer st :=
    hostRequest_refused tag (.confirmExport serial chain retention) _ s st ha rfl h
  refine ⟨fun none => refused _ ?_, fun p found => ⟨fun long => refused _ ?_, fun short other => refused _ ?_,
    fun c short closed last => ⟨fun differs => refused _ ?_, fun same => ?_⟩⟩⟩
  · rw [confirmExport, acceptRequest_ej, none]
  · rw [confirmExport, acceptRequest_ej, found]
    exact if_pos long
  · rw [confirmExport, acceptRequest_ej, found]
    exact (if_neg (Nat.not_lt.2 short)).trans (if_pos other)
  · rw [confirmExport, acceptRequest_ej, found]
    refine (if_neg (Nat.not_lt.2 short)).trans ((if_neg (not_not.2 closed)).trans (if_pos ?_))
    rw [acceptRequest_page, last]
    simpa using differs
  · refine hostRequest_done tag (.confirmExport serial chain retention) _ s
      ((acceptRequest s 0x3B#8 tag).setPage p { s.page p with state := .exported, retention := some days }) ha rfl ?_
    rw [confirmExport, acceptRequest_ej, found]
    refine (if_neg (Nat.not_lt.2 short)).trans ((if_neg (not_not.2 closed)).trans (if_neg ?_))
    rw [acceptRequest_page, last]
    simpa using same

/-! ## Release Page (R126) -/

theorem releasePageTakesEffect (tag : Byte) (ha : s.accepts = true) (serial : Nat) :
    let answer (st : Status) := exec (.releasePage tag serial) s = .next (s.answered 0x3C#8 tag st [])
    (s.ej.pageOf serial = none → answer .badArgument)
    ∧ (∀ p, s.ej.pageOf serial = some p →
      ((s.page p).state = .opened ∨ (s.page p).state = .closed → answer .notExported)
      ∧ ((s.page p).state = .erasing ∨ (s.page p).state = .defective → answer .wrongState)
      ∧ ((s.page p).state = .exported →
        (s.ej.holdsLast p = true → answer .wrongState)
        ∧ (∀ closed days, s.ej.holdsLast p = false → (s.page p).closeTime = some closed → (s.page p).retention = some days →
          (s.now < closed + days * 86400 * 1000000000 → answer .retentionRunning)
          ∧ (closed + days * 86400 * 1000000000 ≤ s.now →
            exec (.releasePage tag serial) s = .next (release (s.answered 0x3C#8 tag .ok []) p))))) := by
  intro answer
  have refused (st : Status) (h : releasePage serial (acceptRequest s 0x3C#8 tag) = refuse (acceptRequest s 0x3C#8 tag) st) :
      answer st := hostRequest_refused tag (.releasePage serial) _ s st ha rfl h
  refine ⟨fun none => refused _ ?_, fun p found => ⟨fun unexported => refused _ ?_, fun given => refused _ ?_,
    fun exported => ⟨fun last => refused _ ?_, fun closed days notLast time kept => ?_⟩⟩⟩
  · rw [releasePage, acceptRequest_ej, none]
  · rcases unexported with h | h <;> simp only [releasePage, acceptRequest_ej, acceptRequest_page, found, h]
  · rcases given with h | h <;> simp only [releasePage, acceptRequest_ej, acceptRequest_page, found, h]
  · simp only [releasePage, acceptRequest_ej, acceptRequest_page, found, exported]
    exact if_pos last
  · have until_ : (s.page p).retainedUntil = closed + days * 86400 * 1000000000 := by
      simp only [Page.retainedUntil, time, kept, Option.getD_some, nsPerSecond]
    have decided : releasePage serial (acceptRequest s 0x3C#8 tag)
        = if s.now < closed + days * 86400 * 1000000000 then refuse (acceptRequest s 0x3C#8 tag) .retentionRunning
          else done (release (acceptRequest s 0x3C#8 tag) p) := by
      simp only [releasePage, acceptRequest_ej, acceptRequest_page, found, exported, notLast, until_, Bool.false_eq_true, if_false]
      rfl
    refine ⟨fun early => refused _ (decided.trans (if_pos early)), fun late => ?_⟩
    exact hostRequest_done tag (.releasePage serial) _ s (release (acceptRequest s 0x3C#8 tag) p) ha rfl
      (decided.trans (if_neg (Nat.not_lt.2 late)))

/-! ## Annotate (R128) -/

/-- The ANNOTATION record (R128). -/
def State.annotation (s : State) (data : List Byte) : Record := { kind := .annotation, subject := 255, vt := s.now, body := data }

/-- A record the journal does not take is lost. -/
theorem offer_lost {r : Record} (h : s.ej.takes r.kind.critical = false) : offer s r = loseRecord s r.kind := by
  rw [offer, enqueue, h]
  rfl

/-- The counts a loss leaves (R114). -/
def State.losing (s : State) (critical : Bool) : Ej :=
  { s.ej with
    criticalLost := if critical then freeSucc 3 Config.noIndex s.ej.criticalLost else s.ej.criticalLost
    nonCriticalLost := if critical then s.ej.nonCriticalLost else freeSucc 4 Config.noIndex s.ej.nonCriticalLost
    firstLoss := if s.ej.criticalLost = 0 ∧ s.ej.nonCriticalLost = 0 then some s.now else s.ej.firstLoss }

theorem ej_loseRecord (s : State) (kind : RecKind) : (loseRecord s kind).ej = s.losing kind.critical := by
  unfold loseRecord State.losing
  cases kind.critical <;> simp only [Bool.false_eq_true, if_true, if_false] <;> split <;> rename_i first <;>
    simp only [Bool.and_eq_true, beq_iff_eq] at first
  · rw [ej_notify, if_pos first]
  · rw [if_neg first]
  · rw [ej_notify, if_pos first]
  · rw [if_neg first]

theorem freeSucc_lt {which limit n : Nat} (h : n < limit) : freeSucc which limit n = n + 1 := if_pos h

/-- A first loss is noticed (R114). -/
theorem noticed_loseRecord (kind : RecKind) (critical : s.ej.criticalLost = 0) (nonCritical : s.ej.nonCriticalLost = 0) :
    Noticed s (loseRecord s kind) .recordsLost s.now .nothing (be 1 kind.code) := by
  unfold loseRecord
  simp only [critical, nonCritical, beq_self_eq_true, Bool.and_self, if_true]
  exact noticed_notify _ .recordsLost .nothing (be 1 kind.code)

theorem annotateTakesEffect (tag : Byte) (ha : s.accepts = true) (data : List Byte) (length : data.length = 40) :
    (s.ej.takes false = true → ∃ t, exec (.annotate tag data) s = .next t ∧ Handed (s.answered 0x3D#8 tag .ok []) t
      ∧ Offered s t (s.annotation data))
    ∧ (s.ej.takes false = false → ∃ t, exec (.annotate tag data) s = .next t
      ∧ Handed (s.answered 0x3D#8 tag .journalFull []) t ∧ t.ej = s.losing false
      ∧ (s.ej.criticalLost = 0 → s.ej.nonCriticalLost = 0 →
          Noticed s t .recordsLost s.now .nothing (be 1 RecKind.annotation.code))) := by
  have checked : checkedRequest (.annotate data) = .request (.annotate data) := if_pos length
  have handed := handed_offer (acceptRequest s 0x3D#8 tag) (s.annotation data)
  refine ⟨fun takes => ⟨addReply (offer (acceptRequest s 0x3D#8 tag) (s.annotation data)) 0x3D#8 tag .ok [], ?_, ?_, ?_⟩,
    fun full => ⟨addReply (offer (acceptRequest s 0x3D#8 tag) (s.annotation data)) 0x3D#8 tag .journalFull [], ?_, ?_, ?_, ?_⟩⟩
  · exact hostRequest_done tag (.annotate data) (annotate data) s _ ha checked (if_pos takes)
  · exact handed.addReply _ _ _ _
  · exact (offered_offer (acceptRequest s 0x3D#8 tag) (s.annotation data)).answered
  · refine hostRequest_refusedAfter (.annotate data) (annotate data) .journalFull ha checked (if_neg ?_)
    rw [acceptRequest_ej, full]
    exact nofun
  · exact handed.addReply _ _ _ _
  · rw [offer_lost (s := acceptRequest s 0x3D#8 tag) (r := s.annotation data) full]
    exact ej_loseRecord _ _
  · intro critical nonCritical
    rw [offer_lost (s := acceptRequest s 0x3D#8 tag) (r := s.annotation data) full]
    exact noticed_loseRecord (s := acceptRequest s 0x3D#8 tag) _ critical nonCritical

end

/-- Settles O56: each request by its owner's cases; a page closed at once stays CLOSED through the journal's judgement, so it is no
longer the open one. -/
theorem journalRequestsTakeEffect : Obligations.JournalRequestsTakeEffect := by
  intro s tag ha store
  have sound := (storeSound_iff s).1 store
  obtain ⟨unopened, asked, busy, idle⟩ := closePageTakesEffect tag ha sound
  refine ⟨⟨unopened, asked, busy, fun p n opened requested stands => ?_⟩, fun serial chain retention =>
    confirmExportTakesEffect tag ha serial chain retention, fun serial => releasePageTakesEffect tag ha serial,
    fun data length => ?_⟩
  · obtain ⟨t, next, ⟨handed, page, others, noticed⟩, after⟩ := idle p n opened requested stands
    refine ⟨t, next, handed.outsideOf rfl rfl, page, others, handed.groups, fun m => after.notOpenPage ?_ m, handed.nextIndex,
      handed.chain, noticed⟩
    change (t.page p).state ≠ .opened
    rw [page]
    exact nofun
  · obtain ⟨taken, lost⟩ := annotateTakesEffect tag ha data length
    refine ⟨taken, fun full => ?_⟩
    obtain ⟨t, next, handed, ej, noticed⟩ := lost full
    refine ⟨t, next, handed, fun room => ?_, noticed⟩
    rw [ej, State.losing, freeSucc_lt room]
    rfl

end Sys2Proof.Machine
end

