-- ==== Sys2Proof/Proofs/EraseEnds.lean ====
section
/-!
PROOFS. Proofs/EraseEnds.lean: the end of an erase frees the page or makes it DEFECTIVE (R127).
-/
namespace Sys2Proof.Machine

section
variable {e : Ej} {s t : State}

/-! ## A page's defect shown -/

/-- A PAGE_DEFECT record; it names its page in the subject byte alone (log 30). -/
def State.defectRecord (s : State) (p : Fin 64) (data : List Byte) : Record := ⟨.pageDefect, p.val, s.now, data⟩

/-- What the showing of a defect comes to. -/
structure DefectShown (s t : State) (p : Fin 64) (data : List Byte) : Prop where
  handed : Handed s t
  offered : Offered s t (s.defectRecord p data)
  noticed : Noticed s t .pageDefect s.now (.page p.val) data

theorem showDefect_shown (s : State) (p : Fin 64) (serial : Nat) (cause : DefectCause) :
    DefectShown s (showDefect s p serial cause) p (be 4 serial ++ be 1 cause.code) := by
  unfold showDefect
  simp only []
  have data : State.defectRecord s p (be 4 serial ++ be 1 cause.code)
      = { kind := .pageDefect, subject := p.val, vt := s.now, body := be 4 serial ++ be 1 cause.code } := rfl
  rw [← data]
  have recorded := handed_offer s (s.defectRecord p (be 4 serial ++ be 1 cause.code))
  have taken := offered_offer s (s.defectRecord p (be 4 serial ++ be 1 cause.code))
  generalize offer s (s.defectRecord p (be 4 serial ++ be 1 cause.code)) = u at recorded taken ⊢
  have shown := handed_notify u .pageDefect (.page p.val) (be 4 serial ++ be 1 cause.code)
  have noticed := noticed_notify u .pageDefect (.page p.val) (be 4 serial ++ be 1 cause.code)
  generalize notify u .pageDefect (.page p.val) (be 4 serial ++ be 1 cause.code) = v at shown noticed ⊢
  rw [recorded.now] at noticed
  have judged := handed_judgeJournal v
  exact ⟨recorded.trans (shown.trans judged), taken.later (shown.trans judged), (noticed.sooner recorded.noticesLe).later judged⟩

/-! ## A blank page when records are handed on -/

/-- The page is FREE, or it has been opened with the serial `n` and its PAGE_OPEN is being written; while it is FREE the next page
to be opened gets the serial `n`, unless a write is in progress. -/
def Ej.FreeOrOpened (n : Nat) (p : Fin 64) (e : Ej) : Prop :=
  (e.pages[p] = {} ∧ (e.writer = none → e.nextSerial = n))
    ∨ (e.pages[p] = { state := .opened, serial := some n } ∧ e.writer ≠ none)

theorem Ej.FreeOrOpened.congr {n : Nat} {p : Fin 64} {f : Ej} (h : e.FreeOrOpened n p) (pages : f.pages = e.pages)
    (writer : f.writer = e.writer) (serial : f.nextSerial = e.nextSerial) : f.FreeOrOpened n p := by
  rw [Ej.FreeOrOpened, pages, writer, serial]
  exact h

theorem Ej.Took.freeOrOpened {n : Nat} {p : Fin 64} {f : Ej} (k : e.Took f) (h : e.FreeOrOpened n p) : f.FreeOrOpened n p :=
  h.congr k.pages k.writer k.nextSerial

/-- A page opened: the blank page itself, or another one. -/
theorem freeOrOpened_opening {n : Nat} {p q : Fin 64} (h : s.ej.FreeOrOpened n p) (idle : s.ej.writer = none) :
    (s.opening q).FreeOrOpened n p := by
  rcases h with ⟨blank, serial⟩ | ⟨-, busy⟩
  · have page : (s.opening q).pages[p] = if p = q then (s.page q).openedAs s.ej.nextSerial else s.ej.pages[p] :=
      withPage_page s.ej q _ p
    by_cases same : p = q
    · subst same
      have old : s.page p = {} := blank
      refine .inr ⟨?_, nofun⟩
      rw [page, if_pos rfl, old, serial idle]
      rfl
    · refine .inl ⟨?_, nofun⟩
      rw [page, if_neg same, blank]
  · exact absurd idle busy

theorem freeOrOpened_writerDecide {n : Nat} {p : Fin 64} (h : s.ej.FreeOrOpened n p) : (writerDecide s).ej.FreeOrOpened n p := by
  rcases writerDecide_cases s with k | ⟨⟨idle, -, -⟩, ⟨q, -, -, k⟩ | ⟨q, m, -, k⟩⟩
  · rwa [k]
  · rw [k]
    exact (took_openPage s q).freeOrOpened ((freeOrOpened_opening h idle).congr (rejudged_pages _) (rejudged_writer _)
      (by rw [rejudged_stands]))
  · rw [k]
    rcases beginNext_cases s q m with same | ⟨w, c, l, v, -, begun⟩
    · rwa [same]
    · rw [begun]
      exact h.imp (fun x => ⟨x.1, nofun⟩) fun x => absurd idle x.2

theorem freeOrOpened_judgeJournal {n : Nat} {p : Fin 64} (h : s.ej.FreeOrOpened n p) : (judgeJournal s).ej.FreeOrOpened n p :=
  fed_judgeJournal s (Ej.FreeOrOpened n p) (fun _ r => closed_offer Ej.Took.freeOrOpened freeOrOpened_writerDecide r)
    (h.congr (rejudged_pages _) (rejudged_writer _) (by rw [State.rejudged, rejudged_stands]))

/-! ## The end of an erase -/

/-- The journal with the head of its erase queue taken off and that page replaced. -/
def State.erased (s : State) (p : Fin 64) (rest : List (Fin 64)) (x : Page) : State :=
  ({ s with ej := { s.ej with eraseQueue := rest } } : State).setPage p x

theorem erased_page (s : State) (p : Fin 64) (rest : List (Fin 64)) (x : Page) (q : Fin 64) :
    (s.erased p rest x).page q = if q = p then x else s.page q :=
  setPage_page { s with ej := { s.ej with eraseQueue := rest } } p x q

/-- The page of an erase that left the given slots not blank. -/
def Page.spoiledAs (old : Page) (notBlank : List (Fin 128)) : Page :=
  { state := .defective, serial := old.serial, defect := some .eraseVerify, slots := erasedSlots notBlank }

theorem eraseEnd_freed {p : Fin 64} {rest : List (Fin 64)} (hq : s.ej.eraseQueue = p :: rest) :
    eraseEnd s [] = writerDecide (judgeJournal (notify (s.erased p rest {}) .pageFreed (.page p.val)
      (be 4 ((s.page p).serial.getD 0)))) := by
  rw [eraseEnd, hq]
  rfl

theorem eraseEnd_spoiled {p : Fin 64} {rest : List (Fin 64)} (hq : s.ej.eraseQueue = p :: rest) {notBlank : List (Fin 128)}
    (hn : notBlank ≠ []) : eraseEnd s notBlank =
      showDefect (s.erased p rest ((s.page p).spoiledAs notBlank)) p ((s.page p).serial.getD 0) .eraseVerify := by
  rw [eraseEnd, hq]
  simp only [List.isEmpty_iff, hn, if_false]
  rfl

/-- What both ends of an erase leave as it was. -/
structure AfterErase (s t : State) (p : Fin 64) (rest : List (Fin 64)) : Prop where
  outside : OutsideJournal s t
  queue : t.ej.eraseQueue = rest
  intake : s.ej.intake <+: t.ej.intake
  nextIndex : t.ej.nextIndex = s.ej.nextIndex
  chain : t.ej.chain = s.ej.chain
  others : ∀ q, q ≠ p → (s.page q).state ≠ .free → t.page q = s.page q
  groups : ∀ g, (s.group g).state ≠ .deferred → t.group g = s.group g

theorem Handed.afterErase {p : Fin 64} {rest : List (Fin 64)} {x : Page} (h : Handed (s.erased p rest x) t) :
    AfterErase s t p rest := by
  refine ⟨Handed.outsideOf (s := s) (e := (s.erased p rest x).ej) h rfl rfl, h.eraseQueue, h.intake, h.nextIndex, h.chain,
    fun q hq used => ?_, h.groups⟩
  have same := erased_page s p rest x q
  rw [if_neg hq] at same
  rw [h.pages q (by rwa [same]), same]

theorem eraseEnd_frees {p : Fin 64} {rest : List (Fin 64)} (hq : s.ej.eraseQueue = p :: rest) :
    AfterErase s (eraseEnd s []) p rest
      ∧ ((eraseEnd s []).page p = {} ∨ (eraseEnd s []).page p = { state := .opened, serial := some s.ej.nextSerial })
      ∧ Noticed s (eraseEnd s []) .pageFreed s.now (.page p.val) (be 4 ((s.page p).serial.getD 0)) := by
  rw [eraseEnd_freed hq]
  generalize hu : notify (s.erased p rest {}) .pageFreed (.page p.val) (be 4 ((s.page p).serial.getD 0)) = u
  have ej : u.ej = (s.erased p rest {}).ej := by rw [← hu, ej_notify]
  have shown : Handed (s.erased p rest {}) u := by
    rw [← hu]
    exact handed_notify _ _ _ _
  have noticed : Noticed s u .pageFreed s.now (.page p.val) (be 4 ((s.page p).serial.getD 0)) := by
    rw [← hu]
    exact noticed_notify (s.erased p rest {}) _ _ _
  have after := (handed_judgeJournal u).trans (handed_writerDecide _)
  have blank : u.ej.FreeOrOpened s.ej.nextSerial p := by
    rw [ej]
    refine .inl ⟨?_, fun _ => rfl⟩
    exact (erased_page s p rest {} p).trans (if_pos rfl)
  refine ⟨(shown.trans after).afterErase, ?_, noticed.later after⟩
  exact (freeOrOpened_writerDecide (freeOrOpened_judgeJournal blank)).imp And.left And.left

theorem eraseEnd_spoils {p : Fin 64} {rest : List (Fin 64)} (hq : s.ej.eraseQueue = p :: rest) {notBlank : List (Fin 128)}
    (hn : notBlank ≠ []) :
    AfterErase s (eraseEnd s notBlank) p rest ∧ (eraseEnd s notBlank).page p = (s.page p).spoiledAs notBlank
      ∧ DefectShown (s.erased p rest ((s.page p).spoiledAs notBlank)) (eraseEnd s notBlank) p
          (be 4 ((s.page p).serial.getD 0) ++ be 1 DefectCause.eraseVerify.code) := by
  rw [eraseEnd_spoiled hq hn]
  have shown := showDefect_shown (s.erased p rest ((s.page p).spoiledAs notBlank)) p ((s.page p).serial.getD 0) .eraseVerify
  have page := (erased_page s p rest ((s.page p).spoiledAs notBlank) p).trans (if_pos rfl)
  refine ⟨shown.handed.afterErase, ?_, shown⟩
  rw [shown.handed.pages p (by rw [page]; exact nofun), page]

end

/-- Settles O55: a page found blank is FREE, and what follows leaves it or opens it with the next serial; any other is DEFECTIVE. -/
theorem erasesEnd : Obligations.ErasesEnd := by
  intro s p rest notBlank live _ hq serial spoiled
  refine ⟨eraseEnd s notBlank, whenLive_live s (eraseEnd · notBlank) live, ?_⟩
  by_cases hn : notBlank = []
  · subst hn
    obtain ⟨⟨outside, queue, intake, nextIndex, chain, others, groups⟩, page, noticed⟩ := eraseEnd_frees hq
    have blank : ((eraseEnd s []).page p).slots = Vector.replicate 128 .blank := by rcases page with h | h <;> rw [h]
    refine ⟨outside, queue, intake, nextIndex, chain, others, fun i => ?_, groups, fun _ => ⟨page, noticed⟩, fun x => absurd rfl x⟩
    simp [blank]
  · obtain ⟨⟨outside, queue, intake, nextIndex, chain, others, groups⟩, page, ⟨-, offered, noticed⟩⟩ := eraseEnd_spoils hq hn
    refine ⟨outside, queue, intake, nextIndex, chain, others, fun i => ?_, groups, fun x => absurd x hn, fun _ => ?_⟩
    · simp [page, Page.spoiledAs, erasedSlots]
    · rw [page]
      exact ⟨rfl, rfl, rfl, rfl, rfl, rfl, rfl, offered, noticed⟩

end Sys2Proof.Machine
end

