-- ==== Sys2Proof/Proofs/WriteSteps.lean ====
section
/-!
PROOFS. Proofs/WriteSteps.lean: what the steps of the end of a write come to: the slot written, the arming index told, the page closed,
the writer's next decision (R116 to R119).
-/
namespace Sys2Proof.Machine

section
variable {e f : Ej} {s t u v : State} {p : Fin 64} {w : Write}

/-! ## What the close of a page and the writer's decision keep -/

/-- The journal but for one page, its registers of the open page and its writer. -/
structure Ej.SameBut (p : Fin 64) (e f : Ej) : Prop where
  intake : f.intake = e.intake
  rewriteOwed : f.rewriteOwed = e.rewriteOwed
  gapOwed : f.gapOwed = e.gapOwed
  nextIndex : f.nextIndex = e.nextIndex
  chain : f.chain = e.chain
  epoch : f.epoch = e.epoch
  storedEpoch : f.storedEpoch = e.storedEpoch
  pages : ∀ q : Fin 64, q ≠ p → f.pages[q] = e.pages[q]

/-- What is kept by the steps of a write's end that touch no record. -/
structure GoneOn (p : Fin 64) (s t : State) : Prop where
  outside : OutsideJournal s t
  intake : s.ej.intake <+: t.ej.intake
  rewriteOwed : t.ej.rewriteOwed = s.ej.rewriteOwed
  gapOwed : t.ej.gapOwed = s.ej.gapOwed
  nextIndex : t.ej.nextIndex = s.ej.nextIndex
  chain : t.ej.chain = s.ej.chain
  others : ∀ q, q ≠ p → (s.page q).state ≠ .free → t.page q = s.page q
  groups : ∀ g, (s.group g).state ≠ .deferred → t.group g = s.group g
  held : ∀ g, (t.group g).heldList = (s.group g).heldList ∧ (t.group g).armIndex = (s.group g).armIndex

theorem GoneOn.refl (p : Fin 64) (s : State) : GoneOn p s s :=
  ⟨(Handed.refl s).outside, List.prefix_refl _, rfl, rfl, rfl, rfl, fun _ _ _ => rfl, fun _ _ => rfl, fun _ => ⟨rfl, rfl⟩⟩

theorem GoneOn.trans (h : GoneOn p s t) (k : GoneOn p t u) : GoneOn p s u where
  outside := h.outside.trans k.outside
  intake := h.intake.trans k.intake
  rewriteOwed := k.rewriteOwed.trans h.rewriteOwed
  gapOwed := k.gapOwed.trans h.gapOwed
  nextIndex := k.nextIndex.trans h.nextIndex
  chain := k.chain.trans h.chain
  others := fun q hq used => by
    have same := h.others q hq used
    rw [k.others q hq (by rwa [same]), same]
  groups := fun g hg => by
    have same := h.groups g hg
    rw [k.groups g (by rwa [same]), same]
  held := fun g => ⟨(k.held g).1.trans (h.held g).1, (k.held g).2.trans (h.held g).2⟩

theorem Handed.goneOn (h : Handed { s with ej := f } t) (k : s.ej.SameBut p f) : GoneOn p s t where
  outside := h.outsideOf k.epoch k.storedEpoch
  intake := by rw [← k.intake]; exact h.intake
  rewriteOwed := h.rewriteOwed.trans k.rewriteOwed
  gapOwed := h.gapOwed.trans k.gapOwed
  nextIndex := h.nextIndex.trans k.nextIndex
  chain := h.chain.trans k.chain
  others := fun q hq used => by
    have same : ({ s with ej := f } : State).page q = s.page q := k.pages q hq
    rw [h.pages q (by rwa [same]), same]
  groups := h.groups
  held := h.held

theorem handed_writerNext (s : State) : Handed { s with ej := { s.ej with writer := none } } (writerNext s) := handed_writerDecide _

theorem goneOn_writerNext (p : Fin 64) (s : State) : GoneOn p s (writerNext s) :=
  (handed_writerNext s).goneOn ⟨rfl, rfl, rfl, rfl, rfl, rfl, rfl, fun _ _ => rfl⟩

/-- A page that is not FREE stands through the writer's decision. -/
theorem writerNext_page {q : Fin 64} (used : (s.page q).state ≠ .free) : (writerNext s).page q = s.page q :=
  (handed_writerNext s).pages q used

theorem goneOn_setSlot (s : State) (p : Fin 64) (i : Fin 128) (c : Slot) : GoneOn p s (setSlot s p i c) :=
  (Handed.refl (setSlot s p i c)).goneOn (s := s) ⟨rfl, rfl, rfl, rfl, rfl, rfl, rfl, fun _ hq => setPage_page_ne s p _ _ hq⟩

theorem ClosedShown.goneOn {n : Nat} {cause : CloseCause} (h : ClosedShown s t p n cause) : GoneOn p s t :=
  h.handed.goneOn ⟨rfl, rfl, rfl, rfl, rfl, rfl, rfl, fun _ hq => withPage_page_ne s.ej _ hq⟩

theorem ClosedShown.closeRequested {n : Nat} {cause : CloseCause} (h : ClosedShown s t p n cause) : t.ej.closeRequested = false :=
  h.handed.closeRequested

/-! ## The report of an arming index -/

/-- The record is the arming record of a group. -/
def Record.Arms (r : Record) (g : Fin 32) : Prop := r.kind = .auctionArm ∧ r.subject = g.val

/-- A group's record and its arming index, where it is one. -/
theorem reportArm_cases (s : State) (r : Record) (index : Nat) :
    (∃ g, r.Arms g ∧ reportArm s r index = reportIndex s g index) ∨ ((∀ g, ¬ r.Arms g) ∧ reportArm s r index = s) := by
  by_cases h : ∃ g, r.Arms g
  · obtain ⟨g, kind, subject⟩ := h
    refine .inl ⟨g, ⟨kind, subject⟩, ?_⟩
    rw [reportArm, kind, subject, named_val]
  · rw [not_exists] at h
    refine .inr ⟨h, ?_⟩
    unfold reportArm
    split
    · rename_i g kind subject
      refine absurd ⟨kind, ?_⟩ (h g)
      by_cases lt : r.subject < 32
      · rw [named, dif_pos lt] at subject
        rw [← Option.some.inj subject]
      · rw [named_none 32 r.subject (Nat.not_lt.1 lt)] at subject
        exact nomatch subject
    · rfl

theorem Record.Arms.unique {r : Record} {g g' : Fin 32} (h : r.Arms g) (k : r.Arms g') : g = g' := Fin.ext (h.2.symm.trans k.2)

/-- What the report of a group's arming index comes to (R90). -/
structure IndexTold (s t : State) (g : Fin 32) (index : Nat) : Prop where
  outside : OutsideJournal s t
  armIndex : (t.group g).armIndex = some index
  heldList : (t.group g).heldList = []
  first : ∀ r rest, (s.group g).heldList = r :: rest → s.ej.takes r.kind.critical = true → r.toRecord g index ∈ t.ej.intake
  groups : ∀ g', (s.group g').state ≠ .deferred → g' ≠ g → t.group g' = s.group g'

theorem reportIndex_told (s : State) (g : Fin 32) (index : Nat) : IndexTold s (reportIndex s g index) g index := by
  unfold reportIndex
  simp only []
  generalize hx : Auction.mk .. = x
  have index' : x.armIndex = some index := by rw [← hx]
  have held' : x.heldList = [] := by rw [← hx]
  have offers (l : List HeldRecord) (u : State) : Handed u (l.foldl (fun s r => offer s (r.toRecord g index)) u) :=
    handed_foldl _ (fun s r => handed_offer s (r.toRecord g index)) l u
  have handed := offers (s.group g).heldList (s.setGroup g x)
  obtain ⟨keptList, keptIndex⟩ := handed.held g
  rw [setGroup_group_self] at keptList keptIndex
  refine ⟨(outside_setGroup s g x).trans handed.outside, keptIndex.trans index', keptList.trans held', fun r rest list takes => ?_,
    fun g' running other => ?_⟩
  · rw [list, List.foldl_cons]
    refine (offers rest _).intake.subset ?_
    exact List.mem_of_mem_drop (offered_offer (s.setGroup g x) (r.toRecord g index) takes)
  · have same := setGroup_group_ne s g x g' other
    rw [handed.groups g' (by rwa [same]), same]

/-- What the report of the arming index of a record comes to, with the writer busy. -/
structure ArmTold (s t : State) (r : Record) (index : Nat) : Prop where
  outside : OutsideJournal s t
  took : s.ej.Took t.ej
  told : ∀ g, r.Arms g → IndexTold s t g index
  groups : ∀ g, (s.group g).state ≠ .deferred → ¬ r.Arms g → t.group g = s.group g

theorem reportArm_told (busy : s.ej.writer ≠ none) (r : Record) (index : Nat) : ArmTold s (reportArm s r index) r index := by
  have took := took_reportArm busy r index
  rcases reportArm_cases s r index with ⟨g, arms, k⟩ | ⟨none, k⟩
  · rw [k] at took ⊢
    have told := reportIndex_told s g index
    refine ⟨told.outside, took, fun g' h => ?_, fun g' running other => told.groups g' running fun x => other (x ▸ arms)⟩
    rwa [← arms.unique h]
  · rw [k] at took ⊢
    exact ⟨(Handed.refl s).outside, took, fun g h => absurd h (none g), fun _ _ _ => rfl⟩

/-- A record that is no arming record. -/
theorem reportArm_other {r : Record} (h : r.kind ≠ .auctionArm) (index : Nat) : reportArm s r index = s := by
  rcases reportArm_cases s r index with ⟨g, arms, -⟩ | ⟨-, k⟩
  · exact absurd arms.1 h
  · exact k

/-! ## The record stands and its source is released -/

/-- The page of a write with its slot given a content. -/
def Page.holding (x : Page) (i : Fin 128) (c : Slot) : Page := { x with slots := x.slots.set i c }

/-- The slot a verified record is left in. -/
def State.slotBytes (s : State) (w : Write) : Slot :=
  .data (recordBytes s.ej.chain w.record s.ej.epoch ((s.page w.page).serial.getD 0) w.slot.val)

/-- The record stands, its source released (R116 steps 1 and 2). -/
def State.written (s : State) (w : Write) : State := releaseSource (standRecord s w) w.source

/-- A verified record in its slot, its source released. -/
structure Written (s u : State) (w : Write) : Prop where
  journal : u = { s with ej := u.ej }
  page : u.page w.page = (s.page w.page).holding w.slot (s.slotBytes w)
  others : ∀ q, q ≠ w.page → u.page q = s.page q
  openPage : u.ej.openPage = some (w.page, w.slot.val + 1)
  chain : u.ej.chain = recordChain s.ej.chain w.record s.ej.epoch ((s.page w.page).serial.getD 0) w.slot.val
  nextIndex : u.ej.nextIndex = freeSucc 2 (Config.noIndex - 1) s.ej.nextIndex
  writer : u.ej.writer = s.ej.writer
  state : u.ej.state = s.ej.state
  epoch : u.ej.epoch = s.ej.epoch ∧ u.ej.storedEpoch = s.ej.storedEpoch
  closeRequested : u.ej.closeRequested = s.ej.closeRequested
  losses : u.ej.criticalLost = s.ej.criticalLost ∧ u.ej.nonCriticalLost = s.ej.nonCriticalLost ∧ u.ej.firstLoss = s.ej.firstLoss
  intake : u.ej.intake = if w.source = .intake then s.ej.intake.tail else s.ej.intake
  rewriteOwed : u.ej.rewriteOwed = if w.source = .intake then false else s.ej.rewriteOwed
  gapOwed : ∀ g, w.source = .gap g → u.ej.gapOwed = none
  gapKept : (∀ g, w.source ≠ .gap g) → u.ej.gapOwed = s.ej.gapOwed

/-- The journal with the record standing in its slot (R116 step 1). -/
def State.standing (s : State) (w : Write) : Ej :=
  { s.ej.withPage w.page ((s.page w.page).holding w.slot (s.slotBytes w)) with
    nextIndex := freeSucc 2 (Config.noIndex - 1) s.ej.nextIndex
    chain := recordChain s.ej.chain w.record s.ej.epoch ((s.page w.page).serial.getD 0) w.slot.val
    openPage := some (w.page, w.slot.val + 1) }

theorem standRecord_eq (s : State) (w : Write) : standRecord s w = { s with ej := s.standing w } := rfl

theorem written_written (s : State) (w : Write) : Written s (s.written w) w := by
  have page (q : Fin 64) : (s.standing w).pages[q] = if q = w.page then (s.page w.page).holding w.slot (s.slotBytes w) else s.page q :=
    withPage_page s.ej w.page _ q
  have stands : s.standing w = { s.ej with
    nextIndex := freeSucc 2 (Config.noIndex - 1) s.ej.nextIndex
    chain := recordChain s.ej.chain w.record s.ej.epoch ((s.page w.page).serial.getD 0) w.slot.val
    openPage := some (w.page, w.slot.val + 1), pages := (s.standing w).pages } := by simp only [State.standing, Ej.withPage]
  have at_ := page w.page
  rw [if_pos rfl] at at_
  have away (q : Fin 64) (hq : q ≠ w.page) := (page q).trans (if_neg hq)
  unfold State.written
  rw [standRecord_eq]
  generalize (s.standing w).pages = pages at stands at_ away
  generalize hi : freeSucc 2 (Config.noIndex - 1) s.ej.nextIndex = index at stands
  generalize hc : recordChain s.ej.chain w.record s.ej.epoch ((s.page w.page).serial.getD 0) w.slot.val = chain at stands
  rw [stands]
  cases hs : w.source with
  | pageOpen => exact ⟨rfl, at_, away, rfl, hc.symm, hi.symm, rfl, rfl, ⟨rfl, rfl⟩, rfl, ⟨rfl, rfl, rfl⟩, by rw [hs]; rfl,
      by rw [hs]; rfl, by rw [hs]; exact nofun, fun _ => rfl⟩
  | intake => exact ⟨rfl, at_, away, rfl, hc.symm, hi.symm, rfl, rfl, ⟨rfl, rfl⟩, rfl, ⟨rfl, rfl, rfl⟩, by rw [hs]; rfl,
      by rw [hs]; rfl, by rw [hs]; exact nofun, fun _ => rfl⟩
  | gap g => exact ⟨rfl, at_, away, rfl, hc.symm, hi.symm, rfl, rfl, ⟨rfl, rfl⟩, rfl, ⟨rfl, rfl, rfl⟩, by rw [hs]; rfl,
      by rw [hs]; rfl, fun _ _ => rfl, fun x => absurd hs (x g)⟩

theorem Written.outside (h : Written s u w) : OutsideJournal s u := by
  rw [h.journal]
  exact outside_ej h.epoch.1 h.epoch.2

/-- What the journal took, it takes when a record has left the intake. -/
theorem Written.takes (h : Written s u w) {critical : Bool} (k : s.ej.takes critical = true) : u.ej.takes critical = true := by
  have shorter : u.ej.intake.length ≤ s.ej.intake.length := by
    rw [h.intake]
    split
    · rw [List.length_tail]
      omega
    · exact Nat.le_refl _
  cases critical with
  | true =>
    rw [takes_critical_iff] at k ⊢
    rw [h.state]
    exact ⟨k.1, k.2.1, by omega⟩
  | false =>
    rw [takes_open_iff] at k ⊢
    rw [h.state]
    exact ⟨k.1, by omega⟩

/-- The part once the arming index of a verified record has been told (R116 step 3). -/
def State.armTold (s : State) (w : Write) : State := reportArm (s.written w) w.record s.ej.nextIndex

theorem writeVerified_eq (hw : s.ej.writer = some w) : writeVerified s = writerNext (closeAfter (s.armTold w) w.slot) := by
  rw [writeVerified, hw]
  rfl

end

end Sys2Proof.Machine
end

