-- ==== Sys2Proof/Proofs/WritesVerified.lean ====
section
/-!
PROOFS. Proofs/WritesVerified.lean: the end of a write that verified (R116).
-/
namespace Sys2Proof.Machine

section
variable {e f : Ej} {s t u v : State} {p : Fin 64} {w : Write} {n : Nat} {cause : CloseCause}

/-! ## A page that has been closed -/

theorem Noticed.outside {k : NoticeKind} {vt : Nat} {x : Subject} {d : List Byte} (h : Noticed s t k vt x d)
    (j : OutsideJournal t u) : Noticed s u k vt x d := by
  intro room
  obtain ⟨m, hm, fields⟩ := h (Nat.lt_of_le_of_lt j.noticesLe room)
  exact ⟨m, mem_drop_of_prefix j.notices _ hm, fields⟩

/-- A page closed by an event, at the event's end. -/
structure Shut (s t : State) (p : Fin 64) (new : Page) (cause : CloseCause) (n : Nat) : Prop where
  page : t.page p = new
  closeRequested : t.ej.closeRequested = false
  openPage : ∀ m, t.ej.openPage ≠ some (p, m)
  noticed : Noticed s t .pageClosed s.now (.page p.val) (be 4 ((s.page p).serial.getD 0) ++ be 1 cause.code ++ be 1 n)

/-- The close of a page in the course of an event. -/
theorem ClosedShown.shut (h : ClosedShown u v p n cause) (before : OutsideJournal s u) (serial : (u.page p).serial = (s.page p).serial)
    (page : t.page p = v.page p) (asked : t.ej.closeRequested = v.ej.closeRequested) (after : OutsideJournal v t)
    (sound : t.ej.Sound) : Shut s t p ((u.page p).closedAs cause s.now n u.ej.chain) cause n := by
  have closed : t.page p = (u.page p).closedAs cause s.now n u.ej.chain := by rw [page, h.page, before.now]
  refine ⟨closed, asked.trans h.closeRequested, sound.notOpenPage ?_, ?_⟩
  · change (t.page p).state ≠ .opened
    rw [closed]
    exact nofun
  · have noticed := h.noticed
    rw [serial, before.now] at noticed
    exact (noticed.sooner before.noticesLe).outside after

theorem Ej.Took.page (h : s.ej.Took t.ej) (q : Fin 64) : t.page q = s.page q := by rw [State.page, h.pages]; rfl

/-! ## The close a verified write causes -/

theorem closeAfter_full {i : Fin 128} (h : i.val = 127) : closeAfter s i = closePage s .full := if_pos h

theorem closeAfter_asked {i : Fin 128} (h : i.val ≠ 127) (asked : s.ej.closeRequested = true) :
    closeAfter s i = closePage s .request := (if_neg h).trans (if_pos asked)

theorem closeAfter_none {i : Fin 128} (h : i.val ≠ 127) (asked : s.ej.closeRequested = false) : closeAfter s i = s :=
  (if_neg h).trans (if_neg (by rw [asked]; exact nofun))

theorem goneOn_closeAfter (ho : s.ej.openPage = some (p, n)) (i : Fin 128) : GoneOn p s (closeAfter s i) := by
  have closed (cause : CloseCause) : GoneOn p s (closePage s cause) := (closePage_shown ho cause).goneOn
  unfold closeAfter
  split
  · exact closed .full
  · split
    · exact closed .request
    · exact GoneOn.refl p s

/-! ## The writer's decision with a page open -/

theorem writerReady_iff (e : Ej) : e.writerReady = true ↔ e.writer = none ∧ e.state ≠ .starting ∧ e.state ≠ .exhausted := by
  cases h : e.state <;> simp [Ej.writerReady, h]

theorem mustWrite_iff (e : Ej) : e.mustWrite = true ↔ e.intake ≠ [] ∨ e.gapOwed ≠ none := by
  simp [Ej.mustWrite, Option.isSome_iff_ne_none]

/-- With nothing to write the writer stays idle. -/
theorem writerDecide_nothing (intake : s.ej.intake = []) (gapOwed : s.ej.gapOwed = none) : writerDecide s = s := by
  refine if_neg fun h => ?_
  rw [Bool.and_eq_true, mustWrite_iff] at h
  exact h.2.elim (fun x => x intake) fun x => x gapOwed

/-- The writer goes on in the open page. -/
theorem writerDecide_inPage (ready : s.ej.writerReady = true) (must : s.ej.mustWrite = true)
    (ho : s.ej.openPage = some (p, n)) : writerDecide s = beginNext s p n := by
  rw [writerDecide, if_pos (by rw [ready, must]; rfl), ho]

/-- The next record of the intake, where no record has been lost (R115, point 4). -/
theorem beginNext_record {r : Record} {rest : List Record} (rewrite : s.ej.rewriteOwed = false) (gapOwed : s.ej.gapOwed = none)
    (intake : s.ej.intake = r :: rest) (lossless : ¬ (0 < s.ej.criticalLost ∨ 0 < s.ej.nonCriticalLost)) :
    beginNext s p n = beginWrite s p n r .intake := by
  simp only [beginNext, rewrite, intake, gapOwed, lossless, if_false]

/-- A GAP record first, where records have been lost (R117). -/
theorem beginNext_gap {r : Record} {rest : List Record} (rewrite : s.ej.rewriteOwed = false) (gapOwed : s.ej.gapOwed = none)
    (intake : s.ej.intake = r :: rest) (losses : 0 < s.ej.criticalLost ∨ 0 < s.ej.nonCriticalLost) :
    beginNext s p n = beginWrite
      { s with ej := { s.ej with criticalLost := 0, nonCriticalLost := 0, firstLoss := none } } p n
      (Gap.record ⟨s.ej.criticalLost, s.ej.nonCriticalLost, s.ej.firstLoss, s.now⟩)
      (.gap ⟨s.ej.criticalLost, s.ej.nonCriticalLost, s.ej.firstLoss, s.now⟩) := by
  simp only [beginNext, rewrite, intake, gapOwed, losses, if_true]

end

/-! ## A write verified (R116) -/

section
variable {s : State} {w : Write}

theorem armTold_told (hw : s.ej.writer = some w) : ArmTold (s.written w) (s.armTold w) w.record s.ej.nextIndex :=
  reportArm_told (by rw [(written_written s w).writer, hw]; exact nofun) _ _

/-- The part with the record standing, its source released and its index told. -/
structure Stands (s u : State) (w : Write) : Prop where
  outside : OutsideJournal s u
  page : u.page w.page = (s.page w.page).holding w.slot (s.slotBytes w)
  others : ∀ q, q ≠ w.page → u.page q = s.page q
  openPage : u.ej.openPage = some (w.page, w.slot.val + 1)
  chain : u.ej.chain = recordChain s.ej.chain w.record s.ej.epoch ((s.page w.page).serial.getD 0) w.slot.val
  nextIndex : u.ej.nextIndex = freeSucc 2 (Config.noIndex - 1) s.ej.nextIndex
  state : u.ej.state = s.ej.state
  closeRequested : u.ej.closeRequested = s.ej.closeRequested
  intake : (s.written w).ej.intake <+: u.ej.intake
  rewriteOwed : u.ej.rewriteOwed = if w.source = .intake then false else s.ej.rewriteOwed
  gapOwed : u.ej.gapOwed = (s.written w).ej.gapOwed

theorem armTold_stands (hw : s.ej.writer = some w) : Stands s (s.armTold w) w := by
  have written := written_written s w
  obtain ⟨outside, took, -, -⟩ := armTold_told hw
  exact ⟨written.outside.trans outside, (took.page _).trans written.page, fun q hq => (took.page q).trans (written.others q hq),
    took.openPage.trans written.openPage, took.chain.trans written.chain, took.nextIndex.trans written.nextIndex,
    took.state.trans written.state, took.closeRequested.trans written.closeRequested, took.intake,
    took.rewriteOwed.trans written.rewriteOwed, took.gapOwed⟩

theorem goneOn_writeVerified (hw : s.ej.writer = some w) : GoneOn w.page (s.armTold w) (writeVerified s) := by
  rw [writeVerified_eq hw]
  exact (goneOn_closeAfter (armTold_stands hw).openPage w.slot).trans (goneOn_writerNext _ _)

/-- The page a verified write closes (R116, steps 4 and 5). -/
theorem writeVerified_shut (sound : s.ej.Sound) (hw : s.ej.writer = some w) {cause : CloseCause}
    (close : closeAfter (s.armTold w) w.slot = closePage (s.armTold w) cause) :
    Shut s (writeVerified s) w.page (((s.page w.page).holding w.slot (s.slotBytes w)).closedAs cause s.now (w.slot.val + 1)
      (recordChain s.ej.chain w.record s.ej.epoch ((s.page w.page).serial.getD 0) w.slot.val)) cause (w.slot.val + 1) := by
  have stands := armTold_stands hw
  have closed := closePage_shown stands.openPage cause
  have after := sound_writeVerified sound
  have shut := closed.shut (t := writeVerified s) stands.outside (by rw [stands.page]; rfl) ?_ ?_ ?_ after
  · rwa [stands.page, stands.chain] at shut
  all_goals rw [writeVerified_eq hw, close]
  · exact writerNext_page (by rw [closed.page]; exact nofun)
  · exact (handed_writerNext _).closeRequested
  · exact (goneOn_writerNext w.page _).outside

theorem goesOn_close (hw : s.ej.writer = some w) (room : w.slot.val ≠ 127) (asked : s.ej.closeRequested = false) :
    writeVerified s = writerNext (s.armTold w) := by
  rw [writeVerified_eq hw, closeAfter_none room ((armTold_stands hw).closeRequested.trans asked)]

theorem openPage_writerNext {u : State} {p : Fin 64} {n : Nat} (ho : u.ej.openPage = some (p, n)) :
    (writerNext u).ej.openPage = some (p, n) := by
  unfold writerNext
  generalize hv : ({ u with ej := { u.ej with writer := none } } : State) = v
  have same : v.ej.openPage = some (p, n) := by rw [← hv]; exact ho
  rcases writerDecide_cases v with k | ⟨-, ⟨q, none, -⟩ | ⟨q, m, -, k⟩⟩
  · rwa [k]
  · exact nomatch none.symm.trans same
  · rw [k]
    rcases beginNext_cases v q m with k | ⟨x, c, l, y, -, k⟩ <;> rwa [k]

/-- The page goes on being written (R116, step 6). -/
theorem writeVerified_goesOn (hw : s.ej.writer = some w) (used : (s.page w.page).state ≠ .free) (room : w.slot.val ≠ 127)
    (asked : s.ej.closeRequested = false) :
    (writeVerified s).page w.page = (s.page w.page).holding w.slot (s.slotBytes w)
      ∧ (writeVerified s).ej.openPage = some (w.page, w.slot.val + 1) := by
  have stands := armTold_stands hw
  rw [goesOn_close hw room asked]
  refine ⟨?_, openPage_writerNext stands.openPage⟩
  rw [writerNext_page (by rw [stands.page]; exact used), stands.page]

/-- The part whose writer decides after a verified record of the intake that is no arming record. -/
theorem armTold_plain (other : w.record.kind ≠ .auctionArm) : s.armTold w = s.written w := reportArm_other other _

/-- The writer goes on with the next record, or with a GAP record where records have been lost. -/
theorem writeVerified_next (sound : s.ej.Sound) (hw : s.ej.writer = some w) (room : w.slot.val ≠ 127)
    (asked : s.ej.closeRequested = false) (source : w.source = .intake) (other : w.record.kind ≠ .auctionArm)
    (noGap : s.ej.gapOwed = none) {r next : Record} {rest : List Record} (intake : s.ej.intake = r :: next :: rest) :
    let gap : Gap := ⟨s.ej.criticalLost, s.ej.nonCriticalLost, s.ej.firstLoss, s.now⟩
    (gap.critical = 0 ∧ gap.nonCritical = 0 →
      (writeVerified s).ej.writer = some ⟨w.page, Fin.ofNat 128 (w.slot.val + 1), next, .intake⟩)
    ∧ (0 < gap.critical ∨ 0 < gap.nonCritical →
      (writeVerified s).ej.writer = some ⟨w.page, Fin.ofNat 128 (w.slot.val + 1), gap.record, .gap gap⟩
        ∧ (writeVerified s).ej.criticalLost = 0 ∧ (writeVerified s).ej.nonCriticalLost = 0
        ∧ (writeVerified s).ej.firstLoss = none) := by
  intro gap
  obtain ⟨-, running, live, -⟩ := sound.writing hw
  have written := written_written s w
  obtain ⟨critical, nonCritical, first⟩ := written.losses
  have now := written.outside.now
  have left := written.intake
  have rewrite := written.rewriteOwed
  have gapOwed := written.gapKept (by rw [source]; exact nofun)
  rw [if_pos source, intake] at left
  rw [if_pos source] at rewrite
  rw [noGap] at gapOwed
  have decided : writeVerified s = beginNext { s.written w with ej := { (s.written w).ej with writer := none } } w.page
      (w.slot.val + 1) := by
    rw [goesOn_close hw room asked, armTold_plain other]
    refine writerDecide_inPage ((writerReady_iff _).2 ⟨rfl, ?_, ?_⟩) ((mustWrite_iff _).2 (.inl ?_)) written.openPage
    · exact fun x => running (written.state.symm.trans x)
    · exact fun x => live (written.state.symm.trans x)
    · exact fun x => absurd (left.symm.trans x) nofun
  refine ⟨fun lossless => ?_, fun losses => ?_⟩
  · rw [decided, beginNext_record (s := { s.written w with ej := { (s.written w).ej with writer := none } }) rewrite gapOwed left]
    · rfl
    · change ¬ (0 < (s.written w).ej.criticalLost ∨ 0 < (s.written w).ej.nonCriticalLost)
      rw [critical, nonCritical]
      have none : s.ej.criticalLost = 0 ∧ s.ej.nonCriticalLost = 0 := lossless
      omega
  · have some_ : 0 < (s.written w).ej.criticalLost ∨ 0 < (s.written w).ej.nonCriticalLost := by rwa [critical, nonCritical]
    rw [decided, beginNext_gap (s := { s.written w with ej := { (s.written w).ej with writer := none } }) rewrite gapOwed left some_]
    refine ⟨?_, rfl, rfl, rfl⟩
    have same : (⟨(s.written w).ej.criticalLost, (s.written w).ej.nonCriticalLost, (s.written w).ej.firstLoss, (s.written w).now⟩ : Gap)
        = gap := by rw [critical, nonCritical, first, now]
    rw [← same]
    rfl

/-- With nothing left in the intake the writer rests. -/
theorem writeVerified_rests (hw : s.ej.writer = some w) (room : w.slot.val ≠ 127) (asked : s.ej.closeRequested = false)
    (source : w.source = .intake) (other : w.record.kind ≠ .auctionArm) (noGap : s.ej.gapOwed = none)
    (empty : s.ej.intake.tail = []) : (writeVerified s).ej.writer = none := by
  have written := written_written s w
  have left := written.intake
  rw [if_pos source, empty] at left
  rw [goesOn_close hw room asked, armTold_plain other, writerNext,
    writerDecide_nothing (s := { s.written w with ej := { (s.written w).ej with writer := none } }) left
      ((written.gapKept (by rw [source]; exact nofun)).trans noGap)]

end

end Sys2Proof.Machine
end

