-- ==== Sys2Proof/Proofs/WriteEnds.lean ====
section
/-!
PROOFS. Proofs/WriteEnds.lean: the end of a write that failed, of a PAGE_OPEN that failed, and the statement of all three ends (R116 to
R119).
-/
namespace Sys2Proof.Machine

section
variable {e f : Ej} {s t u v : State} {p : Fin 64} {w : Write}

/-! ## The FREE pages -/

theorem firstFree_congr (h : ∀ q : Fin 64, (f.pages[q]).state = .free ↔ (e.pages[q]).state = .free) : f.firstFree = e.firstFree := by
  unfold Ej.firstFree
  refine congrArg (List.find? · allPages) (funext fun q => ?_)
  rw [Bool.eq_iff_iff, beq_iff_eq, beq_iff_eq]
  exact h q

/-- No FREE page and none OPEN: the journal is STALLED (R122). -/
theorem judged_stalled (h : e.Laid) (running : e.state ≠ .starting) (openPage : e.openPage = none) (free : e.firstFree = none) :
    e.judged = .stalled := by
  have notFree : e.pagesIn .free = 0 := by
    rw [Ej.pagesIn_eq, List.countP_eq_zero]
    exact fun q _ => List.find?_eq_none.1 free q (List.mem_finRange q)
  have notOpen : e.pagesIn .opened = 0 := by
    rw [Ej.pagesIn_eq, List.countP_eq_zero]
    intro q _ x
    obtain ⟨n, hn⟩ := (h.opened running q).1 (eq_of_beq x)
    exact nomatch openPage.symm.trans hn
  rw [Ej.judged, notFree, notOpen]
  rfl

/-! ## A STALLED journal -/

/-- A journal that takes no new page is told without a cut (R94, R95). -/
theorem journalReportWith_halted (offer : Offerer) (s : State) {v : JournalState} (h : v = .stalled ∨ v = .exhausted) :
    journalReportWith offer s v = { s with auc := { s.auc with journalView := v } } := by
  refine if_neg ?_
  rcases h with rfl | rfl <;> simp [Auc.cutConditions, Auc.journalAccepts]

/-- Judging a journal STALLED offers nothing. -/
theorem ej_judgeJournal_stalled (h : s.ej.judged = .stalled) : (judgeJournal s).ej = s.ej.rejudged := by
  unfold judgeJournal judgeJournalWith
  split
  · rename_i old
    rw [Ej.rejudged, old]
  · rename_i old
    rw [Ej.rejudged, old]
  all_goals
    rename_i old
    rw [rejudged_eq_of_running (by rw [old]; exact nofun) (by rw [old]; exact nofun), h]
    simp only []
    split
    · rename_i same
      rw [same]
    · rw [journalReportWith_halted _ _ (.inl rfl), ej_notify]

/-- A STALLED journal takes nothing in (R113). -/
theorem stalled_of_fed (h : Fed s t) (stalled : s.ej.state = .stalled) : t.ej.intake = s.ej.intake ∧ t.ej.state = .stalled := by
  refine h (fun f => f.intake = s.ej.intake ∧ f.state = .stalled) (fun u r k => ?_) ⟨rfl, stalled⟩
  rw [offer_lost (by rw [Ej.takes, k.2]), ej_loseRecord]
  exact k

/-- With no page open and none FREE the writer waits (R115). -/
theorem writerDecide_waits (openPage : s.ej.openPage = none) (free : s.ej.firstFree = none) : writerDecide s = s := by
  unfold writerDecide
  rw [openPage, free]
  exact ite_self s

/-! ## A write failed (R118) -/

/-- The part with the slot of a failed write VOID and its page closed. -/
def State.voided (s : State) (w : Write) : State := closePage (setSlot s w.page w.slot .void) .short

theorem setSlot_page (s : State) (p : Fin 64) (i : Fin 128) (c : Slot) (q : Fin 64) :
    (setSlot s p i c).page q = if q = p then (s.page p).holding i c else s.page q := setPage_page s p _ q

theorem setSlot_page_self (s : State) (p : Fin 64) (i : Fin 128) (c : Slot) : (setSlot s p i c).page p = (s.page p).holding i c :=
  (setSlot_page s p i c p).trans (if_pos rfl)

/-- The journal with that page closed, not yet judged. -/
def State.voiding (s : State) (w : Write) : Ej := (setSlot s w.page w.slot .void).closing w.page w.slot.val .short

/-- What the close of a failed write's page comes to. -/
structure Voided (s u : State) (w : Write) : Prop where
  goneOn : GoneOn w.page s u
  closed : ClosedShown (setSlot s w.page w.slot .void) u w.page w.slot.val .short
  took : (s.voiding w).rejudged.Took u.ej
  free : u.ej.firstFree = s.ej.firstFree

theorem voided_voided (sound : s.ej.Sound) (hw : s.ej.writer = some w) : Voided s (s.voided w) w := by
  obtain ⟨ho, running, -, opened⟩ := sound.writing hw
  have closed := closePage_shown (s := setSlot s w.page w.slot .void) ho .short
  have busy : (setSlot s w.page w.slot .void).ej.writer ≠ none := fun x => nomatch hw.symm.trans x
  have took := took_closePage (s := setSlot s w.page w.slot .void) ho busy .short
  refine ⟨(goneOn_setSlot s w.page w.slot .void).trans closed.goneOn, closed, took, firstFree_congr fun q => ?_⟩
  rw [show (s.voided w).ej.pages = (s.voiding w).pages from took.pages.trans (rejudged_pages _)]
  by_cases hq : q = w.page
  · have new := closing_page (setSlot s w.page w.slot .void) w.page w.slot.val .short q
    rw [if_pos hq] at new
    have shut : (s.voiding w).pages[q].state = .closed :=
      (congrArg Page.state new).trans rfl
    rw [shut, hq, opened]
    exact iff_of_false nofun nofun
  · have same := (closing_page (setSlot s w.page w.slot .void) w.page w.slot.val .short q).trans (if_neg hq)
    rw [setSlot_page, if_neg hq] at same
    exact iff_of_eq (congrArg (·.state = .free) same)

theorem writeFailed_eq (hw : s.ej.writer = some w) (source : w.source ≠ .pageOpen) :
    writeFailed s = writerNext (if (s.voided w).ej.firstFree.isSome then oweAgain (s.voided w) w.source
      else loseFailed (s.voided w) w.record w.source) := by
  unfold writeFailed
  rw [hw]
  exact if_neg source

/-- The page of a failed write is closed SHORT, whatever becomes of the record. -/
theorem Voided.shut (h : Voided s u w) (page : t.page w.page = u.page w.page) (asked : t.ej.closeRequested = u.ej.closeRequested)
    (after : OutsideJournal u t) (sound : t.ej.Sound) :
    Shut s t w.page (((s.page w.page).holding w.slot .void).closedAs .short s.now w.slot.val s.ej.chain) .short w.slot.val := by
  have before := (goneOn_setSlot s w.page w.slot .void).outside
  have shut := h.closed.shut before (by rw [setSlot_page_self]; rfl) page asked after sound
  rwa [setSlot_page_self] at shut

/-- What becomes of the failed record touches no page. -/
structure Dealt (u v : State) : Prop where
  outside : OutsideJournal u v
  pages : v.ej.pages = u.ej.pages
  openPage : v.ej.openPage = u.ej.openPage
  state : v.ej.state = u.ej.state
  closeRequested : v.ej.closeRequested = u.ej.closeRequested
  nextIndex : v.ej.nextIndex = u.ej.nextIndex
  chain : v.ej.chain = u.ej.chain
  nextSerial : v.ej.nextSerial = u.ej.nextSerial

theorem Dealt.page (h : Dealt u v) (q : Fin 64) : v.page q = u.page q := by rw [State.page, h.pages]; rfl

theorem Dealt.firstFree (h : Dealt u v) : v.ej.firstFree = u.ej.firstFree := firstFree_congr fun q => by rw [h.pages]

theorem dealt_oweAgain (u : State) (src : WriteSource) : Dealt u (oweAgain u src) := by
  cases src <;> exact ⟨outside_ej rfl rfl, rfl, rfl, rfl, rfl, rfl, rfl, rfl⟩

/-- A record of the intake given up (R118, step 3). -/
def State.givenUp (u : State) (kind : RecKind) : State :=
  loseRecord { u with ej := { u.ej with intake := u.ej.intake.tail, rewriteOwed := false } } kind

theorem ej_givenUp (u : State) (kind : RecKind) : (u.givenUp kind).ej =
    State.losing { u with ej := { u.ej with intake := u.ej.intake.tail, rewriteOwed := false } } kind.critical := ej_loseRecord _ _

theorem loseFailed_intake (u : State) (r : Record) : loseFailed u r .intake = reportArm (u.givenUp r.kind) r Config.noIndex := rfl

theorem givenUp_told (busy : u.ej.writer ≠ none) (r : Record) :
    ArmTold (u.givenUp r.kind) (loseFailed u r .intake) r Config.noIndex :=
  reportArm_told (by rw [ej_givenUp]; exact busy) r Config.noIndex

theorem dealt_loseFailed (busy : u.ej.writer ≠ none) (r : Record) (src : WriteSource) : Dealt u (loseFailed u r src) := by
  cases src with
  | pageOpen => exact ⟨(Handed.refl u).outside, rfl, rfl, rfl, rfl, rfl, rfl, rfl⟩
  | gap g => exact ⟨outside_ej rfl rfl, rfl, rfl, rfl, rfl, rfl, rfl, rfl⟩
  | intake =>
    obtain ⟨outside, took, -, -⟩ := givenUp_told busy r
    have given : OutsideJournal u (u.givenUp r.kind) := (handed_loseRecord _ _).outsideOf rfl rfl
    have ej := ej_givenUp u r.kind
    refine ⟨given.trans outside, took.pages.trans ?_, took.openPage.trans ?_, took.state.trans ?_, took.closeRequested.trans ?_,
      took.nextIndex.trans ?_, took.chain.trans ?_, took.nextSerial.trans ?_⟩ <;> rw [ej] <;> rfl

/-- What the failed record is: owed again with a FREE page, lost without one. -/
def State.dealt (s : State) (w : Write) : State :=
  if (s.voided w).ej.firstFree.isSome then oweAgain (s.voided w) w.source else loseFailed (s.voided w) w.record w.source

theorem Voided.busy (h : Voided s u w) (hw : s.ej.writer = some w) : u.ej.writer ≠ none := by
  rw [h.took.writer, rejudged_writer]
  exact fun x => nomatch hw.symm.trans x

theorem dealt_dealt (sound : s.ej.Sound) (hw : s.ej.writer = some w) : Dealt (s.voided w) (s.dealt w) := by
  unfold State.dealt
  split
  · exact dealt_oweAgain _ _
  · exact dealt_loseFailed ((voided_voided sound hw).busy hw) _ _

/-- What holds of every write that failed. -/
structure Failed (s t : State) (w : Write) : Prop where
  outside : OutsideJournal s t
  others : ∀ q, q ≠ w.page → (s.page q).state ≠ .free → t.page q = s.page q
  shut : Shut s t w.page (((s.page w.page).holding w.slot .void).closedAs .short s.now w.slot.val s.ej.chain) .short w.slot.val
  nextIndex : t.ej.nextIndex = s.ej.nextIndex
  chain : t.ej.chain = s.ej.chain

theorem writeFailed_failed (sound : s.ej.Sound) (hw : s.ej.writer = some w) (source : w.source ≠ .pageOpen) :
    Failed s (writeFailed s) w := by
  have voided := voided_voided sound hw
  have dealt := dealt_dealt sound hw
  have after := sound_writeFailed sound
  rw [writeFailed_eq hw source] at after ⊢
  change (writerNext (s.dealt w)).ej.Sound at after
  change Failed s (writerNext (s.dealt w)) w
  have next := goneOn_writerNext w.page (s.dealt w)
  have outside := dealt.outside.trans next.outside
  refine ⟨voided.goneOn.outside.trans outside, fun q hq used => ?_, voided.shut ?_ ?_ outside after,
    (next.nextIndex.trans dealt.nextIndex).trans voided.goneOn.nextIndex, (next.chain.trans dealt.chain).trans voided.goneOn.chain⟩
  · have same := (dealt.page q).trans (voided.goneOn.others q hq used)
    rw [next.others q hq (by rwa [same]), same]
  · have closed : ((s.dealt w).page w.page).state ≠ .free := by
      rw [dealt.page, voided.closed.page]
      exact nofun
    rw [writerNext_page closed, dealt.page]
  · exact ((handed_writerNext _).closeRequested).trans dealt.closeRequested

/-! ### With a FREE page the record is owed again -/

/-- A page opened by the writer (R119). -/
structure Opened (v t : State) (p : Fin 64) : Prop where
  openPage : t.ej.openPage = some (p, 0)
  page : t.page p = (v.page p).openedAs v.ej.nextSerial
  writer : t.ej.writer = some ⟨p, 0, v.pageOpenRecord p, .pageOpen⟩

theorem opening_page_self (v : State) (p : Fin 64) : (v.opening p).pages[p] = (v.page p).openedAs v.ej.nextSerial :=
  (withPage_page v.ej p _ p).trans (if_pos rfl)

theorem openPage_opened (v : State) (p : Fin 64) : Opened v (openPage v p) p := by
  have took := took_openPage v p
  refine ⟨took.openPage.trans (rejudged_openPage _), ?_, took.writer.trans (rejudged_writer _)⟩
  rw [State.page, took.pages, rejudged_pages, opening_page_self]

theorem writerDecide_opens (ready : s.ej.writerReady = true) (must : s.ej.mustWrite = true) (none : s.ej.openPage = none)
    (free : s.ej.firstFree = some p) : writerDecide s = openPage s p := by
  rw [writerDecide, if_pos (by rw [ready, must]; rfl), none, free]

theorem Voided.openPage (h : Voided s u w) : u.ej.openPage = none := h.took.openPage.trans (rejudged_openPage _)

theorem Voided.running (h : Voided s u w) (sound : s.ej.Sound) (hw : s.ej.writer = some w) :
    u.ej.state ≠ .starting ∧ u.ej.state ≠ .exhausted := by
  obtain ⟨-, running, live, -⟩ := sound.writing hw
  rw [h.took.state, rejudged_eq_of_running (e := s.voiding w) running live]
  exact ⟨judged_ne_starting _, judged_ne_exhausted _⟩

theorem Voided.nextSerial (h : Voided s u w) : u.ej.nextSerial = s.ej.nextSerial := by
  rw [h.took.nextSerial, rejudged_stands]
  rfl

theorem dealt_owed (sound : s.ej.Sound) (hw : s.ej.writer = some w) (free : s.ej.firstFree = some p) :
    s.dealt w = oweAgain (s.voided w) w.source := by
  rw [State.dealt, (voided_voided sound hw).free, free]
  rfl

/-- The failed record is owed again, and the page that is opened for it (R118 step 2, R119). -/
structure OwedIn (s t : State) (w : Write) (p : Fin 64) : Prop where
  intake : s.ej.intake <+: t.ej.intake
  rewriteOwed : w.source = .intake → t.ej.rewriteOwed = true
  gapOwed : ∀ g, w.source = .gap g → t.ej.gapOwed = some g
  openPage : t.ej.openPage = some (p, 0)
  state : (t.page p).state = .opened
  serial : (t.page p).serial = some s.ej.nextSerial
  writer : t.ej.writer = some ⟨p, 0, s.pageOpenRecord p, .pageOpen⟩

theorem writeFailed_owed (sound : s.ej.Sound) (hw : s.ej.writer = some w) (source : w.source ≠ .pageOpen)
    (free : s.ej.firstFree = some p) : OwedIn s (writeFailed s) w p := by
  have voided := voided_voided sound hw
  obtain ⟨running, live⟩ := voided.running sound hw
  have dealt := dealt_dealt sound hw
  rw [writeFailed_eq hw source]
  change OwedIn s (writerNext (s.dealt w)) w p
  have intake : s.ej.intake <+: (s.dealt w).ej.intake := by
    rw [dealt_owed sound hw free]
    refine voided.goneOn.intake.trans ?_
    cases w.source <;> exact List.prefix_refl _
  have owed (h : w.source = .intake) : (s.dealt w).ej.rewriteOwed = true := by
    rw [dealt_owed sound hw free, h]
    rfl
  have gap (g : Gap) (h : w.source = .gap g) : (s.dealt w).ej.gapOwed = some g := by
    rw [dealt_owed sound hw free, h]
    rfl
  have must : (s.dealt w).ej.mustWrite = true := by
    rw [mustWrite_iff]
    cases hs : w.source with
    | pageOpen => exact absurd hs source
    | gap g => exact .inr fun x => nomatch (gap g hs).symm.trans x
    | intake => exact .inl fun x => nomatch (head?_of_prefix intake (sound.fits.source w hw hs)).symm.trans (congrArg List.head? x)
  have serial := dealt.nextSerial.trans voided.nextSerial
  have index := dealt.nextIndex.trans voided.goneOn.nextIndex
  have chain := dealt.chain.trans voided.goneOn.chain
  have outside := voided.goneOn.outside.trans dealt.outside
  have first := dealt.firstFree.trans (voided.free.trans free)
  have record : (s.dealt w).pageOpenRecord p = s.pageOpenRecord p := by
    rw [State.pageOpenRecord, State.pageOpenRecord, outside.now, outside.tsu, index, chain, serial]
  have kept := handed_writerNext (s.dealt w)
  have opens := writerDecide_opens (s := { s.dealt w with ej := { (s.dealt w).ej with writer := none } })
    ((writerReady_iff _).2 ⟨rfl, fun x => running (dealt.state.symm.trans x), fun x => live (dealt.state.symm.trans x)⟩) must
    (dealt.openPage.trans voided.openPage) first
  have opened := openPage_opened { s.dealt w with ej := { (s.dealt w).ej with writer := none } } p
  rw [← opens] at opened
  obtain ⟨openPage, page, writer⟩ := opened
  refine ⟨intake.trans kept.intake, fun h => kept.rewriteOwed.trans (owed h), fun g h => kept.gapOwed.trans (gap g h), openPage,
    ?_, ?_, ?_⟩
  · rw [writerNext, page]
    rfl
  · rw [writerNext, page]
    exact congrArg some serial
  · rw [writerNext, writer, ← record]
    rfl

/-! ### Without one it is lost -/

/-- The failed write's page closed with no FREE page left: the journal is STALLED, and nothing else has joined it. -/
theorem voided_stalled (sound : s.ej.Sound) (hw : s.ej.writer = some w) (free : s.ej.firstFree = none) :
    (s.voided w).ej = { s.voiding w with state := .stalled } := by
  obtain ⟨ho, running, live, -⟩ := sound.writing hw
  have voided := voided_voided sound hw
  have laid : (s.voiding w).Laid := laid_closing (s := setSlot s w.page w.slot .void) (sound.setSlot hw w.slot .void).laid ho .short
  have none : (s.voiding w).firstFree = none := by
    rw [← free, ← voided.free]
    exact firstFree_congr fun q => by rw [voided.took.pages, rejudged_pages]
  have judged : (s.voiding w).judged = .stalled := judged_stalled laid running rfl none
  have stalled : (s.voiding w).rejudged = { s.voiding w with state := .stalled } := by
    rw [rejudged_eq_of_running (e := s.voiding w) running live, judged]
  rw [← stalled, State.voided, ej_closePage (s := setSlot s w.page w.slot .void) ho]
  exact ej_judgeJournal_stalled (s := { setSlot s w.page w.slot .void with ej := s.voiding w }) judged

theorem dealt_lost (sound : s.ej.Sound) (hw : s.ej.writer = some w) (free : s.ej.firstFree = none) :
    s.dealt w = loseFailed (s.voided w) w.record w.source := by
  rw [State.dealt, (voided_voided sound hw).free, free]
  rfl

theorem writeFailed_lost (sound : s.ej.Sound) (hw : s.ej.writer = some w) (source : w.source ≠ .pageOpen)
    (free : s.ej.firstFree = none) :
    writeFailed s = { s.dealt w with ej := { (s.dealt w).ej with writer := none } } := by
  have voided := voided_voided sound hw
  have dealt := dealt_dealt sound hw
  rw [writeFailed_eq hw source]
  exact writerDecide_waits (s := { s.dealt w with ej := { (s.dealt w).ej with writer := none } })
    (dealt.openPage.trans voided.openPage) (dealt.firstFree.trans (voided.free.trans free))

theorem dealt_stalled (sound : s.ej.Sound) (hw : s.ej.writer = some w) (free : s.ej.firstFree = none) :
    (s.dealt w).ej.state = .stalled := by
  rw [(dealt_dealt sound hw).state, voided_stalled sound hw free]

/-- A record of the intake lost. -/
structure LostRecord (s t : State) (w : Write) : Prop where
  intake : s.ej.intake.tail = t.ej.intake
  rewriteOwed : t.ej.rewriteOwed = false
  losses : w.record.kind ≠ .auctionArm → t.ej.criticalLost = (s.losing w.record.kind.critical).criticalLost
    ∧ t.ej.nonCriticalLost = (s.losing w.record.kind.critical).nonCriticalLost
  arms : ∀ g, w.record.Arms g → (t.group g).armIndex = some Config.noIndex ∧ (t.group g).heldList = []

theorem dealt_lostRecord (sound : s.ej.Sound) (hw : s.ej.writer = some w) (free : s.ej.firstFree = none) (source : w.source = .intake) :
    LostRecord s (s.dealt w) w := by
  have ej := voided_stalled sound hw free
  have lost := dealt_lost sound hw free
  rw [source] at lost
  have given := ej_givenUp (s.voided w) w.record.kind
  rw [State.losing] at given
  simp only [ej] at given
  obtain ⟨-, took, told, -⟩ := givenUp_told ((voided_voided sound hw).busy hw) w.record
  have fed := stalled_of_fed (fed_reportArm ((s.voided w).givenUp w.record.kind) w.record Config.noIndex) (by rw [given])
  rw [← loseFailed_intake] at fed
  rw [← lost] at took told fed
  refine ⟨?_, ?_, fun other => ?_, fun g arms => ⟨(told g arms).armIndex, (told g arms).heldList⟩⟩
  · rw [fed.1, given]
    rfl
  · rw [took.rewriteOwed, given]
  · rw [lost, loseFailed_intake, reportArm_other other, given]
    exact ⟨rfl, rfl⟩

/-- A GAP record lost: its counts are added back (R117). -/
structure LostGap (s t : State) (g : Gap) : Prop where
  intake : t.ej.intake = s.ej.intake
  gapOwed : t.ej.gapOwed = none
  critical : t.ej.criticalLost = freeSum 3 Config.noIndex s.ej.criticalLost g.critical
  nonCritical : t.ej.nonCriticalLost = freeSum 4 Config.noIndex s.ej.nonCriticalLost g.nonCritical

theorem dealt_lostGap (sound : s.ej.Sound) (hw : s.ej.writer = some w) (free : s.ej.firstFree = none) {g : Gap}
    (source : w.source = .gap g) : LostGap s (s.dealt w) g := by
  have ej := voided_stalled sound hw free
  have lost : (s.dealt w).ej = (dropGap (s.voided w) g).ej := by rw [dealt_lost sound hw free, source, loseFailed]
  rw [dropGap, ej] at lost
  refine ⟨?_, ?_, ?_, ?_⟩ <;> rw [lost] <;> rfl

/-! ## A PAGE_OPEN failed (R119) -/

/-- What the failure of a PAGE_OPEN leaves. -/
structure OpenFailed (s t : State) (w : Write) (data : List Byte) : Prop where
  goneOn : GoneOn w.page s t
  page : t.page w.page = { (s.page w.page).holding w.slot .void with state := .defective, defect := some .openFailed }
  openPage : ∀ n, t.ej.openPage ≠ some (w.page, n)
  closeRequested : t.ej.closeRequested = false
  offered : Offered s t (s.defectRecord w.page data)
  noticed : Noticed s t .pageDefect s.now (.page w.page.val) data

theorem spoilOpen_page (s : State) (w : Write) (q : Fin 64) : (s.spoilOpen w).page q =
    if q = w.page then { (s.page w.page).holding w.slot .void with state := .defective, defect := some .openFailed } else s.page q := by
  have spoiled : (s.spoilOpen w).page q = if q = w.page then
      { (setSlot s w.page w.slot .void).page w.page with state := .defective, defect := some .openFailed }
      else (setSlot s w.page w.slot .void).page q := withPage_page (setSlot s w.page w.slot .void).ej w.page _ q
  rw [spoiled, setSlot_page_self]
  split
  · rfl
  · rename_i away
    exact (setSlot_page s w.page w.slot .void q).trans (if_neg away)

theorem goneOn_spoilOpen (s : State) (w : Write) : GoneOn w.page s (s.spoilOpen w) :=
  (Handed.refl (s.spoilOpen w)).goneOn (s := s) ⟨rfl, rfl, rfl, rfl, rfl, rfl, rfl, fun q hq => (spoilOpen_page s w q).trans (if_neg hq)⟩

theorem pageOpenFailed_openFailed (sound : s.ej.Sound) (hw : s.ej.writer = some w) (source : w.source = .pageOpen) :
    OpenFailed s (pageOpenFailed s) w (be 4 ((s.page w.page).serial.getD 0) ++ be 1 DefectCause.openFailed.code) := by
  have after := sound_pageOpenFailed sound
  rw [pageOpenFailed_eq hw source] at after ⊢
  obtain ⟨handed, offered, noticed⟩ := showDefect_shown (s.spoilOpen w) w.page ((s.page w.page).serial.getD 0) .openFailed
  have spoiled := (spoilOpen_page s w w.page).trans (if_pos rfl)
  have shown : (showDefect (s.spoilOpen w) w.page ((s.page w.page).serial.getD 0) .openFailed).page w.page
      = { (s.page w.page).holding w.slot .void with state := .defective, defect := some .openFailed } := by
    rw [handed.pages w.page (by rw [spoiled]; exact nofun), spoiled]
  generalize showDefect (s.spoilOpen w) w.page ((s.page w.page).serial.getD 0) .openFailed = v at *
  have decided := handed_writerNext v
  have page := (writerNext_page (s := v) (q := w.page) (by rw [shown]; exact nofun)).trans shown
  refine ⟨(goneOn_spoilOpen s w).trans ((handed.goneOn (s := s.spoilOpen w) ⟨rfl, rfl, rfl, rfl, rfl, rfl, rfl, fun _ _ => rfl⟩).trans
    (goneOn_writerNext _ _)), page, after.notOpenPage ?_, decided.closeRequested.trans handed.closeRequested, ?_, ?_⟩
  · change ((writerNext v).page w.page).state ≠ .opened
    rw [page]
    exact nofun
  · exact (offered.upto (t' := { v with ej := { v.ej with writer := none } }) rfl).later decided
  · exact (noticed.upto (t' := { v with ej := { v.ej with writer := none } }) rfl).later decided

end

/-- Settles O54: the steps of each end change one page, its registers and the sources of the record; the close and the writer's
decision then keep what the steps before have left. -/
theorem writesEnd : Obligations.WritesEnd := by
  intro s w live store hw serial old holding closed others shown
  have sound := (storeSound_iff s).1 store
  obtain ⟨-, running, -, opened⟩ := sound.writing hw
  have used : (s.page w.page).state ≠ .free := fun x => absurd (x.symm.trans opened) nofun
  refine ⟨?_, fun source => ?_, fun source => ?_⟩
  · intro chain bytes arms goesOn
    have written := written_written s w
    have told := armTold_told hw
    have stands := armTold_stands hw
    have on := goneOn_writeVerified hw
    have left := written.intake
    have intake := stands.intake.trans on.intake
    have rewriteOwed := on.rewriteOwed.trans stands.rewriteOwed
    have gapOwed := on.gapOwed.trans stands.gapOwed
    refine ⟨writeVerified s, whenLive_live s _ live, ⟨stands.outside.trans on.outside, fun q hq hf => ?_⟩, on.chain.trans stands.chain,
      fun room => ?_, fun source => ?_, fun g source => ?_, fun source => ?_, fun g hg => ?_, fun g hg other => ?_, fun last => ?_,
      fun room asked => ?_, fun goes => ?_, fun r next rest goes source other noGap list => ?_,
      fun goes source other noGap empty => writeVerified_rests hw goes.1 goes.2 source other noGap empty⟩
    · have same := stands.others q hq
      rw [on.others q hq (by rwa [same]), same]
    · rw [on.nextIndex, stands.nextIndex]
      exact freeSucc_lt (limit := Config.noIndex - 1) room
    · rw [if_pos source] at left rewriteOwed
      exact ⟨left ▸ intake, rewriteOwed, gapOwed.trans (written.gapKept (by rw [source]; exact nofun))⟩
    · rw [if_neg (by rw [source]; exact nofun)] at left rewriteOwed
      exact ⟨left ▸ intake, gapOwed.trans (written.gapOwed g source), rewriteOwed⟩
    · rw [if_neg (by rw [source]; exact nofun)] at left rewriteOwed
      exact ⟨left ▸ intake, gapOwed.trans (written.gapKept (by rw [source]; exact nofun)), rewriteOwed⟩
    · obtain ⟨-, armIndex, heldList, first, -⟩ := told.told g hg
      have sameGroup : (s.written w).group g = s.group g := by rw [written.journal]; rfl
      refine ⟨(on.held g).2.trans armIndex, (on.held g).1.trans heldList, fun r rest list takes => ?_⟩
      exact on.intake.subset (first r rest (by rw [sameGroup, list]) (written.takes takes))
    · have sameGroup : (s.written w).group g = s.group g := by rw [written.journal]; rfl
      have same := (told.groups g (by rwa [sameGroup]) other).trans sameGroup
      rw [on.groups g (by rwa [same]), same]
    · obtain ⟨page, asked, openPage, noticed⟩ := writeVerified_shut sound hw (closeAfter_full last)
      rw [show w.slot.val + 1 = 128 by rw [last]] at page noticed
      exact ⟨page, asked, openPage, noticed⟩
    · obtain ⟨page, asked, openPage, noticed⟩ := writeVerified_shut sound hw
        (closeAfter_asked room (stands.closeRequested.trans asked))
      exact ⟨page, asked, openPage, noticed⟩
    · exact writeVerified_goesOn hw used goes.1 goes.2
    · exact writeVerified_next sound hw goes.1 goes.2 source other noGap list
  · obtain ⟨outside, kept, ⟨page, asked, openPage, noticed⟩, nextIndex, chain⟩ := writeFailed_failed sound hw source
    refine ⟨writeFailed s, whenLive_live s _ live, ⟨outside, kept⟩, page, ⟨asked, openPage, noticed⟩, nextIndex, chain,
      fun p free => ?_, fun free => ?_⟩
    · obtain ⟨intake, rewriteOwed, gapOwed, openPage, state, serial, writer⟩ := writeFailed_owed sound hw source free
      exact ⟨fun h => ⟨intake, rewriteOwed h⟩, fun g h => ⟨intake, gapOwed g h⟩, openPage, state, serial,
        s.pageOpenRecord p, rfl, rfl, rfl, rfl, writer⟩
    · have stalled := dealt_stalled sound hw free
      rw [writeFailed_lost sound hw source free]
      refine ⟨stalled, rfl, fun h => ?_, fun g h => ?_⟩
      · obtain ⟨intake, rewriteOwed, losses, arms⟩ := dealt_lostRecord sound hw free h
        refine ⟨intake, rewriteOwed, fun other critical room => ?_, fun critical room => ?_,
          fun g kind subject => arms g ⟨kind, subject⟩⟩
        · obtain ⟨lost, same⟩ := losses other
          rw [critical] at lost same
          exact ⟨lost.trans (freeSucc_lt room), same⟩
        · obtain ⟨same, lost⟩ := losses fun x => absurd (critical.symm.trans (congrArg RecKind.critical x)) nofun
          rw [critical] at lost same
          exact ⟨lost.trans (freeSucc_lt room), same⟩
      · obtain ⟨intake, gapOwed, critical, nonCritical⟩ := dealt_lostGap sound hw free h
        exact ⟨intake, gapOwed, fun room => critical.trans (if_pos room), fun room => nonCritical.trans (if_pos room)⟩
  · obtain ⟨⟨outside, intake, rewriteOwed, gapOwed, nextIndex, chain, kept, -, -⟩, page, openPage, asked, offered, noticed⟩ :=
      pageOpenFailed_openFailed sound hw source
    exact ⟨pageOpenFailed s, whenLive_live s _ live, ⟨outside, kept⟩, page, openPage, asked, nextIndex, chain, intake, rewriteOwed,
      gapOwed, offered, noticed⟩

end Sys2Proof.Machine
end

