-- ==== Sys2Proof/Proofs/RecoveryWalk.lean ====
section
/-!
PROOFS. Proofs/RecoveryWalk.lean: what recovery makes of a page and of the page table: the walk, the torn tail, the chain end and the
leap count it gives (R129, R130).
-/
namespace Sys2Proof.Machine

/-! ## The walk of a page (R129) -/

/-- A record's bytes verify after a chain value, and give the next one. -/
def Follows (prev : Chain) (b : List Byte) (next : Chain) : Prop :=
  b.length = 64 ∧ next = crc32 prev (b.take 60) ∧ field b 60 4 = next.toNat

theorem verified_data {prev next : Chain} {b : List Byte} : (Slot.data b).verified prev = some next ↔ Follows prev b next := by
  unfold Slot.verified Follows
  simp only []
  split
  · rename_i sound
    obtain ⟨length, chain⟩ := sound
    rw [Option.some.injEq]
    exact ⟨fun h => h ▸ ⟨length, rfl, chain⟩, fun h => h.2.1.symm⟩
  · rename_i unsound
    refine iff_of_false nofun fun h => unsound ⟨h.1, ?_⟩
    rw [← h.2.1]
    exact h.2.2

/-- The first `n` slots verify one after another, with the chain values `c`, and the next one does not. -/
structure Walks (l : List Slot) (seed : Chain) (n : Nat) (c : Nat → Chain) : Prop where
  start : c 0 = seed
  short : n ≤ l.length
  each : ∀ i, i < n → ∃ b, l[i]? = some (.data b) ∧ Follows (c i) b (c (i + 1))
  stops : ∀ b k, l[n]? = some (.data b) → ¬ Follows (c n) b k

/-- The chain values of a walk with the one before them. -/
def chainCons (c : Chain) (rest : Nat → Chain) : Nat → Chain
  | 0 => c
  | i + 1 => rest i

theorem Walks.cons {x : Slot} {l : List Slot} {seed next : Chain} {n : Nat} {c : Nat → Chain} (h : Walks l next n c)
    (verified : x.verified seed = some next) : Walks (x :: l) seed (n + 1) (chainCons seed c) where
  start := rfl
  short := Nat.succ_le_succ h.short
  each
    | 0, _ => by
      cases x with
      | data b => exact ⟨b, rfl, by rw [chainCons, chainCons, h.start]; exact verified_data.1 verified⟩
      | blank => exact nomatch verified
      | void => exact nomatch verified
    | i + 1, hi => h.each i (Nat.lt_of_succ_lt_succ hi)
  stops := h.stops

/-- The model's walk is one. -/
theorem walk_walks (l : List Slot) (seed : Chain) (k : Nat) : ∃ n c, walk l seed k = (k + n, c n) ∧ Walks l seed n c := by
  induction l generalizing seed k with
  | nil => exact ⟨0, fun _ => seed, rfl, rfl, Nat.le_refl _, nofun, nofun⟩
  | cons x l ih =>
    cases verified : x.verified seed with
    | none =>
      refine ⟨0, fun _ => seed, by rw [walk, verified]; rfl, rfl, Nat.zero_le _, nofun, fun b next h follows => ?_⟩
      have data : x = .data b := by simpa using h
      rw [data, verified_data.2 follows] at verified
      exact nomatch verified
    | some next =>
      obtain ⟨n, c, walked, walks⟩ := ih next (k + 1)
      refine ⟨n + 1, chainCons seed c, ?_, walks.cons verified⟩
      rw [walk, verified]
      simp only [walked, chainCons]
      rw [Nat.add_right_comm, Nat.add_assoc]

section
variable {x : Page}

theorem found_walks (x : Page) : ∃ c, x.found.2 = c x.found.1 ∧ Walks x.slots.toList x.seed x.found.1 c := by
  obtain ⟨n, c, walked, walks⟩ := walk_walks x.slots.toList x.seed 0
  rw [Nat.zero_add] at walked
  refine ⟨c, ?_, ?_⟩ <;> rw [Page.found, walked]
  exact walks

theorem slot_toList (x : Page) (i : Fin 128) : x.slots.toList[i.val]? = some x.slots[i] := by
  rw [List.getElem?_eq_getElem (by simp), Vector.getElem_toList]
  rfl

theorem seed_eq (x : Page) : x.seed = BitVec.ofNat 32 (field (x.recordAt 0) 28 4) := by
  have first : x.slots.toList[0]? = some x.slots[0] := slot_toList x 0
  rw [Page.seed, Page.recordAt, first]
  rfl

/-! ## The torn tail (R129, R131) -/

theorem torn_iff (x : Page) : x.torn = true ↔ ∃ i : Fin 128, i.val = x.found.1 ∧ x.slots[i] ≠ .blank := by
  have tail : x.torn = match x.slots.toList[x.found.1]? with
      | none => false
      | some y => y != .blank := by
    rw [Page.torn, ← List.head?_drop]
    cases x.slots.toList.drop x.found.1 <;> rfl
  rw [tail]
  by_cases h : x.found.1 < 128
  · rw [slot_toList x ⟨x.found.1, h⟩]
    refine bne_iff_ne.trans ⟨fun k => ⟨⟨x.found.1, h⟩, rfl, k⟩, fun ⟨i, hi, k⟩ => ?_⟩
    rwa [← show i = ⟨x.found.1, h⟩ from Fin.ext hi]
  · rw [List.getElem?_eq_none (by simpa using Nat.le_of_not_lt h)]
    exact iff_of_false nofun fun ⟨i, hi, _⟩ => h (hi ▸ i.isLt)

theorem tornSlots_eq (x : Page) :
    x.tornSlots = Vector.ofFn fun i : Fin 128 => if i.val = x.found.1 ∧ x.slots[i] ≠ .blank then .void else x.slots[i] := by
  refine Vector.ext fun i hi => ?_
  rw [Vector.getElem_ofFn, Page.tornSlots]
  by_cases torn : x.torn = true
  · rw [if_pos torn, Vector.getElem_ofFn]
    obtain ⟨j, hj, full⟩ := (torn_iff x).1 torn
    by_cases tail : i = x.found.1
    · have same : j = ⟨i, hi⟩ := Fin.ext (hj.trans tail.symm)
      rw [if_pos tail, if_pos ⟨tail, same ▸ full⟩]
    · rw [if_neg tail, if_neg fun h => tail h.1]
  · rw [if_neg torn, if_neg fun h => torn ((torn_iff x).2 ⟨⟨i, hi⟩, h.1, h.2⟩)]
    rfl

/-! ## The leap count of a page (R130) -/

/-- The last value a function gives on a list. -/
theorem foldl_orElse {α β : Type} (f : α → Option β) (l : List α) (a : Option β) :
    l.foldl (fun k y => (f y).orElse fun _ => k) a = ((l.filterMap f).getLast?).or a := by
  induction l generalizing a with
  | nil => rfl
  | cons y l ih =>
    rw [List.foldl_cons, ih, List.filterMap_cons]
    cases f y with
    | none => rfl
    | some b =>
      rw [List.getLast?_cons]
      cases (l.filterMap f).getLast? <;> rfl

/-- The leap count of a record by its kind. -/
theorem leapIn_eq (b : List Byte) : leapIn b =
    let kind := field b 0 1 % 64
    if kind = 43 then some (field b 36 1) else if kind = 1 then some (field b 38 1)
    else if kind = 35 then some (field b 42 1)
    else if kind = 4 ∧ (field b 20 1 = 2 ∨ field b 20 1 = 3) then some (field b 21 1) else none := by
  unfold leapIn
  generalize field b 0 1 % 64 = kind
  split
  · rfl
  · rfl
  · rfl
  · simp
  · rename_i k43 k1 k35 k4
    rw [if_neg k43, if_neg k1, if_neg k35, if_neg fun h => k4 h.1]

theorem page_chainEnd_eq (x : Page) : x.chainEnd =
    { index := some (field (x.recordAt 0) 20 8 + (x.count - 1)), chain := x.lastChain.getD 0
      epoch := field (x.recordAt (x.count - 1)) 2 4, vt := recordVt (x.recordAt (x.count - 1))
      leapCount := (((x.slots.toList.take x.count).filterMap fun y => leapIn y.bytes).getLast?).getD 0 } := by
  rw [Page.chainEnd]
  simp only [foldl_orElse, Option.or_none]

end

/-! ## The chain end (R129) -/

/-- A walked page that holds a record. -/
def Page.holds (x : Page) : Bool := x.walked && decide (0 < x.count)

/-- One page considered for the chain end. -/
def endStep (pages : Vector Page 64) (best : Option (Fin 64)) (p : Fin 64) : Option (Fin 64) :=
  if (pages[p]).holds then
    match best with
    | none => some p
    | some q => if (pages[q]).serial.getD 0 < (pages[p]).serial.getD 0 then some p else some q
  else best

/-- The page of the greatest serial of those considered that hold a record. -/
def EndAmong (pages : Vector Page 64) (l : List (Fin 64)) : Option (Fin 64) → Prop
  | none => ∀ p ∈ l, (pages[p]).holds = false
  | some p => (pages[p]).holds = true ∧ ∀ q ∈ l, (pages[q]).holds = true → (pages[q]).serial.getD 0 ≤ (pages[p]).serial.getD 0

theorem endStep_endAmong {pages : Vector Page 64} {l : List (Fin 64)} {best : Option (Fin 64)} (h : EndAmong pages l best)
    (p : Fin 64) : EndAmong pages (l ++ [p]) (endStep pages best p) := by
  unfold endStep
  split
  · rename_i holds
    cases best with
    | none =>
      refine ⟨holds, fun q hq k => ?_⟩
      rcases List.mem_append.1 hq with hq | hq
      · exact absurd (k.symm.trans (h q hq)) nofun
      · rw [List.mem_singleton.1 hq]
    | some b =>
      obtain ⟨best, greatest⟩ := h
      simp only []
      split
      · rename_i less
        refine ⟨holds, fun q hq k => ?_⟩
        rcases List.mem_append.1 hq with hq | hq
        · exact (greatest q hq k).trans (Nat.le_of_lt less)
        · rw [List.mem_singleton.1 hq]
      · rename_i notLess
        refine ⟨best, fun q hq k => ?_⟩
        rcases List.mem_append.1 hq with hq | hq
        · exact greatest q hq k
        · rw [List.mem_singleton.1 hq]
          exact Nat.le_of_not_lt notLess
  · rename_i empty
    cases best with
    | none =>
      intro q hq
      rcases List.mem_append.1 hq with hq | hq
      · exact h q hq
      · rw [List.mem_singleton.1 hq]
        simpa using empty
    | some b =>
      obtain ⟨best, greatest⟩ := h
      refine ⟨best, fun q hq k => ?_⟩
      rcases List.mem_append.1 hq with hq | hq
      · exact greatest q hq k
      · rw [List.mem_singleton.1 hq] at k
        exact absurd k empty

theorem foldl_endAmong (pages : Vector Page 64) (l : List (Fin 64)) : EndAmong pages l (l.foldl (endStep pages) none) := by
  induction l using List.reverseRecOn with
  | nil => exact nofun
  | append_singleton l p ih =>
    rw [List.foldl_append]
    exact endStep_endAmong ih p

theorem chainEnd_endAmong (pages : Vector Page 64) : EndAmong pages allPages (chainEnd pages) := foldl_endAmong pages allPages

/-! ## The greatest serial -/

theorem foldl_max_le_iff (l : List Nat) (a b : Nat) : l.foldl max a ≤ b ↔ a ≤ b ∧ ∀ x ∈ l, x ≤ b := by
  induction l generalizing a with
  | nil => simp
  | cons y l ih => rw [List.foldl_cons, ih]; simp [and_assoc]

theorem foldl_max_eq {l : List Nat} {top : Nat} (le : ∀ x ∈ l, x ≤ top) (reached : top = 0 ∨ top ∈ l) : l.foldl max 0 = top := by
  refine Nat.le_antisymm ((foldl_max_le_iff l 0 top).2 ⟨Nat.zero_le _, le⟩) ?_
  rcases reached with zero | mem
  · rw [zero]
    exact Nat.zero_le _
  · exact ((foldl_max_le_iff l 0 _).1 (Nat.le_refl _)).2 top mem

end Sys2Proof.Machine
end

