-- ==== Sys2Proof/Proofs/RecoveredTable.lean ====
section
/-!
PROOFS. Proofs/RecoveredTable.lean: the page table recovery leaves, the chain end it finds in it and the page counts it reports (R129 to
R131).
-/
namespace Sys2Proof.Machine

/-! ## One page -/

section
variable {x : Page} {r : Recovered}

theorem recovered_of_opened (h : x.state = .opened) : x.recovered =
    { x with state := .closed, closeCause := some .recovery, count := x.found.1, lastChain := some x.found.2,
             closeTime := some (recordVt (x.recordAt (x.found.1 - 1))), slots := x.tornSlots } := if_pos h

theorem recovered_walked (x : Page) : x.recovered.walked = x.walked := by
  by_cases h : x.state = .opened
  · rw [recovered_of_opened h, Page.walked, Page.walked, h]
    rfl
  · rw [recovered_of_not_opened h]

theorem recovered_serial (x : Page) : x.recovered.serial = x.serial := by
  by_cases h : x.state = .opened
  · rw [recovered_of_opened h]
  · rw [recovered_of_not_opened h]

theorem settle_count (x : Page) (was : Bool) (r : Recovered) : (x.settle was r).count = x.count := by
  unfold Page.settle
  split <;> rfl

theorem settle_serial (x : Page) (was : Bool) (r : Recovered) : (x.settle was r).serial = x.serial := by
  unfold Page.settle
  split <;> rfl

/-- A page that holds a record is not settled (R129). -/
theorem settle_of_count (h : 0 < x.count) (was : Bool) : x.settle was r = x :=
  if_neg fun k => absurd k.2 (Nat.ne_of_gt h)

theorem walked_iff (x : Page) : x.walked = true ↔ x.state = .opened ∨ x.state = .closed ∨ x.state = .exported := by
  simp [Page.walked, or_assoc]

end

/-! ## The page table -/

section
variable {e : Ej}

/-- An OPEN page, closed by recovery (R129). -/
theorem recoveredStore_opened {p : Fin 64} (h : (e.pages[p]).state = .opened) : e.recoveredStore[p] =
    { e.pages[p] with
      state := .closed, closeCause := some .recovery, count := (e.pages[p]).found.1
      lastChain := some (if (e.pages[p]).found.1 = 0 then e.chainFound.chain else (e.pages[p]).found.2)
      closeTime := some (if (e.pages[p]).found.1 = 0 then e.chainFound.vt
        else recordVt ((e.pages[p]).recordAt ((e.pages[p]).found.1 - 1)))
      slots := (e.pages[p]).tornSlots } := by
  rw [recoveredStore_page, recovered_of_opened h, Page.settle]
  by_cases empty : (e.pages[p]).found.1 = 0
  · rw [if_pos ⟨by rw [h]; rfl, empty⟩, if_pos empty, if_pos empty]
  · rw [if_neg fun k => empty k.2, if_neg empty, if_neg empty]

theorem recoveredStore_count (e : Ej) (p : Fin 64) : (e.recoveredStore[p]).count = ((e.pages[p]).recovered).count := by
  rw [recoveredStore_page, settle_count]

theorem recoveredStore_serial (e : Ej) (p : Fin 64) : (e.recoveredStore[p]).serial = (e.pages[p]).serial := by
  rw [recoveredStore_page, settle_serial, recovered_serial]

/-- A page with a record on it is the recovered page itself. -/
theorem recoveredStore_of_count {p : Fin 64} (h : 0 < (e.recoveredStore[p]).count) : e.recoveredStore[p] = (e.pages[p]).recovered := by
  rw [recoveredStore_count] at h
  rw [recoveredStore_page, settle_of_count h]

theorem holds_iff (e : Ej) (p : Fin 64) :
    ((e.pages.map Page.recovered)[p]).holds = true ↔ (e.pages[p]).walked = true ∧ 0 < (e.recoveredStore[p]).count := by
  have page : (e.pages.map Page.recovered)[p] = (e.pages[p]).recovered := by simp
  rw [page, Page.holds, Bool.and_eq_true, decide_eq_true_iff, recovered_walked, recoveredStore_count]

/-- With no record in the store there is no chain end. -/
theorem chainFound_none (h : ∀ p : Fin 64, (e.pages[p]).walked = true → (e.recoveredStore[p]).count = 0) : e.chainFound = {} := by
  have among := chainEnd_endAmong (e.pages.map Page.recovered)
  rw [Ej.chainFound, recoveredFrom]
  cases k : chainEnd (e.pages.map Page.recovered) with
  | none => rfl
  | some p =>
    rw [k] at among
    obtain ⟨walked, full⟩ := (holds_iff e p).1 among.1
    exact absurd (h p walked) (Nat.ne_of_gt full)

/-- The chain end is the page of the greatest serial that holds a record. -/
theorem chainFound_some {p : Fin 64} (walked : (e.pages[p]).walked = true) (full : 0 < (e.recoveredStore[p]).count) :
    ∃ q : Fin 64, (e.pages[q]).walked = true ∧ 0 < (e.recoveredStore[q]).count
      ∧ (∀ o : Fin 64, (e.pages[o]).walked = true → 0 < (e.recoveredStore[o]).count →
          (e.pages[o]).serial.getD 0 ≤ (e.pages[q]).serial.getD 0)
      ∧ e.chainFound = (e.recoveredStore[q]).chainEnd := by
  have among := chainEnd_endAmong (e.pages.map Page.recovered)
  rw [Ej.chainFound, recoveredFrom]
  cases k : chainEnd (e.pages.map Page.recovered) with
  | none =>
    rw [k] at among
    exact absurd ((holds_iff e p).2 ⟨walked, full⟩) (by rw [among p (List.mem_finRange p)]; exact nofun)
  | some q =>
    rw [k] at among
    obtain ⟨holds, greatest⟩ := among
    obtain ⟨walkedQ, fullQ⟩ := (holds_iff e q).1 holds
    have serial (o : Fin 64) : ((e.pages.map Page.recovered)[o]).serial = (e.pages[o]).serial := by simp [recovered_serial]
    refine ⟨q, walkedQ, fullQ, fun o w f => ?_, ?_⟩
    · have le := greatest o (List.mem_finRange o) ((holds_iff e o).2 ⟨w, f⟩)
      rwa [serial, serial] at le
    · rw [recoveredStore_of_count fullQ]
      simp

/-- Some OPEN page had a torn tail (R131). -/
theorem truncated_iff (e : Ej) : e.truncated = true ↔ ∃ (p : Fin 64) (i : Fin 128), (e.pages[p]).state = .opened
    ∧ i.val = (e.recoveredStore[p]).count ∧ (e.pages[p]).slots[i] ≠ .blank := by
  have count {p : Fin 64} (h : (e.pages[p]).state = .opened) : (e.recoveredStore[p]).count = (e.pages[p]).found.1 := by
    rw [recoveredStore_opened h]
  rw [Ej.truncated, List.any_eq_true]
  constructor
  · rintro ⟨x, mem, torn⟩
    obtain ⟨j, hj, rfl⟩ := List.mem_iff_getElem.1 mem
    rw [Vector.length_toList] at hj
    rw [Vector.getElem_toList, Bool.and_eq_true, beq_iff_eq] at torn
    obtain ⟨opened, torn⟩ := torn
    obtain ⟨i, hi, full⟩ := (torn_iff _).1 torn
    exact ⟨⟨j, hj⟩, i, opened, hi.trans (count (p := ⟨j, hj⟩) opened).symm, full⟩
  · rintro ⟨p, i, opened, hi, full⟩
    refine ⟨e.pages[p], by simp, ?_⟩
    rw [Bool.and_eq_true, beq_iff_eq]
    exact ⟨opened, (torn_iff _).2 ⟨i, hi.trans (count opened), full⟩⟩

/-- The greatest serial of the page table. -/
theorem topSerial_eq {top : Nat} (le : ∀ p : Fin 64, (e.pages[p]).serial.getD 0 ≤ top)
    (reached : top = 0 ∨ ∃ p : Fin 64, (e.pages[p]).serial = some top) : e.topSerial = top := by
  have mem (k : Nat) : k ∈ e.recoveredStore.toList.filterMap (·.serial) ↔ ∃ p : Fin 64, (e.pages[p]).serial = some k := by
    rw [List.mem_filterMap]
    constructor
    · rintro ⟨x, mem, serial⟩
      obtain ⟨j, hj, rfl⟩ := List.mem_iff_getElem.1 mem
      rw [Vector.length_toList] at hj
      exact ⟨⟨j, hj⟩, (recoveredStore_serial e ⟨j, hj⟩).symm.trans serial⟩
    · rintro ⟨p, serial⟩
      exact ⟨e.recoveredStore[p], by simp, (recoveredStore_serial e p).trans serial⟩
  refine foldl_max_eq (fun k hk => ?_) (reached.imp id (mem top).2)
  obtain ⟨p, serial⟩ := (mem k).1 hk
  have bound := le p
  rwa [serial] at bound

/-! ## The page counts -/

theorem recoveredStore_state_iff (e : Ej) {st : PageState} (closed : st ≠ .closed) (opened : st ≠ .opened) (p : Fin 64) :
    (e.recoveredStore[p]).state = st ↔ (e.pages[p]).state = st := by
  by_cases h : (e.pages[p]).state = .opened
  · rw [recoveredStore_closed e h, h]
    exact iff_of_false (Ne.symm closed) (Ne.symm opened)
  · rw [recoveredStore_of_not_opened e h]

theorem countP_or {α : Type} (l : List α) (f g : α → Bool) (h : ∀ x, f x = true → g x = false) :
    l.countP (fun x => f x || g x) = l.countP f + l.countP g := by
  induction l with
  | nil => rfl
  | cons x l ih =>
    rw [List.countP_cons, List.countP_cons, List.countP_cons, ih]
    cases hf : f x with
    | true =>
      rw [h x hf]
      simp only [Bool.true_or, if_true, Bool.false_eq_true, if_false]
      omega
    | false =>
      simp only [Bool.false_or, Bool.false_eq_true, if_false]
      omega

section
variable {f : Ej} (pages : f.pages = e.recoveredStore)
include pages

theorem pagesIn_recovered {st : PageState} (closed : st ≠ .closed) (opened : st ≠ .opened) : f.pagesIn st = e.pagesIn st :=
  pagesIn_congr fun p => by rw [pages]; exact recoveredStore_state_iff e closed opened p

theorem pagesIn_recovered_opened : f.pagesIn .opened = 0 := by
  rw [Ej.pagesIn_eq, List.countP_eq_zero, pages]
  exact fun p _ h => recoveredStore_state e p (eq_of_beq h)

theorem pagesIn_recovered_closed : f.pagesIn .closed = e.pagesIn .closed + e.pagesIn .opened := by
  rw [Ej.pagesIn_eq, Ej.pagesIn_eq, Ej.pagesIn_eq, pages, ← countP_or _ _ _ fun p h => by rw [eq_of_beq h]; rfl]
  refine List.countP_congr fun p _ => ?_
  rw [beq_iff_eq, Bool.or_eq_true, beq_iff_eq, beq_iff_eq]
  by_cases h : (e.pages[p]).state = .opened
  · rw [recoveredStore_closed e h, h]
    exact iff_of_true rfl (.inr rfl)
  · rw [recoveredStore_of_not_opened e h]
    exact ⟨.inl, fun k => k.resolve_right h⟩

/-- The state recovery judges: no page is OPEN (R122). -/
theorem judged_recovered : f.judged = if 2 < e.pagesIn .free then .normal else if 0 < e.pagesIn .free then .tight else .stalled := by
  rw [Ej.judged, pagesIn_recovered pages (st := .free) nofun nofun, pagesIn_recovered_opened pages]
  simp

/-- The START record's body (R131). -/
theorem startRecord_body (r : Recovered) (truncated : Bool) : (startRecord f r truncated).body =
    be 1 f.restartCause.code ++ be 4 f.epoch ++ be 4 r.epoch ++ be 8 (r.index.getD Config.noIndex) ++ beBool truncated ++ be 1 r.leapCount
      ++ be 1 (e.pagesIn .free) ++ be 1 0 ++ be 1 (e.pagesIn .closed + e.pagesIn .opened) ++ be 1 (e.pagesIn .exported)
      ++ be 1 (e.pagesIn .erasing) ++ be 1 (e.pagesIn .defective) := by
  rw [startRecord]
  simp only [List.flatMap_cons, List.flatMap_nil, List.append_nil, pagesIn_recovered_opened pages, pagesIn_recovered_closed pages,
    pagesIn_recovered pages (st := .free) nofun nofun, pagesIn_recovered pages (st := .exported) nofun nofun,
    pagesIn_recovered pages (st := .erasing) nofun nofun, pagesIn_recovered pages (st := .defective) nofun nofun, List.append_assoc]

end

end

end Sys2Proof.Machine
end

