-- ==== Sys2Proof/Proofs/RecoveryEnd.lean ====
section
/-!
PROOFS. Proofs/RecoveryEnd.lean: the end of recovery: the clock loaded, the next epoch begun or the journal EXHAUSTED, START noticed, the
writer's first decision (R129 to R132).
-/
namespace Sys2Proof.Machine

section
variable {s t u : State}

/-! ## What the journal keeps whatever is offered -/

/-- What takes records, opens FREE pages and begins writes keeps what each of them keeps. -/
theorem closed_writerDecide {P : Ej → Prop} (took : ∀ {e f : Ej}, e.Took f → P e → P f)
    (opening : ∀ (u : State) (p : Fin 64), (u.page p).state = .free → u.ej.state ≠ .starting → u.ej.state ≠ .exhausted →
      P u.ej → P (u.opening p).rejudged)
    (begins : ∀ (e : Ej) (w : Option Write) (c m : Nat) (v : Option Nat), P e →
      P { e with writer := w, criticalLost := c, nonCriticalLost := m, firstLoss := v }) (h : P s.ej) : P (writerDecide s).ej := by
  rcases writerDecide_cases s with k | ⟨⟨-, running, live⟩, ⟨q, -, free, k⟩ | ⟨q, m, -, k⟩⟩
  · rwa [k]
  · rw [k]
    exact took (took_openPage s q) (opening s q (firstFree_free s q free) running live h)
  · rw [k]
    rcases beginNext_cases s q m with same | ⟨w, c, l, v, -, begun⟩
    · rwa [same]
    · rw [begun]
      exact begins _ _ _ _ _ h

/-- The journal runs. -/
def Ej.Running (e : Ej) : Prop := e.state ≠ .starting ∧ e.state ≠ .exhausted

theorem Ej.Took.runs {e f : Ej} (h : e.Took f) (k : e.Running) : f.Running := by
  rw [Ej.Running, h.state]
  exact k

theorem running_writerDecide (h : s.ej.Running) : (writerDecide s).ej.Running := by
  refine closed_writerDecide Ej.Took.runs (fun u p _ running live _ => ?_) (fun _ _ _ _ _ => id) h
  rw [rejudged_eq_of_running (e := u.opening p) running live]
  exact ⟨judged_ne_starting _, judged_ne_exhausted _⟩

theorem running_of_fed (h : Fed s t) (k : s.ej.Running) : t.ej.Running :=
  h Ej.Running (fun _ r => closed_offer Ej.Took.runs running_writerDecide r) k

/-- The ERASING pages are those of `a`. -/
def Ej.ErasingAs (a e : Ej) : Prop := ∀ p : Fin 64, (e.pages[p]).state = .erasing ↔ (a.pages[p]).state = .erasing

theorem erasingAs_writerDecide {a : Ej} (h : a.ErasingAs s.ej) : a.ErasingAs (writerDecide s).ej := by
  refine closed_writerDecide (fun took k => ?_) (fun u p free _ _ k q => ?_) (fun _ _ _ _ _ => id) h
  · rw [Ej.ErasingAs, took.pages]
    exact k
  · have page : (u.opening p).pages[q] = if q = p then (u.page p).openedAs u.ej.nextSerial else u.ej.pages[q] :=
      withPage_page u.ej p _ q
    rw [rejudged_pages, page, ← k q]
    split
    · rename_i same
      have free : (u.ej.pages[p]).state = .free := free
      rw [same, free]
      exact iff_of_false nofun nofun
    · rfl

theorem erasingAs_of_fed {a : Ej} (h : Fed s t) (k : a.ErasingAs s.ej) : a.ErasingAs t.ej :=
  h a.ErasingAs (fun _ r => closed_offer (fun took k => by rw [Ej.ErasingAs, took.pages]; exact k) erasingAs_writerDecide r) k

/-- With no group DEFERRED there is none to cut (R95). -/
theorem cutAll_undeferred (offer : Offerer) (h : ∀ g, (s.group g).state ≠ .deferred) : cutAllWith offer s = s := by
  have cuts (l : List (Fin 32)) : l.foldl (cutDeferredWith offer) s = s := by
    induction l with
    | nil => rfl
    | cons g l ih => rw [List.foldl_cons, cutDeferredWith, if_neg (h g), ih]
  rw [cutAllWith, cuts]
  exact ite_self s

theorem journalReport_undeferred (h : ∀ g, (s.group g).state ≠ .deferred) (v : JournalState) :
    journalReport s v = { s with auc := { s.auc with journalView := v } } := cutAll_undeferred offer h

/-! ## The epoch begun (R130, R132) -/

/-- The part with its next epoch begun or none left, the journal state not yet told. -/
def State.inNextEpoch (u : State) (r : Recovered) (truncated : Bool) : State :=
  if u.ej.lastEpoch r < Config.max32 then
    { u with ej := u.ej.inEpoch (u.ej.lastEpoch r + 1) r truncated, sis := { u.sis with epoch := u.ej.lastEpoch r + 1 } }
  else { u with ej := { u.ej with state := .exhausted } }

section
variable {r : Recovered} {truncated : Bool}

theorem inNextEpoch_next (h : u.ej.lastEpoch r < Config.max32) : u.inNextEpoch r truncated =
    { u with ej := u.ej.inEpoch (u.ej.lastEpoch r + 1) r truncated, sis := { u.sis with epoch := u.ej.lastEpoch r + 1 } } := if_pos h

theorem inNextEpoch_last (h : ¬ u.ej.lastEpoch r < Config.max32) :
    u.inNextEpoch r truncated = { u with ej := { u.ej with state := .exhausted } } := if_neg h

theorem beginEpoch_eq (u : State) (r : Recovered) (truncated : Bool) :
    beginEpoch u r truncated = journalReport (u.inNextEpoch r truncated) (u.inNextEpoch r truncated).ej.state := by
  by_cases next : u.ej.lastEpoch r < Config.max32
  · rw [inNextEpoch_next next, beginEpoch_next next]
    rfl
  · rw [inNextEpoch_last next, beginEpoch_last next]

/-- What the next epoch, or the last one, leaves of the part. -/
structure InNextEpoch (u a : State) : Prop where
  pages : a.ej.pages = u.ej.pages
  nextIndex : a.ej.nextIndex = u.ej.nextIndex
  chain : a.ej.chain = u.ej.chain
  nextSerial : a.ej.nextSerial = u.ej.nextSerial
  openPage : a.ej.openPage = u.ej.openPage
  writer : a.ej.writer = u.ej.writer
  restartCause : a.ej.restartCause = u.ej.restartCause
  running : a.ej.state ≠ .starting
  tsu : a.tsu = u.tsu
  rfe : a.rfe = u.rfe
  psm : a.psm = u.psm
  auc : a.auc = u.auc
  hli : a.hli = u.hli

theorem inNextEpoch_inNextEpoch (u : State) (r : Recovered) (truncated : Bool) : InNextEpoch u (u.inNextEpoch r truncated) := by
  by_cases next : u.ej.lastEpoch r < Config.max32
  · rw [inNextEpoch_next next]
    exact ⟨rfl, rfl, rfl, rfl, rfl, rfl, rfl, judged_ne_starting _, rfl, rfl, rfl, rfl, rfl⟩
  · rw [inNextEpoch_last next]
    exact ⟨rfl, rfl, rfl, rfl, rfl, rfl, rfl, nofun, rfl, rfl, rfl, rfl, rfl⟩

end

/-! ## START noticed, and the writer's first decision -/

/-- The notice of START. -/
def State.startShown (b : State) : State :=
  notify b .start .nothing (be 1 b.ej.restartCause.code ++ be 4 b.ej.epoch ++ be 1 b.ej.state.code)

theorem startNoticed_eq (b : State) : b.startNoticed =
    { b.startShown with ej := { b.ej with eraseQueue := allPages.filter fun p => (b.page p).state == .erasing } } := by
  have same : b.startShown.ej = b.ej := ej_notify _ _ _ _
  have kept : b.startNoticed = { b.startShown with
      ej := { b.startShown.ej with eraseQueue := allPages.filter fun p => (b.startShown.ej.pages[p]).state == .erasing } } := rfl
  rw [kept, same]
  rfl

/-- What holds at the end of recovery of the part as it was in its next epoch, whatever was handed on. -/
structure Ended (a t : State) : Prop where
  outside : OutsideJournal a t
  pages : ∀ p, (a.page p).state ≠ .free → t.page p = a.page p
  intake : a.ej.intake <+: t.ej.intake
  nextIndex : t.ej.nextIndex = a.ej.nextIndex
  chain : t.ej.chain = a.ej.chain
  eraseQueue : t.ej.eraseQueue = (List.finRange 64).filter fun p => (a.page p).state == .erasing
  told : t.auc.journalView = t.ej.state

section
variable {a b : State}

theorem ended_writerDecide (fed : Fed a b) (handed : Handed a b) (told : b.auc.journalView = b.ej.state) :
    Ended a (writerDecide b.startNoticed) := by
  have shown : Handed b b.startShown := handed_notify _ _ _ _
  have same : b.startShown.ej = b.ej := ej_notify _ _ _ _
  have after := handed_writerDecide b.startNoticed
  have view := (handsOn_writerDecide b.startNoticed).told
  rw [startNoticed_eq] at after view ⊢
  refine ⟨(handed.trans shown).outside.trans (after.outsideOf (s := b.startShown) (by rw [same]) (by rw [same])), fun p used => ?_,
    handed.intake.trans after.intake, after.nextIndex.trans handed.nextIndex, after.chain.trans handed.chain, ?_, view ?_⟩
  · have first := handed.pages p used
    exact (after.pages p (by change (b.page p).state ≠ .free; rwa [first])).trans first
  · refine after.eraseQueue.trans (List.filter_congr fun p _ => ?_)
    rw [Bool.eq_iff_iff, beq_iff_eq, beq_iff_eq]
    exact erasingAs_of_fed (a := a.ej) fed (fun _ => Iff.rfl) p
  · change b.startShown.auc.journalView = b.ej.state
    rw [← same]
    exact (handsOn_notify b .start .nothing _).told told

/-- START noticed as the journal stands when its state has been told (R131). -/
theorem noticed_writerDecide (handed : Handed a b) : Noticed a (writerDecide b.startNoticed) .start a.now .nothing
    (be 1 a.ej.restartCause.code ++ be 4 b.ej.epoch ++ be 1 b.ej.state.code) := by
  have noticed : Noticed b b.startShown .start b.now .nothing
      (be 1 b.ej.restartCause.code ++ be 4 b.ej.epoch ++ be 1 b.ej.state.code) := noticed_notify b .start .nothing _
  rw [handed.now, handed.restartCause] at noticed
  have after := handed_writerDecide b.startNoticed
  rw [startNoticed_eq] at after ⊢
  refine Noticed.later ?_ after
  exact (noticed.sooner handed.noticesLe).upto rfl

end

/-! ## The end of recovery -/

/-- The part with its clock loaded and its next epoch begun or none left. -/
def State.beginning (s : State) : State := s.delivered.inNextEpoch s.ej.chainFound s.ej.truncated

theorem begun_eq (s : State) : s.begun = journalReport s.beginning s.beginning.ej.state := beginEpoch_eq _ _ _

theorem handed_begun (s : State) : Handed s.beginning s.begun := by
  rw [begun_eq]
  exact handed_journalReport _ _

theorem fed_begun (s : State) : Fed s.beginning s.begun := by
  rw [begun_eq]
  exact fed_journalReportWith (FedBy.refl _ s.beginning)

theorem recoveryEnd_ended (h : s.ej.state = .starting) : Ended s.beginning (recoveryEnd s) := by
  rw [recoveryEnd_eq h]
  refine ended_writerDecide (fed_begun s) (handed_begun s) ?_
  rw [begun_eq]
  exact (settled_journalReportWith offer_offering s.beginning _ rfl).journal

theorem recoveryEnd_noticed (h : s.ej.state = .starting) : Noticed s.beginning (recoveryEnd s) .start s.beginning.now .nothing
    (be 1 s.beginning.ej.restartCause.code ++ be 4 s.begun.ej.epoch ++ be 1 s.begun.ej.state.code) := by
  rw [recoveryEnd_eq h]
  exact noticed_writerDecide (handed_begun s)

end

end Sys2Proof.Machine
end

