-- ==== Sys2Proof/Proofs/EpochBegins.lean ====
section
/-!
PROOFS. Proofs/EpochBegins.lean: the statement of the end of recovery, part by part (R129 to R132, R21, R79).
-/
namespace Sys2Proof.Machine

section
variable {e : Ej} {s : State}

/-! ## The FREE pages -/

theorem firstFree_lowest {p : Fin 64} (free : (e.pages[p]).state = .free) (lowest : ∀ q : Fin 64, q < p → (e.pages[q]).state ≠ .free) :
    e.firstFree = some p := by
  have isFree : ((e.pages[p]).state == .free) = true := beq_iff_eq.2 free
  cases found : e.firstFree with
  | none => exact absurd isFree (List.find?_eq_none.1 found p (List.mem_finRange p))
  | some q =>
    obtain ⟨freeQ, before, after, split, others⟩ := List.find?_eq_some_iff_append.1 found
    have notBefore : p ∉ before := fun h => by
      have other := others p h
      rw [isFree] at other
      exact nomatch other
    have mem : p ∈ before ++ q :: after := split ▸ List.mem_finRange p
    rcases List.mem_cons.1 ((List.mem_append.1 mem).resolve_left notBefore) with same | later
    · rw [same]
    · have sorted : (before ++ q :: after).Pairwise (· < ·) := split ▸ List.pairwise_lt_finRange 64
      have less : q < p := (List.pairwise_cons.1 (List.pairwise_append.1 sorted).2.1).1 p later
      exact absurd (eq_of_beq freeQ) (lowest q less)

theorem firstFree_none (h : e.pagesIn .free = 0) : e.firstFree = none := by
  rw [Ej.pagesIn_eq, List.countP_eq_zero] at h
  exact List.find?_eq_none.2 h

/-- Two tests that differ in one member of a list. -/
theorem countP_but_one {α : Type} {l : List α} {f g : α → Bool} {a : α} (nodup : l.Nodup) (mem : a ∈ l)
    (same : ∀ x, x ≠ a → g x = f x) (hf : f a = true) (hg : g a = false) : l.countP g + 1 = l.countP f := by
  induction l with
  | nil => exact nomatch mem
  | cons x l ih =>
    obtain ⟨out, nodup⟩ := List.nodup_cons.1 nodup
    rw [List.countP_cons, List.countP_cons]
    by_cases k : x = a
    · have rest : l.countP g = l.countP f := List.countP_congr fun y hy => by rw [same y fun z => out (k ▸ z ▸ hy)]
      rw [rest, k, hf, hg]
      rfl
    · rw [same x k, ← ih nodup ((List.mem_cons.1 mem).resolve_left (Ne.symm k))]
      omega

/-- A page opened: one FREE page fewer, and one OPEN. -/
theorem judged_opening {p : Fin 64} (free : (s.page p).state = .free) :
    (s.opening p).judged = if 3 < s.ej.pagesIn .free then .normal else .tight := by
  have page (q : Fin 64) : (s.opening p).pages[q] = if q = p then (s.page p).openedAs s.ej.nextSerial else s.ej.pages[q] :=
    withPage_page s.ej p _ q
  have fewer : (s.opening p).pagesIn .free + 1 = s.ej.pagesIn .free := by
    rw [Ej.pagesIn_eq, Ej.pagesIn_eq]
    refine countP_but_one (List.nodup_finRange 64) (List.mem_finRange p) (fun q hq => by rw [page, if_neg hq]) (beq_iff_eq.2 free) ?_
    rw [page, if_pos rfl]
    rfl
  have opened : 0 < (s.opening p).pagesIn .opened := by
    rw [Ej.pagesIn_eq, List.countP_pos_iff]
    refine ⟨p, List.mem_finRange p, ?_⟩
    rw [page, if_pos rfl]
    rfl
  rw [Ej.judged, ← fewer, if_pos (c := 0 < (s.opening p).pagesIn .free ∨ 0 < (s.opening p).pagesIn .opened) (.inr opened)]
  exact if_congr (by omega) rfl rfl

/-! ## The pages and the clock -/

theorem delivered_ej (s : State) : s.delivered.ej = s.ej.walkedThrough := rfl

theorem delivered_sis (s : State) : s.delivered.sis = s.sis := rfl

theorem delivered_lastEpoch (s : State) (r : Recovered) : s.delivered.ej.lastEpoch r = s.ej.lastEpoch r := rfl

theorem beginning_pages (s : State) : s.beginning.ej.pages = s.ej.recoveredStore := (inNextEpoch_inNextEpoch _ _ _).pages

theorem beginning_page (s : State) (p : Fin 64) : s.beginning.page p = s.ej.recoveredStore[p] := by
  rw [State.page, beginning_pages]

/-- A page that is not FREE is as recovery leaves it. -/
theorem recoveryEnd_page (starting : s.ej.state = .starting) {p : Fin 64} (used : (s.page p).state ≠ .free) :
    (recoveryEnd s).page p = s.ej.recoveredStore[p] := by
  have kept := (recoveryEnd_ended starting).pages p
  rw [beginning_page] at kept
  exact kept fun free => used ((recoveredStore_state_iff s.ej (st := .free) nofun nofun p).1 free)

theorem walked_used {p : Fin 64} (h : (s.page p).walked = true) : (s.page p).state ≠ .free := fun free => by
  rw [Page.walked, free] at h
  exact nomatch h

/-- The clock as recovery loads it (R21). -/
theorem recoveryEnd_tsu (starting : s.ej.state = .starting) : (recoveryEnd s).tsu = s.delivered.tsu :=
  (recoveryEnd_ended starting).outside.tsu.trans (inNextEpoch_inNextEpoch _ _ _).tsu

/-- An OPEN page at the end of recovery (R129). -/
theorem recoveryEnd_opened (starting : s.ej.state = .starting) {p : Fin 64} (opened : (s.page p).state = .opened) :
    ∃ (n : Nat) (c : Nat → Chain), Walks (s.page p).slots.toList (BitVec.ofNat 32 (field ((s.page p).recordAt 0) 28 4)) n c
      ∧ (recoveryEnd s).page p = { s.page p with
          state := .closed, closeCause := some .recovery, count := n
          lastChain := some (if n = 0 then s.ej.chainFound.chain else c n)
          closeTime := some (if n = 0 then s.ej.chainFound.vt else recordVt ((s.page p).recordAt (n - 1)))
          slots := Vector.ofFn fun i : Fin 128 =>
            if i.val = n ∧ (s.page p).slots[i] ≠ .blank then .void else (s.page p).slots[i] } := by
  obtain ⟨c, last, walks⟩ := found_walks (s.page p)
  rw [seed_eq] at walks
  refine ⟨(s.page p).found.1, c, walks, ?_⟩
  rw [recoveryEnd_page starting (by rw [opened]; exact nofun), recoveredStore_opened opened, ← last, ← tornSlots_eq]
  rfl

/-! ## The journal's state -/

theorem running_recoveryEnd (starting : s.ej.state = .starting) (h : s.beginning.ej.Running) : (recoveryEnd s).ej.Running := by
  have begun := running_of_fed (fed_begun s) h
  rw [recoveryEnd_eq starting]
  refine running_writerDecide ?_
  rw [startNoticed_eq]
  exact begun

/-- The journal before the writer's first decision, where the report has cut no group. -/
theorem startNoticed_ej (h : s.begun.ej = s.beginning.ej) : s.begun.startNoticed.ej =
    { s.beginning.ej with eraseQueue := s.begun.startNoticed.ej.eraseQueue } := by
  rw [startNoticed_eq]
  simp only [h]

theorem begun_undeferred (h : ∀ g, (s.group g).state ≠ .deferred) : s.begun.ej = s.beginning.ej := by
  rw [begun_eq, journalReport_undeferred]
  intro g
  have same : s.beginning.auc = s.auc := (inNextEpoch_inNextEpoch _ _ _).auc
  rw [State.group, same]
  exact h g

section
variable (next : s.ej.lastEpoch s.ej.chainFound < Config.max32)
include next

theorem beginning_next : s.beginning = { s.delivered with
    ej := s.ej.walkedThrough.inEpoch (s.ej.lastEpoch s.ej.chainFound + 1) s.ej.chainFound s.ej.truncated
    sis := { s.sis with epoch := s.ej.lastEpoch s.ej.chainFound + 1 } } := by
  rw [State.beginning, inNextEpoch_next (by rwa [delivered_lastEpoch]), delivered_lastEpoch, delivered_ej, delivered_sis]

theorem beginning_judged : s.beginning.ej.state = s.ej.walkedThrough.judged := by rw [beginning_next next, Ej.inEpoch]

theorem beginning_state : s.beginning.ej.state =
    if 2 < s.ej.pagesIn .free then .normal else if 0 < s.ej.pagesIn .free then .tight else .stalled :=
  (beginning_judged next).trans (judged_recovered (by rw [Ej.walkedThrough]))

theorem beginning_running : s.beginning.ej.Running := by
  rw [Ej.Running, beginning_judged next]
  exact ⟨judged_ne_starting _, judged_ne_exhausted _⟩

end

section
variable (last : ¬ s.ej.lastEpoch s.ej.chainFound < Config.max32)
include last

theorem beginning_last : s.beginning = { s.delivered with ej := { s.ej.walkedThrough with state := .exhausted } } := by
  rw [State.beginning, inNextEpoch_last (by rwa [delivered_lastEpoch]), delivered_ej]

theorem begun_last : s.begun.ej = s.beginning.ej := by
  have exhausted : s.beginning.ej.state = .exhausted := by rw [beginning_last last]
  rw [begun_eq, journalReport, exhausted, journalReportWith_halted _ _ (.inr rfl)]

/-- An EXHAUSTED journal writes nothing (R132). -/
theorem recoveryEnd_last (starting : s.ej.state = .starting) : recoveryEnd s = s.begun.startNoticed := by
  rw [recoveryEnd_eq starting]
  refine if_neg fun h => ?_
  rw [Bool.and_eq_true, writerReady_iff, startNoticed_ej (begun_last last), beginning_last last] at h
  exact h.1.2.2 rfl

end

/-! ## The page opened for START (R119) -/

/-- The journal before the writer's first decision, of a sound store whose greatest serial is `top`. -/
structure Waiting (s v : State) (top : Nat) : Prop where
  openPage : v.ej.openPage = none
  writer : v.ej.writer = none
  state : v.ej.state = s.beginning.ej.state
  intake : v.ej.intake = s.beginning.ej.intake
  pages : v.ej.pages = s.ej.recoveredStore
  nextSerial : v.ej.nextSerial = top + 1

theorem waiting_startNoticed (sound : s.ej.Sound) (starting : s.ej.state = .starting) (same : s.begun.ej = s.beginning.ej) {top : Nat}
    (room : top < 4294967294) (greatest : s.ej.topSerial = top) : Waiting s s.begun.startNoticed top := by
  have begins := inNextEpoch_inNextEpoch s.delivered s.ej.chainFound s.ej.truncated
  have serial : s.ej.walkedThrough.nextSerial = top + 1 := by
    rw [Ej.walkedThrough, greatest]
    exact freeSucc_lt (limit := Config.max32) (by change _ < 4294967295; omega)
  have ej := startNoticed_ej same
  refine ⟨?_, ?_, ?_, ?_, ?_, ?_⟩ <;> rw [ej]
  · exact begins.openPage.trans (sound.laid.stopped (.inl starting))
  · exact begins.writer.trans (sound.fits.idle (.inl starting))
  · exact beginning_pages s
  · exact begins.nextSerial.trans serial

/-- The lowest FREE page opened for START. -/
structure OpenedFirst (s t : State) (p : Fin 64) (top : Nat) : Prop where
  nextSerial : t.ej.nextSerial = top + 2
  openPage : t.ej.openPage = some (p, 0)
  page : t.page p = { state := .opened, serial := some (top + 1) }
  state : t.ej.state = if 3 < s.ej.pagesIn .free then .normal else .tight
  writer : ∃ w, t.ej.writer = some w ∧ w.page = p ∧ w.source = .pageOpen ∧ w.record.kind = .pageOpen

theorem Waiting.opensFirst {v : State} {top : Nat} (h : Waiting s v top) (sound : s.ej.Sound)
    (next : s.ej.lastEpoch s.ej.chainFound < Config.max32) (room : top < 4294967294) {p : Fin 64} (free : (s.page p).state = .free)
    (lowest : ∀ q, q < p → (s.page q).state ≠ .free) : OpenedFirst s (writerDecide v) p top := by
  obtain ⟨running, live⟩ := beginning_running next
  rw [← h.state] at running live
  have same (q : Fin 64) : (v.ej.pages[q]).state = .free ↔ (s.page q).state = .free := by
    rw [h.pages]
    exact recoveredStore_state_iff s.ej (st := .free) nofun nofun q
  have blank : v.page p = {} := by
    rw [State.page, h.pages, recoveredStore_of_not_opened s.ej (fun x => nomatch x.symm.trans free)]
    exact sound.laid.free p free
  have started : v.ej.intake ≠ [] := by
    rw [h.intake, beginning_next next]
    exact nofun
  have count : v.ej.pagesIn .free = s.ej.pagesIn .free := pagesIn_congr same
  have state : (v.opening p).rejudged.state = if 3 < s.ej.pagesIn .free then .normal else .tight := by
    rw [rejudged_eq_of_running (e := v.opening p) running live, ← count, ← judged_opening ((same p).2 free)]
  rw [writerDecide_opens ((writerReady_iff _).2 ⟨h.writer, running, live⟩) ((mustWrite_iff _).2 (.inl started)) h.openPage
    (firstFree_lowest ((same p).2 free) fun q hq k => lowest q hq ((same q).1 k))]
  have took := took_openPage v p
  obtain ⟨openPage, page, writer⟩ := openPage_opened v p
  refine ⟨?_, openPage, ?_, took.state.trans state, _, writer, rfl, rfl, rfl⟩
  · rw [took.nextSerial, rejudged_stands]
    change freeSucc 1 Config.max32 v.ej.nextSerial = top + 2
    rw [h.nextSerial]
    exact freeSucc_lt (limit := Config.max32) (by change _ < 4294967295; omega)
  · rw [page, blank, h.nextSerial]
    rfl

end

end Sys2Proof.Machine
end

