-- ==== Sys2Proof/Proofs/RecoveryEnds.lean ====
section
/-!
PROOFS. Proofs/RecoveryEnds.lean: the end of recovery, settled (R129 to R132, R21, R79).
-/
namespace Sys2Proof.Machine

section
variable {s : State}

/-! ## START and the epoch -/

/-- START at the head of the intake, the epoch begun (R130, R131). -/
theorem recoveryEnd_next (starting : s.ej.state = .starting) (next : s.ej.lastEpoch s.ej.chainFound < Config.max32) :
    (recoveryEnd s).ej.epoch = s.ej.lastEpoch s.ej.chainFound + 1 ∧ (recoveryEnd s).ej.storedEpoch = s.ej.lastEpoch s.ej.chainFound + 1
      ∧ (recoveryEnd s).sis = { s.sis with epoch := s.ej.lastEpoch s.ej.chainFound + 1 }
      ∧ ∃ rest, (recoveryEnd s).ej.intake = startRecord { s.ej.walkedThrough with
            epoch := s.ej.lastEpoch s.ej.chainFound + 1, storedEpoch := s.ej.lastEpoch s.ej.chainFound + 1 }
            s.ej.chainFound s.ej.truncated :: rest ∧ s.ej.intake <+: rest := by
  have ended := recoveryEnd_ended starting
  have intake := ended.intake
  have sis := ended.outside.sis
  obtain ⟨epoch, stored⟩ := ended.outside.epoch
  rw [beginning_next next, Ej.inEpoch] at intake sis epoch stored
  obtain ⟨more, intake⟩ := intake
  exact ⟨epoch, stored, sis, s.ej.intake ++ more, intake.symm, List.prefix_append _ _⟩

/-- No epoch is left (R132). -/
theorem recoveryEnd_exhausted (starting : s.ej.state = .starting) (last : ¬ s.ej.lastEpoch s.ej.chainFound < Config.max32) :
    (recoveryEnd s).ej.state = .exhausted ∧ (recoveryEnd s).sis = s.sis ∧ (recoveryEnd s).ej.intake = s.ej.intake := by
  have sis := (recoveryEnd_ended starting).outside.sis
  have ej := startNoticed_ej (begun_last last)
  rw [beginning_last last] at sis ej
  rw [recoveryEnd_last last starting] at sis ⊢
  refine ⟨?_, sis.trans (delivered_sis s), ?_⟩ <;> rw [ej, Ej.walkedThrough]

theorem noticed_ofBeginning {t : State} {k : NoticeKind} {vt : Nat} {x : Subject} {d : List Byte}
    (h : Noticed s.beginning t k vt x d) : Noticed s t k vt x d := by
  have same : s.beginning.hli = s.hli := (inNextEpoch_inNextEpoch s.delivered s.ej.chainFound s.ej.truncated).hli
  exact h.sooner (by rw [same])

/-- START noticed where the report of the journal state has cut no group (R131). -/
theorem recoveryEnd_startNoticed (starting : s.ej.state = .starting) (same : s.begun.ej = s.beginning.ej) :
    Noticed s (recoveryEnd s) .start s.ej.chainFound.vt .nothing
      (be 1 s.ej.restartCause.code ++ be 4 s.beginning.ej.epoch ++ be 1 s.beginning.ej.state.code) := by
  have begins := inNextEpoch_inNextEpoch s.delivered s.ej.chainFound s.ej.truncated
  have noticed := recoveryEnd_noticed starting
  have now : s.beginning.now = s.ej.chainFound.vt := by
    rw [State.now, State.beginning, begins.tsu]
    rfl
  have cause : s.beginning.ej.restartCause = s.ej.restartCause := begins.restartCause
  rw [same, now, cause] at noticed
  exact noticed_ofBeginning noticed

/-! ## The register of the open page and the next serial -/

/-- Nothing is opened where no epoch or no FREE page is left (R119, R132). -/
theorem recoveryEnd_opensNone (sound : s.ej.Sound) (starting : s.ej.state = .starting)
    (undeferred : ∀ g, (s.group g).state ≠ .deferred) {top : Nat} (room : top < 4294967294) (greatest : s.ej.topSerial = top)
    (stops : ¬ s.ej.lastEpoch s.ej.chainFound < Config.max32 ∨ s.ej.pagesIn .free = 0) :
    (recoveryEnd s).ej.nextSerial = top + 1 ∧ (recoveryEnd s).ej.openPage = none
      ∧ (s.ej.lastEpoch s.ej.chainFound < Config.max32 → (recoveryEnd s).ej.state = .stalled ∧ (recoveryEnd s).ej.writer = none) := by
  obtain ⟨openPage, writer, state, -, pages, serial⟩ := waiting_startNoticed sound starting (begun_undeferred undeferred) room greatest
  by_cases next : s.ej.lastEpoch s.ej.chainFound < Config.max32
  · have empty := stops.resolve_left (not_not.2 next)
    have free : s.begun.startNoticed.ej.firstFree = none :=
      firstFree_none ((pagesIn_recovered pages (st := .free) nofun nofun).trans empty)
    rw [recoveryEnd_eq starting, writerDecide_waits openPage free]
    refine ⟨serial, openPage, fun _ => ⟨state.trans ?_, writer⟩⟩
    rw [beginning_state next, empty]
    rfl
  · rw [recoveryEnd_last next starting]
    exact ⟨serial, openPage, fun h => absurd h next⟩

end

/-- Settles O8: the page table, the chain end and the page counts are those of the recovered store; what is handed on after the epoch has
begun keeps them, and with no group DEFERRED nothing is handed on before the writer opens its page. -/
theorem recoveryEndBeginsEpoch : Obligations.RecoveryEndBeginsEpoch := by
  intro s live starting m vtAt follows leapOf walked serialOf pagesIn undeferred
  have ended := recoveryEnd_ended starting
  have begins := inNextEpoch_inNextEpoch s.delivered s.ej.chainFound s.ej.truncated
  have tsu := recoveryEnd_tsu starting
  have isWalked (p : Fin 64) : walked p ↔ (s.page p).walked = true := (walked_iff _).symm
  have page {p : Fin 64} (h : (s.page p).walked = true) : (recoveryEnd s).page p = s.ej.recoveredStore[p] :=
    recoveryEnd_page starting (walked_used h)
  have counts (st : PageState) : s.ej.pagesIn st = pagesIn st := Ej.pagesIn_eq s.ej st
  have epochs : s.ej.lastEpoch s.ej.chainFound = m s.ej.chainFound := rfl
  refine ⟨recoveryEnd s, s.ej.chainFound, whenLive_live s recoveryEnd live, fun none => ?_, fun some_ => ?_, fun p opened => ?_,
    fun p notOpen used => ?_, by rw [tsu]; rfl, by rw [tsu]; rfl, by rw [tsu]; rfl, by rw [tsu]; rfl, by rw [tsu]; rfl,
    by rw [tsu]; rfl, by rw [tsu]; rfl, ended.outside.rfe.trans begins.rfe, ended.outside.psm.trans begins.psm,
    ended.chain.trans begins.chain, fun none => ?_, fun i found room => ?_, ?_, ended.told, fun next => ?_, fun last => ?_,
    fun top store quiet room le reached => ?_⟩
  · refine chainFound_none fun p h => ?_
    rw [← page h]
    exact none p ((isWalked p).2 h)
  · obtain ⟨p, h, full⟩ := some_
    rw [isWalked] at h
    rw [page h] at full
    obtain ⟨q, walkedQ, fullQ, greatest, found⟩ := chainFound_some h full
    refine ⟨q, (isWalked q).2 walkedQ, by rwa [page walkedQ], fun o ho fullO => ?_, ?_⟩
    · rw [isWalked] at ho
      rw [page ho] at fullO
      exact greatest o ho fullO
    · have leaps : leapIn = leapOf := funext leapIn_eq
      rw [found, page_chainEnd_eq, page walkedQ, leaps]
      rfl
  · obtain ⟨n, c, ⟨start, short, each, stops⟩, closed⟩ := recoveryEnd_opened starting opened
    exact ⟨n, c, by simpa using short, start, each, stops, closed⟩
  · rw [recoveryEnd_page starting used, recoveredStore_of_not_opened s.ej notOpen]
    rfl
  · rw [ended.nextIndex, State.beginning, begins.nextIndex, delivered_ej, Ej.walkedThrough, none]
  · rw [ended.nextIndex, State.beginning, begins.nextIndex, delivered_ej, Ej.walkedThrough, found]
    exact freeSucc_lt (limit := Config.noIndex - 1) room
  · rw [ended.eraseQueue]
    refine List.filter_congr fun p _ => ?_
    rw [Bool.eq_iff_iff, beq_iff_eq, beq_iff_eq, beginning_page]
    exact recoveredStore_state_iff s.ej (st := .erasing) nofun nofun p
  · obtain ⟨epoch, stored, sis, rest, intake, kept⟩ := recoveryEnd_next starting next
    obtain ⟨running, notLast⟩ := running_recoveryEnd starting (beginning_running next)
    refine ⟨epoch, stored, sis, running, notLast, ⟨_, rest, intake, kept, rfl, rfl, rfl, s.ej.truncated, ?_, ?_⟩, fun quiet => ?_⟩
    · refine (truncated_iff s.ej).trans (exists_congr fun p => exists_congr fun i => and_congr_right fun opened => ?_)
      rw [recoveryEnd_page starting (p := p) (fun x => nomatch x.symm.trans opened)]
      rfl
    · rw [startRecord_body (e := s.ej) (by rw [Ej.walkedThrough])]
      simp only [counts]
      rfl
    · have noticed := recoveryEnd_startNoticed starting (begun_undeferred quiet)
      have epoch' : s.beginning.ej.epoch = m s.ej.chainFound + 1 := ended.outside.epoch.1.symm.trans epoch
      rw [beginning_state next, epoch', counts] at noticed
      exact noticed
  · have stop : ¬ s.ej.lastEpoch s.ej.chainFound < Config.max32 := Nat.not_lt.2 last
    obtain ⟨state, sis, intake⟩ := recoveryEnd_exhausted starting stop
    have noticed := recoveryEnd_startNoticed starting (begun_last stop)
    rw [beginning_last stop] at noticed
    exact ⟨state, sis, intake, noticed⟩
  · have sound := (storeSound_iff s).1 store
    have greatest := topSerial_eq le reached
    refine ⟨fun stops => ?_, fun p next free lowest => ?_⟩
    · exact recoveryEnd_opensNone sound starting quiet room greatest (stops.imp Nat.not_lt.2 (counts .free).trans)
    · have waits := waiting_startNoticed sound starting (begun_undeferred quiet) room greatest
      obtain ⟨nextSerial, openPage, opened, state, writer⟩ := waits.opensFirst sound next room free lowest
      rw [← recoveryEnd_eq starting] at nextSerial openPage opened state writer
      rw [counts] at state
      exact ⟨nextSerial, openPage, opened, state, writer⟩

end Sys2Proof.Machine
end
